-- ==== Sys2Proof/Word.lean ====
section
/-! DEFINITION. The word types of the Sudom B4 (spec/00_scope.md R5, spec/03_encoding.md R58). -/

namespace Sys2Proof

/-- A scalar register's value (R58). -/
abbrev Word := BitVec 64
/-- An address register's value, and every address (R58, R224). -/
abbrev Addr := BitVec 72
/-- A vector element, an accumulator element, an encoded slot (R36, R64). -/
abbrev W32 := BitVec 32
/-- One byte of memory. -/
abbrev Byte := BitVec 8
/-- A six-bit operand field of a slot (R64). -/
abbrev R6 := BitVec 6

end Sys2Proof
end

