-- ==== Sys2Proof/Config.lean ====
section
/-! DEFINITION. Free values: what the spec leaves open, as constants without a body, so that nothing can be proved of
their values (notes/assumptions 4, 7, 8, 9). -/

namespace Sys2Proof

/-- The value a special function would return where R131 gives only an error bound: function number, operand bits. -/
opaque Config.special : Nat → W32 → W32

/-- The n-th free word of the device, for values the spec does not state. -/
opaque Config.freeWord : Nat → BitVec 64

/-- SHAKE256 of a byte string (R351, R352), left uninterpreted. DESIGN CHOICE (safe; notes/assumptions 8). -/
opaque Config.shake256 : List Byte → List Byte

/-- The Falcon-1024 signature by a key of a byte string, and whether a signature of a digest is good under a public key (R351, R352), left
uninterpreted. DESIGN CHOICE (safe; notes/assumptions 9). -/
opaque Config.falconSign : Word → List Byte → List Byte
opaque Config.falconVerify : List Byte → List Byte → List Byte → Bool
/-- The public key of a key pair. -/
opaque Config.falconPublic : Word → List Byte

/-- What the module's flash holds: the stage-1 image; the further images in load order, 0 to 15 the core images (4 × die + core), 16 link
training, 17 memory training, each with its version and signature; the release key; the identity key's certificate (R351, R352). What a
device was made with is fixed for it. DESIGN CHOICE (safe; notes/assumptions 9). -/
opaque Config.stage1Image : List Byte
opaque Config.imageBytes : Nat → List Byte
opaque Config.imageVer : Nat → Nat
opaque Config.imageSig : Nat → List Byte
opaque Config.releaseKey : List Byte
opaque Config.identityCert : List Byte
/-- The one-time-programmable memory: the digests of the stage-1 image and of the release key, the anti-rollback counter (R351); and the
identity key (R352). -/
opaque Config.otpStage1 : List Byte
opaque Config.otpKey : List Byte
opaque Config.otpVersion : Nat
opaque Config.identityKey : Word

/-- The Almanac entries of the signed firmware image: die, core, slot (R337). -/
opaque Config.almanac : Nat → Nat → Nat → BitVec 16

end Sys2Proof
end

