-- ==== Sys2Proof/Syntax.lean ====
section
/-! DEFINITION. The instructions and device steps of the Sudom B4: one constructor of `Instr` per row of
spec/opcode_table.json, in the table's order, with the operand forms of R64-R71, R88, R120, R151, R187, R221, R223,
the packets of R323 and the mailbox requests of R341. -/

namespace Sys2Proof

/-- Guard extension (R70): the guards by predicate, mask and stage predicate. -/
structure GExt where
  pe : Bool
  pi : BitVec 3
  me : Bool
  mi : BitVec 3
  ge : Bool
  gi : BitVec 4
  deriving DecidableEq, Repr, Inhabited

/-- M of a scalar-class slot (R65). -/
structure SG where
  chk : Bool
  p : BitVec 3
  deriving DecidableEq, Repr, Inhabited

/-- M of a vector-class slot, with its guard extension when GX = 1 (R65, R69). -/
structure VG where
  sp : BitVec 2
  chk : Bool
  gx : Option GExt
  deriving DecidableEq, Repr, Inhabited

/-- M of a matrix-class slot (R65). -/
structure MG where
  gx : Option GExt
  deriving DecidableEq, Repr, Inhabited

/-- M of a copy-and-network slot and of a guard slot (R65, R221). -/
structure CG where
  gx : Option GExt
  p : BitVec 3
  deriving DecidableEq, Repr, Inhabited

/-- An immediate of n bits; `ext`: its high bits came from an immediate extension (R69, R88). -/
structure Imm (n : Nat) where
  v : BitVec n
  ext : Bool
  deriving DecidableEq, Repr, Inhabited

/-- The header word of a bundle (R66). -/
structure Hdr where
  pop : BitVec 8
  wd : BitVec 4
  we : Bool
  rot : Bool
  vck : Bool
  sck : Bool
  deriving DecidableEq, Repr, Inhabited

/-- Vector type code t (R78). -/
inductive VT where
  | f32 | bf16 | f16 | i32 | i16 | i8
  deriving DecidableEq, Repr, Inhabited

/-- Condition of `CMP` (R94). -/
inductive CmpC where
  | eq | ne | lt | le | ltu | leu
  deriving DecidableEq, Repr, Inhabited

/-- The forms of `MOV` (R93), by kind 0 to 9. -/
inductive MovK where
  | ss (d a : R6)
  | as (d : BitVec 4) (a : R6)
  | sa (d : R6) (a : BitVec 4)
  | aa (d a : BitVec 4)
  | hiAS (d : BitVec 4) (a : R6)
  | hiSA (d : R6) (a : BitVec 4)
  | ps (d : BitVec 3) (a : R6)
  | sp (d : R6) (a : BitVec 3)
  | gs (a : R6)
  | sg (d : R6)
  deriving DecidableEq, Repr, Inhabited

/-- Source of an ANDNF selector update (R104). -/
inductive FSrc where
  | all | any | reg (b : R6)
  deriving DecidableEq, Repr, Inhabited

/-- The forms of `VMOV` (R126), by kind 0 to 8. -/
inductive VMovK where
  | vv (d a : R6)
  | lvl0 (d : R6)
  | lvl1 (d : R6)
  | row (d : R6)
  | col (d : R6)
  | cr (d : R6)
  | vm (d : R6) (m : BitVec 3)
  | mv (m : BitVec 3) (a : R6)
  | mm (d a : BitVec 3)
  deriving DecidableEq, Repr, Inhabited

/-- The sources of `VBC` (R127), by kind 0 to 3. -/
inductive VBcK where
  | sreg (n : R6)
  | head (q : BitVec 3)
  | immHi (a : R6) (pl : BitVec 22)
  | immLo (a : R6) (pl : BitVec 22)
  deriving DecidableEq, Repr, Inhabited

/-- Distance or position of a rotate or broadcast (R132). -/
inductive Dist where
  | reg (b : R6)
  | imm (d : R6)
  deriving DecidableEq, Repr, Inhabited

/-- The forms of `VFLAG` (R143). -/
inductive VFlK where
  | clr | set | mask (m : BitVec 3) | notMask (m : BitVec 3)
  deriving DecidableEq, Repr, Inhabited

/-- The shadow record an `MLN` writes (R151, R155). -/
inductive NestRec where
  | level (l : BitVec 3) (ke : Bool) (k : BitVec 4)
  | header
  deriving DecidableEq, Repr, Inhabited

/-- One request of an asynchronous port to a parity group (R231): port class 0 matrix loaders to 4 remote arrivals,
age in cycles, data bank and index. -/
structure AReq where
  port : Nat
  age : Nat
  bank : Nat
  index : Nat
  deriving DecidableEq, Repr, Inhabited

/-- Device registers written without a row of their own (R290, R306, R340). -/
inductive DevReg where
  | errdev | mbdev | fbdev
  | errRix
  | sdctl (die : Nat) | sdva (die : Nat)
  | bretctl (a : Nat)
  | mboxReq (f : Nat) (byte : Nat) | mbdoor (f : Nat)
  deriving DecidableEq, Repr, Inhabited

/-- Every row of the opcode table, in its order. -/
inductive Instr where
  | bundleIssue (h : Hdr)
  | nop
  | add (g : SG) (d a b : R6)
  | sub (g : SG) (d a b : R6)
  | mul (g : SG) (d a b : R6)
  | mulh (g : SG) (d a b : R6)
  | div (g : SG) (d a b : R6)
  | rem (g : SG) (d a b : R6)
  | and (g : SG) (d a b : R6)
  | or (g : SG) (d a b : R6)
  | xor (g : SG) (d a b : R6)
  | andn (g : SG) (d a b : R6)
  | shl (g : SG) (d a b : R6)
  | shr (g : SG) (d a b : R6)
  | sar (g : SG) (d a b : R6)
  | rol (g : SG) (d a b : R6)
  | min (g : SG) (d a b : R6)
  | max (g : SG) (d a b : R6)
  | clz (g : SG) (d a : R6)
  | popc (g : SG) (d a : R6)
  | addImm (g : SG) (d a : R6) (i : Imm 28)
  | subImm (g : SG) (d a : R6) (i : Imm 28)
  | mulImm (g : SG) (d a : R6) (i : Imm 28)
  | mulhImm (g : SG) (d a : R6) (i : Imm 28)
  | divImm (g : SG) (d a : R6) (i : Imm 28)
  | remImm (g : SG) (d a : R6) (i : Imm 28)
  | andImm (g : SG) (d a : R6) (i : Imm 28)
  | orImm (g : SG) (d a : R6) (i : Imm 28)
  | xorImm (g : SG) (d a : R6) (i : Imm 28)
  | andnImm (g : SG) (d a : R6) (i : Imm 28)
  | shlImm (g : SG) (d a : R6) (i : Imm 28)
  | shrImm (g : SG) (d a : R6) (i : Imm 28)
  | sarImm (g : SG) (d a : R6) (i : Imm 28)
  | rolImm (g : SG) (d a : R6) (i : Imm 28)
  | minImm (g : SG) (d a : R6) (i : Imm 28)
  | maxImm (g : SG) (d a : R6) (i : Imm 28)
  | li (g : SG) (d : R6) (i : Imm 28)
  | liQ1 (g : SG) (d : R6) (i : Imm 28)
  | liQ2 (g : SG) (d : R6) (i : Imm 28)
  | mov (g : SG) (k : MovK)
  | sel (g : SG) (d a b : R6)
  | cmp (g : SG) (c : CmpC) (d : BitVec 3) (a b : R6)
  | cmpImm (g : SG) (c : CmpC) (d : BitVec 3) (a : R6) (i : Imm 28)
  | fadd (g : SG) (dbl : Bool) (d a b : R6)
  | fsub (g : SG) (dbl : Bool) (d a b : R6)
  | fmul (g : SG) (dbl : Bool) (d a b : R6)
  | ffma (g : SG) (dbl : Bool) (d a b : R6)
  | fdiv (g : SG) (dbl : Bool) (d a b : R6)
  | fsqrt (g : SG) (dbl : Bool) (d a : R6)
  | fcvt (g : SG) (code : BitVec 4) (d a : R6)
  | fcmp (g : SG) (dbl : Bool) (cond : BitVec 3) (d : BitVec 3) (a b : R6)
  | adda (g : SG) (d a : BitVec 4) (b : R6)
  | lea (g : SG) (d a : BitVec 4) (b : R6) (sh : R6) (disp : BitVec 16)
  | ld (g : SG) (w : BitVec 2) (d : R6) (a : BitVec 4) (off : Imm 28)
  | st (g : SG) (w : BitVec 2) (d : R6) (a : BitVec 4) (off : Imm 28)
  | br (g : SG) (disp : Imm 40)
  | brp (g : SG) (n : Bool) (p : BitVec 3) (disp : Imm 34)
  | brf (g : SG) (bit : R6) (n : Bool) (reg : BitVec 2) (disp : Imm 28)
  | call (g : SG) (d : R6) (disp : Imm 34)
  | ret (g : SG) (a : R6)
  | jmpi (g : SG) (a : R6) (disp : Imm 28)
  | loop (g : SG) (disp : Imm 40)
  | rds (g : SG) (d : R6) (n : R6)
  | wrs (g : SG) (n : R6) (a : R6)
  | enq (g : SG) (a : R6)
  | deq (g : SG) (d : R6) (q : BitVec 3)
  | exit (g : SG) (succ : Option R6)
  | uret (g : SG)
  | twaitTile (g : SG) (a : R6)
  | twaitLb (g : SG) (a : R6)
  | twaitAll (g : SG)
  | xselSet (g : SG) (p : BitVec 2) (a : R6)
  | xselAndnf (g : SG) (p : BitVec 2) (src : FSrc)
  | yselSet (g : SG) (p : BitVec 2) (a : R6)
  | yselAndnf (g : SG) (p : BitVec 2) (src : FSrc)
  | vadd (g : VG) (t : VT) (d a b : R6)
  | vsub (g : VG) (t : VT) (d a b : R6)
  | vmul (g : VG) (t : VT) (d a b : R6)
  | vmin (g : VG) (t : VT) (d a b : R6)
  | vmax (g : VG) (t : VT) (d a b : R6)
  | vabs (g : VG) (t : VT) (d a : R6)
  | vneg (g : VG) (t : VT) (d a : R6)
  | vfma (g : VG) (t : VT) (d a b : R6)
  | vfms (g : VG) (t : VT) (d a b : R6)
  | vshl (g : VG) (t : VT) (d a b : R6)
  | vshr (g : VG) (t : VT) (d a b : R6)
  | vsar (g : VG) (t : VT) (d a b : R6)
  | vand (g : VG) (d a b : R6)
  | vor (g : VG) (d a b : R6)
  | vxor (g : VG) (d a b : R6)
  | vnot (g : VG) (d a : R6)
  | vcmp (g : VG) (t : VT) (cond : BitVec 3) (d : BitVec 3) (a b : R6)
  | vsel (g : VG) (d a b : R6) (m : BitVec 3)
  | vmov (g : VG) (k : VMovK)
  | vbc (g : VG) (d : R6) (k : VBcK)
  | vcvt (g : VG) (code : BitVec 4) (d a : R6)
  | vnrw (g : VG) (d vs ve : R6) (z nf : Bool) (lane fmt : BitVec 2)
  | vwid (g : VG) (code : BitVec 4) (lane : BitVec 2) (d a : R6)
  | vrcp (g : VG) (d a : R6)
  | vrsq (g : VG) (d a : R6)
  | vexp2 (g : VG) (d a : R6)
  | vlog2 (g : VG) (d a : R6)
  | vsin (g : VG) (d a : R6)
  | vcos (g : VG) (d a : R6)
  | vtanh (g : VG) (d a : R6)
  | vrotx (g : VG) (d a : R6) (x : Dist)
  | vbcx (g : VG) (d a : R6) (x : Dist)
  | vredx (g : VG) (op : BitVec 3) (t : VT) (d a : R6) (push : Option R6)
  | vscanx (g : VG) (op : BitVec 3) (t : VT) (d a : R6)
  | vroty (g : VG) (d a : R6) (x : Dist)
  | vbcy (g : VG) (d a : R6) (x : Dist)
  | vredy (g : VG) (op : BitVec 3) (t : VT) (d a : R6) (push : Option R6)
  | vscany (g : VG) (op : BitVec 3) (t : VT) (d a : R6)
  | vcrw (g : VG) (a : R6)
  | vcrn (g : VG) (d : R6) (wrap : Bool)
  | vcrs (g : VG) (d : R6) (wrap : Bool)
  | vcre (g : VG) (d : R6) (wrap : Bool)
  | vcrwN (g : VG) (d : R6) (wrap : Bool)
  | vshuf (g : VG) (d a b : R6) (e : R6)
  | shpld (g : VG) (e : R6) (a : BitVec 4) (n : R6)
  | shpsw (g : VG)
  | vflag (g : VG) (k : VFlK)
  | vld (g : VG) (d : R6) (a : BitVec 4) (off : Imm 28)
  | vst (g : VG) (s : R6) (a : BitVec 4) (off : Imm 28)
  | vldv (g : VG) (d : R6) (a : BitVec 4) (off : Imm 28)
  | vrdacc (g : VG) (d : R6) (acc : BitVec 3) (j : BitVec 5)
  | vwracc (g : VG) (acc : BitVec 3) (s : R6) (j : BitVec 5)
  | mln (g : MG) (r : NestRec) (a : BitVec 4)
  | mlnK (g : MG) (k : BitVec 4) (a : BitVec 4)
  | mgoIp (g : MG) (ui : Bool)
  | mgoOp (g : MG) (ui : Bool)
  | mgoRw (g : MG) (ui : Bool)
  | mms (g : MG) (a : BitVec 4)
  | mwt (g : MG) (a : BitVec 4)
  | mswp (g : MG)
  | mz (g : MG) (acc : BitVec 3)
  | mst (g : MG) (acc res : BitVec 3) (a : BitVec 4) (ui ef : Bool) (td : BitVec 8)
  | mla (g : MG) (acc : BitVec 3) (a : BitVec 4) (td : BitVec 8)
  | mwait (g : MG)
  | mwaitWt (g : MG)
  | mstat (g : MG) (d : R6)
  | mstatClr (g : MG) (d : R6)
  | matrixCommandStart (a : Nat) (seq : BitVec 16)
  | tileStep (a : Nat)
  | matrixCommandComplete (a : Nat) (seq : BitVec 16)
  | mmsArrival (a : Nat) (seq : BitVec 16)
  | holdExpiry (quad : Nat)
  | stackStart (quad : Nat) (stk : Nat)
  | stackWaitExpiry (quad : Nat) (stk : Nat)
  | stackComplete (quad : Nat) (stk : Nat)
  | cpy (g : CG) (a : BitVec 4)
  | cpyg (g : CG) (a : BitVec 4)
  | cpys (g : CG) (a : BitVec 4)
  | cpym (g : CG) (a : BitVec 4)
  | lblk (g : CG) (d : R6) (a : BitVec 4) (n : R6)
  | lblkRel (g : CG) (b : R6)
  | cbcfg (g : CG) (cb : BitVec 4) (a : BitVec 4)
  | cbw (g : CG) (wd : BitVec 4) (kind : Bool) (cb : BitVec 4) (n : R6)
  | cbadvP (g : CG) (cb : BitVec 4) (n : R6)
  | cbadvC (g : CG) (cb : BitVec 4) (n : R6)
  | tdset (g : CG) (td : BitVec 8) (a : BitVec 4)
  | tdget (g : CG) (td : BitVec 8) (a : BitVec 4)
  | townRel (g : CG) (a : R6)
  | townClm (g : CG) (a : R6)
  | tcfg (g : CG) (a : R6)
  | ldwWf (g : CG) (d : R6) (a : BitVec 4) (off : Imm 28)
  | nrd (g : CG) (l r : BitVec 4) (n : R6)
  | nwr (g : CG) (l r : BitVec 4) (n : R6)
  | nrdx (g : CG) (a : BitVec 4)
  | nsadd (g : CG) (a : BitVec 4)
  | nbin (g : CG) (a : BitVec 4)
  | natomAdd (g : CG) (w : Bool) (scope : BitVec 3) (r : Bool) (head : BitVec 2) (a : BitVec 4) (b : R6)
  | natomMin (g : CG) (w : Bool) (scope : BitVec 3) (r : Bool) (head : BitVec 2) (a : BitVec 4) (b : R6)
  | natomMax (g : CG) (w : Bool) (scope : BitVec 3) (r : Bool) (head : BitVec 2) (a : BitVec 4) (b : R6)
  | natomCas (g : CG) (w : Bool) (scope : BitVec 3) (r : Bool) (head : BitVec 2) (a : BitVec 4) (b : R6)
  | natomXchg (g : CG) (w : Bool) (scope : BitVec 3) (r : Bool) (head : BitVec 2) (a : BitVec 4) (b : R6)
  | natomAnd (g : CG) (w : Bool) (scope : BitVec 3) (r : Bool) (head : BitVec 2) (a : BitVec 4) (b : R6)
  | natomOr (g : CG) (w : Bool) (scope : BitVec 3) (r : Bool) (head : BitVec 2) (a : BitVec 4) (b : R6)
  | nred (g : CG) (op : BitVec 3) (t : VT) (a : BitVec 4)
  | nmcst (g : CG) (ord : Bool) (a : BitVec 4)
  | ndrain (g : CG) (scope post : BitVec 3)
  | eqx (g : CG)
  | gbar (g : CG) (level post : BitVec 3)
  | copyCommandComplete (a : Nat) (seq : BitVec 16)
  | remoteAccessPerform (a : Nat) (seq : BitVec 16) (unit : Nat)
  | eqxArrival (a : Nat) (seq : BitVec 16)
  | gbarArrival (a : Nat) (seq : BitVec 16)
  | multicastRequestArrival (a : Nat) (seq : BitVec 16)
  | multicastWindowExpiry (die : Nat) (grp : Nat)
  | cacheFillComplete (line : Nat)
  | vgl (g : CG) (a : R6)
  | sgl (g : CG) (a : R6)
  | gla (g : CG) (a : BitVec 4)
  | glb (g : CG) (p : BitVec 3)
  | csrrd (d : R6) (csr : R6)
  | csrwr (csr : R6) (a : R6)
  | tlbinv (a : R6) (kind : R6)
  | fbfl
  | ctxsv (a : BitVec 4)
  | ctxld (a : BitVec 4)
  | halt
  | ecall (n : BitVec 12)
  | xret
  | userInterruptAccept (a : Nat)
  | taskDispatch (part : Nat)
  | sliceExpiry (a : Nat)
  | preemption (a : Nat)
  | exitComplete (a : Nat)
  | taskKill (a : Nat)
  | taskPark (a : Nat)
  | quadPowerGate (quad : Nat)
  | quadWakeComplete (quad : Nat)
  | walkEnd (die : Nat) (k : Nat) (reread : Bool)
  | shootdownStart (die : Nat) (dies : BitVec 4) (kind : BitVec 2) (ctx : BitVec 16) (vpn : BitVec 56)
  | shootdownAck (die : Nat) (a : Nat)
  | asyncReadGrant (a : Nat) (grp : Nat) (reqs : List AReq)
  | puqRetirement (a : Nat) (grp : Nat)
  | staleRebuild (a : Nat) (grp : Nat)
  | patrolScrub (a : Nat) (grp : Nat)
  | scrubTimeout (a : Nat) (grp : Nat)
  | eccWriteback (key : Nat)
  | bankRetire (a : Nat) (bank : BitVec 6)
  | groupRetire (a : Nat)
  | queueServiceSlot (die core pos : Nat)
  | nopPacket (q : Nat)
  | launch (q : Nat) (record : Addr)
  | write (q : Nat) (addr : Addr) (words : List Word)
  | signal (q : Nat) (addr : Addr) (op : Byte) (value : Word)
  | writesig (q : Nat) (addr : Addr) (word : Word) (sig : Addr) (op : Byte) (value : Word)
  | wait (q : Nat) (addr : Addr) (cond : Byte) (value mask : Word)
  | ffence (q : Nat)
  | barrier (q : Nat)
  | copy (q : Nat) (src dst : Addr) (len : W32)
  | timestamp (q : Nat) (addr : Addr) (tag : W32)
  | replay (q : Nat) (record : Addr) (npass : Byte) (rrec : Addr)
  | replayPassStart (part : Nat)
  | packetComplete (q : Nat) (index : Word)
  | tailWrite (q : Nat) (value : Word)
  | doorbell (f : Nat) (q : Nat) (value : Word)
  | faultPollSlot (die : Nat)
  | monitorSlot (die : Nat) (temps volts : List Nat) (power : Nat)
  | mailboxSlot (part : Nat)
  | regq (part : Nat) (q : Nat) (desc : Addr) (die core pos : Nat)
  | destroyq (part : Nat) (q : Nat)
  | recoverq (part : Nat) (q : Nat) (mode : Nat)
  | quote (part : Nat) (nonce : List Byte) (dest : Addr)
  | partcfg (part : Nat) (dies : BitVec 8) (bar2 : List Nat) (images : List (List W32)) (svecs shares : List Nat)
  | partreset (part : Nat)
  | partparam (part : Nat) (addr : Addr)
  | quadpol (part : Nat) (die quad : Nat) (xctx men : Bool) (qcap : Nat)
  | ctxset (part : Nat) (ctx : BitVec 16) (valid : Bool) (base limit off : BitVec 56) (tlbcfg : Word)
  | counters (part : Nat) (dest : Addr)
  | shoot (part : Nat) (dies : BitVec 4) (kind : BitVec 2) (ctx : BitVec 16) (vpn : BitVec 56)
  | registerBlockAccess (dev f : Nat) (isWrite : Bool) (off : Nat) (value : Word)
  | hostAtomicop (f : Nat) (off : Nat) (op : Byte) (x y : Word)
  | registerWrite (r : DevReg) (value : Word)
  | flitReplay (port : Nat) (ch : Nat) (good : Bool)
  | linkRetrain (port : Nat) (good : Bool)
  | closRetransmit (key : Nat) (attempts : Nat)
  | expanderFailure (die : Nat)
  | deviceReset (intact : Bool)
  | dieChecksComplete (die : Nat) (good : Bool)
  | hostBar2Write (f : Nat) (off : Nat) (bytes : List Byte)
  deriving DecidableEq, Repr, Inhabited

end Sys2Proof
end

