-- ==== Sys2Proof/Decode.lean ====
section
/-! DEFINITION. Decoding of slots, headers and extension slots, and after it the encoder written from the same
tables: the slot format R64, the header R66, extensions R69-R71, the opcode map R77-R79, and the field tables of
R88, R120, R151, R187, R221 and R223. -/

namespace Sys2Proof

/-- Why a word is not an instruction: `illop` raises ILLOP (R59, R79); `bundle` raises BUNDLE (R69). -/
inductive DecodeError where
  | illop
  | bundle
  deriving DecidableEq, Repr

/-- Classes of opcodes (R65, R74, R77). -/
inductive Cls where
  | header | nop | scalar | vector | matrix | copy | guard | system | ext
  deriving DecidableEq, Repr

/-- A slot taken apart: its fields, its guard extension payload and its immediate extension payload (R64, R69). -/
structure Raw where
  op : BitVec 9
  d : R6
  a : R6
  b : R6
  m : BitVec 4
  gx : Option (BitVec 22)
  pl : Option (BitVec 22)
  deriving DecidableEq, Repr

/-- Whether an immediate extension may, must or may not follow (R69 rule 3). -/
inductive ExtRule where
  | none | opt | req
  deriving DecidableEq, Repr

/-! ## Fields of a word -/

def wS (w : W32) : Bool := w.getLsbD 31
def wOp (w : W32) : BitVec 9 := w.extractLsb' 22 9
def wD (w : W32) : R6 := w.extractLsb' 16 6
def wA (w : W32) : R6 := w.extractLsb' 10 6
def wB (w : W32) : R6 := w.extractLsb' 4 6
def wM (w : W32) : BitVec 4 := w.extractLsb' 0 4
def wPl (w : W32) : BitVec 22 := w.extractLsb' 0 22

/-- The opcode of EXT (R69). -/
def opExt : BitVec 9 := 0x1FF#9

/-- The class of an opcode, `none` where R77 does not assign it (R79). -/
def clsOf (op : BitVec 9) : Option Cls :=
  let n := op.toNat
  if n = 0 then some .header
  else if n = 1 then some .nop
  else if n ≤ 0x05D then some .scalar
  else if n < 0x080 then none
  else if n ≤ 0x105 then
    if n ≤ 0x0B5 then (if n % 8 ≤ 5 then some .vector else none)
    else if n < 0x0B8 then none
    else if n ≤ 0x0BD then some .vector
    else if n < 0x0C0 then none
    else if n ≤ 0x0CC then some .vector
    else if n < 0x0D0 then none
    else if n ≤ 0x0D5 then some .vector
    else if n < 0x0D8 then none
    else if n ≤ 0x0DD then some .vector
    else if n < 0x0E0 then none
    else if n ≤ 0x0E6 then some .vector
    else if n < 0x0E8 then none
    else if n ≤ 0x0F4 then some .vector
    else if n < 0x0F8 then none
    else if n ≤ 0x0FB then some .vector
    else if n < 0x100 then none
    else if n ≤ 0x102 then some .vector
    else if n = 0x103 then none
    else some .vector
  else if n < 0x140 then none
  else if n ≤ 0x14B then some .matrix
  else if n < 0x180 then none
  else if n ≤ 0x19E then some .copy
  else if n < 0x1C0 then none
  else if n ≤ 0x1C3 then some .guard
  else if n < 0x1E0 then none
  else if n ≤ 0x1E8 then some .system
  else if n = 0x1FF then some .ext
  else none

/-- The immediate-extension rule of an opcode; `VBC` depends on its kind (R88, R120, R151, R187). -/
def extRule (op : BitVec 9) (b : R6) : ExtRule :=
  let n := op.toNat
  if n = 0x014 ∨ (0x02E ≤ n ∧ n ≤ 0x039) ∨ n = 0x03B ∨ n = 0x03C ∨ (0x048 ≤ n ∧ n ≤ 0x05D) then .opt
  else if n = 0x02D then .req
  else if n = 0x0D8 ∨ n = 0x0DC ∨ n = 0x0F8 then .req
  else if n = 0x0DA then (if b.getLsbD 5 then .req else .none)
  else if n = 0x0E8 ∨ n = 0x0E9 ∨ n = 0x0EA ∨ n = 0x0EC ∨ n = 0x0ED ∨ n = 0x0EE then .opt
  else if 0x100 ≤ n ∧ n ≤ 0x102 then .opt
  else if n = 0x148 ∨ n = 0x149 ∨ n = 0x189 ∨ n = 0x18A then .req
  else if n = 0x18D then .opt
  else .none

/-- GX of a slot's M, by class (R65, R221). -/
def gxBit (c : Cls) (m : BitVec 4) : Bool :=
  match c with
  | .vector | .matrix => m.getLsbD 0
  | .copy | .guard => m.getLsbD 3
  | _ => false

/-! ## Guards and immediates -/

/-- A guard extension's payload (R70); bits [8:0] are reserved. -/
def gextOf (p : BitVec 22) : Option GExt :=
  if p.extractLsb' 0 9 = 0#9 then
    some ⟨p.getLsbD 21, p.extractLsb' 18 3, p.getLsbD 17, p.extractLsb' 14 3, p.getLsbD 13, p.extractLsb' 9 4⟩
  else none

def gextTo (g : GExt) : BitVec 22 :=
  BitVec.ofBool g.pe ++ g.pi ++ BitVec.ofBool g.me ++ g.mi ++ BitVec.ofBool g.ge ++ g.gi ++ 0#9

def sgOf (m : BitVec 4) : SG := ⟨m.getLsbD 3, m.extractLsb' 0 3⟩
def sgTo (g : SG) : BitVec 4 := BitVec.ofBool g.chk ++ g.p

/-- An optional guard extension, parsed (R70). -/
def gxOf (o : Option (BitVec 22)) : Option (Option GExt) :=
  match o with
  | none => some none
  | some p => (gextOf p).map some

def vgOf (m : BitVec 4) (o : Option (BitVec 22)) : Option VG :=
  (gxOf o).map fun gx => ⟨m.extractLsb' 2 2, m.getLsbD 1, gx⟩
def vgTo (g : VG) : BitVec 4 := g.sp ++ BitVec.ofBool g.chk ++ BitVec.ofBool g.gx.isSome

/-- Matrix class: M[3:1] must be 0 (R65) and ME = 1 is illegal (R70). -/
def mgOf (m : BitVec 4) (o : Option (BitVec 22)) : Option MG :=
  if m.extractLsb' 1 3 = 0#3 then
    match gxOf o with
    | some (some g) => if g.me then none else some ⟨some g⟩
    | some none => some ⟨none⟩
    | none => none
  else none
def mgTo (g : MG) : BitVec 4 := 0#3 ++ BitVec.ofBool g.gx.isSome

/-- Copy and guard classes: PE and ME must be 0 in a guard extension (R70). -/
def cgOf (m : BitVec 4) (o : Option (BitVec 22)) : Option CG :=
  match gxOf o with
  | some (some g) => if g.me || g.pe then none else some ⟨some g, m.extractLsb' 0 3⟩
  | some none => some ⟨none, m.extractLsb' 0 3⟩
  | none => none
def cgTo (g : CG) : BitVec 4 := BitVec.ofBool g.gx.isSome ++ g.p

/-- Immediate of 28 bits: B, and 22 more from an extension (R88). -/
def imm28 (r : Raw) : Imm 28 :=
  match r.pl with
  | none => ⟨r.b.signExtend 28, false⟩
  | some p => ⟨p ++ r.b, true⟩
/-- Displacement of 34 bits: A and B, and 22 more (R88). -/
def imm34 (r : Raw) : Imm 34 :=
  match r.pl with
  | none => ⟨(r.a ++ r.b).signExtend 34, false⟩
  | some p => ⟨p ++ (r.a ++ r.b), true⟩
/-- Displacement of 40 bits: D, A and B, and 22 more (R88). -/
def imm40 (r : Raw) : Imm 40 :=
  match r.pl with
  | none => ⟨(r.d ++ (r.a ++ r.b)).signExtend 40, false⟩
  | some p => ⟨p ++ (r.d ++ (r.a ++ r.b)), true⟩

/-- A six-bit field that must hold a value below 16. -/
def f4 (x : R6) : Option (BitVec 4) := if x.extractLsb' 4 2 = 0#2 then some (x.extractLsb' 0 4) else none
/-- A six-bit field that must hold a value below 8. -/
def f3 (x : R6) : Option (BitVec 3) := if x.extractLsb' 3 3 = 0#3 then some (x.extractLsb' 0 3) else none
/-- A six-bit field that must hold a value below 32. -/
def f5 (x : R6) : Option (BitVec 5) := if x.getLsbD 5 then none else some (x.extractLsb' 0 5)
/-- A selector pair, 1 to 3 (R59, R104). -/
def fPair (x : R6) : Option (BitVec 2) :=
  if x.extractLsb' 2 4 = 0#4 ∧ x ≠ 0#6 then some (x.extractLsb' 0 2) else none
/-- A field that must be zero: the value passed through when it is (R79). -/
def zero (x : R6) {α : Type} (v : Option α) : Option α := if x = 0#6 then v else none

def to6 {n : Nat} (x : BitVec n) : R6 := x.setWidth 6

def vtOf (n : Nat) : Option VT :=
  match n with
  | 0 => some .f32 | 1 => some .bf16 | 2 => some .f16 | 3 => some .i32 | 4 => some .i16 | 5 => some .i8
  | _ => none
def vtTo (t : VT) : Nat :=
  match t with
  | .f32 => 0 | .bf16 => 1 | .f16 => 2 | .i32 => 3 | .i16 => 4 | .i8 => 5
def VT.isFloat (t : VT) : Bool :=
  match t with
  | .f32 | .bf16 | .f16 => true
  | _ => false

def cmpOf (n : Nat) : CmpC :=
  match n with
  | 0 => .eq | 1 => .ne | 2 => .lt | 3 => .le | 4 => .ltu | _ => .leu
def cmpTo (c : CmpC) : Nat :=
  match c with
  | .eq => 0 | .ne => 1 | .lt => 2 | .le => 3 | .ltu => 4 | .leu => 5

/-- The special registers that `RDS` may name (R61). -/
def spListed (n : R6) : Bool := n.toNat ≤ 14 || (16 ≤ n.toNat && n.toNat ≤ 31)
/-- The special registers that `WRS` may name (R61). -/
def spWritable (n : R6) : Bool :=
  n.toNat == 3 || n.toNat == 4 || n.toNat == 5 || n.toNat == 9 || n.toNat == 10

/-- The op and type of a reduction or scan are legal (R133). -/
def redOk (op : BitVec 3) (t : VT) : Bool :=
  op.toNat ≤ 2 || (op.toNat ≤ 5 && t == .i32)

/-! ## Bodies by class -/

def movOf (d a b : R6) : Option MovK :=
  match b.toNat with
  | 0 => some (.ss d a)
  | 1 => (f4 d).map fun d => .as d a
  | 2 => (f4 a).map fun a => .sa d a
  | 3 => (f4 d).bind fun d => (f4 a).map fun a => .aa d a
  | 4 => (f4 d).map fun d => .hiAS d a
  | 5 => (f4 a).map fun a => .hiSA d a
  | 6 => (f3 d).map fun d => .ps d a
  | 7 => (f3 a).map fun a => .sp d a
  | 8 => zero d (some (.gs a))
  | 9 => zero a (some (.sg d))
  | _ => none

def fsrcOf (a b : R6) : Option FSrc :=
  match a.toNat with
  | 0 => zero b (some .all)
  | 1 => zero b (some .any)
  | 2 => some (.reg b)
  | _ => none

/-- Whether a check copy of a scalar opcode is allowed: its only effects are a write of an s, a or p register and
`fpcsr` flags (R220). -/
def scalarDup (n : Nat) (b : R6) : Bool :=
  n ≤ 0x014 || (n == 0x015 && b.toNat != 8) || (0x016 ≤ n && n ≤ 0x031) || n == 0x03D || n == 0x040 || (0x048 ≤ n && n ≤ 0x05D)

def scalarBody (g : SG) (r : Raw) : Option Instr :=
  let d := r.d
  let a := r.a
  let b := r.b
  match r.op.toNat with
  | 0x002 => some (.add g d a b)
  | 0x003 => some (.sub g d a b)
  | 0x004 => some (.mul g d a b)
  | 0x005 => some (.mulh g d a b)
  | 0x006 => some (.div g d a b)
  | 0x007 => some (.rem g d a b)
  | 0x008 => some (.and g d a b)
  | 0x009 => some (.or g d a b)
  | 0x00A => some (.xor g d a b)
  | 0x00B => some (.andn g d a b)
  | 0x00C => some (.shl g d a b)
  | 0x00D => some (.shr g d a b)
  | 0x00E => some (.sar g d a b)
  | 0x00F => some (.rol g d a b)
  | 0x010 => some (.min g d a b)
  | 0x011 => some (.max g d a b)
  | 0x012 => zero b (some (.clz g d a))
  | 0x013 => zero b (some (.popc g d a))
  | 0x014 =>
    if a.extractLsb' 0 4 = 0#4 then
      match (a.extractLsb' 4 2).toNat with
      | 0 => some (.li g d (imm28 r))
      | 1 => some (.liQ1 g d (imm28 r))
      | 2 => if (imm28 r).v.extractLsb' 8 20 = 0#20 then some (.liQ2 g d (imm28 r)) else none
      | _ => none
    else none
  | 0x015 => (movOf d a b).map (.mov g)
  | 0x016 => some (.sel g d a b)
  | 0x017 => (f3 d).map fun d => .cmp g .eq d a b
  | 0x018 => (f3 d).map fun d => .cmp g .ne d a b
  | 0x019 => (f3 d).map fun d => .cmp g .lt d a b
  | 0x01A => (f3 d).map fun d => .cmp g .le d a b
  | 0x01B => (f3 d).map fun d => .cmp g .ltu d a b
  | 0x01C => (f3 d).map fun d => .cmp g .leu d a b
  | 0x01D => some (.fadd g true d a b)
  | 0x01E => some (.fsub g true d a b)
  | 0x01F => some (.fmul g true d a b)
  | 0x020 => some (.ffma g true d a b)
  | 0x021 => some (.fdiv g true d a b)
  | 0x022 => zero b (some (.fsqrt g true d a))
  | 0x023 => some (.fadd g false d a b)
  | 0x024 => some (.fsub g false d a b)
  | 0x025 => some (.fmul g false d a b)
  | 0x026 => some (.ffma g false d a b)
  | 0x027 => some (.fdiv g false d a b)
  | 0x028 => zero b (some (.fsqrt g false d a))
  | 0x029 => (f4 b).map fun c => .fcvt g c d a
  | 0x02A => some (.fcmp g true (d.extractLsb' 3 3) (d.extractLsb' 0 3) a b)
  | 0x02B => some (.fcmp g false (d.extractLsb' 3 3) (d.extractLsb' 0 3) a b)
  | 0x02C => (f4 d).bind fun d => (f4 a).map fun a => .adda g d a b
  | 0x02D => (f4 d).bind fun d => (f4 a).bind fun a => r.pl.map fun p =>
      .lea g d a b (p.extractLsb' 16 6) (p.extractLsb' 0 16)
  | 0x02E => (f4 a).map fun a => .ld g 0#2 d a (imm28 r)
  | 0x02F => (f4 a).map fun a => .ld g 1#2 d a (imm28 r)
  | 0x030 => (f4 a).map fun a => .ld g 2#2 d a (imm28 r)
  | 0x031 => (f4 a).map fun a => .ld g 3#2 d a (imm28 r)
  | 0x032 => (f4 a).map fun a => .st g 0#2 d a (imm28 r)
  | 0x033 => (f4 a).map fun a => .st g 1#2 d a (imm28 r)
  | 0x034 => (f4 a).map fun a => .st g 2#2 d a (imm28 r)
  | 0x035 => (f4 a).map fun a => .st g 3#2 d a (imm28 r)
  | 0x036 => some (.br g (imm40 r))
  | 0x037 => if d.extractLsb' 4 2 = 0#2 then some (.brp g (d.getLsbD 3) (d.extractLsb' 0 3) (imm34 r)) else none
  | 0x038 =>
    if a.extractLsb' 3 3 = 0#3 ∧ a.extractLsb' 0 2 ≠ 3#2 ∧ (a.extractLsb' 0 2 = 0#2 → d.toNat ≤ 33) then
      some (.brf g d (a.getLsbD 2) (a.extractLsb' 0 2) (imm28 r))
    else none
  | 0x039 => some (.call g d (imm34 r))
  | 0x03A => zero d (zero b (some (.ret g a)))
  | 0x03B => some (.loop g (imm40 r))
  | 0x03C => zero d (some (.jmpi g a (imm28 r)))
  | 0x03D => zero b (if spListed a then some (.rds g d a) else none)
  | 0x03E => zero b (if spWritable d then some (.wrs g d a) else none)
  | 0x03F => zero d (zero b (some (.enq g a)))
  | 0x040 => zero b ((f3 a).bind fun q => if q = 0#3 then none else some (.deq g d q))
  | 0x041 => zero b (if d = 0#6 then zero a (some (.exit g none)) else if d = 1#6 then some (.exit g (some a)) else none)
  | 0x042 => zero d (zero a (zero b (some (.uret g))))
  | 0x043 => zero b (match d.toNat with
      | 0 => some (.twaitTile g a)
      | 1 => some (.twaitLb g a)
      | 2 => zero a (some (.twaitAll g))
      | _ => none)
  | 0x044 => zero b ((fPair d).map fun p => .xselSet g p a)
  | 0x045 => (fPair d).bind fun p => (fsrcOf a b).map fun s => .xselAndnf g p s
  | 0x046 => zero b ((fPair d).map fun p => .yselSet g p a)
  | 0x047 => (fPair d).bind fun p => (fsrcOf a b).map fun s => .yselAndnf g p s
  | 0x048 => some (.addImm g d a (imm28 r))
  | 0x049 => some (.subImm g d a (imm28 r))
  | 0x04A => some (.mulImm g d a (imm28 r))
  | 0x04B => some (.mulhImm g d a (imm28 r))
  | 0x04C => some (.divImm g d a (imm28 r))
  | 0x04D => some (.remImm g d a (imm28 r))
  | 0x04E => some (.andImm g d a (imm28 r))
  | 0x04F => some (.orImm g d a (imm28 r))
  | 0x050 => some (.xorImm g d a (imm28 r))
  | 0x051 => some (.andnImm g d a (imm28 r))
  | 0x052 => some (.shlImm g d a (imm28 r))
  | 0x053 => some (.shrImm g d a (imm28 r))
  | 0x054 => some (.sarImm g d a (imm28 r))
  | 0x055 => some (.rolImm g d a (imm28 r))
  | 0x056 => some (.minImm g d a (imm28 r))
  | 0x057 => some (.maxImm g d a (imm28 r))
  | 0x058 => (f3 d).map fun d => .cmpImm g .eq d a (imm28 r)
  | 0x059 => (f3 d).map fun d => .cmpImm g .ne d a (imm28 r)
  | 0x05A => (f3 d).map fun d => .cmpImm g .lt d a (imm28 r)
  | 0x05B => (f3 d).map fun d => .cmpImm g .le d a (imm28 r)
  | 0x05C => (f3 d).map fun d => .cmpImm g .ltu d a (imm28 r)
  | 0x05D => (f3 d).map fun d => .cmpImm g .leu d a (imm28 r)
  | _ => none

def vmovOf (d a b : R6) : Option VMovK :=
  match b.toNat with
  | 0 => some (.vv d a)
  | 1 => zero a (some (.lvl0 d))
  | 2 => zero a (some (.lvl1 d))
  | 3 => zero a (some (.row d))
  | 4 => zero a (some (.col d))
  | 5 => zero a (some (.cr d))
  | 6 => (f3 a).map fun a => .vm d a
  | 7 => (f3 d).map fun d => .mv d a
  | 8 => (f3 d).bind fun d => (f3 a).map fun a => .mm d a
  | _ => none

def vbcOf (r : Raw) : Option VBcK :=
  if r.b.extractLsb' 0 4 = 0#4 then
    match (r.b.extractLsb' 4 2).toNat with
    | 0 => some (.sreg r.a)
    | 1 => (f3 r.a).bind fun q => if q = 1#3 then none else some (.head q)
    | 2 => r.pl.map fun p => .immHi r.a p
    | _ => r.pl.map fun p => .immLo r.a p
  else none

/-- A payload whose bits above n are reserved and zero. -/
def plLow (p : BitVec 22) (n : Nat) : Option R6 :=
  if p.toNat < 2 ^ n then some (p.setWidth 6) else none

def distOf (r : Raw) : Option Dist :=
  match r.pl with
  | none => some (.reg r.b)
  | some p => zero r.b ((plLow p 6).map .imm)

def pushOf (r : Raw) (n : Nat) : Option (Option R6) :=
  match r.pl with
  | none => some none
  | some p => (plLow p n).map some

def wrapOf (b : R6) : Option Bool := if b = 0#6 then some false else if b = 1#6 then some true else none

def redOf (b : R6) : Option (BitVec 3 × VT) :=
  (vtOf (b.extractLsb' 0 3).toNat).bind fun t =>
    if redOk (b.extractLsb' 3 3) t then some (b.extractLsb' 3 3, t) else none

def vectorBody (g : VG) (r : Raw) : Option Instr :=
  let d := r.d
  let a := r.a
  let b := r.b
  let n := r.op.toNat
  let t (base : Nat) : Option VT := vtOf (n - base)
  if n < 0x088 then (t 0x080).map fun t => .vadd g t d a b
  else if n < 0x090 then (t 0x088).map fun t => .vsub g t d a b
  else if n < 0x098 then (t 0x090).map fun t => .vmul g t d a b
  else if n < 0x0A0 then (t 0x098).map fun t => .vmin g t d a b
  else if n < 0x0A8 then (t 0x0A0).map fun t => .vmax g t d a b
  else if n < 0x0B0 then zero b ((t 0x0A8).map fun t => .vabs g t d a)
  else if n < 0x0B8 then zero b ((t 0x0B0).map fun t => .vneg g t d a)
  else if n < 0x0BB then (t 0x0B8).map fun t => .vfma g t d a b
  else if n < 0x0BE then (t 0x0BB).map fun t => .vfms g t d a b
  else if n < 0x0C3 then (t 0x0BD).map fun t => .vshl g t d a b
  else if n < 0x0C6 then (t 0x0C0).map fun t => .vshr g t d a b
  else if n < 0x0C9 then (t 0x0C3).map fun t => .vsar g t d a b
  else if 0x0D0 ≤ n ∧ n < 0x0D8 then (t 0x0D0).map fun t => .vcmp g t (d.extractLsb' 3 3) (d.extractLsb' 0 3) a b
  else match n with
  | 0x0C9 => some (.vand g d a b)
  | 0x0CA => some (.vor g d a b)
  | 0x0CB => some (.vxor g d a b)
  | 0x0CC => zero b (some (.vnot g d a))
  | 0x0D8 => r.pl.bind fun p => (plLow p 3).map fun m => .vsel g d a b (m.extractLsb' 0 3)
  | 0x0D9 => (vmovOf d a b).map (.vmov g)
  | 0x0DA => (vbcOf r).map (.vbc g d)
  | 0x0DB => if b.toNat ≤ 12 then some (.vcvt g (b.extractLsb' 0 4) d a) else none
  | 0x0DC => r.pl.bind fun p =>
      if p.extractLsb' 8 14 = 0#14 ∧ p.extractLsb' 2 2 = 0#2 ∧ (p.toNat % 4 < 2 → p.getLsbD 5 = false) ∧
          (if p.getLsbD 6 then b = 0#6 else d ≠ b) then
        some (.vnrw g d a b (p.getLsbD 7) (p.getLsbD 6) (p.extractLsb' 4 2) (p.extractLsb' 0 2))
      else none
  | 0x0DD =>
      let c := b.extractLsb' 2 4
      if c.toNat ≤ 5 ∧ ((c.toNat = 0 ∨ c.toNat = 1 ∨ c.toNat = 4) → b.getLsbD 1 = false) then
        some (.vwid g c (b.extractLsb' 0 2) d a)
      else none
  | 0x0E0 => zero b (some (.vrcp g d a))
  | 0x0E1 => zero b (some (.vrsq g d a))
  | 0x0E2 => zero b (some (.vexp2 g d a))
  | 0x0E3 => zero b (some (.vlog2 g d a))
  | 0x0E4 => zero b (some (.vsin g d a))
  | 0x0E5 => zero b (some (.vcos g d a))
  | 0x0E6 => zero b (some (.vtanh g d a))
  | 0x0E8 => (distOf r).map (.vrotx g d a)
  | 0x0E9 => (distOf r).map (.vbcx g d a)
  | 0x0EA => (redOf b).bind fun (o, t) => (pushOf r 4).map (.vredx g o t d a)
  | 0x0EB => (redOf b).map fun (o, t) => .vscanx g o t d a
  | 0x0EC => (distOf r).map (.vroty g d a)
  | 0x0ED => (distOf r).map (.vbcy g d a)
  | 0x0EE => (redOf b).bind fun (o, t) => (pushOf r 6).map (.vredy g o t d a)
  | 0x0EF => (redOf b).map fun (o, t) => .vscany g o t d a
  | 0x0F0 => zero d (zero b (match g.gx with
      | some x => if x.me then none else some (.vcrw g a)
      | none => some (.vcrw g a)))
  | 0x0F1 => zero a ((wrapOf b).map (.vcrn g d))
  | 0x0F2 => zero a ((wrapOf b).map (.vcrs g d))
  | 0x0F3 => zero a ((wrapOf b).map (.vcre g d))
  | 0x0F4 => zero a ((wrapOf b).map (.vcrwN g d))
  | 0x0F8 => r.pl.bind fun p => (plLow p 6).map (.vshuf g d a b)
  | 0x0F9 => (f4 a).bind fun a =>
      if d.toNat + b.toNat + 1 ≤ 64 ∧ g.sp = 0#2 ∧ g.chk = false ∧ (g.gx.map (·.me)).getD false = false then
        some (.shpld g d a b) else none
  | 0x0FA => zero d (zero a (zero b (
      if g.sp = 0#2 ∧ g.chk = false ∧ (g.gx.map (·.me)).getD false = false then some (.shpsw g) else none)))
  | 0x0FB => zero d (match b.toNat with
      | 0 => zero a (some (.vflag g .clr))
      | 1 => zero a (some (.vflag g .set))
      | 2 => (f3 a).map fun m => .vflag g (.mask m)
      | 3 => (f3 a).map fun m => .vflag g (.notMask m)
      | _ => none)
  | 0x100 => (f4 a).map fun a => .vld g d a (imm28 r)
  | 0x101 => (f4 a).map fun a => .vst g d a (imm28 r)
  | 0x102 => (f4 a).map fun a => .vldv g d a (imm28 r)
  | 0x104 => (f3 a).bind fun c => (f5 b).map fun j => .vrdacc g d c j
  | 0x105 => (f3 d).bind fun c => (f5 b).map fun j => .vwracc g c a j
  | _ => none

def matrixBody (g : MG) (r : Raw) : Option Instr :=
  let d := r.d
  let a := r.a
  let b := r.b
  match r.op.toNat with
  | 0x140 => (f3 d).bind fun rec => (f4 a).bind fun a => (f5 b).bind fun kb =>
      let ke := kb.getLsbD 4
      let k : BitVec 4 := kb.extractLsb' 0 4
      if rec.toNat ≤ 5 then (if ke || k == 0#4 then some (.mln g (.level rec ke k) a) else none)
      else if rec.toNat = 6 then (if ke then none else some (.mlnK g k a))
      else (if kb = 0#5 then some (.mln g .header a) else none)
  | 0x141 => zero a (zero b (if d.toNat ≤ 1 then some (.mgoIp g (d.getLsbD 0)) else none))
  | 0x142 => zero a (zero b (if d.toNat ≤ 1 then some (.mgoOp g (d.getLsbD 0)) else none))
  | 0x143 => zero a (zero b (if d.toNat ≤ 1 then some (.mgoRw g (d.getLsbD 0)) else none))
  | 0x144 => zero d (zero b ((f4 a).map (.mms g)))
  | 0x145 => zero d (zero b ((f4 a).map (.mwt g)))
  | 0x146 => zero d (zero a (zero b (some (.mswp g))))
  | 0x147 => zero a (zero b ((f3 d).map (.mz g)))
  | 0x148 => zero b ((f4 a).bind fun a => r.pl.bind fun p =>
      if p.extractLsb' 10 12 = 0#12 ∧ (p.getLsbD 8 = false → d.extractLsb' 3 3 = 0#3) then
        some (.mst g (d.extractLsb' 0 3) (d.extractLsb' 3 3) a (p.getLsbD 9) (p.getLsbD 8) (p.extractLsb' 0 8))
      else none)
  | 0x149 => zero b ((f3 d).bind fun c => (f4 a).bind fun a => r.pl.bind fun p =>
      if p.extractLsb' 8 14 = 0#14 then some (.mla g c a (p.extractLsb' 0 8)) else none)
  | 0x14A => zero a (zero b (if d = 0#6 then some (.mwait g) else if d = 1#6 then some (.mwaitWt g) else none))
  | 0x14B => zero a (if b = 0#6 then some (.mstat g d) else if b = 1#6 then some (.mstatClr g d) else none)
  | _ => none

/-- A scope code, 1 to 6 (R187). -/
def scopeOk (s : BitVec 3) : Bool := s != 0#3 && s != 7#3
/-- A post code, 0 to 6 (R187). -/
def postOk (p : BitVec 3) : Bool := p != 7#3

def natomBody (r : Raw) (mk : Bool → BitVec 3 → Bool → BitVec 2 → BitVec 4 → R6 → Instr) (cas : Bool) : Option Instr :=
  let w := r.d.getLsbD 5
  let sc : BitVec 3 := r.d.extractLsb' 2 3
  let hd : BitVec 2 := r.d.extractLsb' 0 2
  let rr := r.a.getLsbD 5
  if scopeOk sc ∧ r.a.getLsbD 4 = false ∧ (rr = false → hd = 0#2) ∧ (cas = true → r.b.toNat ≤ 62) then
    some (mk w sc rr hd (r.a.extractLsb' 0 4) r.b)
  else none

def copyBody (g : CG) (r : Raw) : Option Instr :=
  let d := r.d
  let a := r.a
  let b := r.b
  let desc (k : BitVec 4 → Instr) : Option Instr := zero d (zero b ((f4 a).map k))
  match r.op.toNat with
  | 0x180 => desc (.cpy g)
  | 0x181 => desc (.cpyg g)
  | 0x182 => desc (.cpys g)
  | 0x183 => desc (.cpym g)
  | 0x184 => match (a.extractLsb' 4 2).toNat with
      | 0 => some (.lblk g d (a.extractLsb' 0 4) b)
      | 1 => zero d (if a.extractLsb' 0 4 = 0#4 then some (.lblkRel g b) else none)
      | _ => none
  | 0x185 => zero b ((f4 d).bind fun c => (f4 a).map fun a => .cbcfg g c a)
  | 0x186 => (f4 d).bind fun w => if a.getLsbD 4 then none else some (.cbw g w (a.getLsbD 5) (a.extractLsb' 0 4) b)
  | 0x187 => zero a ((f4 d).map fun c => .cbadvP g c b)
  | 0x188 => zero a ((f4 d).map fun c => .cbadvC g c b)
  | 0x189 => zero d (zero b ((f4 a).bind fun a => r.pl.bind fun p =>
      if p.extractLsb' 8 14 = 0#14 then some (.tdset g (p.extractLsb' 0 8) a) else none))
  | 0x18A => zero d (zero b ((f4 a).bind fun a => r.pl.bind fun p =>
      if p.extractLsb' 8 14 = 0#14 then some (.tdget g (p.extractLsb' 0 8) a) else none))
  | 0x18B => zero b (if d = 0#6 then some (.townRel g a) else if d = 1#6 then some (.townClm g a) else none)
  | 0x18C => zero d (zero b (some (.tcfg g a)))
  | 0x18D => (f4 a).map fun a => .ldwWf g d a (imm28 r)
  | 0x18E => (f4 d).bind fun l => (f4 a).map fun m => .nrd g l m b
  | 0x18F => (f4 d).bind fun l => (f4 a).map fun m => .nwr g l m b
  | 0x190 => desc (.nrdx g)
  | 0x191 => desc (.nsadd g)
  | 0x192 => desc (.nbin g)
  | 0x193 => natomBody r (.natomAdd g) false
  | 0x194 => natomBody r (.natomMin g) false
  | 0x195 => natomBody r (.natomMax g) false
  | 0x196 => natomBody r (.natomCas g) true
  | 0x197 => natomBody r (.natomXchg g) false
  | 0x198 => natomBody r (.natomAnd g) false
  | 0x199 => natomBody r (.natomOr g) false
  | 0x19A => zero b ((f4 a).bind fun a => (redOf d).map fun (o, t) => .nred g o t a)
  | 0x19B => zero b ((f4 a).bind fun a => if d.toNat ≤ 1 then some (.nmcst g (d.getLsbD 0) a) else none)
  | 0x19C => zero a (zero b (
      if scopeOk (d.extractLsb' 3 3) ∧ postOk (d.extractLsb' 0 3) then
        some (.ndrain g (d.extractLsb' 3 3) (d.extractLsb' 0 3)) else none))
  | 0x19D => zero d (zero a (zero b (some (.eqx g))))
  | 0x19E => zero b ((f3 d).bind fun l => (f3 a).bind fun p => if postOk p then some (.gbar g l p) else none)
  | _ => none

def guardBody (g : CG) (r : Raw) : Option Instr :=
  zero r.d (zero r.b (match r.op.toNat with
  | 0x1C0 => some (.vgl g r.a)
  | 0x1C1 => some (.sgl g r.a)
  | 0x1C2 => (f4 r.a).map (.gla g)
  | 0x1C3 => (f3 r.a).map (.glb g)
  | _ => none))

def systemBody (r : Raw) : Option Instr :=
  let d := r.d
  let a := r.a
  let b := r.b
  if r.m ≠ 0#4 then none else
  match r.op.toNat with
  | 0x1E0 => zero b (some (.csrrd d a))
  | 0x1E1 => zero b (some (.csrwr d a))
  | 0x1E2 => zero d (some (.tlbinv a b))
  | 0x1E3 => zero d (zero a (zero b (some .fbfl)))
  | 0x1E4 => zero d (zero b ((f4 a).map .ctxsv))
  | 0x1E5 => zero d (zero b ((f4 a).map .ctxld))
  | 0x1E6 => zero d (zero a (zero b (some .halt)))
  | 0x1E7 => zero d (some (.ecall (a ++ b)))
  | 0x1E8 => zero d (zero a (zero b (some .xret)))
  | _ => none

/-- The instruction a slot taken apart stands for; `none` raises ILLOP (R59, R79). -/
def ofRaw (r : Raw) : Option Instr :=
  match clsOf r.op with
  | some .nop => if r.d = 0#6 ∧ r.a = 0#6 ∧ r.b = 0#6 ∧ r.m = 0#4 then some .nop else none
  | some .scalar =>
    if r.m.getLsbD 3 && !scalarDup r.op.toNat r.b then none else scalarBody (sgOf r.m) r
  | some .vector => (vgOf r.m r.gx).bind fun g => vectorBody g r
  | some .matrix => (mgOf r.m r.gx).bind fun g => matrixBody g r
  | some .copy => (cgOf r.m r.gx).bind fun g => copyBody g r
  | some .guard => (cgOf r.m r.gx).bind fun g => guardBody g r
  | some .system => systemBody r
  | _ => none

/-! ## Words -/

/-- Whether a word is an EXT slot (R69). -/
def isExt (w : W32) : Bool := wOp w == opExt

/-- A slot and the words after it, taken apart under R69; the rest of the words is returned.
A GX = 1 slot without an EXT and a missing required extension are BUNDLE. An unassigned opcode takes every EXT that
follows it and is ILLOP. -/
def takeRaw (w : W32) (rest : List W32) : Except DecodeError (Raw × List W32) :=
  match clsOf (wOp w) with
  | none => .error .illop
  | some c =>
    let base (gx pl : Option (BitVec 22)) : Raw := ⟨wOp w, wD w, wA w, wB w, wM w, gx, pl⟩
    let imm (gx : Option (BitVec 22)) (l : List W32) : Except DecodeError (Raw × List W32) :=
      match extRule (wOp w) (wB w), l with
      | .none, l => .ok (base gx none, l)
      | .opt, e :: l' => if isExt e then .ok (base gx (some (wPl e)), l') else .ok (base gx none, e :: l')
      | .opt, [] => .ok (base gx none, [])
      | .req, e :: l' => if isExt e then .ok (base gx (some (wPl e)), l') else .error .bundle
      | .req, [] => .error .bundle
    if gxBit c (wM w) then
      match rest with
      | e :: l' => if isExt e then imm (some (wPl e)) l' else .error .bundle
      | [] => .error .bundle
    else imm none rest

/-- A header word (R66): reserved bits zero, and WD = 0 when WE = 0. -/
def decodeHdr (w : W32) : Option Hdr :=
  if wOp w = 0#9 ∧ w.extractLsb' 0 6 = 0#6 ∧ (w.getLsbD 9 = false → w.extractLsb' 10 4 = 0#4) then
    some ⟨w.extractLsb' 14 8, w.extractLsb' 10 4, w.getLsbD 9, w.getLsbD 8, w.getLsbD 7, w.getLsbD 6⟩
  else none

/-- The decoder: one instruction from the words at a slot, with the words left over. A header word is the
instruction BUNDLE_ISSUE. Total; every rejection is by name. DEDUCED (safe; notes/assumptions 46). -/
def decode (ws : List W32) : Except DecodeError (Instr × List W32) :=
  match ws with
  | [] => .error .bundle
  | w :: rest =>
    if wOp w = 0#9 then
      match decodeHdr w with
      | some h => .ok (.bundleIssue h, rest)
      | none => .error .illop
    else
      match takeRaw w rest with
      | .error e => .error e
      | .ok (r, l) =>
        match ofRaw r with
        | some i => .ok (i, l)
        | none => .error .illop

/-- The words a number stands for: `n` words of 32 bits, the first in the low bits. -/
def wordsOf (n w : Nat) : List W32 :=
  match n with
  | 0 => []
  | n + 1 => BitVec.ofNat 32 w :: wordsOf n (w / 2 ^ 32)

/-- The instruction the decoder reads from an instruction whose bits are w (the host's numbering). The longest
instruction has three words. -/
def decodeTableWord (nbits w : Nat) : Option Instr :=
  match decode (wordsOf 3 (w % 2 ^ nbits)) with
  | .ok (i, _) => some i
  | .error _ => none

/-! ## The encoder -/

def mkWord (op : BitVec 9) (d a b : R6) (m : BitVec 4) : W32 :=
  0#1 ++ (op ++ (d ++ (a ++ (b ++ m))))
def mkExt (p : BitVec 22) : W32 := 0#1 ++ (opExt ++ p)

def hdrWord (h : Hdr) : W32 :=
  0#1 ++ (0#9 ++ (h.pop ++ (h.wd ++ (BitVec.ofBool h.we ++ (BitVec.ofBool h.rot ++ (BitVec.ofBool h.vck ++ (BitVec.ofBool h.sck ++ 0#6)))))))

/-- The words of a slot taken apart, in order (R69). -/
def rawWords (r : Raw) : List W32 :=
  mkWord r.op r.d r.a r.b r.m :: ((r.gx.map mkExt).toList ++ (r.pl.map mkExt).toList)

def immLo (n : Nat) (i : Imm n) : R6 := i.v.extractLsb' 0 6
def immPl (n k : Nat) (i : Imm n) : Option (BitVec 22) := if i.ext then some (i.v.extractLsb' k 22) else none

def sRaw (g : SG) (op : Nat) (d a b : R6) (pl : Option (BitVec 22) := none) : Raw :=
  ⟨BitVec.ofNat 9 op, d, a, b, sgTo g, none, pl⟩
def sImm (g : SG) (op : Nat) (d a : R6) (i : Imm 28) : Raw := sRaw g op d a (immLo 28 i) (immPl 28 6 i)
def sImm34 (g : SG) (op : Nat) (d : R6) (i : Imm 34) : Raw :=
  sRaw g op d (i.v.extractLsb' 6 6) (i.v.extractLsb' 0 6) (immPl 34 12 i)
def sImm40 (g : SG) (op : Nat) (i : Imm 40) : Raw :=
  sRaw g op (i.v.extractLsb' 12 6) (i.v.extractLsb' 6 6) (i.v.extractLsb' 0 6) (immPl 40 18 i)
def vRaw (g : VG) (op : Nat) (d a b : R6) (pl : Option (BitVec 22) := none) : Raw :=
  ⟨BitVec.ofNat 9 op, d, a, b, vgTo g, g.gx.map gextTo, pl⟩
def mRaw (g : MG) (op : Nat) (d a b : R6) (pl : Option (BitVec 22) := none) : Raw :=
  ⟨BitVec.ofNat 9 op, d, a, b, mgTo g, g.gx.map gextTo, pl⟩
def cRaw (g : CG) (op : Nat) (d a b : R6) (pl : Option (BitVec 22) := none) : Raw :=
  ⟨BitVec.ofNat 9 op, d, a, b, cgTo g, g.gx.map gextTo, pl⟩
def yRaw (op : Nat) (d a b : R6) : Raw := ⟨BitVec.ofNat 9 op, d, a, b, 0#4, none, none⟩

def movRaw (g : SG) (k : MovK) : Raw :=
  match k with
  | .ss d a => sRaw g 0x015 d a 0#6
  | .as d a => sRaw g 0x015 (to6 d) a 1#6
  | .sa d a => sRaw g 0x015 d (to6 a) 2#6
  | .aa d a => sRaw g 0x015 (to6 d) (to6 a) 3#6
  | .hiAS d a => sRaw g 0x015 (to6 d) a 4#6
  | .hiSA d a => sRaw g 0x015 d (to6 a) 5#6
  | .ps d a => sRaw g 0x015 (to6 d) a 6#6
  | .sp d a => sRaw g 0x015 d (to6 a) 7#6
  | .gs a => sRaw g 0x015 0#6 a 8#6
  | .sg d => sRaw g 0x015 d 0#6 9#6

def fsrcFields (s : FSrc) : R6 × R6 :=
  match s with
  | .all => (0#6, 0#6)
  | .any => (1#6, 0#6)
  | .reg b => (2#6, b)

def vmovRaw (g : VG) (k : VMovK) : Raw :=
  match k with
  | .vv d a => vRaw g 0x0D9 d a 0#6
  | .lvl0 d => vRaw g 0x0D9 d 0#6 1#6
  | .lvl1 d => vRaw g 0x0D9 d 0#6 2#6
  | .row d => vRaw g 0x0D9 d 0#6 3#6
  | .col d => vRaw g 0x0D9 d 0#6 4#6
  | .cr d => vRaw g 0x0D9 d 0#6 5#6
  | .vm d m => vRaw g 0x0D9 d (to6 m) 6#6
  | .mv m a => vRaw g 0x0D9 (to6 m) a 7#6
  | .mm d a => vRaw g 0x0D9 (to6 d) (to6 a) 8#6

def vbcRaw (g : VG) (d : R6) (k : VBcK) : Raw :=
  match k with
  | .sreg n => vRaw g 0x0DA d n 0x00#6
  | .head q => vRaw g 0x0DA d (to6 q) 0x10#6
  | .immHi a p => vRaw g 0x0DA d a 0x20#6 (some p)
  | .immLo a p => vRaw g 0x0DA d a 0x30#6 (some p)

def distRaw (g : VG) (op : Nat) (d a : R6) (x : Dist) : Raw :=
  match x with
  | .reg b => vRaw g op d a b
  | .imm n => vRaw g op d a 0#6 (some (n.setWidth 22))

def natomRaw (g : CG) (op : Nat) (w : Bool) (sc : BitVec 3) (r : Bool) (hd : BitVec 2) (a : BitVec 4) (b : R6) : Raw :=
  cRaw g op (BitVec.ofBool w ++ (sc ++ hd)) (BitVec.ofBool r ++ (0#1 ++ a)) b

def boolF (b : Bool) : R6 := if b then 1#6 else 0#6

/-- The fields of every slot instruction, from the tables of R88, R120, R151, R187, R221 and R223;
`none` for the rows that no word encodes. -/
def toRaw (i : Instr) : Option Raw :=
  match i with
  | .nop => some (yRaw 0x001 0#6 0#6 0#6)
  | .add g d a b => some (sRaw g 0x002 d a b)
  | .sub g d a b => some (sRaw g 0x003 d a b)
  | .mul g d a b => some (sRaw g 0x004 d a b)
  | .mulh g d a b => some (sRaw g 0x005 d a b)
  | .div g d a b => some (sRaw g 0x006 d a b)
  | .rem g d a b => some (sRaw g 0x007 d a b)
  | .and g d a b => some (sRaw g 0x008 d a b)
  | .or g d a b => some (sRaw g 0x009 d a b)
  | .xor g d a b => some (sRaw g 0x00A d a b)
  | .andn g d a b => some (sRaw g 0x00B d a b)
  | .shl g d a b => some (sRaw g 0x00C d a b)
  | .shr g d a b => some (sRaw g 0x00D d a b)
  | .sar g d a b => some (sRaw g 0x00E d a b)
  | .rol g d a b => some (sRaw g 0x00F d a b)
  | .min g d a b => some (sRaw g 0x010 d a b)
  | .max g d a b => some (sRaw g 0x011 d a b)
  | .clz g d a => some (sRaw g 0x012 d a 0#6)
  | .popc g d a => some (sRaw g 0x013 d a 0#6)
  | .addImm g d a i => some (sImm g 0x048 d a i)
  | .subImm g d a i => some (sImm g 0x049 d a i)
  | .mulImm g d a i => some (sImm g 0x04A d a i)
  | .mulhImm g d a i => some (sImm g 0x04B d a i)
  | .divImm g d a i => some (sImm g 0x04C d a i)
  | .remImm g d a i => some (sImm g 0x04D d a i)
  | .andImm g d a i => some (sImm g 0x04E d a i)
  | .orImm g d a i => some (sImm g 0x04F d a i)
  | .xorImm g d a i => some (sImm g 0x050 d a i)
  | .andnImm g d a i => some (sImm g 0x051 d a i)
  | .shlImm g d a i => some (sImm g 0x052 d a i)
  | .shrImm g d a i => some (sImm g 0x053 d a i)
  | .sarImm g d a i => some (sImm g 0x054 d a i)
  | .rolImm g d a i => some (sImm g 0x055 d a i)
  | .minImm g d a i => some (sImm g 0x056 d a i)
  | .maxImm g d a i => some (sImm g 0x057 d a i)
  | .li g d i => some (sImm g 0x014 d 0x00#6 i)
  | .liQ1 g d i => some (sImm g 0x014 d 0x10#6 i)
  | .liQ2 g d i => some (sImm g 0x014 d 0x20#6 i)
  | .mov g k => some (movRaw g k)
  | .sel g d a b => some (sRaw g 0x016 d a b)
  | .cmp g c d a b => some (sRaw g (0x017 + cmpTo c) (to6 d) a b)
  | .cmpImm g c d a i => some (sImm g (0x058 + cmpTo c) (to6 d) a i)
  | .fadd g dbl d a b => some (sRaw g (if dbl then 0x01D else 0x023) d a b)
  | .fsub g dbl d a b => some (sRaw g (if dbl then 0x01E else 0x024) d a b)
  | .fmul g dbl d a b => some (sRaw g (if dbl then 0x01F else 0x025) d a b)
  | .ffma g dbl d a b => some (sRaw g (if dbl then 0x020 else 0x026) d a b)
  | .fdiv g dbl d a b => some (sRaw g (if dbl then 0x021 else 0x027) d a b)
  | .fsqrt g dbl d a => some (sRaw g (if dbl then 0x022 else 0x028) d a 0#6)
  | .fcvt g c d a => some (sRaw g 0x029 d a (to6 c))
  | .fcmp g dbl cond d a b => some (sRaw g (if dbl then 0x02A else 0x02B) (cond ++ d) a b)
  | .adda g d a b => some (sRaw g 0x02C (to6 d) (to6 a) b)
  | .lea g d a b sh disp => some (sRaw g 0x02D (to6 d) (to6 a) b (some (sh ++ disp)))
  | .ld g w d a off => some (sImm g (0x02E + w.toNat) d (to6 a) off)
  | .st g w d a off => some (sImm g (0x032 + w.toNat) d (to6 a) off)
  | .br g disp => some (sImm40 g 0x036 disp)
  | .brp g n p disp => some (sImm34 g 0x037 (0#2 ++ (BitVec.ofBool n ++ p)) disp)
  | .brf g bit n reg disp => some (sImm g 0x038 bit (0#3 ++ (BitVec.ofBool n ++ reg)) disp)
  | .call g d disp => some (sImm34 g 0x039 d disp)
  | .ret g a => some (sRaw g 0x03A 0#6 a 0#6)
  | .loop g disp => some (sImm40 g 0x03B disp)
  | .jmpi g a disp => some (sImm g 0x03C 0#6 a disp)
  | .rds g d n => some (sRaw g 0x03D d n 0#6)
  | .wrs g n a => some (sRaw g 0x03E n a 0#6)
  | .enq g a => some (sRaw g 0x03F 0#6 a 0#6)
  | .deq g d q => some (sRaw g 0x040 d (to6 q) 0#6)
  | .exit g succ => some (match succ with
      | none => sRaw g 0x041 0#6 0#6 0#6
      | some a => sRaw g 0x041 1#6 a 0#6)
  | .uret g => some (sRaw g 0x042 0#6 0#6 0#6)
  | .twaitTile g a => some (sRaw g 0x043 0#6 a 0#6)
  | .twaitLb g a => some (sRaw g 0x043 1#6 a 0#6)
  | .twaitAll g => some (sRaw g 0x043 2#6 0#6 0#6)
  | .xselSet g p a => some (sRaw g 0x044 (to6 p) a 0#6)
  | .xselAndnf g p s => some (sRaw g 0x045 (to6 p) (fsrcFields s).1 (fsrcFields s).2)
  | .yselSet g p a => some (sRaw g 0x046 (to6 p) a 0#6)
  | .yselAndnf g p s => some (sRaw g 0x047 (to6 p) (fsrcFields s).1 (fsrcFields s).2)
  | .vadd g t d a b => some (vRaw g (0x080 + vtTo t) d a b)
  | .vsub g t d a b => some (vRaw g (0x088 + vtTo t) d a b)
  | .vmul g t d a b => some (vRaw g (0x090 + vtTo t) d a b)
  | .vmin g t d a b => some (vRaw g (0x098 + vtTo t) d a b)
  | .vmax g t d a b => some (vRaw g (0x0A0 + vtTo t) d a b)
  | .vabs g t d a => some (vRaw g (0x0A8 + vtTo t) d a 0#6)
  | .vneg g t d a => some (vRaw g (0x0B0 + vtTo t) d a 0#6)
  | .vfma g t d a b => some (vRaw g (0x0B8 + vtTo t) d a b)
  | .vfms g t d a b => some (vRaw g (0x0BB + vtTo t) d a b)
  | .vshl g t d a b => some (vRaw g (0x0BD + vtTo t) d a b)
  | .vshr g t d a b => some (vRaw g (0x0C0 + vtTo t) d a b)
  | .vsar g t d a b => some (vRaw g (0x0C3 + vtTo t) d a b)
  | .vand g d a b => some (vRaw g 0x0C9 d a b)
  | .vor g d a b => some (vRaw g 0x0CA d a b)
  | .vxor g d a b => some (vRaw g 0x0CB d a b)
  | .vnot g d a => some (vRaw g 0x0CC d a 0#6)
  | .vcmp g t cond d a b => some (vRaw g (0x0D0 + vtTo t) (cond ++ d) a b)
  | .vsel g d a b m => some (vRaw g 0x0D8 d a b (some (m.setWidth 22)))
  | .vmov g k => some (vmovRaw g k)
  | .vbc g d k => some (vbcRaw g d k)
  | .vcvt g c d a => some (vRaw g 0x0DB d a (to6 c))
  | .vnrw g d vs ve z nf lane fmt =>
      some (vRaw g 0x0DC d vs ve (some (0#14 ++ (BitVec.ofBool z ++ (BitVec.ofBool nf ++ (lane ++ (0#2 ++ fmt)))))))
  | .vwid g c lane d a => some (vRaw g 0x0DD d a (c ++ lane))
  | .vrcp g d a => some (vRaw g 0x0E0 d a 0#6)
  | .vrsq g d a => some (vRaw g 0x0E1 d a 0#6)
  | .vexp2 g d a => some (vRaw g 0x0E2 d a 0#6)
  | .vlog2 g d a => some (vRaw g 0x0E3 d a 0#6)
  | .vsin g d a => some (vRaw g 0x0E4 d a 0#6)
  | .vcos g d a => some (vRaw g 0x0E5 d a 0#6)
  | .vtanh g d a => some (vRaw g 0x0E6 d a 0#6)
  | .vrotx g d a x => some (distRaw g 0x0E8 d a x)
  | .vbcx g d a x => some (distRaw g 0x0E9 d a x)
  | .vredx g op t d a p => some (vRaw g 0x0EA d a (op ++ BitVec.ofNat 3 (vtTo t)) (p.map (·.setWidth 22)))
  | .vscanx g op t d a => some (vRaw g 0x0EB d a (op ++ BitVec.ofNat 3 (vtTo t)))
  | .vroty g d a x => some (distRaw g 0x0EC d a x)
  | .vbcy g d a x => some (distRaw g 0x0ED d a x)
  | .vredy g op t d a p => some (vRaw g 0x0EE d a (op ++ BitVec.ofNat 3 (vtTo t)) (p.map (·.setWidth 22)))
  | .vscany g op t d a => some (vRaw g 0x0EF d a (op ++ BitVec.ofNat 3 (vtTo t)))
  | .vcrw g a => some (vRaw g 0x0F0 0#6 a 0#6)
  | .vcrn g d w => some (vRaw g 0x0F1 d 0#6 (boolF w))
  | .vcrs g d w => some (vRaw g 0x0F2 d 0#6 (boolF w))
  | .vcre g d w => some (vRaw g 0x0F3 d 0#6 (boolF w))
  | .vcrwN g d w => some (vRaw g 0x0F4 d 0#6 (boolF w))
  | .vshuf g d a b e => some (vRaw g 0x0F8 d a b (some (e.setWidth 22)))
  | .shpld g e a n => some (vRaw g 0x0F9 e (to6 a) n)
  | .shpsw g => some (vRaw g 0x0FA 0#6 0#6 0#6)
  | .vflag g k => some (match k with
      | .clr => vRaw g 0x0FB 0#6 0#6 0#6
      | .set => vRaw g 0x0FB 0#6 0#6 1#6
      | .mask m => vRaw g 0x0FB 0#6 (to6 m) 2#6
      | .notMask m => vRaw g 0x0FB 0#6 (to6 m) 3#6)
  | .vld g d a off => some (vRaw g 0x100 d (to6 a) (immLo 28 off) (immPl 28 6 off))
  | .vst g s a off => some (vRaw g 0x101 s (to6 a) (immLo 28 off) (immPl 28 6 off))
  | .vldv g d a off => some (vRaw g 0x102 d (to6 a) (immLo 28 off) (immPl 28 6 off))
  | .vrdacc g d acc j => some (vRaw g 0x104 d (to6 acc) (to6 j))
  | .vwracc g acc s j => some (vRaw g 0x105 (to6 acc) s (to6 j))
  | .mln g r a => some (match r with
      | .level l ke k => mRaw g 0x140 (to6 l) (to6 a) (0#1 ++ (BitVec.ofBool ke ++ k))
      | .header => mRaw g 0x140 7#6 (to6 a) 0#6)
  | .mlnK g k a => some (mRaw g 0x140 6#6 (to6 a) (to6 k))
  | .mgoIp g ui => some (mRaw g 0x141 (boolF ui) 0#6 0#6)
  | .mgoOp g ui => some (mRaw g 0x142 (boolF ui) 0#6 0#6)
  | .mgoRw g ui => some (mRaw g 0x143 (boolF ui) 0#6 0#6)
  | .mms g a => some (mRaw g 0x144 0#6 (to6 a) 0#6)
  | .mwt g a => some (mRaw g 0x145 0#6 (to6 a) 0#6)
  | .mswp g => some (mRaw g 0x146 0#6 0#6 0#6)
  | .mz g acc => some (mRaw g 0x147 (to6 acc) 0#6 0#6)
  | .mst g acc res a ui ef td =>
      some (mRaw g 0x148 (res ++ acc) (to6 a) 0#6 (some (0#12 ++ (BitVec.ofBool ui ++ (BitVec.ofBool ef ++ td)))))
  | .mla g acc a td => some (mRaw g 0x149 (to6 acc) (to6 a) 0#6 (some (0#14 ++ td)))
  | .mwait g => some (mRaw g 0x14A 0#6 0#6 0#6)
  | .mwaitWt g => some (mRaw g 0x14A 1#6 0#6 0#6)
  | .mstat g d => some (mRaw g 0x14B d 0#6 0#6)
  | .mstatClr g d => some (mRaw g 0x14B d 0#6 1#6)
  | .cpy g a => some (cRaw g 0x180 0#6 (to6 a) 0#6)
  | .cpyg g a => some (cRaw g 0x181 0#6 (to6 a) 0#6)
  | .cpys g a => some (cRaw g 0x182 0#6 (to6 a) 0#6)
  | .cpym g a => some (cRaw g 0x183 0#6 (to6 a) 0#6)
  | .lblk g d a n => some (cRaw g 0x184 d (0#2 ++ a) n)
  | .lblkRel g b => some (cRaw g 0x184 0#6 0x10#6 b)
  | .cbcfg g c a => some (cRaw g 0x185 (to6 c) (to6 a) 0#6)
  | .cbw g wd kind cb n => some (cRaw g 0x186 (to6 wd) (BitVec.ofBool kind ++ (0#1 ++ cb)) n)
  | .cbadvP g c n => some (cRaw g 0x187 (to6 c) 0#6 n)
  | .cbadvC g c n => some (cRaw g 0x188 (to6 c) 0#6 n)
  | .tdset g td a => some (cRaw g 0x189 0#6 (to6 a) 0#6 (some (0#14 ++ td)))
  | .tdget g td a => some (cRaw g 0x18A 0#6 (to6 a) 0#6 (some (0#14 ++ td)))
  | .townRel g a => some (cRaw g 0x18B 0#6 a 0#6)
  | .townClm g a => some (cRaw g 0x18B 1#6 a 0#6)
  | .tcfg g a => some (cRaw g 0x18C 0#6 a 0#6)
  | .ldwWf g d a off => some (cRaw g 0x18D d (to6 a) (immLo 28 off) (immPl 28 6 off))
  | .nrd g l r n => some (cRaw g 0x18E (to6 l) (to6 r) n)
  | .nwr g l r n => some (cRaw g 0x18F (to6 l) (to6 r) n)
  | .nrdx g a => some (cRaw g 0x190 0#6 (to6 a) 0#6)
  | .nsadd g a => some (cRaw g 0x191 0#6 (to6 a) 0#6)
  | .nbin g a => some (cRaw g 0x192 0#6 (to6 a) 0#6)
  | .natomAdd g w sc r hd a b => some (natomRaw g 0x193 w sc r hd a b)
  | .natomMin g w sc r hd a b => some (natomRaw g 0x194 w sc r hd a b)
  | .natomMax g w sc r hd a b => some (natomRaw g 0x195 w sc r hd a b)
  | .natomCas g w sc r hd a b => some (natomRaw g 0x196 w sc r hd a b)
  | .natomXchg g w sc r hd a b => some (natomRaw g 0x197 w sc r hd a b)
  | .natomAnd g w sc r hd a b => some (natomRaw g 0x198 w sc r hd a b)
  | .natomOr g w sc r hd a b => some (natomRaw g 0x199 w sc r hd a b)
  | .nred g op t a => some (cRaw g 0x19A (op ++ BitVec.ofNat 3 (vtTo t)) (to6 a) 0#6)
  | .nmcst g o a => some (cRaw g 0x19B (boolF o) (to6 a) 0#6)
  | .ndrain g sc p => some (cRaw g 0x19C (sc ++ p) 0#6 0#6)
  | .eqx g => some (cRaw g 0x19D 0#6 0#6 0#6)
  | .gbar g l p => some (cRaw g 0x19E (to6 l) (to6 p) 0#6)
  | .vgl g a => some (cRaw g 0x1C0 0#6 a 0#6)
  | .sgl g a => some (cRaw g 0x1C1 0#6 a 0#6)
  | .gla g a => some (cRaw g 0x1C2 0#6 (to6 a) 0#6)
  | .glb g p => some (cRaw g 0x1C3 0#6 (to6 p) 0#6)
  | .csrrd d c => some (yRaw 0x1E0 d c 0#6)
  | .csrwr c a => some (yRaw 0x1E1 c a 0#6)
  | .tlbinv a k => some (yRaw 0x1E2 0#6 a k)
  | .fbfl => some (yRaw 0x1E3 0#6 0#6 0#6)
  | .ctxsv a => some (yRaw 0x1E4 0#6 (to6 a) 0#6)
  | .ctxld a => some (yRaw 0x1E5 0#6 (to6 a) 0#6)
  | .halt => some (yRaw 0x1E6 0#6 0#6 0#6)
  | .ecall n => some (yRaw 0x1E7 0#6 (n.extractLsb' 6 6) (n.extractLsb' 0 6))
  | .xret => some (yRaw 0x1E8 0#6 0#6 0#6)
  | _ => none

/-- The words of an instruction, S = 0 in each: a slot's words, the header's word, nothing for a device step. -/
def encode (i : Instr) : List W32 :=
  match i with
  | .bundleIssue h => [hdrWord h]
  | i => match toRaw i with
    | some r => rawWords r
    | none => []

/-- S = 1 in a word (R64). -/
def setStop (w : W32) : W32 := w ||| 0x8000_0000#32

end Sys2Proof
end

