-- ==== Sys2Proof/Machine/Map.lean ====
section
/-! DEFINITION. Sparse tables: sorted lists of (key, value) pairs in one canonical form (keys strictly rising, no entry
equal to the default), so that equal tables are equal data. Registers, elements and memory are held so. -/

namespace Sys2Proof.Machine

/-- A sparse table; what an unlisted key holds is the default given to each operation. -/
abbrev SMap (α : Type) := List (Nat × α)

/-- The entry listed for a key. -/
def SMap.find {α : Type} (m : SMap α) (k : Nat) : Option α :=
  match m with
  | [] => none
  | (j, v) :: m => if j = k then some v else SMap.find m k

/-- The value at a key, `d` where none is listed. -/
def SMap.get {α : Type} (d : α) (m : SMap α) (k : Nat) : α := (m.find k).getD d

/-- The table without a key. -/
def SMap.erase {α : Type} (m : SMap α) (k : Nat) : SMap α :=
  match m with
  | [] => []
  | (j, v) :: m => if j = k then SMap.erase m k else (j, v) :: SMap.erase m k

/-- The table with a key listed, in its place. -/
def SMap.put {α : Type} (m : SMap α) (k : Nat) (v : α) : SMap α :=
  match m with
  | [] => [(k, v)]
  | (j, w) :: m => if k < j then (k, v) :: (j, w) :: m else if j = k then (k, v) :: m else (j, w) :: SMap.put m k v

/-- The table with the value at a key replaced; writing the default removes the entry. -/
def SMap.set {α : Type} [DecidableEq α] (d : α) (m : SMap α) (k : Nat) (v : α) : SMap α :=
  if v = d then m.erase k else m.put k v

/-- The value at a key changed by a function. -/
def SMap.mod {α : Type} [DecidableEq α] (d : α) (m : SMap α) (k : Nat) (f : α → α) : SMap α :=
  m.set d k (f (m.get d k))

/-- Keys rise strictly from a bound and no value is the default. -/
def SMap.wfFrom {α : Type} [DecidableEq α] (d : α) (lo : Nat) (m : SMap α) : Bool :=
  match m with
  | [] => true
  | (k, v) :: m => decide (lo ≤ k) && (decide (v ≠ d) && SMap.wfFrom d (k + 1) m)

/-- The canonical form. -/
def SMap.wf {α : Type} [DecidableEq α] (d : α) (m : SMap α) : Bool := SMap.wfFrom d 0 m

end Sys2Proof.Machine
end

