-- ==== Sys2Proof/Machine/Num.lean ====
section
/-! DEFINITION. Number formats, exact values, rounding and conversions: spec/02_numbers.md R36-R41, R47, R50. -/

namespace Sys2Proof.Machine

open Sys2Proof

/-- Status flags in the order of `fpcsr`[14:8] (R46): NV, DZ, OF, UF, NX, SXUF, IS from bit 0. -/
abbrev Fl := BitVec 7
def Fl.nv : Fl := 0x01#7
def Fl.dz : Fl := 0x02#7
def Fl.ovf : Fl := 0x04#7
def Fl.unf : Fl := 0x08#7
def Fl.nx : Fl := 0x10#7
def Fl.sxuf : Fl := 0x20#7
def Fl.isat : Fl := 0x40#7

/-- Rounding modes of `fpcsr`.RM (R46). -/
inductive Rm where
  | rne | rz | ru | rd
  deriving DecidableEq, Repr, Inhabited

/-- The mode of a value of RM (R46). -/
def Rm.of (x : BitVec 2) : Rm :=
  match x.toNat with
  | 0 => .rne | 1 => .rz | 2 => .ru | _ => .rd

/-- A floating format (R37, R38): fraction bits, exponent bits, bias, largest finite magnitude maxM × 2^maxE. -/
structure Fmt where
  fw : Nat
  ew : Nat
  bias : Nat
  maxM : Nat
  maxE : Int
  e4m3 : Bool
  e5m2 : Bool
  deriving DecidableEq, Repr

def fmt64 : Fmt := ⟨52, 11, 1023, 2 ^ 53 - 1, 971, false, false⟩
def fmt32 : Fmt := ⟨23, 8, 127, 2 ^ 24 - 1, 104, false, false⟩
def fmtBf16 : Fmt := ⟨7, 8, 127, 255, 120, false, false⟩
def fmtF16 : Fmt := ⟨10, 5, 15, 2047, 5, false, false⟩
def fmtE5m2 : Fmt := ⟨2, 5, 15, 7, 13, false, true⟩
def fmtE4m3 : Fmt := ⟨3, 4, 7, 14, 5, true, false⟩

/-- Width of a format in bits. -/
def Fmt.width (f : Fmt) : Nat := 1 + f.ew + f.fw

/-- The canonical NaN (R39). -/
def Fmt.canon (f : Fmt) : Nat :=
  if f.e4m3 then 0x7F else (2 ^ f.ew - 1) * 2 ^ f.fw + 2 ^ (f.fw - 1)

/-- An exact value: NaN, an infinity, or (−1)^s × m × 2^e (a zero keeps its sign). -/
inductive FV where
  | nan
  | inf (s : Bool)
  | fin (s : Bool) (m : Nat) (e : Int)
  deriving DecidableEq, Repr, Inhabited

def FV.isNan (x : FV) : Bool := match x with | .nan => true | _ => false
def FV.isInf (x : FV) : Bool := match x with | .inf _ => true | _ => false
def FV.isZero (x : FV) : Bool := match x with | .fin _ 0 _ => true | _ => false
def FV.sign (x : FV) : Bool := match x with | .nan => false | .inf s => s | .fin s _ _ => s
def FV.neg (x : FV) : FV := match x with | .nan => .nan | .inf s => .inf (!s) | .fin s m e => .fin (!s) m e

/-- Exponent field zero, fraction not zero (R37). -/
def Fmt.isSub (f : Fmt) (x : Nat) : Bool :=
  decide (x / 2 ^ f.fw % 2 ^ f.ew = 0) && decide (x % 2 ^ f.fw ≠ 0)

/-- The value of a field pattern (R37, R38); a subnormal is a zero of its sign when `ftz` (R47). -/
def Fmt.val (f : Fmt) (ftz : Bool) (x : Nat) : FV :=
  let s := decide (x / 2 ^ (f.ew + f.fw) % 2 = 1)
  let e := x / 2 ^ f.fw % 2 ^ f.ew
  let m := x % 2 ^ f.fw
  if f.e4m3 && decide (e = 15) && decide (m = 7) then .nan
  else if !f.e4m3 && decide (e = 2 ^ f.ew - 1) then (if m = 0 then .inf s else .nan)
  else if e = 0 then
    (if m = 0 || ftz then .fin s 0 0 else .fin s m (1 - (f.bias : Int) - f.fw))
  else .fin s (2 ^ f.fw + m) ((e : Int) - f.bias - f.fw)

/-- m × 2^(−sh) rounded to an integer by a mode for a value of sign s, and whether it was inexact. -/
def roundShift (rm : Rm) (s : Bool) (m sh : Nat) : Nat × Bool :=
  let q := m / 2 ^ sh
  let r := m % 2 ^ sh
  let up :=
    match rm with
    | .rne => decide (2 ^ sh < 2 * r) || (decide (2 ^ sh = 2 * r) && decide (q % 2 = 1))
    | .rz => false
    | .ru => !s && decide (r ≠ 0)
    | .rd => s && decide (r ≠ 0)
  (if up then q + 1 else q, decide (r ≠ 0))

/-- m × 2^e rounded to a multiple of 2^q: the multiple and whether it was inexact. -/
def roundTo (rm : Rm) (s : Bool) (m : Nat) (e q : Int) : Nat × Bool :=
  if q ≤ e then (m * 2 ^ (e - q).toNat, false) else roundShift rm s m (q - e).toNat

/-- Bits of (−1)^s × n × 2^q, with n at most 2^(fw+1), in a format. -/
def Fmt.pack (f : Fmt) (s : Bool) (n : Nat) (q : Int) : Nat :=
  let sb := if s then 2 ^ (f.ew + f.fw) else 0
  let n' := if n = 2 ^ (f.fw + 1) then 2 ^ f.fw else n
  let q' := if n = 2 ^ (f.fw + 1) then q + 1 else q
  if n' < 2 ^ f.fw then sb + n' else sb + (q' + f.fw + f.bias).toNat * 2 ^ f.fw + (n' - 2 ^ f.fw)

def Fmt.infBits (f : Fmt) (s : Bool) : Nat := (if s then 2 ^ (f.ew + f.fw) else 0) + (2 ^ f.ew - 1) * 2 ^ f.fw
def Fmt.zeroBits (f : Fmt) (s : Bool) : Nat := if s then 2 ^ (f.ew + f.fw) else 0
/-- The largest finite pattern of a sign. -/
def Fmt.maxBits (f : Fmt) (s : Bool) : Nat := f.pack s f.maxM (f.maxE)

/-- How an operation rounds: mode, flush of its slot class and F8SAT (R46, R47). -/
structure RCtl where
  rm : Rm
  ftz : Bool
  f8sat : Bool
  deriving DecidableEq, Repr

/-- A finite value rounded into a format, with the flags of R40 and R47 and the overflow rules of R50. -/
def Fmt.roundFin (f : Fmt) (c : RCtl) (s : Bool) (m : Nat) (e : Int) : Nat × Fl :=
  if m = 0 then (f.zeroBits s, 0#7)
  else
    let top : Int := (Nat.log2 m : Int) + e
    let emin : Int := 1 - (f.bias : Int)
    let qu := top - f.fw
    let nu := roundTo c.rm s m e qu
    let tiny := decide ((Nat.log2 nu.1 : Int) + qu < emin)
    let big := decide (f.maxM * 2 ^ (f.maxE - qu).toNat < nu.1 * 2 ^ (qu - f.maxE).toNat)
    if big then
      let r :=
        if f.e4m3 then f.maxBits s
        else if f.e5m2 && c.f8sat then f.maxBits s
        else match c.rm with
          | .rne => f.infBits s
          | .rz => f.maxBits s
          | .ru => if s then f.maxBits s else f.infBits s
          | .rd => if s then f.infBits s else f.maxBits s
      (r, Fl.ovf ||| Fl.nx)
    else if tiny && c.ftz then (f.zeroBits s, Fl.unf ||| Fl.nx)
    else
      let q := max qu (emin - f.fw)
      let n := roundTo c.rm s m e q
      (f.pack s n.1 q, (if n.2 then Fl.nx else 0#7) ||| (if n.2 && tiny then Fl.unf else 0#7))

/-- A value rounded into a format; NaN is canonical without a flag, an infinity goes to E4M3 as NaN with NV (R50). -/
def Fmt.round (f : Fmt) (c : RCtl) (x : FV) : Nat × Fl :=
  match x with
  | .nan => (f.canon, 0#7)
  | .inf s => if f.e4m3 then (f.canon, Fl.nv) else (f.infBits s, 0#7)
  | .fin s m e => f.roundFin c s m e

/-- Signed mantissa of a finite value at a lower exponent. -/
def sgnAt (s : Bool) (m : Nat) (e q : Int) : Int :=
  let v : Int := (m * 2 ^ (e - q).toNat : Nat)
  if s then -v else v

/-- Exact sum of two values, with the flags of invalid operations; a zero sum takes the sign of IEEE 754. -/
def FV.add (rm : Rm) (x y : FV) : FV × Fl :=
  match x, y with
  | .nan, _ => (.nan, 0#7)
  | _, .nan => (.nan, 0#7)
  | .inf s, .inf t => if s = t then (.inf s, 0#7) else (.nan, Fl.nv)
  | .inf s, .fin _ _ _ => (.inf s, 0#7)
  | .fin _ _ _, .inf t => (.inf t, 0#7)
  | .fin s m e, .fin t n g =>
    if m = 0 && n = 0 then
      (.fin (if s = t then s else decide (rm = .rd)) 0 0, 0#7)
    else
      let q := min e g
      let v := sgnAt s m e q + sgnAt t n g q
      if v = 0 then (.fin (decide (rm = .rd)) 0 0, 0#7) else (.fin (decide (v < 0)) v.natAbs q, 0#7)

/-- Exact product; 0 × ∞ is invalid (R40). -/
def FV.mul (x y : FV) : FV × Fl :=
  match x, y with
  | .nan, _ => (.nan, 0#7)
  | _, .nan => (.nan, 0#7)
  | .inf s, .inf t => (.inf (s != t), 0#7)
  | .inf s, .fin t n _ => if n = 0 then (.nan, Fl.nv) else (.inf (s != t), 0#7)
  | .fin s m _, .inf t => if m = 0 then (.nan, Fl.nv) else (.inf (s != t), 0#7)
  | .fin s m e, .fin t n g => (.fin (s != t) (m * n) (e + g), 0#7)

/-- Multiplicands 0 and ∞ in either order. -/
def FV.zeroInf (x y : FV) : Bool := (x.isZero && y.isInf) || (x.isInf && y.isZero)

/-- Exact fused multiply-add; 0 × ∞ sets NV whatever the addend (R40). -/
def FV.fma (rm : Rm) (x y z : FV) : FV × Fl :=
  if FV.zeroInf x y then (.nan, Fl.nv)
  else if x.isNan || y.isNan || z.isNan then (.nan, 0#7)
  else FV.add rm (FV.mul x y).1 z

/-- Quotient, with a sticky last bit, of more precision than any format (R40). -/
def FV.div (x y : FV) : FV × Fl :=
  match x, y with
  | .nan, _ => (.nan, 0#7)
  | _, .nan => (.nan, 0#7)
  | .inf _, .inf _ => (.nan, Fl.nv)
  | .inf s, .fin t _ _ => (.inf (s != t), 0#7)
  | .fin s _ _, .inf t => (.fin (s != t) 0 0, 0#7)
  | .fin s m e, .fin t n g =>
    if n = 0 then (if m = 0 then (.nan, Fl.nv) else (.inf (s != t), Fl.dz))
    else if m = 0 then (.fin (s != t) 0 0, 0#7)
    else
      let k := 120 + Nat.log2 n
      let q := m * 2 ^ k / n
      let st := if m * 2 ^ k % n = 0 then 0 else 1
      (.fin (s != t) (2 * q + st) (e - g - k - 1), 0#7)

/-- Square root, with a sticky last bit; √−0 = −0 (R40, R96). -/
def FV.sqrt (x : FV) : FV × Fl :=
  match x with
  | .nan => (.nan, 0#7)
  | .inf s => if s then (.nan, Fl.nv) else (.inf false, 0#7)
  | .fin s m e =>
    if m = 0 then (.fin s 0 0, 0#7)
    else if s then (.nan, Fl.nv)
    else
      let odd := e % 2 ≠ 0
      let m1 := if odd then 2 * m else m
      let e1 := if odd then e - 1 else e
      let n := m1 * 2 ^ 240
      let r := Nat.sqrt n
      let st := if r * r = n then 0 else 1
      (.fin false (2 * r + st) (e1 / 2 - 121), 0#7)

/-- Order of two values that are no NaN; −0 and +0 are equal. -/
def FV.lt (x y : FV) : Bool :=
  match x, y with
  | .nan, _ => false
  | _, .nan => false
  | .inf s, .inf t => s && !t
  | .inf s, .fin _ _ _ => s
  | .fin _ _ _, .inf t => !t
  | .fin s m e, .fin t n g =>
    let q := min e g
    decide (sgnAt s m e q < sgnAt t n g q)
def FV.eq (x y : FV) : Bool := !x.isNan && !y.isNan && !(FV.lt x y) && !(FV.lt y x)
/-- Order with −0 below +0 (R122). -/
def FV.ltZ (x y : FV) : Bool := FV.lt x y || (x.isZero && y.isZero && x.sign && !y.sign)

/-- The condition codes of `FCMP` and floating `VCMP` (R95, R124): the result and the NV flag. -/
def FV.cmp (cond : BitVec 3) (x y : FV) : Bool × Fl :=
  let un := x.isNan || y.isNan
  let nv := if un then Fl.nv else 0#7
  match cond.toNat with
  | 0 => (FV.eq x y, 0#7)
  | 1 => (!FV.eq x y, 0#7)
  | 2 => (FV.lt x y, nv)
  | 3 => (FV.lt x y || FV.eq x y, nv)
  | 4 => (FV.lt y x, nv)
  | 5 => (FV.lt y x || FV.eq x y, nv)
  | 6 => (un, 0#7)
  | _ => (!un, 0#7)

/-- A value converted to an integer between lo and hi (R50). -/
def FV.toInt (rm : Rm) (lo hi : Int) (x : FV) : Int × Fl :=
  match x with
  | .nan => (0, Fl.nv)
  | .inf s => (if s then lo else hi, Fl.nv)
  | .fin s m e =>
    let r := roundTo rm s m e 0
    let v : Int := if s then -(r.1 : Int) else r.1
    if v < lo then (lo, Fl.nv) else if hi < v then (hi, Fl.nv) else (v, if r.2 then Fl.nx else 0#7)

/-- An integer as an exact value; zero is +0. -/
def FV.ofInt (i : Int) : FV := .fin (decide (i < 0)) i.natAbs 0

/-- A value rounded to an integral value of the same sign (`rint`, R128). -/
def FV.rint (rm : Rm) (x : FV) : FV × Fl :=
  match x with
  | .fin s m e =>
    let r := roundTo rm s m e 0
    (.fin s r.1 0, if r.2 then Fl.nx else 0#7)
  | x => (x, 0#7)

/-- Conversion between floating formats (R50). -/
def cvtFF (src dst : Fmt) (c : RCtl) (x : Nat) : Nat × Fl := dst.round c (src.val c.ftz x)
/-- Conversion from a floating format to an n-bit integer, as its bits (R50). -/
def cvtFI (src : Fmt) (n : Nat) (c : RCtl) (x : Nat) : Nat × Fl :=
  let r := (src.val c.ftz x).toInt c.rm (-(2 ^ (n - 1) : Int)) (2 ^ (n - 1) - 1)
  ((r.1 % (2 ^ n : Int)).toNat, r.2)
/-- Signed value of the low n bits. -/
def sInt (n x : Nat) : Int :=
  let y := x % 2 ^ n
  if y < 2 ^ (n - 1) then (y : Int) else (y : Int) - 2 ^ n
/-- Conversion from an n-bit integer to a floating format (R50). -/
def cvtIF (n : Nat) (dst : Fmt) (c : RCtl) (x : Nat) : Nat × Fl := dst.round c (FV.ofInt (sInt n x))
/-- Saturation of an integer to n bits, IS when it saturates (R50), as its bits. -/
def satInt (n : Nat) (i : Int) : Nat × Fl :=
  if i < -(2 ^ (n - 1) : Int) then (2 ^ (n - 1), Fl.isat)
  else if (2 ^ (n - 1) - 1 : Int) < i then (2 ^ (n - 1) - 1, Fl.isat)
  else ((i % (2 ^ n : Int)).toNat, 0#7)

/-- An operation's exact result rounded, its invalid flags joined. -/
def Fmt.finish (f : Fmt) (c : RCtl) (r : FV × Fl) : Nat × Fl :=
  let q := f.round c r.1
  (q.1, q.2 ||| r.2)

def Fmt.add (f : Fmt) (c : RCtl) (x y : Nat) : Nat × Fl := f.finish c (FV.add c.rm (f.val c.ftz x) (f.val c.ftz y))
def Fmt.sub (f : Fmt) (c : RCtl) (x y : Nat) : Nat × Fl := f.finish c (FV.add c.rm (f.val c.ftz x) (f.val c.ftz y).neg)
def Fmt.mul (f : Fmt) (c : RCtl) (x y : Nat) : Nat × Fl := f.finish c (FV.mul (f.val c.ftz x) (f.val c.ftz y))
def Fmt.fma (f : Fmt) (c : RCtl) (x y z : Nat) : Nat × Fl :=
  f.finish c (FV.fma c.rm (f.val c.ftz x) (f.val c.ftz y) (f.val c.ftz z))
def Fmt.fms (f : Fmt) (c : RCtl) (x y z : Nat) : Nat × Fl :=
  f.finish c (FV.fma c.rm (f.val c.ftz x) (f.val c.ftz y) (f.val c.ftz z).neg)
def Fmt.div (f : Fmt) (c : RCtl) (x y : Nat) : Nat × Fl := f.finish c (FV.div (f.val c.ftz x) (f.val c.ftz y))
def Fmt.sqrt (f : Fmt) (c : RCtl) (x : Nat) : Nat × Fl := f.finish c (FV.sqrt (f.val c.ftz x))

/-- `VMIN` and `VMAX` of floating lanes (R122): −0 below +0, a NaN gives way, no flag. -/
def Fmt.minmax (f : Fmt) (ftz isMax : Bool) (x y : Nat) : Nat :=
  let a := f.val ftz x
  let b := f.val ftz y
  let fl (v : FV) (z : Nat) : Nat := match v with | .nan => f.canon | .fin s 0 _ => f.zeroBits s | _ => z
  match a, b with
  | .nan, .nan => f.canon
  | .nan, v => fl v y
  | v, .nan => fl v x
  | v, w => if FV.ltZ v w != isMax then fl v x else fl w y

end Sys2Proof.Machine
end

