-- ==== Sys2Proof/Machine/State.lean ====
section
/-! DEFINITION. The state of the Sudom B4 and its value after reset: every register, memory, queue, table and counter the
spec names, and the model's own fields `now`, `cur`, `agenda`, `free` (notes/assumptions 1 and 4). -/

namespace Sys2Proof.Machine

open Sys2Proof

/-! ## Faults and refusals -/

/-- Reasons a step stops with a fault. No meaning of this model raises one: every exception of the spec is a next state. -/
inductive Fault where
  /-- Kept so that the type is inhabited; no step answers it. Safe: a stop claims nothing about the hardware. -/
  | unreachable
  deriving DecidableEq, Repr

/-- Reasons a step is refused. -/
inductive Refusal where
  /-- An instruction without a meaning yet, by its mnemonic. Safe: a refusal claims nothing about the hardware. -/
  | notModelled (mnemonic : String)
  deriving DecidableEq, Repr

/-! ## Causes of traps (R262) -/

inductive Cause where
  | illop | bundle | invreg | align | bounds | mtype | mmeta | tbusy | tcfgbusy | accbusy | collcount | vigil
  | pipechk | poisonkill | tfault | priv | cbcfg | msdc | invtile | asyncmat | ecall | shpat
  deriving DecidableEq, Repr, Inhabited

/-- The code of a cause (R262). -/
def Cause.code (c : Cause) : Nat :=
  match c with
  | .illop => 0x01 | .bundle => 0x02 | .invreg => 0x03 | .align => 0x04 | .bounds => 0x05 | .mtype => 0x06
  | .mmeta => 0x07 | .tbusy => 0x08 | .tcfgbusy => 0x09 | .accbusy => 0x0A | .collcount => 0x0B | .vigil => 0x0C
  | .pipechk => 0x0D | .poisonkill => 0x0E | .tfault => 0x0F | .priv => 0x10 | .cbcfg => 0x11 | .msdc => 0x12
  | .invtile => 0x13 | .asyncmat => 0x14 | .ecall => 0x15 | .shpat => 0x16

/-- Causes that kill instead of entering S (R262). -/
def Cause.kills (c : Cause) : Bool :=
  match c with
  | .vigil | .pipechk | .poisonkill | .msdc => true
  | _ => false

/-- A trap at a slot, with OPND and DETAIL of `xinfo` (R263, R264). -/
structure Trap where
  cause : Cause
  slot : Nat
  opnd : Nat
  detail : Nat
  deriving DecidableEq, Repr, Inhabited

/-! ## Values with poison -/

/-- A scalar value with its poison bit (R246). -/
structure PV where
  v : Word
  p : Bool
  deriving DecidableEq, Repr, Inhabited
def PV.zero : PV := ⟨0#64, false⟩

/-- An address value with its poison bit. -/
structure PA where
  v : Addr
  p : Bool
  deriving DecidableEq, Repr, Inhabited
def PA.zero : PA := ⟨0#72, false⟩

/-- A 32-bit element with its poison bit (accumulators, `cr`). -/
structure EP where
  v : W32
  p : Bool
  deriving DecidableEq, Repr, Inhabited
def EP.zero : EP := ⟨0#32, false⟩

/-- A vector element: value, poison, split mark and whether its check bits disagree (R222). -/
structure El where
  v : W32
  p : Bool
  split : Bool
  fail : Bool
  deriving DecidableEq, Repr, Inhabited
def El.zero : El := ⟨0#32, false, false, false⟩

/-- One bit with its poison bit (mask elements, `cf`). -/
structure MB where
  b : Bool
  p : Bool
  deriving DecidableEq, Repr, Inhabited
def MB.zero : MB := ⟨false, false⟩

/-- An entry of the shuffle-pattern memory (R139). -/
structure ShE where
  v : BitVec 512
  valid : Bool
  p : Bool
  deriving DecidableEq, Repr, Inhabited
def ShE.zero : ShE := ⟨0#512, false, false⟩

/-- A position of a reply head: the command that reserved it and, once arrived, its value (R189). -/
structure RQ where
  seq : BitVec 16
  val : Option PV
  deriving DecidableEq, Repr, Inhabited

/-! ## Writes not yet visible (R8-R10, R86) -/

/-- A write that becomes visible at a later cycle. An element write whose value is `none` marks poison only (R119). -/
inductive Wr where
  | s (n : Nat) (v : PV)
  | ssplit (n : Nat) (fail : Bool)
  | sh (n : Nat) (v : PV)
  | a (n : Nat) (v : PA)
  | asplit (n : Nat) (fail : Bool)
  | uret
  | p (n : Nat) (b pz : Bool)
  | g (v : BitVec 16)
  | lc (v : Word)
  | ec (v : Word)
  | rrb (v : BitVec 5)
  | fpcsr (v : Word)
  | fflags (f : Fl)
  | uvec (v : Word)
  | xsel (n : Nat) (v : Word)
  | ysel (n : Nat) (v : BitVec 16)
  | v (n : Nat) (els : List (Nat × Option W32 × Bool))
  | vsplit (n : Nat) (cells : List Nat) (fail : Bool)
  | m (n : Nat) (els : List (Nat × Option Bool × Bool))
  | cr (els : List (Nat × Option W32 × Bool))
  | cf (bn : Nat) (els : List (Nat × Option Bool × Bool))
  | cfs (els : List (Nat × Option Bool × Bool))
  | acc (n : Nat) (els : List (Nat × Option W32 × Bool))
  | svq (v : PV)
  | vsq (v : PV)
  | pop (q : Nat)
  | mmS (n : Nat)
  | mmA (n : Nat)
  | mmP (n : Nat)
  | mmV (n : Nat)
  | mmM
  | rot (lcb : Bool)
  | shLoad (first : Nat) (es : List ShE)
  | shSwap
  | csr (n : Nat) (v : Word)
  | td (n : Nat) (img : BitVec 1024)
  | tcfg (z : BitVec 3)
  | pipechk
  deriving DecidableEq, Repr

/-- A pending write: the cycle from which it is visible, its place in the order of R10 (issue cycle, slot), what it writes. -/
structure PW where
  due : Nat
  ord : Nat
  w : Wr
  deriving DecidableEq, Repr

/-- What a vector slot captures at issue (R8, R13, R117). -/
structure Cap where
  t : Nat
  slot : Nat
  xs : Word
  ys : BitVec 16
  gm : Option (BitVec 3)
  rrb : BitVec 5
  rm : BitVec 2
  ftz : Bool
  f8sat : Bool
  sc : PV
  ea : Addr
  sh : ShE
  dup : Nat
  bn : Nat
  deriving DecidableEq, Repr, Inhabited

/-- A vector slot in the wavefront, with what it has gathered on the rows already executed (R135), its flags and
whether its check copy differed (R220). -/
structure Wave where
  ins : Instr
  cap : Cap
  gath : List (Nat × Option W32 × Bool × Bool)
  fl : Fl
  mis : Bool
  deriving DecidableEq, Repr

/-- A store to the own scratchpad of this cycle: its place in the order of R146, offset, bytes and poison; with `only` it
marks the word poisoned and writes no byte (R119). -/
structure StQ where
  ord : Nat
  off : Nat
  bytes : List Byte
  p : Bool
  only : Bool
  deriving DecidableEq, Repr

/-! ## The scalar side of an array -/

/-- The scalar side (R58-R63, R67, R113, R220, R222). `far`: the issue point lies at or above 2³², as a handler offset in `uvec` can (R61). -/
structure Sca where
  pc : BitVec 32
  far : Bool
  readyAt : Nat
  issuedAt : Option Nat
  s : SMap PV
  sv : BitVec 64
  smm : BitVec 64
  ssplit : BitVec 64
  sfail : BitVec 64
  asplit : BitVec 16
  afail : BitVec 16
  sh : SMap PV
  a : SMap PA
  av : BitVec 16
  amm : BitVec 16
  p : BitVec 8
  pp : BitVec 8
  pmm : BitVec 8
  g : BitVec 16
  lc : Word
  ec : Word
  rrb : BitVec 5
  fpcsr : Word
  uvec : Word
  xsel : SMap Word
  ysel : SMap (BitVec 16)
  svq : List PV
  vsq : List PV
  heads : SMap (List RQ)
  hAct : Bool
  hRet : BitVec 32
  hWait : Bool
  uirq : List (Word × Word)
  pend : List PW
  chkErr : Word
  deriving DecidableEq, Repr

/-! ## The cells of an array -/

/-- A byte of the own scratchpad as it was before a store of the bundle issued at `t`, with the poison of its word: what the vector
reads of that bundle still see (R102, R240). -/
structure OldB where
  t : Nat
  key : Nat
  b : Byte
  p : Bool
  deriving DecidableEq, Repr

structure Cel where
  v : SMap El
  vv : BitVec 64
  vmm : BitVec 64
  m : SMap MB
  mv : BitVec 8
  cr : SMap EP
  cf : SMap MB
  cfs : SMap MB
  cfBase : SMap MB
  cfLog : List (Nat × Nat × MB)
  cfTimes : List Nat
  acc : SMap EP
  accv : BitVec 8
  shp : SMap ShE
  shAct : Bool
  shBusy : Nat
  waves : List Wave
  stq : List StQ
  old : List OldB
  vflagAt : Option Nat
  deriving DecidableEq, Repr

/-! ## The matrix side of an array (06) -/

/-- A loop nest table: header, six level records, their tile-predicate bindings (R152). -/
structure NestTab where
  hdr : BitVec 256
  lev : SMap (BitVec 256)
  bind : SMap (BitVec 5)
  deriving DecidableEq, Repr, Inhabited
def NestTab.zero : NestTab := ⟨0, [], []⟩

/-- State of a stationary plane (R164); the active plane is `invalid` or `loaded` (VALID). -/
inductive PlSt where
  | invalid | loading | loaded
  deriving DecidableEq, Repr, Inhabited

/-- A stationary plane (R164-R167): descriptor, tensor image, stored elements (raw code and poison, keyed by
output index × 4,096 + stored position), metadata words, recorded metadata fault (word, group). -/
structure Plane where
  st : PlSt
  desc : BitVec 256
  td : BitVec 1024
  els : SMap (Nat × Bool)
  metaW : SMap (Nat × Bool)
  nmeta : Nat
  fault : Option (Nat × Nat)
  deriving DecidableEq, Repr, Inhabited
def Plane.empty : Plane := ⟨.invalid, 0, 0, [], [], 0, none⟩

/-- The dataflows of `MGO` (R159). -/
inductive Flow where
  | ip | op | rw
  deriving DecidableEq, Repr, Inhabited

/-- A nest's captured table and its running state (R156, R158). -/
structure Nest where
  flow : Flow
  tab : NestTab
  kval : SMap Word
  tdA : BitVec 1024
  tdB : BitVec 1024
  tdC : BitVec 1024
  idx : List Nat
  zpend : Bool
  used : BitVec 6
  fin : Bool
  deriving DecidableEq, Repr, Inhabited

/-- What a command captures for translation (R285). -/
structure TrCap where
  part : Nat
  ctx : BitVec 16
  base : BitVec 56
  limit : BitVec 56
  off : BitVec 56
  tlb : Word
  deriving DecidableEq, Repr, Inhabited

/-- A request of the merge buffer with its key (R176-R178): `xctx`, whether contexts may mix, is taken at issue with the rest of it (R341). -/
structure MmsReq where
  arr : Nat
  seq : BitVec 16
  ctx : BitVec 16
  prio : Nat
  desc : BitVec 256
  tdA : BitVec 1024
  tdB : BitVec 1024
  hold : Nat
  arrival : Nat
  bkey : Nat
  bvault : Option Nat
  row0 : Nat
  tr : TrCap
  xctx : Bool
  deriving DecidableEq, Repr, Inhabited

/-- What a matrix command does at its turn (R150). -/
inductive MKind where
  | mgo (n : Nest)
  | mms (r : MmsReq)
  | mwt (desc : BitVec 256) (td : BitVec 1024)
  | mswp
  | mz (acc : Nat)
  | mst (acc res : Nat) (ef : Bool) (ea : Addr) (td : BitVec 1024)
  | mla (acc : Nat) (ea : Addr) (td : BitVec 1024)
  deriving DecidableEq, Repr

/-- A unit that the matrix engine has still to write: address, bytes, poison by byte (R238, R242). -/
structure MWr where
  va : Addr
  bytes : List Byte
  pz : List Bool
  deriving DecidableEq, Repr

/-- An outstanding matrix command: the scratchpad tiles it holds engine-owned, when it issued, whether it has started
and whether its effect is whole, the cause it leaves pending, its flags for `fpcsr`, its stickies for `MSTAT`, the translation it
captured (R285), the units of 16 bytes its current step has read, by number (bytes, poison by byte), the units it has still to write (R242),
the generation it waits at when an access of it has parked (R295), and the k-groups in which a band's A is zero (R160). -/
structure MCmd where
  seq : BitVec 16
  kind : MKind
  ui : Bool
  tiles : List Nat
  t : Nat
  started : Bool
  whole : Bool
  bad : Option Cause
  fl : Fl
  ms : BitVec 9
  tr : TrCap
  buf : SMap (Nat × Nat)
  wr : List MWr
  park : Option Nat
  zg : Nat
  deriving DecidableEq, Repr

structure Mat where
  k : SMap Word
  nest : NestTab
  act : Plane
  shd : Plane
  seq : BitVec 16
  cmds : List MCmd
  cseq : BitVec 16
  stick : BitVec 9
  pendc : List (BitVec 16 × Cause)
  deriving DecidableEq, Repr

/-! ## Levels, kernels and the running task (01, 12) -/

/-- Domains of levels (R27): CELL, ROW, ARRAY, CHAIN, QUAD, DIE, DEVICE, GROUP; scopes REG, ARRAY, VAULT, QUAD, DIE, DEVICE,
SYSTEM, both by their codes (R265). -/
structure Level where
  dom : Nat
  scope : Nat
  ext : Nat
  deriving DecidableEq, Repr, Inhabited

/-- Why the sequencer has stopped issuing (R278, R295, R310, R223). -/
inductive Stop where
  | no | exit (succ : Option Nat) | halt | preempt | park
  | kill (cause : Nat) (xinfo : Word) (pc : BitVec 32) (fail : Bool)
  deriving DecidableEq, Repr, Inhabited

/-- The running task of an array: its number in the TGM's table (`none`: no task), the kernel image and the
declarations it runs with. -/
structure Tsk where
  run : Bool
  id : Nat
  node : Nat
  code : List W32
  sregs : Nat
  vregs : Nat
  accs : Nat
  spalloc : Nat
  vgrant : Nat
  exch : Bool
  hold : Nat
  nnodes : Nat
  rank : Nat
  nranks : Nat
  dhop : Nat
  members : List Nat
  peers : List Nat
  stream : List (Nat × BitVec 32 × Bool)
  lidx : List Nat
  levels : List Level
  stop : Stop
  c1 : Word
  sig : List (Nat × Word)
  deriving DecidableEq, Repr

/-! ## The copy side of an array (07, 08) -/

/-- A circular buffer (R203, R204); `on` is false while it is unconfigured. -/
structure CBuf where
  on : Bool
  dir : Bool
  zt : Nat
  slots : Nat
  off : Nat
  res : W32
  ful : W32
  tk : W32
  con : W32
  doneSlots : List Nat
  deriving DecidableEq, Repr, Inhabited
def CBuf.none : CBuf := ⟨false, false, 0, 0, 0, 0, 0, 0, 0, []⟩

/-- A wait descriptor (R205). -/
structure WDesc where
  on : Bool
  cb : BitVec 4
  kind : Bool
  count : Nat
  deriving DecidableEq, Repr, Inhabited
def WDesc.none : WDesc := ⟨false, 0, false, 0⟩

/-- A load-block tag (R206): first physical address, lines, whether every line is present, whether it was released
while its fill was in progress. -/
structure LBlk where
  held : Bool
  pa : Nat
  lines : Nat
  ready : Bool
  rel : Bool
  seq : BitVec 16
  deriving DecidableEq, Repr, Inhabited
def LBlk.none : LBlk := ⟨false, 0, 0, false, false, 0⟩

/-- One piece of a command's data, within one unit of R238 on each side: the element it belongs to, the group whose reads of a
source unit are shared, source address (`none`: zeros), destination, bytes, the bits it keeps, whether it is a halo write
(R197) and whether it takes the poison of its whole element (R358), what it has read and whether it is written. -/
structure XPiece where
  el : Nat
  grp : Nat
  src : Option Addr
  cst : Word
  dst : Addr
  n : Nat
  mask : Word
  halo : Bool
  orp : Bool
  got : Option (Word × Bool)
  done : Bool
  deriving DecidableEq, Repr, Inhabited

/-- A remote access that its command's completion does not cover (R241). -/
inductive NKind where
  | wr (va : Addr) (bytes : List Byte) (pz : List Bool)
  | sadd (va : Addr) (mode : Nat) (val : Word) (skip pz : Bool)
  | bin (h : Addr) (hdr : List Nat) (key : Nat) (bytes : List Byte) (pz : List Bool)
  deriving DecidableEq, Repr

/-- An outstanding remote access with its place in issue order and its captured translation; `own` is the task it belongs to
once that task has left the array (R30); `inord`: it performs after the earlier accesses of its command (R301). -/
structure NIOp where
  n : Nat
  seq : BitVec 16
  tr : TrCap
  kind : NKind
  park : Option Nat
  inord : Bool
  own : Option Tsk
  deriving DecidableEq, Repr

/-- The copy-class commands (R186) and the two frame commands (R223). -/
inductive CKind where
  | cpy | cpyg | cpys | cpym | lblk (tag : Nat)
  | nrd (l r : Addr) (n : Nat) | nwr (l r : Addr) (n : Nat) | nrdx | nsadd | nbin
  | natom (op : Nat) (w : Bool) (scope : BitVec 3) (ea : Addr) (x y : PV) (reply : Option Nat)
  | nred (op : BitVec 3) (t : VT) | nmcst (ord : Bool) | ndrain (scope : BitVec 3) | eqx | gbar (level : BitVec 3)
  | ctxsv (ea : Addr) (keep : Bool) | ctxld (ea : Addr)
  deriving DecidableEq, Repr

/-- An outstanding copy-class command: sequence number, place in issue order, captured images and translation, the tiles
and the reply entry it holds, its slot of a circular buffer, the issue order of collectives, the list words it has read,
its pieces once known, and what it has met; `inord`: its accesses perform in their order, one of them having parked (R301). -/
structure CCmd where
  seq : BitVec 16
  n : Nat
  kind : CKind
  desc : BitVec 1024
  tds : BitVec 1024
  tdd : BitVec 1024
  tr : TrCap
  tiles : List Nat
  post : Nat
  ui : Bool
  scb : Option (Nat × Nat)
  dcb : Option (Nat × Nat)
  t : Nat
  nth : Nat
  lbuf : List (Nat × W32 × Bool)
  plan : Option (List XPiece)
  count : Nat
  oob : Bool
  ovf : Bool
  empty : Bool
  fault : Bool
  pz : Bool
  arrived : Bool
  whole : Bool
  park : Option Nat
  inord : Bool
  old : Option PV
  deriving DecidableEq, Repr

/-- The copy side. `unmet`: reductions still to issue here whose participants have given unequal operations (level, place among the
reductions of the level; R215). -/
structure Cpy where
  cb : SMap CBuf
  wd : SMap WDesc
  tdt : SMap (BitVec 1024)
  lb : SMap LBlk
  seq : BitVec 16
  nissue : Nat
  cmds : List CCmd
  ni : List NIOp
  coll : SMap Nat
  unmet : List (Nat × Nat)
  z : BitVec 3
  own : BitVec 1024
  tv : BitVec 1024
  exb : Bool
  swapDue : Bool
  deriving DecidableEq, Repr

/-! ## Control and status registers, translation, integrity -/

/-- Per-array control and status registers (R263). `pmc` holds OVF at bit 63. -/
structure Csr where
  xcause : BitVec 8
  xpc : BitVec 32
  xinfo : Word
  part : BitVec 2
  ctx : BitVec 16
  hwbase : BitVec 56
  hwlimit : BitVec 56
  hwoff : BitVec 56
  tlbEn : Bool
  tlbRoot : BitVec 56
  disp : BitVec 4
  preq : Bool
  prio : BitVec 4
  slice : BitVec 24
  sliceCnt : Nat
  svec : BitVec 32
  pprv : BitVec 2
  prv : BitVec 2
  pmc : SMap Word
  pmsel : SMap (BitVec 10)
  deriving DecidableEq, Repr

/-- A cached leaf translation (R289): partition, context, page size 0 to 2, virtual page, physical address of the page, R W A. -/
structure TlbE where
  part : Nat
  ctx : BitVec 16
  size : Nat
  vpn : Nat
  pa : Nat
  r : Bool
  w : Bool
  a : Bool
  deriving DecidableEq, Repr, Inhabited

/-- What the asynchronous reads of a cycle have taken of a parity group (R231, R235): direct reads by bank and index, a bank that a
synchronous access has taken, whether the whole group is used by a reconstruction or a scrub, whether a reconstruction uses the parity bank,
whether any asynchronous access has reached the group, and the cycle from which it accepts others after a write to a retired bank. -/
structure GUse where
  direct : List (Nat × Nat)
  taken : List Nat
  whole : Bool
  recon : Bool
  busy : Bool
  excl : Nat
  deriving DecidableEq, Repr
def GUse.none : GUse := ⟨[], [], false, false, false, 0⟩

/-- Scratchpad integrity of an array (R229-R235, R302-R309): retirement registers, uncorrectable counters, parity words
and the stale and lost maps keyed by group × 4,096 + index, the parity update queues by group (oldest first), the
patrol-scrub position and wait of each group, what the reads of the cycle have taken of each group, the asynchronous reads that wait and
those granted that have not performed yet (R231), whether a second failing bank of a group keeps dispatch away, and whether firmware has taken the array out of service. -/
structure Itg where
  rbank : BitVec 64
  gret : BitVec 16
  go : Bool
  bank : BitVec 6
  ucnt : SMap Nat
  par : SMap (BitVec 128)
  puq : SMap (List (Nat × BitVec 128))
  stale : SMap Bool
  lost : SMap Bool
  scrub : SMap Nat
  scrubWait : SMap Nat
  use : SMap GUse
  waits : List AReq
  granted : List AReq
  noDisp : Bool
  out : Bool
  deriving DecidableEq, Repr

/-- An array. -/
structure Arr where
  sca : Sca
  cel : Cel
  mat : Mat
  cpy : Cpy
  tsk : Tsk
  csr : Csr
  tlb : List TlbE
  itg : Itg
  deriving DecidableEq, Repr

/-! ## Quads (R25, R178-R181, R263, R275) -/

/-- A stack of the merge buffer: its requests in band order, whether it is open, the cycle it was dispatched, whether it runs. -/
structure Stk where
  reqs : List MmsReq
  owner : Nat
  isOpen : Bool
  at_ : Nat
  run : Bool
  merged : Bool
  deriving DecidableEq, Repr

/-- A quad: `mpol`, its stacks, and its power state: gated, the cycle its wake ends, the cycle since which it is idle. -/
structure Quad where
  qcap : Nat
  xctx : Bool
  men : Bool
  stks : List Stk
  gated : Bool
  wake : Option Nat
  idle : Nat
  deriving DecidableEq, Repr

def Quad.reset : Quad := { qcap := 0x1000, xctx := false, men := true, stks := [], gated := false, wake := none, idle := 0 }

/-! ## Dies -/

/-- Outcome of a walk (R288): a leaf, or a fault kind with the level at which the walk stopped. -/
inductive WalkRes where
  | leaf (size pfn : Nat) (r w a : Bool)
  | fault (kind level : Nat)
  deriving DecidableEq, Repr, Inhabited

/-- What an access that waits on a walk belongs to: a copy-class command, an outstanding remote access, a matrix command. -/
inductive WUnit where
  | cpy | ni | mat
  deriving DecidableEq, Repr

/-- An access waiting on a walk: array, sequence number, address, kind of access (0 read, 1 write, 2 atomic), and whose it is. -/
structure Waiter where
  arr : Nat
  seq : BitVec 16
  va : Addr
  acc : Nat
  unit : WUnit
  deriving DecidableEq, Repr

/-- A walk in flight (R289, R292): its tag, root, the generation recorded at its start and what it read first. -/
structure Walk where
  part : Nat
  ctx : BitVec 16
  vpn : Nat
  root : Nat
  tgen : W32
  res : WalkRes
  waiters : List Waiter
  deriving DecidableEq, Repr

/-- The virtual channels of a die's links (R253). -/
inductive Chan where
  | request | response | multicast | system
  deriving DecidableEq, Repr
/-- The links of a die's folded Clos network (R253): slice and edge, array (0 to 31 of the die) and edge, edge and middle switch, middle
and top switch, and the port of a top switch to the top switch of the same number on another die. -/
inductive Link where
  | slice (s : Nat) | array (i : Nat) | edgeMid (e m : Nat) | midTop (m t : Nat) | port (t die : Nat)
  deriving DecidableEq, Repr
/-- A cache slice: the first cycle in which it may send another flit of a group (R255), and its counts (R256): multicast requests, groups opened, requests joined to an open group, groups sent, and lines filled
and hit for groups. -/
structure SliceCnt where
  next : Nat
  req : Nat
  opened : Nat
  joined : Nat
  sent : Nat
  fills : Nat
  hits : Nat
  deriving DecidableEq, Repr
def SliceCnt.zero : SliceCnt := ⟨0, 0, 0, 0, 0, 0, 0⟩

/-- A multicast group (R208, R255): number, key, mask, window, cycle of opening, members, whether it has closed, its place in the order in
which the die's groups closed, the 16-byte units of its span that the slice has sent, and the arrays that had joined when it closed. -/
structure MGrp where
  num : Nat
  pa : Nat
  tds : BitVec 1024
  desc : BitVec 1024
  home : Nat
  mask : BitVec 32
  win : Nat
  at_ : Nat
  members : List (Nat × BitVec 16)
  shut : Bool
  ord : Nat
  pos : Nat
  tos : List Nat
  deriving DecidableEq, Repr

/-- A die: its 1.6 GHz cycle count with the fraction of a throttled clock (in 1/105 of a cycle), throttle step and the one that a change goes to, whether it
accepts dispatch, whether its expander answers, its partition, fault-buffer generation, place, capacity and pending
flag, the shoot-down registers, the arrays that owe an acknowledgement, its TLB, walks and multicast groups with the numbers of groups
opened and closed, the flits counted on each link and channel (R255) and the counts of its slices, its error
counters by place, its run of good monitor periods and its installed second-tier capacity in GiB. -/
structure Die where
  cyc : Nat
  sub : Nat
  thr : Nat
  thrReq : Option Nat
  svc : Bool
  expOk : Bool
  part : Nat
  fbgen : W32
  fbAddr : Nat
  fbNrec : Nat
  fpend : Bool
  tgen : W32
  sdGo : Bool
  sdDone : Bool
  sdDies : BitVec 4
  sdKind : BitVec 2
  sdCtx : BitVec 16
  sdva : BitVec 56
  owed : List Nat
  tlb : List TlbE
  walks : List Walk
  grps : List MGrp
  ngrp : Nat
  nshut : Nat
  flits : List ((Link × Chan) × Nat)
  slice : SMap SliceCnt
  corr : SMap Nat
  unc : SMap Nat
  good : Nat
  instcap : Nat
  deriving DecidableEq, Repr

def Die.reset : Die :=
  { cyc := 0, sub := 0, thr := 0, thrReq := none, svc := false, expOk := true, part := 0, fbgen := 0, fbAddr := 0, fbNrec := 4096, fpend := false,
    tgen := 0, sdGo := false, sdDone := true, sdDies := 0, sdKind := 0, sdCtx := 0, sdva := 0, owed := [], tlb := [], walks := [],
    grps := [], ngrp := 0, nshut := 0, flits := [], slice := [], corr := [], unc := [], good := 0, instcap := 768 }

/-! ## Partitions, contexts, queues, launches and tasks -/

/-- A replay in progress (R333-R335): its queue, packet index and context, the launch record, the physical pieces of the replay record, passes run,
the launch of the pass, captured pages with their copies in order, signatures and flags, and whether the next pass is prepared and waits for
its shoot-down. -/
structure Replay where
  q : Nat
  idx : Nat
  ctx : BitVec 16
  rec_ : Addr
  rrec : List (Nat × Nat)
  npass : Nat
  pass : Nat
  launch : Option Nat
  pages : List Nat
  full : Bool
  sigs : List Word
  flags : Nat
  prep : Bool
  deriving DecidableEq, Repr

/-- A partition (R259, R341, R343): system image and trap entry, parameters, BAR2 offset, power share, whether it is in stage 1,
mailbox request and reply bytes with MBDOOR, re-run counters by cause, and the replay in progress. -/
structure Part where
  image : List W32
  svec : BitVec 32
  slice : Nat
  limit : Nat
  thresh : Nat
  gate : Bool
  bar2 : Nat
  share : Nat
  stage1 : Bool
  mbReq : SMap Byte
  mbRep : SMap Byte
  mbDoor : Bool
  shoot : Bool
  reruns : SMap Nat
  replay : Option Replay
  deriving DecidableEq, Repr

def Part.reset : Part :=
  { image := [], svec := 0, slice := 4096, limit := 4, thresh := 3, gate := true, bar2 := 0, share := 0, stage1 := false,
    mbReq := [], mbRep := [], mbDoor := false, shoot := false, reruns := [], replay := none }

/-- A context of a partition (R341 CTXSET). -/
structure Cxt where
  valid : Bool
  base : BitVec 56
  limit : BitVec 56
  off : BitVec 56
  tlb : Word
  deriving DecidableEq, Repr
def Cxt.none : Cxt := ⟨false, 0, 0, 0, 0⟩

/-- What a packet that has been processed still waits for (R323); a copy's pieces by physical source, destination and bytes. -/
inductive PkWait where
  | launch (id : Nat) | copy (pieces : List (Nat × Nat × Nat)) | replay
  deriving DecidableEq, Repr

/-- A slot fetched and kept (R326): packet index, its bytes, whether a byte is poisoned. -/
structure Fetched where
  idx : Nat
  bytes : List Byte
  pz : Bool
  deriving DecidableEq, Repr

/-- A queue (R318-R330): registration with the ring, size, flags, context and vector that its descriptor then gave, kept slots, packets processed and not completed, packets completed that CSEQ has not
passed (with the IRQ mark), the generation it waits at in FAULTWAIT, and the copies handed over before the queue was destroyed, by index. -/
structure Queue where
  on : Bool
  part : Nat
  desc : Nat
  die : Nat
  core : Nat
  pos : Nat
  ring : Nat
  log : Nat
  flags : Nat
  ctx : Nat
  vec : Nat
  kept : List Fetched
  pend : List (Nat × Bool × PkWait)
  fin : List (Nat × Bool)
  parked : Option Nat
  left : List (Nat × PkWait)
  deriving DecidableEq, Repr
def Queue.none : Queue := ⟨false, 0, 0, 0, 0, 0, 0, 0, 0, 0, 0, [], [], [], Option.none, []⟩

/-- A launch accepted by the TGM (R268, R272): its queue and packet index, partition, context, the bytes of its record as read
at acceptance, the physical pages of the record, whether it is final, and its nodes' re-run counts. -/
structure Launch where
  q : Nat
  idx : Nat
  part : Nat
  ctx : BitVec 16
  rec_ : Addr
  bytes : List Byte
  pages : List Nat
  fin : Bool
  reruns : SMap Nat
  lost : SMap Bool
  deriving DecidableEq, Repr

/-- States of a task, with the codes of R272. -/
inductive TState where
  | waiting | held | ready | running | preempted | parked | done | failed
  deriving DecidableEq, Repr, Inhabited

/-- A task of the TGM: launch, node, instance indices of every level, state, place in the pool, arrays it runs or was saved on
in order of rank, the arrays as they were saved with the context frames written for them, the array its vault grant or a kept scratchpad binds it to, the arrays it was killed on,
whether its state is S code's park, and the generation its parks wait at. -/
structure Task where
  launch : Nat
  node : Nat
  inst : List Nat
  st : TState
  order : Nat
  arrs : List Nat
  saved : List Arr
  frames : List (SMap Byte)
  bound : Option Nat
  avoid : List Nat
  lost : Bool
  parkGen : Option Nat
  deriving DecidableEq, Repr

/-! ## Links and the device (R339-R345, R353) -/

/-- A Balkor port (R344): down, consecutive failed replays, failed retrainings, retraining in progress, and the flits of each channel in its
replay buffer, sent and not acknowledged. -/
structure Port where
  down : Bool
  fails : Nat
  retrains : Nat
  training : Bool
  buf : List (Chan × Nat)
  deriving DecidableEq, Repr
def Port.reset : Port := ⟨false, 0, 0, false, []⟩

/-- The Almanac of a firmware core (R337): version, core, frame in firmware cycles, number of slots, slot entries. -/
structure Almanac where
  ver : Nat
  core : Nat
  frame : Nat
  nslot : Nat
  slots : List (BitVec 16)
  deriving DecidableEq, Repr
def Almanac.none : Almanac := ⟨0, 0, 0, 0, []⟩

/-- The device: stage, BOOTERR, the three group words, error ring, group, bridge, routing table, ports, MSI-X messages sent
(function, vector), the first die in service and the dies checked (d passed, 4 + d failed), the Almanacs loaded (by 4 × die + core; R337),
the digests measured at boot in load order and the attestation key made at boot (R352), and the value the last host read or AtomicOp was
answered with. -/
structure Dev where
  stage : BitVec 2
  bootErr : Bool
  errdev : Word
  mbdev : Word
  fbdev : Word
  ring : Nat
  ringK : Nat
  ringWix : W32
  ringRix : W32
  group : Nat
  self : Nat
  bridge : Bool
  routes : SMap (BitVec 16)
  ports : SMap Port
  msix : List (Nat × Nat)
  first : Option Nat
  checked : List Nat
  alm : SMap Almanac
  meas : List (List Byte)
  attKey : Word
  hostVal : Word
  deriving DecidableEq, Repr

def Dev.reset : Dev :=
  { stage := 0, bootErr := false, errdev := 0, mbdev := 0, fbdev := 0, ring := 0, ringK := 6, ringWix := 0, ringRix := 0, group := 1,
    self := 0, bridge := true, routes := [], ports := [], msix := [], first := none, checked := [],
    alm := [], meas := [], attKey := 0, hostVal := 0 }

/-! ## Reset values of an array -/

/-- The scalar side at reset. DESIGN CHOICE (unsafe; notes/assumptions 3). -/
def Sca.reset : Sca :=
  { pc := 0, far := false, readyAt := 0, issuedAt := none, s := [], sv := 0, smm := 0, ssplit := 0, sfail := 0, asplit := 0, afail := 0,
    sh := [], a := [], av := 0,
    amm := 0, p := 0, pp := 0, pmm := 0, g := 0, lc := 0, ec := 0, rrb := 0, fpcsr := 0, uvec := 0, xsel := [], ysel := [],
    svq := [], vsq := [], heads := [], hAct := false, hRet := 0, hWait := false, uirq := [], pend := [], chkErr := 0 }

def Cel.reset : Cel :=
  { v := [], vv := 0, vmm := 0, m := [], mv := 1, cr := [], cf := [], cfs := [], cfBase := [], cfLog := [], cfTimes := [], acc := [],
    accv := 0, shp := [], shAct := false, shBusy := 0, waves := [], stq := [], old := [], vflagAt := none }

def Mat.reset : Mat :=
  { k := [], nest := NestTab.zero, act := Plane.empty, shd := Plane.empty, seq := 0, cmds := [], cseq := 0xFFFF, stick := 0,
    pendc := [] }

def Cpy.reset : Cpy :=
  { cb := [], wd := [], tdt := [], lb := [], seq := 0, nissue := 0, cmds := [], ni := [], coll := [], unmet := [], z := 0, own := 0,
    tv := BitVec.allOnes 1024, exb := false, swapDue := false }

def Tsk.reset : Tsk :=
  { run := false, id := 0, node := 0, code := [], sregs := 0, vregs := 0, accs := 0, spalloc := 0, vgrant := 0, exch := false, hold := 0,
    nnodes := 0, rank := 0, nranks := 1, dhop := 8, members := [], peers := [], stream := [], lidx := [], levels := [],
    stop := .no, c1 := 0, sig := [] }

def Csr.reset : Csr :=
  { xcause := 0, xpc := 0, xinfo := 0, part := 0, ctx := 0, hwbase := 0, hwlimit := 0, hwoff := 0, tlbEn := false,
    tlbRoot := 0, disp := 0, preq := false, prio := 0, slice := 0, sliceCnt := 0, svec := 0, pprv := 0, prv := 1,
    pmc := [], pmsel := [] }

def Itg.reset : Itg :=
  { rbank := 0, gret := 0, go := false, bank := 0, ucnt := [], par := [], puq := [], stale := [], lost := [], scrub := [],
    scrubWait := [], use := [], waits := [], granted := [], noDisp := false, out := false }

def Arr.reset : Arr :=
  { sca := Sca.reset, cel := Cel.reset, mat := Mat.reset, cpy := Cpy.reset, tsk := Tsk.reset, csr := Csr.reset, tlb := [],
    itg := Itg.reset }

/-! ## The machine -/

/-- The parts of a cycle: the sequencers issue, the arbiters grant the asynchronous reads that wait, reads perform, writes perform (R230,
R231, R239). DEDUCED (unsafe; notes/assumptions 47). -/
inductive Phase where
  | issue | grant | read | write
  deriving DecidableEq, Repr, Inhabited

/-- The machine. Model's own fields: `now`, the cycle count; `cur`, the array whose sequencer moves next; `phase`, the part of the cycle that goes on (R239); `agenda`, the device
steps that happen next; `free`, the free words drawn (notes/assumptions 1 and 4). `pois`: poisoned granules; `err`: bits in error
of a stored word; `line`: cache lines that a fill is bringing (1), that a load-block holds present (2), that are present (3), or present and waiting
for a load-block's room (4); `heal`: for a poisoned unit of 64 bytes
that a command is overwriting, the array, the command's place in issue order and the bytes it has written with clean data (R247). -/
structure State where
  now : Nat
  cur : Nat
  agenda : List Instr
  phase : Phase
  free : Nat
  arr : SMap Arr
  quad : SMap Quad
  die : SMap Die
  part : SMap Part
  cxt : SMap Cxt
  queue : SMap Queue
  launch : SMap (Option Launch)
  nlaunch : Nat
  task : SMap (Option Task)
  ntask : Nat
  norder : Nat
  dev : Dev
  mem : List Host.Cell
  pois : SMap Bool
  err : SMap Nat
  line : SMap Nat
  heal : SMap (Nat × Nat × Nat)
  deriving DecidableEq, Repr

/-- The machine right after reset. -/
def State.reset : State :=
  { now := 0, cur := 0, agenda := [], phase := .issue, free := 0, arr := [], quad := [], die := [], part := [], cxt := [], queue := [], launch := [],
    nlaunch := 0, task := [], ntask := 0, norder := 0, dev := Dev.reset, mem := [], pois := [], err := [], line := [], heal := [] }

end Sys2Proof.Machine
end

