-- ==== Sys2Proof/Machine/Ops.lean ====
section
/-! DEFINITION. The named operations over registers, memory and pending writes, and the entry to S with its return:
R8-R11, R58-R63, R86, R101, R191, R224-R229, R232, R246, R247, R259-R264. -/

namespace Sys2Proof.Machine

open Sys2Proof

/-! ## Arrays -/

def State.getA (s : State) (a : Nat) : Arr := SMap.get Arr.reset s.arr a
def State.setA (s : State) (a : Nat) (x : Arr) : State := { s with arr := SMap.set Arr.reset s.arr a x }
def State.modA (s : State) (a : Nat) (f : Arr → Arr) : State := s.setA a (f (s.getA a))
def Arr.modSca (x : Arr) (f : Sca → Sca) : Arr := { x with sca := f x.sca }
def Arr.modCel (x : Arr) (f : Cel → Cel) : Arr := { x with cel := f x.cel }
def Arr.modMat (x : Arr) (f : Mat → Mat) : Arr := { x with mat := f x.mat }
def Arr.modCpy (x : Arr) (f : Cpy → Cpy) : Arr := { x with cpy := f x.cpy }
def Arr.modTsk (x : Arr) (f : Tsk → Tsk) : Arr := { x with tsk := f x.tsk }
def Arr.modCsr (x : Arr) (f : Csr → Csr) : Arr := { x with csr := f x.csr }
def Arr.modItg (x : Arr) (f : Itg → Itg) : Arr := { x with itg := f x.itg }

/-- A bit of a bit string by a number; false beyond it. -/
def bitAt {n : Nat} (x : BitVec n) (i : Nat) : Bool := x.getLsbD i
/-- A bit string with a bit set or cleared; unchanged beyond it. -/
def bitSet {n : Nat} (x : BitVec n) (i : Nat) (b : Bool) : BitVec n :=
  if n ≤ i then x else if b then x ||| BitVec.ofNat n (2 ^ i) else x &&& ~~~(BitVec.ofNat n (2 ^ i))

def State.getD (s : State) (d : Nat) : Die := SMap.get Die.reset s.die d
def State.setD (s : State) (d : Nat) (x : Die) : State := { s with die := SMap.set Die.reset s.die d x }
def State.modD (s : State) (d : Nat) (f : Die → Die) : State := s.setD d (f (s.getD d))

/-! ## Free values -/

/-- The next free word, and the state with the counter advanced. DESIGN CHOICE (safe; notes/assumptions 4). -/
def State.draw (s : State) : Word × State := (Config.freeWord s.free, { s with free := s.free + 1 })

/-! ## Privilege and registers -/

/-- PRV reads S (R263: 0 U, 1 S; no array runs at M). -/
def Arr.atS (x : Arr) : Bool := x.csr.prv != 0#2

/-- The field values 56 to 63 name `sh0` to `sh7`: while the handler is active (R58, R114). DEDUCED (unsafe; notes/assumptions 21). -/
def Arr.inHandler (x : Arr) : Bool := x.sca.hAct

/-- The scalar register a field value names (R58). -/
def Arr.sGet (x : Arr) (n : R6) : PV :=
  if x.inHandler && decide (56 ≤ n.toNat) then SMap.get PV.zero x.sca.sh (n.toNat - 56)
  else SMap.get PV.zero x.sca.s n.toNat
def Arr.aGet (x : Arr) (n : BitVec 4) : PA := SMap.get PA.zero x.sca.a n.toNat
/-- A predicate; `p0` reads 1 (R58). -/
def Arr.pGet (x : Arr) (n : BitVec 3) : Bool := n == 0#3 || bitAt x.sca.p n.toNat
def Arr.pPois (x : Arr) (n : BitVec 3) : Bool := n != 0#3 && bitAt x.sca.pp n.toNat
/-- A mask element; `m0` reads all ones, clean (R58). -/
def Cel.mGet (c : Cel) (n : Nat) (cell : Nat) : MB :=
  if n = 0 then ⟨true, false⟩ else SMap.get MB.zero c.m (n * 1024 + cell)
/-- An element of a physical vector register. -/
def Cel.vGet (c : Cel) (n : Nat) (cell : Nat) : El := SMap.get El.zero c.v (n * 1024 + cell)
/-- An element of an accumulator tile, row-major over 64 × 512 (R148). -/
def Cel.accGet (c : Cel) (n i : Nat) : EP := SMap.get EP.zero c.acc (n * 32768 + i)
def Cel.accSet (c : Cel) (n i : Nat) (v : EP) : Cel := { c with acc := SMap.set EP.zero c.acc (n * 32768 + i) v }

/-- The physical vector register a name stands for (R62). -/
def vphys (rrb : BitVec 5) (n : R6) : Nat :=
  if n.toNat < 32 then n.toNat else 32 + (n.toNat + 32 - rrb.toNat) % 32

/-! ## Pending writes (R8-R11, R86) -/

/-- A place in the order of R10: issue cycle and slot. -/
def ordOf (t slot : Nat) : Nat := t * 64 + slot

/-- A pending write put in its place: by cycle, then by order, after its equals. -/
def pins (l : List PW) (w : PW) : List PW :=
  match l with
  | [] => [w]
  | x :: l => if w.due < x.due || (w.due == x.due && decide (w.ord < x.ord)) then w :: x :: l else x :: pins l w

def Arr.push (x : Arr) (due ord : Nat) (w : Wr) : Arr :=
  x.modSca fun c => { c with pend := pins c.pend ⟨due, ord, w⟩ }

/-- Elements written into a table: value and poison, or poison alone (R119). -/
def elsPut (base : Nat) (m : SMap El) (els : List (Nat × Option W32 × Bool)) : SMap El :=
  els.foldl (fun m e =>
    let k := base + e.1
    match e.2.1 with
    | some v => SMap.set El.zero m k ⟨v, e.2.2, false, false⟩
    | none => SMap.set El.zero m k { SMap.get El.zero m k with p := true }) m
def epsPut (base : Nat) (m : SMap EP) (els : List (Nat × Option W32 × Bool)) : SMap EP :=
  els.foldl (fun m e =>
    let k := base + e.1
    match e.2.1 with
    | some v => SMap.set EP.zero m k ⟨v, e.2.2⟩
    | none => SMap.set EP.zero m k { SMap.get EP.zero m k with p := true }) m
def mbsPut (base : Nat) (m : SMap MB) (els : List (Nat × Option Bool × Bool)) : SMap MB :=
  els.foldl (fun m e =>
    let k := base + e.1
    match e.2.1 with
    | some v => SMap.set MB.zero m k ⟨v, e.2.2⟩
    | none => SMap.set MB.zero m k { SMap.get MB.zero m k with p := true }) m

/-- The writable bits of `fpcsr` (R46). -/
def fpcsrMask : Word := 0x7F1F#64
/-- The part of a value that CSR `n` keeps, with its RO fields from the old value (R263). -/
def Csr.write (c : Csr) (n : Nat) (v : Word) : Csr :=
  match n with
  | 1 => { c with xpc := v.extractLsb' 0 32 &&& 0xFFFF_FFFC#32 }
  | 4 => { c with hwbase := v.extractLsb' 0 56 }
  | 5 => { c with hwlimit := v.extractLsb' 0 56 }
  | 6 => { c with hwoff := v.extractLsb' 0 56 }
  | 7 => { c with tlbEn := bitAt v 63, tlbRoot := v.extractLsb' 0 56 }
  | 10 => { c with disp := v.extractLsb' 36 4, slice := v.extractLsb' 0 24 }
  | 11 => { c with pprv := v.extractLsb' 2 2 }
  | n =>
    if 16 ≤ n ∧ n ≤ 19 then
      let old := SMap.get 0#64 c.pmc (n - 16)
      let ovf := bitAt old 63 && !bitAt v 63
      { c with pmc := SMap.set 0#64 c.pmc (n - 16) (bitSet ((v.extractLsb' 0 48).setWidth 64) 63 ovf) }
    else if 20 ≤ n ∧ n ≤ 23 then
      { c with pmsel := SMap.set 0#10 c.pmsel (n - 20) (v.extractLsb' 0 10 &&& 0x39F#10) }
    else c

/-- Tile size z with the valid bits of the new tiles: valid where every old tile overlapped was (R192). DESIGN CHOICE (unsafe; notes/assumptions 68). -/
def Cpy.retile (c : Cpy) (alloc : Nat) (z : BitVec 3) : Cpy :=
  let old := 2 ^ (12 + c.z.toNat)
  let new := 2 ^ (12 + z.toNat)
  let ok (t : Nat) : Bool :=
    let last := min (t * new + new) alloc - 1
    (List.range (last / old + 1 - t * new / old)).all fun i => bitAt c.tv (t * new / old + i)
  { c with z := z, tv := (List.range ((alloc + new - 1) / new)).foldl (fun v t => bitSet v t (ok t)) c.tv }

/-- A queue head without its first entry. -/
def Sca.popHead (c : Sca) (q : Nat) : Sca :=
  if q = 0 then { c with svq := c.svq.drop 1 }
  else if q = 1 then { c with vsq := c.vsq.drop 1 }
  else { c with heads := SMap.set [] c.heads q ((SMap.get [] c.heads q).drop 1) }

/-! ## Performance counters (R281) -/

/-- `k` occurrences of an event counted by every enabled counter whose privilege bit matches. -/
def Arr.count (x : Arr) (ev k : Nat) : Arr :=
  (List.range 4).foldl (fun x i =>
    let sel := SMap.get 0#10 x.csr.pmsel i
    if bitAt sel 7 && decide ((sel.extractLsb' 0 5).toNat = ev) && decide (ev < 24) &&
        (if x.atS then bitAt sel 9 else bitAt sel 8) then
      let old := SMap.get 0#64 x.csr.pmc i
      let c := (old.extractLsb' 0 48).toNat + k
      let v := bitSet (BitVec.ofNat 64 (c % 2 ^ 48)) 63 (bitAt old 63 || decide (2 ^ 48 ≤ c))
      x.modCsr fun r => { r with pmc := SMap.set 0#64 r.pmc i v }
    else x) x
/-- One pending write made visible. Writes to `p0` and `m0` are discarded (R58). DESIGN CHOICE (unsafe; notes/assumptions 56). -/
def Arr.apply (x : Arr) (w : Wr) : Arr :=
  match w with
  | .s n v => x.modSca fun c => { c with s := SMap.set PV.zero c.s n v, ssplit := bitSet c.ssplit n false, sfail := bitSet c.sfail n false }
  | .ssplit n fail => x.modSca fun c => { c with ssplit := bitSet c.ssplit n true, sfail := bitSet c.sfail n fail }
  | .sh n v => x.modSca fun c => { c with sh := SMap.set PV.zero c.sh n v }
  | .a n v => x.modSca fun c => { c with a := SMap.set PA.zero c.a n v, asplit := bitSet c.asplit n false, afail := bitSet c.afail n false }
  | .asplit n fail => x.modSca fun c => { c with asplit := bitSet c.asplit n true, afail := bitSet c.afail n fail }
  | .uret => x.modSca fun c => { c with hAct := false }
  | .p n b pz => x.modSca fun c => if n = 0 then c else { c with p := bitSet c.p n b, pp := bitSet c.pp n pz }
  | .g v => x.modSca fun c => { c with g := v }
  | .lc v => x.modSca fun c => { c with lc := v }
  | .ec v => x.modSca fun c => { c with ec := v }
  | .rrb v => x.modSca fun c => { c with rrb := v }
  | .fpcsr v => x.modSca fun c => { c with fpcsr := v &&& fpcsrMask }
  | .fflags f => x.modSca fun c => { c with fpcsr := c.fpcsr ||| (f.setWidth 64 <<< 8) }
  | .uvec v => x.modSca fun c => { c with uvec := v }
  | .xsel n v => x.modSca fun c => { c with xsel := SMap.set 0#64 c.xsel n v }
  | .ysel n v => x.modSca fun c => { c with ysel := SMap.set 0#16 c.ysel n v }
  | .v n els => x.modCel fun c => { c with v := elsPut (n * 1024) c.v els }
  | .vsplit n cells fail => x.modCel fun c =>
      { c with v := cells.foldl (fun m i => SMap.mod El.zero m (n * 1024 + i) fun e => { e with split := true, fail := fail }) c.v }
  | .m n els => x.modCel fun c => if n = 0 then c else { c with m := mbsPut (n * 1024) c.m els }
  | .cr els => x.modCel fun c => { c with cr := epsPut 0 c.cr els }
  | .cf bn els => x.modCel fun c =>
      let cf := mbsPut 0 c.cf els
      { c with cf := cf,
               cfLog := if 1 < x.tsk.nranks then c.cfLog ++ els.map (fun e => (bn, e.1, SMap.get MB.zero cf e.1)) else c.cfLog }
  | .cfs els => x.modCel fun c => { c with cfs := mbsPut 0 c.cfs els }
  | .acc n els => x.modCel fun c => { c with acc := epsPut (n * 32768) c.acc els }
  | .svq v => x.modSca fun c => { c with svq := c.svq ++ [v] }
  | .vsq v => x.modSca fun c => { c with vsq := c.vsq ++ [v] }
  | .pop q => x.modSca fun c => c.popHead q
  | .mmS n => (x.count 23 1).modSca fun c => { c with smm := bitSet c.smm n true }
  | .mmA n => (x.count 23 1).modSca fun c => { c with amm := bitSet c.amm n true }
  | .mmP n => (x.count 23 1).modSca fun c => { c with pmm := bitSet c.pmm n true }
  | .mmV n => (x.count 23 1).modCel fun c => { c with vmm := bitSet c.vmm n true }
  | .mmM => x.count 23 1
  | .rot lcb => x.modSca fun c =>
      { c with rrb := c.rrb + 1#5, g := (c.g <<< 1) ||| (if lcb then 1#16 else 0#16) }
  | .shLoad first es => x.modCel fun c =>
      let base := (if c.shAct then 0 else 64) + first
      { c with shp := (es.zipIdx.foldl (fun m e => SMap.set ShE.zero m (base + e.2) e.1) c.shp) }
  | .shSwap => x.modCel fun c => { c with shAct := !c.shAct }
  | .csr n v => x.modCsr fun c => c.write n v
  | .td n img => x.modCpy fun c => { c with tdt := SMap.set 0#1024 c.tdt n (bitSet img 86 false) }
  | .tcfg z => x.modCpy fun c => c.retile x.tsk.spalloc z
  | .pipechk => x.modTsk fun k =>
      { k with stop := match k.stop with | .kill a b c d => .kill a b c d | _ => .kill (Cause.code .pipechk) 0 x.sca.pc false }

/-- Every pending write due by cycle `t` made visible, in order (R8, R10). -/
def commitList (x : Arr) (t : Nat) (l : List PW) : Arr × List PW :=
  match l with
  | [] => (x, [])
  | w :: l => if w.due ≤ t then commitList (x.apply w.w) t l else (x, w :: l)
def Arr.commit (x : Arr) (t : Nat) : Arr :=
  let r := commitList (x.modSca fun c => { c with pend := [] }) t x.sca.pend
  r.1.modSca fun c => { c with pend := r.2 }

/-! ## Errors of register storage under writes (R302, R313) -/

/-- The key of a word of an array's register storage, for its storage errors. Classes: 0 `s`, 1 `a`, 2 `p`, 3 vector elements, 4 mask
elements, 5 `cr`, 6 accumulators, 7 and 8 the active and the shadow plane, 9 shuffle patterns, 10 the entries of the queues,
11 the staging of the edge loaders by cell, 12 and 13 the metadata of the planes, 14 `sh`; entry `i` of queue `q` is `q + 8 i`. DESIGN CHOICE (unsafe; notes/assumptions 58). -/
def regKey (a cls n : Nat) : Nat := 13 * 2 ^ 68 + a * 2 ^ 40 + cls * 2 ^ 32 + n
/-- The words of register storage that a write rewrites, on an array about to take it. -/
def Wr.words (x : Arr) (w : Wr) : List (Nat × Nat) :=
  match w with
  | .s n _ => [(0, n)]
  | .a n _ => [(1, n)]
  | .p n _ _ => [(2, n)]
  | .v n els => els.map fun e => (3, n * 1024 + e.1)
  | .m n els => els.map fun e => (4, n * 1024 + e.1)
  | .cr els => els.map fun e => (5, e.1)
  | .acc n els => els.map fun e => (6, n * 32768 + e.1)
  | .shLoad first es => es.zipIdx.map fun e => (9, (if x.cel.shAct then 0 else 64) + first + e.2)
  | .sh n _ => [(14, n)]
  | .svq _ => [(10, 8 * x.sca.svq.length)]
  | .vsq _ => [(10, 1 + 8 * x.sca.vsq.length)]
  | _ => []
/-- The errors of storage after a write: those of the words that it rewrites are gone, and those of a popped queue follow its entries. -/
def Wr.errs (a : Nat) (x : Arr) (w : Wr) (m : SMap Nat) : SMap Nat :=
  match w with
  | .pop q => (List.range 31).foldl (fun m i => SMap.set 0 m (regKey a 10 (q + 8 * i)) (SMap.get 0 m (regKey a 10 (q + 8 * (i + 1))))) m
  | w => (w.words x).foldl (fun m e => SMap.set 0 m (regKey a e.1 e.2) 0) m
/-- The same of the writes of an array that are due by cycle `t`, in order. -/
def errsAfter (a t : Nat) (x : Arr) (l : List PW) (m : SMap Nat) : SMap Nat :=
  match l with
  | [] => m
  | w :: l => if w.due ≤ t then errsAfter a t (x.apply w.w) l (w.w.errs a x m) else m
/-- Every error of a class of an array's register storage gone, from word `lo` to `hi`: they are all rewritten. -/
def State.regsNew (s : State) (a cls lo hi : Nat) : State :=
  { s with err := s.err.filter fun e => !(decide (regKey a cls lo ≤ e.1) && decide (e.1 < regKey a cls hi)) }

/-! ## Memory

Keys are physical addresses (R283); SPACE 15 of the key is the model's own range for scratchpads. -/

/-- A byte of memory: the one listed, or else 0. DESIGN CHOICE (unsafe; notes/assumptions 2). -/
def State.byte (s : State) (k : Nat) : Byte := SMap.get 0#8 s.mem k
def State.setByte (s : State) (k : Nat) (b : Byte) : State := { s with mem := SMap.set 0#8 s.mem k b }

/-- `n` bytes from a key, least significant first (R5). -/
def State.readN (s : State) (k n : Nat) : Nat :=
  match n with
  | 0 => 0
  | n + 1 => (s.byte k).toNat + 256 * s.readN (k + 1) n
/-- `n` bytes stored at a key, least significant first (R5). -/
def State.writeN (s : State) (k n v : Nat) : State :=
  match n with
  | 0 => s
  | n + 1 => (s.setByte k (BitVec.ofNat 8 v)).writeN (k + 1) n (v / 256)
def State.bytes (s : State) (k n : Nat) : List Byte := (List.range n).map fun i => s.byte (k + i)
def State.setBytes (s : State) (k : Nat) (l : List Byte) : State :=
  match l with
  | [] => s
  | b :: l => (s.setByte k b).setBytes (k + 1) l

def spaceOf (k : Nat) : Nat := k / 2 ^ 68
def spadBase : Nat := 15 * 2 ^ 68
def vaultBase : Nat := 2 * 2 ^ 68
/-- The key of byte `off` of an array's scratchpad banks. -/
def spadKey (a off : Nat) : Nat := spadBase + a * 2 ^ 24 + off
/-- The key of byte `off` of an array's vault (R283). -/
def vaultKey (a off : Nat) : Nat := vaultBase + a * 2 ^ 24 + off

/-- The poison granule of a key (R246): 32-bit words in scratchpads and vaults, 64-byte units elsewhere. -/
def granule (k : Nat) : Nat := if spaceOf k = 2 ∨ spaceOf k = 15 then k - k % 4 else k - k % 64
def State.isPois (s : State) (k : Nat) : Bool := SMap.get false s.pois (granule k)
def State.setPois (s : State) (k : Nat) (b : Bool) : State := { s with pois := SMap.set false s.pois (granule k) b }
/-- Some byte of `n` from a key lies in a poisoned granule. -/
def State.poisN (s : State) (k n : Nat) : Bool := (List.range n).any fun i => s.isPois (k + i)

/-- The poison of the granules that a write of `n` bytes touches, after it (R101, R247): a granule written whole takes
the data's poison; one written in part keeps its poison and joins the data's. DEDUCED (unsafe; notes/assumptions 35). -/
def State.poisWrite (s : State) (k n : Nat) (p : Bool) : State :=
  let g := if spaceOf k = 2 ∨ spaceOf k = 15 then 4 else 64
  let first := k / g
  let last := (k + n - 1) / g
  if n = 0 then s else
  (List.range (last + 1 - first)).foldl (fun s i =>
    let b := (first + i) * g
    let whole := decide (k ≤ b) && decide (b + g ≤ k + n)
    s.setPois b (if whole then p else p || s.isPois b)) s

/-- Words written whole hold no storage error afterwards (R302). -/
def State.sound (s : State) (k n : Nat) : State :=
  { s with err := s.err.filter fun e => !(decide (k ≤ e.1) && decide (e.1 + 4 ≤ k + n)) }

/-! ## Participants and on-chip addresses (R214, R224, R225) -/

/-- The declared domain of a level. -/
def domAt (l : List Level) (i : Nat) : Nat := ((l[i]?).map (·.dom)).getD 0
def extAt (l : List Level) (i : Nat) : Nat := ((l[i]?).map (·.ext)).getD 1
/-- A placement level: its domain is strictly larger than that of the level below it (R27). -/
def isPlacement (l : List Level) (i : Nat) : Bool := decide (0 < i) && decide (i < l.length) && decide (domAt l (i - 1) < domAt l i)
/-- A level that collectives and on-chip addresses may name (R214, R225). -/
def namesLevel (l : List Level) (i : Nat) : Bool := isPlacement l i && decide (2 ≤ domAt l i)
/-- The innermost level of domain ARRAY. -/
def arrayLevel (l : List Level) : Nat := (l.findIdx? (fun v => v.dom == 2)).getD 0
/-- Participants of an instance of level `lvl` (R214). -/
def partCount (l : List Level) (lvl : Nat) : Nat :=
  (List.range lvl).foldl (fun n i => if arrayLevel l ≤ i then n * extAt l i else n) 1
/-- A participant's number in its instance of level `lvl`, lowest level fastest (R214). -/
def partNo (l : List Level) (idx : List Nat) (lvl : Nat) : Nat :=
  ((List.range lvl).foldl (fun (n, m) i =>
    if arrayLevel l ≤ i then (n + m * (idx[i]?.getD 0), m * extAt l i) else (n, m)) (0, 1)).1

/-- The fields of an on-chip address whose reserved bits are 0 (R224): LVL, PEER, KIND, OFFSET. -/
def onChip (a : Addr) : Option (Nat × Nat × Nat × Nat) :=
  if a.extractLsb' 64 8 = 0xFF#8 ∧ a.extractLsb' 40 21 = 0#21 ∧ a.extractLsb' 26 1 = 0#1 ∧ a.extractLsb' 25 1 = 0#1 ∧
      (a.extractLsb' 61 3 = 0#3 → a.extractLsb' 27 13 = 0#13) then
    some ((a.extractLsb' 61 3).toNat, (a.extractLsb' 27 13).toNat, (a.extractLsb' 24 2).toNat, (a.extractLsb' 0 24).toNat)
  else none

/-- The address names the issuer itself: LVL 0, or its own participant number (R225). -/
def Tsk.selfAddr (k : Tsk) (lvl peer : Nat) : Bool :=
  lvl == 0 || (namesLevel k.levels lvl && decide (peer < partCount k.levels lvl) && peer == partNo k.levels k.lidx lvl)

/-- Offset of an address within the own scratchpad or vault (KIND). -/
def Tsk.ownOff (k : Tsk) (kind : Nat) (a : Addr) : Option Nat :=
  match onChip a with
  | some (lvl, peer, kd, off) => if kd = kind ∧ k.selfAddr lvl peer = true then some off else none
  | none => none

/-- `n` bytes at a scratchpad offset lie in the allocation, outside the second half of an exchange area (R218, R225). -/
def Tsk.inAlloc (k : Tsk) (off n : Nat) : Bool :=
  decide (off + n ≤ (if k.exch then k.spalloc - 131072 else k.spalloc))
/-- `n` bytes at an offset of the own vault lie in the grant (R225). -/
def Tsk.inVault (k : Tsk) (off n : Nat) : Bool := decide (off + n ≤ k.vgrant)
/-- The offset lies in the exchange window (R218). -/
def Tsk.inWindow (k : Tsk) (off : Nat) : Bool :=
  k.exch && decide (k.spalloc - 262144 ≤ off) && decide (off < k.spalloc - 131072)

/-- The task is a chain: it has a level of domain CHAIN, whatever its member count (R20, R27). -/
def Tsk.chain (k : Tsk) : Bool := k.levels.any fun v => v.dom == 3

/-- The bank offset that a local access reaches: the front bank of the exchange window (R218). -/
def Arr.localOff (x : Arr) (off : Nat) : Nat := if x.tsk.inWindow off && x.cpy.exb then off + 131072 else off
/-- The bank offset that a remote access reaches: the shadow bank of the exchange window (R218). -/
def Arr.remoteOff (x : Arr) (off : Nat) : Nat := if x.tsk.inWindow off && !x.cpy.exb then off + 131072 else off

/-! ## Tiles (R191) -/

def Arr.tileSize (x : Arr) : Nat := 2 ^ (12 + x.cpy.z.toNat)
/-- Tiles that `n` bytes at an offset touch. -/
def Arr.tilesOf (x : Arr) (off n : Nat) : List Nat :=
  if n = 0 then [] else
  let t := x.tileSize
  (List.range ((off + n - 1) / t + 1 - off / t)).map (· + off / t)
def Arr.ntiles (x : Arr) : Nat := (x.tsk.spalloc + x.tileSize - 1) / x.tileSize
def Arr.anyEngine (x : Arr) (ts : List Nat) : Bool := ts.any fun t => bitAt x.cpy.own t
def Arr.anyInvalid (x : Arr) (ts : List Nat) : Bool := ts.any fun t => !bitAt x.cpy.tv t
def Arr.setOwn (x : Arr) (ts : List Nat) (b : Bool) : Arr :=
  x.modCpy fun c => { c with own := ts.foldl (fun o t => bitSet o t b) c.own }
def Arr.setTv (x : Arr) (ts : List Nat) (b : Bool) : Arr :=
  x.modCpy fun c => { c with tv := ts.foldl (fun o t => bitSet o t b) c.tv }

/-! ## Scratchpad writes with parity (R229, R232, R234, R307) -/

/-- A delta of a normal group's parity word entered into the update queue (R232). -/
def Itg.puqAdd (g : Itg) (grp idx : Nat) (d : BitVec 128) : Itg :=
  let q := SMap.get [] g.puq grp
  let k := grp * 4096 + idx
  if SMap.get false g.stale k then g
  else if q.any (fun e => e.1 == idx) then
    { g with puq := SMap.set [] g.puq grp (q.map fun e => if e.1 = idx then (idx, e.2 ^^^ d) else e) }
  else if q.length < 8 then { g with puq := SMap.set [] g.puq grp (q ++ [(idx, d)]) }
  else { g with stale := SMap.set false g.stale k true }

/-- A group with one retired bank (R234). -/
def Itg.degraded (g : Itg) (grp : Nat) : Bool := (g.rbank.extractLsb' (4 * grp) 4) != 0#4

/-- Groups that have lost two banks and are not retired yet: every word of theirs is lost (R308). -/
def Itg.dead (g : Itg) : List Nat :=
  if g.rbank = 0#64 then [] else
  (List.range 16).filter fun i => !bitAt g.gret i && decide (2 ≤ ((List.range 4).filter fun b => bitAt g.rbank (4 * i + b)).length)

/-! ### Relocation (R309) -/

/-- Banks of the retired groups, and the other banks, ascending. -/
def Itg.gone (g : Itg) : List Nat := (List.range 64).filter fun b => bitAt g.gret (b / 4)
def Itg.live (g : Itg) : List Nat := (List.range 64).filter fun b => !bitAt g.gret (b / 4)
/-- Where the word 64 × index + bank of the layout is stored, in the same numbering: a word of a retired group's bank in its spare
location (R309). -/
def Itg.place (g : Itg) (w : Nat) : Nat :=
  if g.gret = 0#16 then w
  else
    let n := g.gone.length
    match g.gone.findIdx? fun b => b == w % 64 with
    | none => w
    | some r =>
      let k := n * (w / 64) + r
      64 * (4096 - 64 * n + k / (64 - n)) + g.live.getD (k % (64 - n)) 0
/-- The word of the layout that a location holds. -/
def Itg.holds (g : Itg) (p : Nat) : Nat :=
  if g.gret = 0#16 then p
  else
    let n := g.gone.length
    let top := 4096 - 64 * n
    match g.live.findIdx? fun b => b == p % 64 with
    | none => p
    | some r =>
      if p / 64 < top then p
      else
        let k := (p / 64 - top) * (64 - n) + r
        64 * (k / n) + g.gone.getD (k % n) 0

/-! ### Parity (R229, R232, R234, R307) -/

/-- The parity side of a write of delta `d` to the word at a location: queued in a normal group, at once in a degraded one. A write to
the retired bank at a lost index computes parity anew, from `all`, the XOR of the group's words as written, and clears the mark (R307). -/
def Itg.wrote (g : Itg) (bank idx : Nat) (d all : BitVec 128) : Itg :=
  let grp := bank / 4
  let k := grp * 4096 + idx
  if g.degraded grp then
    if bitAt g.rbank bank && SMap.get false g.lost k then { g with par := SMap.set 0#128 g.par k all, lost := SMap.set false g.lost k false }
    else { g with par := SMap.mod 0#128 g.par k (· ^^^ d) }
  else g.puqAdd grp idx d

/-- The 16-byte words that `n` bytes at a bank offset touch. -/
def wordsAt (off n : Nat) : List Nat := if n = 0 then [] else (List.range ((off + n - 1) / 16 + 1 - off / 16)).map (· + off / 16)

/-- The 16-byte word at a location, and the XOR of a group's four at an index. -/
def State.bankWord (s : State) (a bank idx : Nat) : BitVec 128 :=
  BitVec.ofNat 128 (s.readN (spadKey a (16 * (s.getA a).itg.holds (64 * idx + bank))) 16)
def State.groupXor (s : State) (a grp idx : Nat) : BitVec 128 :=
  (List.range 4).foldl (fun v i => v ^^^ s.bankWord a (4 * grp + i) idx) 0
/-- The words of a retired bank at a lost index: they read poisoned (R307). -/
def State.lostAt (s : State) (a w : Nat) : Bool :=
  let g := (s.getA a).itg
  let p := g.place w
  bitAt g.rbank (p % 64) && SMap.get false g.lost (p % 64 / 4 * 4096 + p / 64)
/-- The parity of an array's scratchpad after a write of its words `ws`, whose old values are `old`. -/
def State.reparity (s : State) (a : Nat) (ws old : List Nat) : State :=
  let itg := (ws.zip old).foldl (fun (g : Itg) e =>
    let p := g.place e.1
    g.wrote (p % 64) (p / 64) (BitVec.ofNat 128 (e.2 ^^^ s.readN (spadKey a (16 * e.1)) 16)) (s.groupXor a (p % 64 / 4) (p / 64))) (s.getA a).itg
  s.modA a fun x => { x with itg := itg }

/-- Bytes written at a bank offset of an array's scratchpad: memory, poison and parity; an uncorrectable word written
whole is sound again. What a write leaves of a lost word stays poisoned (R307). -/
def State.spadWrite (s : State) (a off : Nat) (l : List Byte) (p : Bool) : State :=
  let n := l.length
  let ws := wordsAt off n
  let old := ws.map fun w => s.readN (spadKey a (16 * w)) 16
  let s0 := (ws.filter (s.lostAt a)).foldl (fun (s : State) w =>
    (List.range 4).foldl (fun (s : State) i => s.setPois (spadKey a (16 * w + 4 * i)) true) s) s
  (((s0.setBytes (spadKey a off) l).poisWrite (spadKey a off) n p).sound (spadKey a off) n).reparity a ws old

/-- A local write to the own scratchpad at an offset of the allocation: the front bank of the window, and TV of the
tiles written (R191, R218). -/
def State.localWrite (s : State) (a off : Nat) (l : List Byte) (p : Bool) : State :=
  let x := s.getA a
  (s.spadWrite a (x.localOff off) l p).modA a fun x => x.setTv (x.tilesOf off l.length) true

/-- A store put in its place: older bundles and earlier slots first (R146). -/
def stIns (l : List StQ) (e : StQ) : List StQ :=
  match l with
  | [] => [e]
  | x :: l => if e.ord < x.ord then e :: x :: l else x :: stIns l e

/-- Key of a byte of the own scratchpad as local accesses reach it. -/
def Arr.localKey (x : Arr) (a off : Nat) : Nat := spadKey a (x.localOff off)

/-! ## The device error ring (R332) and error counters (R315, R343) -/

/-- A number as `n` bytes, least significant first. -/
def leBytes (n v : Nat) : List Byte :=
  match n with
  | 0 => []
  | n + 1 => BitVec.ofNat 8 v :: leBytes n (v / 256)

/-- An MSI-X message of a function (R339). -/
def State.msg (s : State) (f vec : Nat) : State := { s with dev := { s.dev with msix := s.dev.msix ++ [(f, vec)] } }

/-- The key of a unit's words in its cache slice, for their errors. -/
def cacheKey (u : Nat) : Nat := 2 ^ 76 + u
/-- The 64-byte unit at an address written whole with clean data: no poison and no error of its storage is left (R247, R348). -/
def State.wholeUnit (s : State) (u : Nat) (l : List Byte) : State :=
  let in_ (k : Nat) (e : Nat × Nat) : Bool := decide (k ≤ e.1) && decide (e.1 < k + 64)
  let s := (s.setBytes u l).setPois u false
  { s with err := s.err.filter fun e => !(in_ u e || in_ (cacheKey u) e) }

/-- A record in the device error ring: type, reason, die, partition, queue or array, RIX, TAG or cause, detail, address (R332).
The device's bit of ERRDEV is set and vector 0 is sent (R331, R339). -/
def State.errRecord (s : State) (ty reason die part qa rix tag detail addr : Nat) : State :=
  let d := s.dev
  let full := d.ringWix - d.ringRix == BitVec.ofNat 32 (2 ^ d.ringK)
  let bytes := leBytes 1 ty ++ leBytes 1 reason ++ leBytes 1 die ++ leBytes 1 part ++ leBytes 2 qa ++
    leBytes 1 (if full then 1 else 0) ++ leBytes 1 0 ++ leBytes 8 rix ++ leBytes 4 tag ++ leBytes 4 detail ++ leBytes 9 addr ++
    leBytes 7 0 ++ leBytes 8 (s.getD die).cyc ++ leBytes 16 0
  let s := s.wholeUnit (d.ring + 64 * (d.ringWix.toNat % 2 ^ d.ringK)) bytes
  let s := { s with dev := { d with ringWix := d.ringWix + 1, ringRix := if full then d.ringRix + 1 else d.ringRix,
                                    errdev := bitSet d.errdev d.self true } }
  s.msg part 0

/-- A corrected or an uncorrectable event at a place of the integrity map on a die (R315, R343). -/
def State.corrected (s : State) (die place : Nat) : State := s.modD die fun d => { d with corr := SMap.mod 0 d.corr place (· + 1) }
def State.uncorrectable (s : State) (die place qa addr : Nat) : State :=
  (s.modD die fun d => { d with unc := SMap.mod 0 d.unc place (· + 1) }).errRecord 2 0 die (s.getD die).part qa 0 0 place addr

/-! ## Reads through the error codes (R302, R303, R234, R307) -/

/-- The key of a parity bank's word, for its storage errors. -/
def parKey (a grp idx : Nat) : Nat := spadKey a (2 ^ 22 + 2 ^ 16 * grp + 16 * idx)
/-- Some 32-bit word of 16 bytes from a key holds an error that its code cannot correct. -/
def State.unc16 (s : State) (k : Nat) : Bool := (List.range 4).any fun i => decide (2 ≤ SMap.get 0 s.err (k + 4 * i))
/-- A word cannot be reconstructed: another word of its group at its index, or the parity word, is uncorrectable. -/
def State.matesBad (s : State) (a p : Nat) : Bool :=
  let g := (s.getA a).itg
  let grp := p % 64 / 4
  s.unc16 (parKey a grp (p / 64)) ||
  (List.range 4).any fun i => decide (4 * grp + i ≠ p % 64) && s.unc16 (spadKey a (16 * g.holds (64 * (p / 64) + 4 * grp + i)))
/-- What a synchronous or asynchronous read of 32-bit word at a bank offset finds: poison stored, a word of a group that has lost two
banks, a word of a retired bank that is lost or cannot be reconstructed, or an uncorrectable word of a live bank that cannot (R303, R307,
R308). -/
def State.spadPois (s : State) (a off : Nat) : Bool :=
  let k := spadKey a off
  let g := (s.getA a).itg
  let p := g.place (off / 16)
  let grp := p % 64 / 4
  s.isPois k || g.dead.contains grp ||
  (if bitAt g.rbank (p % 64) then SMap.get false g.lost (grp * 4096 + p / 64) || s.matesBad a p
   else decide (2 ≤ SMap.get 0 s.err (granule k)) && (SMap.get false g.stale (grp * 4096 + p / 64) || g.degraded grp || s.matesBad a p))

/-- The read of a word: the value and poison delivered, and the state after the correction it makes: a single-bit error
is owed a write-back, an uncorrectable word is rewritten reconstructed or poisoned and counted in UCNT (R302, R303, R306). A retired bank's
own storage is not read. -/
def State.spadRead (s : State) (a off : Nat) : W32 × Bool × State :=
  let k := granule (spadKey a off)
  let v := BitVec.ofNat 32 (s.readN k 4)
  let e := SMap.get 0 s.err k
  let p := s.spadPois a off
  let bank := (s.getA a).itg.place (off / 16) % 64
  if e = 0 ∨ bitAt (s.getA a).itg.rbank bank = true then (v, p, s)
  else if e = 1 then (v, p, s.corrected (a / 32) 2)
  else
    let s := { s with err := SMap.set 0 s.err k 0 }
    let s := (s.setPois k p).uncorrectable (a / 32) 2 a k
    (v, p, s.modA a fun x => x.modItg fun g =>
      { g with ucnt := SMap.mod 0 g.ucnt bank fun n => min 255 (n + 1) })

/-- The key of the parity slice's word for a vault offset, for its storage errors (R305). -/
def vparKey (b off : Nat) : Nat := 14 * 2 ^ 68 + b * 2 ^ 24 + off / 256 * 64 + off % 64 / 4 * 4
/-- Poison of a vault word as read: stored poison, or an uncorrectable word whose reconstruction meets another, of its slices or of the
parity slice (R305). -/
def State.vaultPois (s : State) (b off : Nat) : Bool :=
  let unc (k : Nat) : Bool := decide (2 ≤ SMap.get 0 s.err k)
  s.isPois (vaultKey b off) || (unc (granule (vaultKey b off)) && (unc (vparKey b off) || (List.range 4).any fun i =>
    let o := off / 256 * 256 + 64 * i + off % 64 / 4 * 4
    decide (o ≠ off / 4 * 4) && unc (vaultKey b o)))
/-- The state after the read of a vault word: a single-bit error counted, an uncorrectable word written back, reconstructed or poisoned. -/
def State.vaultFix (s : State) (b off : Nat) : State :=
  let k := granule (vaultKey b off)
  let e := SMap.get 0 s.err k
  if e = 0 then s
  else if e = 1 then s.corrected (b / 32) 3
  else
    let p := s.vaultPois b off
    (({ s with err := SMap.set 0 s.err k 0 } : State).setPois k p).uncorrectable (b / 32) 3 b k

/-- Poison of `n` bytes at a bank offset. -/
def State.spadPoisN (s : State) (a off n : Nat) : Bool :=
  (List.range ((off + n - 1) / 4 + 1 - off / 4)).any fun i => s.spadPois a (4 * (off / 4 + i))

/-! ## The stores of a cycle (R102, R146, R239, R240) -/

/-- Before a store of the bundle issued at `t` performs, the bytes it takes are kept for the vector reads of that bundle (R102, R240). -/
def State.keepOld (s : State) (a t off n : Nat) : State :=
  let x := s.getA a
  if !x.cel.waves.any (fun w => w.cap.t == t) then s
  else s.modA a fun x => x.modCel fun c =>
    { c with old := (List.range n).foldl (fun l i =>
      let o := x.localOff (off + i)
      let k := spadKey a o
      if l.any fun e => e.t == t && e.key == k then l else l ++ [⟨t, k, s.byte k, s.spadPois a o⟩]) c.old }

/-- A write of `n` bytes at a bank offset that is no store of the bundle issued at `t`: the reads of other bundles see it from the next cycle on
(R146). -/
def Cel.passOld (c : Cel) (a off n : Nat) (t : Option Nat) (p : Bool) : Cel :=
  if c.old.isEmpty then c
  else
    let k := spadKey a off
    let hit (e : OldB) : Bool := t != some e.t && decide (k ≤ e.key) && decide (e.key < k + n)
    let near (e : OldB) : Bool := t != some e.t && decide (granule k ≤ granule e.key) && decide (granule e.key ≤ granule (k + max n 1 - 1))
    { c with old := (c.old.filter fun e => !hit e).map fun e => if near e then { e with p := e.p || p } else e }

/-- The stores of this cycle performed in order (R102, R146, R239). DEDUCED (unsafe; notes/assumptions 45). -/
def State.performStores (s : State) (a : Nat) (l : List StQ) : State :=
  match l with
  | [] => s
  | e :: l =>
    let n := if e.only then 4 else e.bytes.length
    let s := (s.keepOld a (e.ord / 64) e.off n).modA a fun x =>
      x.modCel fun c => c.passOld a (x.localOff e.off) (if e.only then 0 else n) (some (e.ord / 64)) (e.p || e.only)
    (if e.only then s.setPois (spadKey a ((s.getA a).localOff e.off)) true else s.localWrite a e.off e.bytes e.p).performStores a l

/-- The same of an array of the machine (R281). -/
def State.countA (s : State) (a ev k : Nat) : State := s.modA a fun x => x.count ev k

/-- What synchronous reads of 16-byte words of a scratchpad take beside: a word of a retired bank is reconstructed (R234, R235), a word in
a spare location takes the cycle of its bank ahead of the asynchronous path (R230, R309). -/
def State.syncUse (s : State) (a : Nat) (ws : List Nat) : State :=
  if (s.getA a).itg.rbank = 0#64 then s
  else ws.dedup.foldl (fun (s : State) w =>
    let g := (s.getA a).itg
    let p := g.place w
    let s := if bitAt g.rbank (p % 64) then s.countA a 5 1 else s
    if p = w then s
    else s.modA a fun x => x.modItg fun g => { g with use := SMap.mod GUse.none g.use (p % 64 / 4) fun u => { u with taken := u.taken ++ [p % 64] } }) s

/-! ## Traps (R260-R264) -/

/-- `xinfo` of a trap in a bundle of `len` slots (R263, R264): the sequence number alone for ASYNCMAT and MSDC (R172). -/
def xinfoOf (len : Nat) (t : Trap) : Word :=
  match t.cause with
  | .asyncmat | .msdc => BitVec.ofNat 64 t.detail
  | _ => BitVec.ofNat 64 (t.detail * 2 ^ 16 + (t.opnd % 256) * 2 ^ 8 + (len % 16) * 2 ^ 4 + t.slot % 8)

/-- Entry to S (R260): `xcause`, `xpc`, `xinfo`; PPRV := U, PRV := S; issue begins at SVEC no earlier than T + 2. -/
def Arr.enterS (x : Arr) (now len : Nat) (pc : BitVec 32) (t : Trap) : Arr :=
  let x := x.modCsr fun c =>
    { c with xcause := BitVec.ofNat 8 t.cause.code, xpc := pc, xinfo := xinfoOf len t, pprv := 0#2, prv := 1#2 }
  x.modSca fun c => { c with pc := x.csr.svec &&& 0xFFFF_FFFC#32, far := false, readyAt := now + 2 }

/-- The return from S (R261): PRV := PPRV (2 and 3 act as 1), issue at `xpc` no earlier than T + 2. -/
def Arr.leaveS (x : Arr) (now : Nat) : Arr :=
  let x := x.modCsr fun c => { c with prv := if c.pprv = 0#2 then 0#2 else 1#2 }
  x.modSca fun c => { c with pc := x.csr.xpc, far := false, readyAt := now + 2 }

/-- The sequencer stops for good at this boundary: the task is killed, or failed without re-run, with a cause (R260, R261, R310). -/
def Arr.stopKill (x : Arr) (cause : Nat) (xinfo : Word) (pc : BitVec 32) (fail : Bool) : Arr :=
  x.modTsk fun k => { k with stop := .kill cause xinfo pc fail }

/-- A precise trap (R24, R260-R262): at S it stops the array and fails the task with that cause; a cause marked "kills",
and every cause in a chain task, kills; every other one enters S. -/
def Arr.trap (x : Arr) (now len : Nat) (pc : BitVec 32) (t : Trap) : Arr :=
  if x.atS then x.stopKill t.cause.code (xinfoOf len t) pc true
  else if t.cause.kills || x.tsk.chain then x.stopKill t.cause.code (xinfoOf len t) pc false
  else x.enterS now len pc t

end Sys2Proof.Machine
end

