-- ==== Sys2Proof/Machine/Operands.lean ====
section
/-! DEFINITION. What every slot shares: operands and their checks (R58-R62, R76, R87, R114), guards (R72), queue heads
(R67), results (R86, R220, R222), and the issue of a bundle of slots (R9, R63, R67, R76, R81, R105). -/

namespace Sys2Proof.Machine

open Sys2Proof

/-- Where and when a slot issues: array, cycle T, code offset and words of its bundle, slot index, POP of the header,
the kind of copy it is (0 primary, 1 `.dup`, 2 `.shd`), and whether the bundle holds an executing `SHPLD` (R142). -/
structure Ctx where
  a : Nat
  t : Nat
  pc : BitVec 32
  len : Nat
  slot : Nat
  pop : BitVec 8
  dup : Nat
  shld : Bool
  deriving DecidableEq, Repr

/-- Code offset of the bundle that follows. -/
def Ctx.next (c : Ctx) : BitVec 32 := c.pc + BitVec.ofNat 32 (4 * c.len)
def Ctx.ord (c : Ctx) : Nat := ordOf c.t c.slot

/-- A register a slot names (R59). -/
inductive RR where
  | s (n : R6) | a (n : BitVec 4) | p (n : BitVec 3) | v (n : R6) | m (n : BitVec 3) | acc (n : BitVec 3)
  deriving DecidableEq, Repr

def RR.num (r : RR) : Nat :=
  match r with
  | .s n => n.toNat | .a n => n.toNat | .p n => n.toNat | .v n => n.toNat | .m n => n.toNat | .acc n => n.toNat
/-- DETAIL of `xinfo` for a register (R264). -/
def RR.cls (r : RR) : Nat :=
  match r with
  | .s _ => 0 | .a _ => 1 | .p _ => 2 | .v _ => 3 | .m _ => 3 | .acc _ => 7

/-- A trap of a slot that names a register. DEDUCED (unsafe; notes/assumptions 20). -/
def trapReg (cause : Cause) (slot : Nat) (r : RR) : Trap := ⟨cause, slot, r.num, r.cls⟩
/-- A trap of a slot without further information. -/
def trapOf (cause : Cause) (slot : Nat) : Trap := ⟨cause, slot, 0, 0⟩
/-- BOUNDS with its OPND (R264); 0xFF for any other limit. -/
def trapBounds (slot opnd : Nat) : Trap := ⟨.bounds, slot, opnd, 0⟩

/-- The register lies at or above the task's allocation (R59, R62); `sh` registers are exempt (R114), S is exempt (R259). -/
def RR.unalloc (x : Arr) (r : RR) : Bool :=
  !x.atS && (match r with
  | .s n => !(x.inHandler && decide (56 ≤ n.toNat)) && decide (x.tsk.sregs ≤ n.toNat)
  | .v n => decide (x.tsk.vregs ≤ vphys x.sca.rrb n)
  | .acc n => decide (x.tsk.accs ≤ n.toNat)
  | _ => false)

/-- The register's valid bit is 0 (R60); S is exempt (R259). -/
def RR.invalid (x : Arr) (r : RR) : Bool :=
  !x.atS && (match r with
  | .s n => !(x.inHandler && decide (56 ≤ n.toNat)) && !bitAt x.sca.sv n.toNat
  | .a n => !bitAt x.sca.av n.toNat
  | .p _ => false
  | .v n => !bitAt x.cel.vv (vphys x.sca.rrb n)
  | .m n => n != 0#3 && !bitAt x.cel.mv n.toNat
  | .acc n => !bitAt x.cel.accv n.toNat)

/-- A scalar or address source whose split element has a nonzero syndrome (R222). DEDUCED (unsafe; notes/assumptions 23). -/
def RR.splitBad (x : Arr) (r : RR) : Bool :=
  match r with
  | .s n => !(x.inHandler && decide (56 ≤ n.toNat)) && bitAt x.sca.ssplit n.toNat && bitAt x.sca.sfail n.toNat
  | .a n => bitAt x.sca.asplit n.toNat && bitAt x.sca.afail n.toNat
  | _ => false

/-- The entry at a queue head, when one is there (R67, R189). -/
def Arr.headAt (x : Arr) (q : Nat) : Option PV :=
  if q = 0 then x.sca.svq.head?
  else if q = 1 then x.sca.vsq.head?
  else match (SMap.get [] x.sca.heads q).head? with
    | some e => e.val
    | none => none

/-- What a slot instruction is to the sequencer: its class, its guards, the registers it names and reads, the heads it
reads, ILLOP checks made beyond decoding, its own synchronous causes in order, its stall condition, the state in which its issue
check parks the task (R296), what a trap of it changes beside the entry (R167, R172), the translations that its checks look up (R289), its effect at issue; `ends` marks `EXIT`, whose checks every member makes (R116),
and `takes` a frame command, which takes every tile (R223). -/
structure SlotSem where
  cls : Cls
  pg : BitVec 3 := 0#3
  gx : Option GExt := none
  regs : List RR := []
  srcs : List RR := []
  heads : List Nat := []
  priv : Bool := false
  xfer : Bool := false
  ends : Bool := false
  takes : Bool := false
  chk : Bool := false
  shld : Bool := false
  ill : Ctx → State → Bool := fun _ _ => false
  own : Ctx → State → List Trap := fun _ _ => []
  hold : Ctx → State → Bool := fun _ _ => false
  pf : Ctx → State → Option State := fun _ _ => none
  tfx : Ctx → Cause → State → State := fun _ _ s => s
  look : Ctx → State → State := fun _ s => s
  eff : Ctx → State → State

/-- A slot of a bundle: its index, its meaning, the stage predicate the stage-guard word gives it, the kind of copy, and
the index of its primary when it is a check copy. -/
structure Slot where
  idx : Nat
  sem : SlotSem
  stage : Option Nat := none
  dup : Nat := 0
  prim : Option Nat := none

/-! ## Errors of register storage (R302, R313, R314) -/

/-- The place of a class in the integrity map (R313, R314, R343). -/
def regPlace (cls : Nat) : Nat := if cls ≤ 2 ∨ cls = 10 then 0 else if cls = 11 then 11 else 1
/-- A word of register storage poisoned. -/
def Arr.poisReg (x : Arr) (cls n : Nat) : Arr :=
  let hd (l : List PV) : List PV := match l with | [] => [] | e :: l => { e with p := true } :: l
  let pl (p : Plane) : Plane := { p with els := SMap.mod (0, false) p.els n fun e => (e.1, true) }
  let mw (p : Plane) : Plane := { p with metaW := SMap.mod (0, false) p.metaW n fun e => (e.1, true) }
  match cls with
  | 0 => x.modSca fun c => { c with s := SMap.mod PV.zero c.s n fun e => { e with p := true } }
  | 1 => x.modSca fun c => { c with a := SMap.mod PA.zero c.a n fun e => { e with p := true } }
  | 2 => x.modSca fun c => { c with pp := bitSet c.pp n true }
  | 3 => x.modCel fun c => { c with v := SMap.mod El.zero c.v n fun e => { e with p := true } }
  | 4 => x.modCel fun c => { c with m := SMap.mod MB.zero c.m n fun e => { e with p := true } }
  | 5 => x.modCel fun c => { c with cr := SMap.mod EP.zero c.cr n fun e => { e with p := true } }
  | 6 => x.modCel fun c => { c with acc := SMap.mod EP.zero c.acc n fun e => { e with p := true } }
  | 7 => x.modMat fun t => { t with act := pl t.act }
  | 8 => x.modMat fun t => { t with shd := pl t.shd }
  | 9 => x.modCel fun c => { c with shp := SMap.mod ShE.zero c.shp n fun e => { e with p := true } }
  | 10 => x.modSca fun c =>
      if n = 0 then { c with svq := hd c.svq } else if n = 1 then { c with vsq := hd c.vsq }
      else { c with heads := SMap.mod [] c.heads n fun l => match l with
        | [] => []
        | e :: l => { e with val := e.val.map fun v => { v with p := true } } :: l }
  | 12 => x.modMat fun t => { t with act := mw t.act }
  | 13 => x.modMat fun t => { t with shd := mw t.shd }
  | 14 => x.modSca fun c => { c with sh := SMap.mod PV.zero c.sh n fun e => { e with p := true } }
  | _ => x
/-- A word read: a single-bit error is counted and owed a write-back, an uncorrectable word is delivered and written back poisoned (R302). -/
def State.regRead (s : State) (a cls n : Nat) : State :=
  let k := regKey a cls n
  let e := SMap.get 0 s.err k
  if e = 0 then s
  else if e = 1 then s.corrected (a / 32) (regPlace cls)
  else (({ s with err := SMap.set 0 s.err k 0 } : State).modA a fun x => x.poisReg cls n).uncorrectable (a / 32) (regPlace cls) a k
/-- Every word of a class from `lo` to `hi` read. -/
def State.regsRead (s : State) (a cls lo hi : Nat) : State :=
  if s.err.isEmpty then s
  else ((s.err.filter fun e => decide (regKey a cls lo ≤ e.1) && decide (e.1 < regKey a cls hi)).map fun e => e.1 - regKey a cls 0).foldl
    (fun (s : State) n => s.regRead a cls n) s
/-- The words of a register that a slot reads. -/
def State.rrRead (s : State) (a : Nat) (r : RR) : State :=
  match r with
  | .s n => if (s.getA a).inHandler && decide (56 ≤ n.toNat) then s.regRead a 14 (n.toNat - 56) else s.regRead a 0 n.toNat
  | .a n => s.regRead a 1 n.toNat
  | .p n => s.regRead a 2 n.toNat
  | .v n => let p := vphys (s.getA a).sca.rrb n; s.regsRead a 3 (1024 * p) (1024 * p + 1024)
  | .m n => s.regsRead a 4 (1024 * n.toNat) (1024 * n.toNat + 1024)
  | .acc n => s.regsRead a 6 (32768 * n.toNat) (32768 * n.toNat + 32768)

/-! ## Guards (R72) -/

/-- The guarding predicates a slot names. -/
def SlotSem.preds (m : SlotSem) : List (BitVec 3) :=
  m.pg :: (match m.gx with
    | some g => if g.pe then [g.pi] else []
    | none => [])
/-- The stage predicates that guard a slot. -/
def Slot.stages (sl : Slot) : List Nat :=
  sl.stage.toList ++ (match sl.sem.gx with
    | some g => if g.ge then [g.gi.toNat] else []
    | none => [])
/-- The slot's own guards are not all 1. -/
def Slot.guardOff (x : Arr) (sl : Slot) : Bool :=
  sl.sem.preds.any (fun p => !x.pGet p) || sl.stages.any (fun i => !bitAt x.sca.g i)
/-- The slot is squashed: a guard of its own is 0, or its primary is squashed (R72). -/
def squashed (x : Arr) (all : List Slot) (sl : Slot) : Bool :=
  sl.guardOff x || all.any fun p => sl.prim == some p.idx && p.guardOff x

/-- A transfer of control has no effect in a chain member of rank 1 or more, and no `EXIT` of its own ends it; an `EXIT` is checked there on
the member's own state (R21, R24, R105, R116). -/
def Slot.mute (x : Arr) (sl : Slot) : Bool := sl.sem.xfer && decide (0 < x.tsk.rank)

/-! ## Checks (R76) -/

def Cause.rank (c : Cause) : Nat :=
  match c with
  | .bundle => 0 | .illop => 1 | .priv => 2 | .invreg => 3 | _ => 4

/-- The first cause in the order of R76; within one, the earliest slot. -/
def pickTrap (l : List Trap) : Option Trap :=
  l.foldl (fun b t =>
    match b with
    | none => some t
    | some u => if t.cause.rank < u.cause.rank || (t.cause.rank == u.cause.rank && decide (t.slot < u.slot)) then some t else b) none

/-- The traps a slot raises; `sv` is the state its own causes are judged on (R186). -/
def slotTraps (c : Ctx) (x : Arr) (sq : Bool) (sl : Slot) (sv : State) : List Trap :=
  let m := sl.sem
  let c := { c with slot := sl.idx, dup := sl.dup }
  (if m.priv && !x.atS then [trapOf .priv sl.idx]
   else if m.ill c sv then [trapOf .illop sl.idx] else []) ++
  ((m.regs.filter (·.unalloc x)).map (trapReg .invreg sl.idx)) ++
  (if sl.mute x && !m.ends then [] else
    ((m.preds.filter (fun p => x.pPois p)).map (fun _ => trapOf .poisonkill sl.idx)) ++
    (if sq then [] else
      ((m.srcs.filter (·.invalid x)).map (trapReg .invreg sl.idx)) ++
      ((m.srcs.filter (·.splitBad x)).map fun _ => trapOf .pipechk sl.idx) ++
      m.own c sv))

/-- The traps of all slots; a copy, matrix or frame slot is judged as though those before it had issued, since two commands never share an own
tile (R186, R194, R223), every other slot on the state before the bundle (R194). DESIGN CHOICE (unsafe; notes/assumptions 55). -/
def allTraps (c : Ctx) (x : Arr) (all : List Slot) (l : List Slot) (s sv : State) : List Trap :=
  match l with
  | [] => []
  | sl :: l =>
    let sq := squashed x all sl
    if sl.sem.cls = .copy ∨ sl.sem.cls = .matrix ∨ sl.sem.takes = true then
      slotTraps c x sq sl sv ++
        allTraps c x all l s (if sq then sv else sl.sem.eff { c with slot := sl.idx, dup := sl.dup } sv)
    else slotTraps c x sq sl s ++ allTraps c x all l s sv

/-! ## Wait descriptors (R205) -/

/-- The condition of a configured wait descriptor. -/
def Cpy.waitMet (c : Cpy) (w : WDesc) : Bool :=
  let b := SMap.get CBuf.none c.cb w.cb.toNat
  let n := w.count
  if b.dir then
    (if w.kind then decide (n ≤ b.slots - (b.ful - b.con).toNat) else decide (n ≤ (b.ful - b.tk).toNat))
  else
    (if w.kind then decide (n ≤ b.slots - (b.res - b.con).toNat) else decide (n ≤ (b.ful - b.con).toNat))

/-- The code image in use: the partition's system image at S, the kernel's at U (R259). -/
def State.imageOf (s : State) (x : Arr) : List W32 :=
  if x.atS then (SMap.get Part.reset s.part x.csr.part.toNat).image else x.tsk.code

/-! ## Results of scalar slots (R60, R86, R87, R220, R222) -/

/-- The place of a contribution of status flags: after every write visible in the same cycle (R49). -/
def flagOrd (due : Nat) : Nat := ordOf (2 * due + 1) 63

/-- A scalar result of latency L: visible at T + L, the valid bit set at issue. A `.dup` copy compares, a `.shd` copy
writes check bits; `chkErr` is the error of the second unit (notes/assumptions 10). The handler's `sh0`–`sh7` have no mismatch bit and no
check bits (notes/assumptions 62). DESIGN CHOICE (unsafe; notes/assumptions 10). -/
def wrS (c : Ctx) (l : Nat) (d : R6) (v : PV) (s : State) : State :=
  s.modA c.a fun x =>
    let h := x.inHandler && decide (56 ≤ d.toNat)
    if c.dup = 0 then
      let x := x.push (c.t + l) c.ord (if h then .sh (d.toNat - 56) v else .s d.toNat v)
      if x.atS || h then x else x.modSca fun r => { r with sv := bitSet r.sv d.toNat true }
    else if h then x
    else if c.dup = 1 then
      (if v.v ^^^ x.sca.chkErr = v.v then x else x.push (c.t + l) c.ord (.mmS d.toNat))
    else x.push (c.t + l) c.ord (.ssplit d.toNat (decide (v.v ^^^ x.sca.chkErr ≠ v.v)))

/-- An address result, visible at T + 1 (R98). -/
def wrA (c : Ctx) (d : BitVec 4) (v : PA) (s : State) : State :=
  s.modA c.a fun x =>
    if c.dup = 0 then
      let x := x.push (c.t + 1) c.ord (.a d.toNat v)
      if x.atS then x else x.modSca fun r => { r with av := bitSet r.av d.toNat true }
    else if c.dup = 1 then (if x.sca.chkErr != 0#64 then x.push (c.t + 1) c.ord (.mmA d.toNat) else x)
    else x.push (c.t + 1) c.ord (.asplit d.toNat (x.sca.chkErr != 0#64))

/-- A predicate result of latency L. A check copy of a write to `p0`, which R58 discards, compares nothing. DESIGN CHOICE (unsafe; notes/assumptions 62). -/
def wrP (c : Ctx) (l : Nat) (d : BitVec 3) (b pz : Bool) (s : State) : State :=
  s.modA c.a fun x =>
    if c.dup = 0 then x.push (c.t + l) c.ord (.p d.toNat b pz)
    else if c.dup = 1 && x.sca.chkErr != 0#64 && d != 0#3 then x.push (c.t + l) c.ord (.mmP d.toNat) else x

/-- Status flags contributed with a result visible at `due`; a check copy contributes none (R49). -/
def wrF (c : Ctx) (due : Nat) (f : Fl) (s : State) : State :=
  if c.dup = 0 && f != 0#7 then s.modA c.a fun x => x.push due (flagOrd due) (.fflags f) else s

/-- A write of a special register or selector for bundles issued at T + 1 and later (R82). -/
def wrX (c : Ctx) (w : Wr) (s : State) : State := s.modA c.a fun x => x.push (c.t + 1) c.ord w

/-- What a bundle's executing slots read of register storage, checked (R302, R313): the registers and heads they name, and, for a vector
slot, the masks, `cr` and the shuffle patterns. -/
def checkRegs (a : Nat) (x : Arr) (sl : List Slot) (s : State) : State :=
  if s.err.isEmpty then s
  else sl.foldl (fun (s : State) e =>
    let s := e.sem.preds.foldl (fun (s : State) p => s.rrRead a (.p p)) s
    if squashed x sl e then s
    else
      let s := e.sem.heads.foldl (fun (s : State) q => s.regRead a 10 q) (e.sem.srcs.foldl (fun (s : State) r => s.rrRead a r) s)
      if e.sem.cls = .vector then ((s.regsRead a 4 0 8192).regsRead a 5 0 1024).regsRead a 9 0 128 else s) s

/-! ## The issue of a bundle -/

/-- The heads a bundle waits for: those its executing slots read and those POP names (R81). -/
def waitHeads (h : Hdr) (x : Arr) (sl : List Slot) : List Nat :=
  (List.range 8).filter (fun q => bitAt h.pop q) ++
    (sl.filter fun e => !squashed x sl e).flatMap fun e => e.sem.heads

/-- The bundle is held at issue (R81): wait descriptor, empty head, or an incomplete wait. -/
inductive Hold where
  | none | wait | head | engine
  deriving DecidableEq, Repr

def holdOf (c : Ctx) (h : Hdr) (x : Arr) (sl : List Slot) (s : State) : Hold :=
  if h.we && !x.cpy.waitMet (SMap.get WDesc.none x.cpy.wd h.wd.toNat) then .wait
  else if (waitHeads h x sl).any (fun q => (x.headAt q).isNone) then .head
  else if sl.any (fun e => !squashed x sl e && e.sem.hold { c with slot := e.idx } s) then .engine
  else .none

/-- A held bundle has not issued; only the counters of R281 see it, and R114's wait ends. -/
def holdBundle (a : Nat) (k : Hold) (s : State) : State :=
  s.modA a fun x =>
    (match k with
      | .none => x | .wait => x.count 10 1 | .head => x.count 11 1 | .engine => x.count 13 1).modSca
      fun c => { c with hWait := x.atS && c.hWait, issuedAt := some s.now }

/-- The translations that the checks of the executing slots look up (R281, R289). -/
def looks (c : Ctx) (x : Arr) (all : List Slot) (l : List Slot) (s : State) : State :=
  match l with
  | [] => s
  | sl :: l => looks c x all l (if squashed x all sl || sl.mute x then s else sl.sem.look { c with slot := sl.idx, dup := sl.dup } s)
/-- The effects of the executing slots, in slot order. -/
def runSlots (c : Ctx) (x : Arr) (all : List Slot) (l : List Slot) (s : State) : State :=
  match l with
  | [] => s
  | sl :: l =>
    runSlots c x all l
      (if squashed x all sl || sl.mute x then s else sl.sem.eff { c with slot := sl.idx, dup := sl.dup } s)

/-- The start of an issue: the next bundle in sequence follows at T + 1. -/
def startIssue (c : Ctx) (x : Arr) : Arr :=
  x.modSca fun r => { r with pc := c.next, far := false, readyAt := c.t + 1, issuedAt := some c.t, hWait := x.atS && r.hWait }

/-- POP and ROT at bundle end, seen by the next bundle (R63, R67). -/
def endIssue (h : Hdr) (c : Ctx) (lcb : Bool) (x : Arr) : Arr :=
  let x := (List.range 8).foldl (fun x q => if bitAt h.pop q then x.push (c.t + 1) (ordOf c.t 32) (.pop q) else x) x
  if h.rot then x.push (c.t + 1) (ordOf c.t 33) (.rot lcb) else x

/-- The counters of an issued bundle (R281 events 1, 2, 9, 15), and its mark in a chain's stream (R20, R22, R23). -/
def tally (c : Ctx) (x0 : Arr) (sl : List Slot) (x : Arr) : Arr :=
  let nsq := (sl.filter fun e => squashed x0 sl e).length
  let nv := (sl.filter fun e => !squashed x0 sl e && e.sem.cls = .vector).length
  let idle := sl.all fun e => squashed x0 sl e
  let after := match x0.cel.vflagAt with
    | some v => decide (v < c.t) && decide (c.t ≤ v + 18)
    | none => false
  let x := ((x.count 1 1).count 2 nv).count 15 nsq
  let x := if idle && after then x.count 9 1 else x
  if 1 < x.tsk.nranks then x.modCel fun e => { e with cfTimes := e.cfTimes ++ [c.t] } else x

/-- The bundle at the issue point ends the chain: the lead's `EXIT`, or a member's copy of it (R24, R116). -/
def Arr.ending (x : Arr) : Bool :=
  if x.tsk.rank = 0 then (match x.tsk.stop with | .exit _ => true | _ => false) else ((x.tsk.stream.head?).map (·.2.2)).getD false

/-- A chain's stream: the bundle reaches the next member 16 + `dhop` cycles after it issues here, marked where it ends the chain
(R20, R22, R24). -/
def forward (c : Ctx) (s : State) : State :=
  let x := s.getA c.a
  match x.tsk.members[x.tsk.rank + 1]? with
  | none => s
  | some b => s.modA b fun y => y.modTsk fun k => { k with stream := k.stream ++ [(c.t + 16 + x.tsk.dhop, c.pc, x.ending)] }

/-- The traps of the header (R68). -/
def hdrTraps (h : Hdr) (x : Arr) : List Trap :=
  if h.we && !(SMap.get WDesc.none x.cpy.wd h.wd.toNat).on then [trapOf .cbcfg 0] else []

/-- A trap at the bundle at the issue point of array `cur` (R260). -/
def trapAt (len : Nat) (t : Trap) (s : State) : State :=
  s.modA s.cur fun x => (x.trap s.now len x.sca.pc t).modSca fun r => { r with issuedAt := some s.now }

/-- What the trap of a slot changes beside the entry. -/
def trapFx (c : Ctx) (sl : List Slot) (t : Trap) (s : State) : State :=
  match sl.find? fun e => e.idx == t.slot with
  | some e => e.sem.tfx { c with slot := e.idx } t.cause s
  | none => s

/-- A bundle of `len` words at the issue point of array `cur`: checked (R76), held (R81) or issued whole (R9).
DESIGN CHOICE (unsafe; notes/assumptions 70). -/
def issueSlots (h : Hdr) (len : Nat) (sl : List Slot) (s : State) : State :=
  let s := checkRegs s.cur (s.getA s.cur) sl s
  let x := s.getA s.cur
  let c : Ctx := ⟨s.cur, s.now, x.sca.pc, len, 0, h.pop, 0, sl.any fun e => e.sem.shld && !squashed x sl e⟩
  match pickTrap (hdrTraps h x ++ allTraps c x sl sl s s) with
  | some t => trapAt len t (trapFx c sl t (if t.cause.rank = 4 then looks c x sl sl s else s))
  | none =>
    match holdOf c h x sl s with
    | .none =>
      let s := looks c x sl sl s
      match sl.findSome? fun e => if squashed x sl e then none else e.sem.pf { c with slot := e.idx } s with
      | some s1 => s1.modA s.cur fun x => x.modSca fun r => { r with issuedAt := some s.now }
      | none =>
        let s1 := runSlots c x sl sl (s.modA s.cur fun y => tally c x sl (startIssue c y))
        let s2 := s1.modA s.cur (endIssue h c (x.sca.lc != 0#64))
        if x.atS then s2 else forward c s2
    | k => holdBundle s.cur k s

/-- The header `bh` without options. -/
def Hdr.plain : Hdr := ⟨0, 0, false, false, false, false⟩

/-- One slot instruction at the issue point of array `cur`: the bundle that holds the plain header, this slot with its
`ext` extension words, and the `NOP`s that make four slots (R73, R84). A check copy alone has no primary (R75). -/
def runSlot (ext : Nat) (m : SlotSem) (s : State) : State :=
  let len := max 4 (2 + ext)
  if m.chk then trapAt len (trapOf .bundle 1) s
  else issueSlots Hdr.plain len [{ idx := 1, sem := m }] s

end Sys2Proof.Machine
end

