-- ==== Sys2Proof/Machine/Flags.lean ====
section
/-! DEFINITION. Flags: the aggregate flags (R17, R18, R23, R143) and what floating-point slots read of `fpcsr` (R46-R48). -/

namespace Sys2Proof.Machine

open Sys2Proof

/-! ## Control of rounding -/

/-- RM, FTZS and F8SAT as a scalar slot reads them at its issue (R48). -/
def Arr.ctlS (x : Arr) : RCtl := ⟨Rm.of (x.sca.fpcsr.extractLsb' 0 2), bitAt x.sca.fpcsr 2, bitAt x.sca.fpcsr 4⟩
/-- RM, FTZV and F8SAT as captured with a vector slot (R48, R117). -/
def Cap.ctl (c : Cap) : RCtl := ⟨Rm.of c.rm, c.ftz, c.f8sat⟩

/-! ## Aggregate flags -/

/-- The reductions of `cf` over an array: column ANDs and ORs, row ANDs and ORs, ALL, ANY, and the poison of each (R17, R143). -/
structure Agg where
  cand : Word
  cor : Word
  rand : BitVec 16
  ror : BitVec 16
  all : Bool
  any : Bool
  pcol : Word
  prow : BitVec 16
  pall : Bool
  deriving DecidableEq, Repr

/-- Bits of a word by a test on the bit number. -/
def ofBits (n : Nat) (f : Nat → Bool) : BitVec n :=
  BitVec.ofNat n ((List.range n).foldl (fun v i => if f i then v + 2 ^ i else v) 0)

/-- The reductions of a set of flag bits given by cell. -/
def aggOf (f : Nat → MB) : Agg :=
  let rows := List.range 16
  let cols := List.range 64
  { cand := ofBits 64 fun c => rows.all fun r => (f (r * 64 + c)).b
    cor := ofBits 64 fun c => rows.any fun r => (f (r * 64 + c)).b
    rand := ofBits 16 fun r => cols.all fun c => (f (r * 64 + c)).b
    ror := ofBits 16 fun r => cols.any fun c => (f (r * 64 + c)).b
    all := (List.range 1024).all fun i => (f i).b
    any := (List.range 1024).any fun i => (f i).b
    pcol := ofBits 64 fun c => rows.any fun r => (f (r * 64 + c)).p
    prow := ofBits 16 fun r => cols.any fun c => (f (r * 64 + c)).p
    pall := (List.range 1024).any fun i => (f i).p }

/-- Reductions of several members joined (R23). -/
def Agg.join (x y : Agg) : Agg :=
  { cand := x.cand &&& y.cand, cor := x.cor ||| y.cor, rand := x.rand &&& y.rand, ror := x.ror ||| y.ror,
    all := x.all && y.all, any := x.any || y.any, pcol := x.pcol ||| y.pcol, prow := x.prow ||| y.prow,
    pall := x.pall || y.pall }

/-- The `cf` of a chain member as its first `n` bundles left it. -/
def Cel.cfAfter (c : Cel) (n : Nat) (cell : Nat) : MB :=
  c.cfLog.foldl (fun v e => if e.1 ≤ n && e.2.1 == cell then e.2.2 else v) (SMap.get MB.zero c.cfBase cell)

/-- Bundles every member of a chain has sampled 8 cycles before `t` or earlier (R23). DEDUCED (unsafe; notes/assumptions 24). -/
def chainSampled (s : State) (t : Nat) (ms : List Nat) : Nat :=
  match ms with
  | [] => 0
  | m :: ms =>
    let n := ((s.getA m).cel.cfTimes.filter fun i => decide (i + 27 ≤ t)).length
    ms.foldl (fun k m => min k ((s.getA m).cel.cfTimes.filter fun i => decide (i + 27 ≤ t)).length) n

/-- The aggregate flags that array `a` reads at cycle `t`: its own sample (R18), or in the lead of a chain the chain
aggregate (R23). -/
def State.agg (s : State) (a t : Nat) : Agg :=
  let x := s.getA a
  if 1 < x.tsk.nranks && x.tsk.rank == 0 then
    let n := chainSampled s t x.tsk.members
    match x.tsk.members with
    | [] => aggOf fun i => SMap.get MB.zero x.cel.cfs i
    | m :: ms => ms.foldl (fun g m => g.join (aggOf ((s.getA m).cel.cfAfter n))) (aggOf ((s.getA m).cel.cfAfter n))
  else aggOf fun i => SMap.get MB.zero x.cel.cfs i

/-- `aflags` (R17). -/
def Agg.flags (g : Agg) : Word :=
  (BitVec.ofBool g.any ++ (BitVec.ofBool g.all ++ (g.ror ++ g.rand))).setWidth 64
/-- The poison of each bit of `aflags`. -/
def Agg.flagsP (g : Agg) : Word :=
  (BitVec.ofBool g.pall ++ (BitVec.ofBool g.pall ++ (g.prow ++ g.prow))).setWidth 64
/-- An aggregate flag register by its code in `BRF`, with the poison of its bits (R106). -/
def Agg.reg (g : Agg) (code : BitVec 2) : Word × Word :=
  match code.toNat with
  | 0 => (g.flags, g.flagsP)
  | 1 => (g.cand, g.pcol)
  | _ => (g.cor, g.pcol)

end Sys2Proof.Machine
end

