-- ==== Sys2Proof/Machine/Nest.lean ====
section
/-! DEFINITION. Loop nest tables: the fields of headers and level records (R153, R154) and what a nest reaches (R157, R171). -/

namespace Sys2Proof.Machine

open Sys2Proof

/-- A field of a 256-bit record as a number. -/
def fld {n : Nat} (x : BitVec n) (hi lo : Nat) : Nat := (x.extractLsb' lo (hi + 1 - lo)).toNat
/-- A signed field. -/
def fldS {n : Nat} (x : BitVec n) (hi lo : Nat) : Int := (x.extractLsb' lo (hi + 1 - lo)).toInt

namespace NestHdr
def nlev (h : BitVec 256) : Nat := fld h 2 0
def flush (h : BitVec 256) : Bool := bitAt h 6
def csum (h : BitVec 256) : Bool := bitAt h 7
def atd (h : BitVec 256) : Nat := fld h 15 8
def btd (h : BitVec 256) : Nat := fld h 23 16
def ctd (h : BitVec 256) : Nat := fld h 31 24
def acc (h : BitVec 256) : Nat := fld h 34 32
def sa (h : BitVec 256) : Bool := bitAt h 35
def out (h : BitVec 256) : Nat := fld h 37 36
def mtol (h : BitVec 256) : Nat := fld h 44 40
end NestHdr

namespace NestLev
def count (l : BitVec 256) : Nat := fld l 23 0
def di (l : BitVec 256) : Int := fldS l 47 32
def dj (l : BitVec 256) : Int := fldS l 63 48
def dk (l : BitVec 256) : Int := fldS l 79 64
def accstr (l : BitVec 256) : Nat := fld l 82 80
def zs (l : BitVec 256) : Bool := bitAt l 83
def se (l : BitVec 256) : Bool := bitAt l 84
end NestLev

def NestTab.level (t : NestTab) (l : Nat) : BitVec 256 := SMap.get 0 t.lev l
def NestTab.binding (t : NestTab) (l : Nat) : BitVec 5 := SMap.get 0 t.bind l
/-- The records of the nest's levels, innermost first. -/
def NestTab.levels (t : NestTab) : List (BitVec 256) := (List.range (NestHdr.nlev t.hdr)).map t.level

/-- The accumulator tiles a nest can reach: ACC plus any sum of idx × ACCSTR (R157). -/
def NestTab.reach (t : NestTab) : List Nat :=
  t.levels.foldl (fun ns l =>
    (List.range 64).filter fun n =>
      (List.range (min (NestLev.count l) 64)).any fun k => decide (k * NestLev.accstr l ≤ n) && ns.contains (n - k * NestLev.accstr l))
    [NestHdr.acc t.hdr]

/-- An outstanding command that writes accumulator tile `n` (R171). -/
def MCmd.writesAcc (c : MCmd) (n : Nat) : Bool :=
  match c.kind with
  | .mz a => a == n
  | .mla a _ _ => a == n
  | .mst _ r ef _ _ => ef && r == n
  | .mgo g => g.tab.reach.contains n
  | _ => false
/-- An outstanding command that reads accumulator tile `n` (R171). -/
def MCmd.readsAcc (c : MCmd) (n : Nat) : Bool :=
  match c.kind with
  | .mst a r ef _ _ => a == n || (ef && r == n)
  | .mgo g => g.tab.reach.contains n
  | _ => false

end Sys2Proof.Machine
end

