-- ==== Sys2Proof/Machine/Mem.lean ====
section
/-! DEFINITION. Homes, scopes and physical addresses (R225-R228, R283, R346), translation and page tables (R282-R289), reads and
writes at a home (R228, R239, R247, R302-R305, R319, R334), and fault records (R297, R298). -/

namespace Sys2Proof.Machine

open Sys2Proof

/-! ## Homes -/

/-- Where a byte is stored: a scratchpad or vault offset of an array, or a physical address of another SPACE. `far` marks an access
by another array, which reaches the shadow bank of the exchange window (R218, R225). -/
inductive Home where
  | spad (a off : Nat) (far : Bool) | vault (a off : Nat) | phys (pa : Nat)
  deriving DecidableEq, Repr

/-- The outermost level that collectives may name; 0 when there is none. -/
def topLevel (l : List Level) : Nat := (List.range l.length).foldl (fun t i => if namesLevel l i then i else t) 0

/-- The array of a participant of the task's instance of a level (R214, R225). -/
def Tsk.peerArr (k : Tsk) (lvl peer : Nat) : Option Nat :=
  let n := partCount k.levels lvl
  let me := partNo k.levels k.lidx (topLevel k.levels)
  if peer < n then k.peers[me / n * n + peer]? else none

/-- Array `b` runs a task of the same gang as `k` (R225: a task that has left has no allocation); on array `a` itself, `k`. -/
def State.sameGang (s : State) (k : Tsk) (a b : Nat) : Bool :=
  let kb := (s.getA b).tsk
  let of (id : Nat) : Option (Nat × Nat) := (SMap.get none s.task id).map fun t => (t.launch, t.node)
  kb.run && kb.peers == k.peers && of kb.id == of k.id && (b != a || kb.id == k.id)

/-- The home of `n` bytes at an on-chip address as task `k` on array `a` names it; `none` where it is not mapped (R225).
DEDUCED (safe; notes/assumptions 25). -/
def State.onChipHome (s : State) (k : Tsk) (a : Nat) (va : Addr) (n : Nat) : Option Home :=
  match onChip va with
  | none => none
  | some (lvl, peer, kd, off) =>
    let b := if lvl = 0 then some a else if namesLevel k.levels lvl then k.peerArr lvl peer else none
    match b with
    | none => none
    | some b =>
      let kb := (s.getA b).tsk
      if !s.sameGang k a b then none
      else if kd = 0 then (if kb.inAlloc off n then some (.spad b off (decide (b ≠ a))) else none)
      else if kb.inVault off n then some (.vault b off) else none

def giB : Nat := 2 ^ 30

/-- The die that serves an address of SPACE 0 or 1 (R283). -/
def dieOf (pa : Nat) : Nat :=
  let o := pa % 2 ^ 68
  if spaceOf pa = 0 then o / (192 * giB) else if spaceOf pa = 1 then o / (768 * giB) else o / 2 ^ 24 % 128 / 32

/-- The home slice of a physical address (R237). -/
def sliceOf (pa : Nat) : Nat := pa / 8192 % 24

/-- A physical address is mapped for a partition (R283, R345, R346, R349, R350, R354). -/
def State.mapped (s : State) (part pa : Nat) : Bool :=
  let o := pa % 2 ^ 68
  let mine := (s.getD (dieOf pa)).part == part
  match spaceOf pa with
  | 0 => decide (o < 768 * giB) && mine
  | 1 => decide (o < 3072 * giB) && decide (o % (768 * giB) < (s.getD (dieOf pa)).instcap * giB) && (s.getD (dieOf pa)).expOk &&
      s.dev.stage != 2#2 && mine
  | 2 => decide (o < 2 ^ 31) && decide (o % 2 ^ 24 ≤ 0xF7FFFF) && mine
  | 3 =>
    let g := o / 2 ^ 62
    let sp := o / 2 ^ 58 % 16
    let q := o % 2 ^ 58
    decide (g < s.dev.group) && decide (g ≠ s.dev.self) && SMap.get 0 s.dev.routes g != 0#16 &&
      (match sp with
       | 0 => decide (q < 768 * giB)
       | 1 => decide (q < 2 ^ 42)
       | 2 => decide (q < 2 ^ 31) && decide (q % 2 ^ 24 ≤ 0xF7FFFF)
       | _ => false)
  | 4 => decide (o < 2 ^ 64) && s.dev.bridge && (s.dev.self == 0 || SMap.get 0 s.dev.routes 0 != 0#16)
  | _ => false

/-- The home of a mapped physical address. -/
def homeOf (pa : Nat) : Home := if spaceOf pa = 2 then .vault (pa / 2 ^ 24 % 128) (pa % 2 ^ 24) else .phys pa

/-- The smallest scope of array `a` that contains a home: 1 ARRAY to 6 SYSTEM (R226, R227). -/
def homeScope (a : Nat) (h : Home) : Nat :=
  match h with
  | .spad b _ _ => if b = a then 1 else if b / 4 = a / 4 then 3 else if b / 32 = a / 32 then 4 else 5
  | .vault b _ => if b = a then 2 else if b / 4 = a / 4 then 3 else if b / 32 = a / 32 then 4 else 5
  | .phys pa => if spaceOf pa < 2 then (if dieOf pa = a / 32 then 4 else 5) else 6

/-- The home lies outside the array: an access to it is the NI's (R240). -/
def Home.away (a : Nat) (h : Home) : Bool :=
  match h with
  | .spad b _ _ => decide (b ≠ a)
  | .vault b _ => decide (b ≠ a)
  | .phys _ => true

/-- Host or peer-device memory, where poison never goes (R190). DESIGN CHOICE (unsafe; notes/assumptions 44). -/
def Home.outside (h : Home) : Bool :=
  match h with
  | .phys pa => decide (3 ≤ spaceOf pa)
  | _ => false

/-- The bank offset of a scratchpad home: the front bank of the exchange window, or the shadow bank of a remote access (R218). -/
def State.bankOff (s : State) (b off : Nat) (far : Bool) : Nat :=
  if far then (s.getA b).remoteOff off else (s.getA b).localOff off
/-- The storage key of a home (R218, R225). -/
def State.keyOf (s : State) (h : Home) : Nat :=
  match h with
  | .spad b off far => spadKey b (s.bankOff b off far)
  | .vault b off => vaultKey b off
  | .phys pa => pa

/-! ## Balkor ports (R344, R345) -/

def State.getPort (s : State) (n : Nat) : Port := SMap.get Port.reset s.dev.ports n
def State.modPort (s : State) (n : Nat) (f : Port → Port) : State :=
  { s with dev := { s.dev with ports := SMap.mod Port.reset s.dev.ports n f } }
/-- The port that an access to a peer device or to host memory behind the bridge device takes: the set bits of the mask of its
destination in turn, by the 8 KiB region of its address (R345). -/
def State.portOf (s : State) (pa : Nat) : Option Nat :=
  let via (g : Nat) : Option Nat :=
    let l := (List.range 16).filter fun i => bitAt (SMap.get 0 s.dev.routes g) i
    l[pa / 8192 % l.length]?
  match spaceOf pa with
  | 3 => via (pa % 2 ^ 68 / 2 ^ 62)
  | 4 => if s.dev.self = 0 then none else via 0
  | _ => none
/-- Flits of a channel in a port's replay buffer. -/
def Port.held (p : Port) (c : Chan) : Nat := ((p.buf.find? (·.1 == c)).map (·.2)).getD 0
/-- The port takes no flit of an access now: it is training, or a channel's replay buffer of 256 flits is full. A channel has as many
credits as its buffer has places. DESIGN CHOICE (unsafe; notes/assumptions 59). -/
def State.portWaits (s : State) (h : Home) : Bool :=
  match h with
  | .phys pa => ((s.portOf pa).map fun n => let p := s.getPort n; p.training || p.buf.any fun e => decide (256 ≤ e.2)).getD false
  | _ => false
/-- `n` flits of a channel sent to an address. DESIGN CHOICE (unsafe; notes/assumptions 59). -/
def State.sendOn (s : State) (c : Chan) (pa n : Nat) : State :=
  match s.portOf pa with
  | none => s
  | some i => s.modPort i fun p => { p with buf := (p.buf.filter fun e => e.1 != c) ++ [(c, p.held c + n)] }
/-- `n` request flits sent to an address. -/
def State.sendFlits (s : State) (pa n : Nat) : State := s.sendOn .request pa n
/-- The flits of a multicast write since state `old`, in their own channel. -/
def State.asMulticast (s old : State) (h : Home) : State :=
  match h with
  | .phys pa => match s.portOf pa with
    | none => s
    | some i =>
      let before := (old.getPort i).held .request
      let n := (s.getPort i).held .request - before
      s.modPort i fun p =>
        { p with buf := (p.buf.filter fun e => e.1 != .request && e.1 != .multicast) ++
                   (if before = 0 then [] else [(.request, before)]) ++ if p.held .multicast + n = 0 then [] else [(.multicast, p.held .multicast + n)] }
  | _ => s

/-! ## Page tables (R286-R288) -/

/-- The entry that a walk reads at a level of a table. -/
def pteIndex (va lvl : Nat) : Nat := va / 2 ^ (16 + 14 * lvl) % 2 ^ 14

/-- A table lies at a mapped, 128 KiB aligned address of SPACE 0 (R286). -/
def State.tableOk (s : State) (part t : Nat) : Bool := spaceOf t == 0 && t % 131072 == 0 && s.mapped part t

/-- The 64-byte units of other memory that a range touches. -/
def units64 (pa n : Nat) : List Nat := (List.range ((pa + n - 1) / 64 + 1 - pa / 64)).map fun i => (pa / 64 + i) * 64
/-- A unit of 64 bytes holds an error that its code detects and cannot correct (R313). -/
def State.unitBad (s : State) (u : Nat) : Bool := s.err.any fun e => decide (u ≤ e.1) && decide (e.1 < u + 64) && decide (2 ≤ e.2)

/-- The line is present in its home slice. -/
def State.lineHere (s : State) (k : Nat) : Bool := decide (2 ≤ SMap.get 0 s.line k)
/-- A read of the unit at an address finds poison, or an error that its code cannot correct, in its cache slice or in the memory behind it
(R302, R313). -/
def State.unitSpoilt (s : State) (u : Nat) : Bool :=
  s.isPois u || s.unitBad u || (s.lineHere (u / 128) && s.unitBad (cacheKey u))

/-- The place of the integrity map for an address of SPACE 0 or 1 (R313, R343). -/
def placeOf (pa : Nat) : Nat := if spaceOf pa = 0 then 6 else 7
/-- The storage of a unit of 64 bytes read at a place of the integrity map, whose words have the key `k` and up: a unit whose code finds
an error that it cannot correct is poisoned whole (R302, R313). -/
def State.unitRead (s : State) (u k place : Nat) : State :=
  let here (e : Nat × Nat) : Bool := decide (k ≤ e.1) && decide (e.1 < k + 64)
  if !s.err.any here then s
  else if s.unitBad k then
    (({ s with err := s.err.filter fun e => !here e } : State).setPois u true).uncorrectable (dieOf u) place 0 u
  else s.corrected (dieOf u) place
/-- Correction and poison of the 64-byte units that a read of other memory touches, in the cache slice where the line is present and in the
memory behind it (R313, R348, R349). -/
def State.physRead (s : State) (pa n : Nat) : Bool × State :=
  let s := if s.err.isEmpty || decide (2 ≤ spaceOf pa) then s else (units64 pa n).foldl (fun (s : State) u =>
    if s.lineHere (u / 128) = false then s.unitRead u u (placeOf u) else (s.unitRead u u (placeOf u)).unitRead u (cacheKey u) 5) s
  (s.poisN pa n, s)
/-- The entry at an address read by a walk, checked (R302, R313). -/
def State.walked (s : State) (k : Nat) : State := (s.physRead k 8).2

/-- A walk from a table of level n − 1 downward (R288): an entry with V = 0 ends it before its other conditions. -/
def State.walk (s : State) (part va n t : Nat) : WalkRes :=
  match n with
  | 0 => .fault 3 0
  | n + 1 =>
    if !s.tableOk part t then .fault 3 n
    else
      let k := t + 8 * pteIndex va n
      let e : Word := BitVec.ofNat 64 (s.readN k 8)
      let pfn := e.extractLsb' 0 56
      if !bitAt e 63 then .fault 1 n
      else if s.unitSpoilt (k - k % 64) then .fault 3 n
      else if e.extractLsb' 56 3 ≠ 0#3 then .fault 3 n
      else if bitAt e 62 then
        if n = 3 ∨ (n = 2 ∧ pfn.extractLsb' 0 28 ≠ 0#28) ∨ (n = 1 ∧ pfn.extractLsb' 0 14 ≠ 0#14) then .fault 3 n
        else .leaf n pfn.toNat (bitAt e 61) (bitAt e 60) (bitAt e 59)
      else if n = 0 ∨ bitAt pfn 0 then .fault 3 n
      else s.walk part va n (pfn.toNat * 65536)

/-- The entries that a walk reads. -/
def State.walkKeys (s : State) (part va n t : Nat) : List Nat :=
  match n with
  | 0 => []
  | n + 1 =>
    if !s.tableOk part t then []
    else
      let k := t + 8 * pteIndex va n
      let e : Word := BitVec.ofNat 64 (s.readN k 8)
      if bitAt e 63 && !bitAt e 62 && !s.unitSpoilt (k - k % 64) then
        k :: s.walkKeys part va n ((e.extractLsb' 0 56).toNat * 65536)
      else [k]

/-- Bytes of a page by size code. -/
def pageSize (sz : Nat) : Nat := 2 ^ (16 + 14 * sz)

/-- Outcome of translating an access. -/
inductive XRes where
  | ok (h : Home) | miss | bad (kind level : Nat)
  deriving DecidableEq, Repr

/-- A leaf applied to an address for an access of kind 0 read, 1 write, 2 atomic (R288). -/
def State.leafRes (s : State) (part va size pfn : Nat) (r w a : Bool) (acc : Nat) : XRes :=
  let pa := pfn * 65536 + va % pageSize size
  if !s.mapped part pa then .bad 4 size
  else if (acc = 0 && r) || (acc = 1 && w) || (acc = 2 && r && w && a) then .ok (homeOf pa)
  else .bad 2 size

/-- The window's limits as addresses (R284). -/
def at16 (x : BitVec 56) : Nat := x.toNat * 65536

/-- The heap window's translation, when the address lies in it (R284). -/
def State.window (s : State) (tr : TrCap) (va : Nat) : Option XRes :=
  if at16 tr.base ≤ va ∧ va < at16 tr.limit then
    let pa := (va + at16 tr.off) % 2 ^ 72
    some (if spaceOf pa < 2 ∧ s.mapped tr.part pa = true then .ok (.phys pa) else .bad 5 0xFF)
  else none

/-- Translation without a TLB: the walk as the tables stand (issue checks, packet checks; R282, R296, R324). -/
def State.xlatePure (s : State) (tr : TrCap) (va : Addr) (acc : Nat) : XRes :=
  match s.window tr va.toNat with
  | some r => r
  | none =>
    if !bitAt tr.tlb 63 then .bad 6 0xFF
    else
      match s.walk tr.part va.toNat 4 (at16 (tr.tlb.extractLsb' 0 56)) with
      | .leaf sz pfn r w a => s.leafRes tr.part va.toNat sz pfn r w a acc
      | .fault k l => .bad k l

/-- A TLB entry covers an address (R289). -/
def TlbE.covers (e : TlbE) (part : Nat) (ctx : BitVec 16) (va : Nat) : Bool :=
  e.part == part && e.ctx == ctx && e.vpn == va / pageSize e.size
def tlbFind (l : List TlbE) (part : Nat) (ctx : BitVec 16) (va : Nat) : Option TlbE := l.find? fun e => e.covers part ctx va
/-- An entry put in a TLB of `n` entries: the oldest goes when it is full (notes/assumptions 11). DESIGN CHOICE (unsafe; notes/assumptions 11). -/
def tlbAdd (n : Nat) (l : List TlbE) (e : TlbE) : List TlbE :=
  let l := l.filter (· != e)
  (l ++ [e]).drop (l.length + 1 - n)
/-- The set of the die TLB that an entry belongs to. DESIGN CHOICE (unsafe; notes/assumptions 11). -/
def TlbE.set (e : TlbE) : Nat := e.vpn % 1024
/-- An entry put in the die TLB: 8,192 entries in 1,024 sets of 8 (R289). -/
def dieTlbAdd (l : List TlbE) (e : TlbE) : List TlbE :=
  let l := l.filter (· != e)
  let l := if 8 ≤ (l.filter fun f => f.set == e.set).length then
      (match l.find? fun f => f.set == e.set with | some f => l.erase f | none => l)
    else l
  l ++ [e]

/-- Translation of an access of a command by the window, the micro-TLB and the die TLB; a miss in both needs a walk (R289). -/
def State.xlateTlb (s : State) (a : Nat) (tr : TrCap) (va : Addr) (acc : Nat) : XRes × State :=
  match s.window tr va.toNat with
  | some r => (r, s)
  | none =>
    if !bitAt tr.tlb 63 then (.bad 6 0xFF, s)
    else
      let use (e : TlbE) := s.leafRes tr.part va.toNat e.size e.pa e.r e.w e.a acc
      match tlbFind (s.getA a).tlb tr.part tr.ctx va.toNat with
      | some e => (use e, s)
      | none =>
        match tlbFind (s.getD (a / 32)).tlb tr.part tr.ctx va.toNat with
        | some e => (use e, (s.countA a 12 1).modA a fun x => { x with tlb := tlbAdd 64 x.tlb e })
        | none => (.miss, s)

/-- The home of an access of task `k` by array `a`: on-chip addresses are never translated (R225, R282). -/
def State.locateK (s : State) (k : Tsk) (a : Nat) (tr : TrCap) (va : Addr) (n acc : Nat) : XRes × State :=
  if va.extractLsb' 64 8 = 0xFF#8 then
    (match s.onChipHome k a va n with
     | some h => (.ok h, s)
     | none => (.bad 4 0xFF, s))
  else s.xlateTlb a tr va acc

/-- The same for the task that runs on the array. -/
def State.locate (s : State) (a : Nat) (tr : TrCap) (va : Addr) (n acc : Nat) : XRes × State :=
  s.locateK (s.getA a).tsk a tr va n acc

/-- Translation as a check at issue makes it: by the TLBs, and by a walk where both miss (R289, R296). -/
def State.xlateIssue (s : State) (a : Nat) (tr : TrCap) (va : Addr) (acc : Nat) : XRes :=
  let use (e : TlbE) := s.leafRes tr.part va.toNat e.size e.pa e.r e.w e.a acc
  if (s.window tr va.toNat).isSome || !bitAt tr.tlb 63 then s.xlatePure tr va acc
  else match tlbFind (s.getA a).tlb tr.part tr.ctx va.toNat, tlbFind (s.getD (a / 32)).tlb tr.part tr.ctx va.toNat with
    | some e, _ => use e
    | none, some e => use e
    | none, none => s.xlatePure tr va acc
/-- The TLBs after such a check: a miss of the micro-TLB is counted, and both hold the leaf that a walk found which passed R288 (R281,
R289). The on-chip addresses and those of the heap window have no lookup. -/
def State.warm (s : State) (a : Nat) (tr : TrCap) (va : Addr) (acc : Nat) : State :=
  if va.extractLsb' 64 8 = 0xFF#8 ∨ (s.window tr va.toNat).isSome = true ∨ bitAt tr.tlb 63 = false then s
  else
    let micro (e : TlbE) (s : State) : State := s.modA a fun x => { x with tlb := tlbAdd 64 x.tlb e }
    match tlbFind (s.getA a).tlb tr.part tr.ctx va.toNat, tlbFind (s.getD (a / 32)).tlb tr.part tr.ctx va.toNat with
    | some _, _ => s
    | none, some e => micro e (s.countA a 12 1)
    | none, none =>
      let s := ((s.walkKeys tr.part va.toNat 4 (at16 (tr.tlb.extractLsb' 0 56))).foldl (fun (s : State) k => s.walked k) s).countA a 12 1
      match s.walk tr.part va.toNat 4 (at16 (tr.tlb.extractLsb' 0 56)) with
      | .leaf sz pfn r w at_ =>
        (match s.leafRes tr.part va.toNat sz pfn r w at_ acc with
        | .ok _ =>
          let e : TlbE := ⟨tr.part, tr.ctx, sz, va.toNat / pageSize sz, pfn, r, w, at_⟩
          micro e (s.modD (a / 32) fun d => { d with tlb := dieTlbAdd d.tlb e })
        | _ => s)
      | .fault _ _ => s

/-- The home of an access as a check at issue finds it. -/
def State.locatePureK (s : State) (k : Tsk) (a : Nat) (tr : TrCap) (va : Addr) (n acc : Nat) : XRes :=
  if va.extractLsb' 64 8 = 0xFF#8 then
    (match s.onChipHome k a va n with
     | some h => .ok h
     | none => .bad 4 0xFF)
  else s.xlateIssue a tr va acc
def State.locatePure (s : State) (a : Nat) (tr : TrCap) (va : Addr) (n acc : Nat) : XRes :=
  s.locatePureK (s.getA a).tsk a tr va n acc

/-- What a command captures for translation at its issue (R285). -/
def Arr.trCap (x : Arr) : TrCap :=
  ⟨x.csr.part.toNat, x.csr.ctx, x.csr.hwbase, x.csr.hwlimit, x.csr.hwoff,
    bitSet (x.csr.tlbRoot.setWidth 64) 63 x.csr.tlbEn⟩

/-! ## Lines of the cache slices (R2, R237, R281)

A line's state in `State.line`: 1 a fill brings it for a load-block, 2 a load-block holds it, 3 it is present, 4 it is present and a load-block
waits for room to hold it. -/

/-- Two lines have one home slice. -/
def sameSlice (k l : Nat) : Bool := sliceOf (k * 128) == sliceOf (l * 128) && dieOf (k * 128) == dieOf (l * 128)
/-- Lines that load-blocks hold in the slice of a line. -/
def State.heldLines (s : State) (k : Nat) : Nat := (s.line.filter fun e => e.2 == 2 && sameSlice e.1 k).length
/-- A slice has room to hold one more line for a load-block: 4 MiB (R206). -/
def State.holdRoom (s : State) (k : Nat) : Bool := decide (s.heldLines k < 32768)
/-- A line leaves its slice: its words are read for the memory behind it, and their errors are gone with it. One that a load-block waits for
is to be filled again. -/
def State.evict (s : State) (k : Nat) : State :=
  let s := [0, 64].foldl (fun (s : State) o =>
    let u := cacheKey (128 * k + o)
    let s := s.unitRead (128 * k + o) u 5
    { s with err := s.err.filter fun e => !(decide (u ≤ e.1) && decide (e.1 < u + 64)) }) s
  { s with line := SMap.set 0 s.line k (if SMap.get 0 s.line k = 4 then 1 else 0) }
/-- A line takes a state in which it is present: where its slice of 8 MiB is full another goes that no load-block holds, which one is a free
value (R2). DESIGN CHOICE (unsafe; notes/assumptions 36). -/
def State.putLine (s : State) (k v : Nat) : State :=
  let own := s.line.filter fun e => decide (2 ≤ e.2) && sameSlice e.1 k
  let out := own.filter fun e => decide (3 ≤ e.2)
  if s.lineHere k || decide (own.length < 65536) || out.isEmpty then { s with line := SMap.set 0 s.line k v }
  else
    let r := s.draw
    let t := r.2.evict ((out.map (·.1)).getD (r.1.toNat % out.length) 0)
    { t with line := SMap.set 0 t.line k v }
/-- A load-block claims a line: one that is missing is to be filled, one that is present is held, or waits for room (R206). -/
def State.claimLine (s : State) (k : Nat) : State :=
  match SMap.get 0 s.line k with
  | 0 => { s with line := SMap.set 0 s.line k 1 }
  | 3 => { s with line := SMap.set 0 s.line k (if s.holdRoom k then 2 else 4) }
  | _ => s
/-- The lines that an access of array `a` touches are present afterwards; those that were not are fills that the array causes (R281
event 8). DESIGN CHOICE (unsafe; notes/assumptions 36). -/
def State.touch (s : State) (a : Nat) (h : Home) (n : Nat) : State :=
  match h with
  | .phys pa =>
    if 2 ≤ spaceOf pa then s
    else
      let miss := ((List.range ((pa + n - 1) / 128 + 1 - pa / 128)).map (· + pa / 128)).filter fun k => SMap.get 0 s.line k == 0
      if miss.isEmpty then s
      else (miss.foldl (fun (s : State) k => s.putLine k 3) s).countA a 8 miss.length
  | _ => s

/-! ## Reads and writes at a home -/

/-- Correction and poison of the vault words that a read touches (R302, R305). -/
def State.vaultRead (s : State) (b off n : Nat) : Bool × State :=
  ((List.range ((off + n - 1) / 4 + 1 - off / 4)).map (· + off / 4)).foldl (fun (p, s) w =>
    (p || State.vaultPois s b (4 * w), State.vaultFix s b (4 * w))) (false, s)

/-- The errors of the units that a write touches, in memory and in the cache slice: gone where it writes the unit whole; elsewhere the unit is read first (R348, R349). -/
def State.physFix (s : State) (pa n : Nat) : State :=
  (units64 pa n).foldl (fun (s : State) u =>
    let s := if pa ≤ u ∧ u + 64 ≤ pa + n then s else (s.physRead u 64).2
    let in_ (k : Nat) (e : Nat × Nat) : Bool := decide (k ≤ e.1) && decide (e.1 < k + 64)
    { s with err := s.err.filter fun e => !(in_ u e || in_ (cacheKey u) e) }) s

/-- `n` bytes read at a home: value, poison, and the state after corrections (R228, R246, R247). -/
def State.readHome (s : State) (h : Home) (n : Nat) : Nat × Bool × State :=
  match h with
  | .spad b off far =>
    let o := s.bankOff b off far
    let ws := (List.range ((o + n - 1) / 4 + 1 - o / 4)).map (· + o / 4)
    let r := ws.foldl (fun (p, s) w => let q := s.spadRead b (4 * w); (p || q.2.1, q.2.2)) (false, s)
    (s.readN (spadKey b o) n, r.1, r.2)
  | .vault b off => let r := s.vaultRead b off n; (s.readN (vaultKey b off) n, r.1, r.2)
  | .phys pa => let r := s.physRead pa n; (s.readN pa n, r.1 && spaceOf pa != 4, if h.outside then r.2.sendFlits pa 1 else r.2)

/-- Entries of memory, poison and error maps with a key in a range copied to another place (R334). -/
def copyMap {α : Type} (m : SMap α) (dflt : α) [DecidableEq α] (src dst n : Nat) : SMap α :=
  let keep := m.filter fun e => !(decide (dst ≤ e.1) && decide (e.1 < dst + n))
  (m.filter fun e => decide (src ≤ e.1) && decide (e.1 < src + n)).foldl (fun r e => SMap.set dflt r (dst + (e.1 - src)) e.2) keep
/-- The queue whose registered descriptor holds a physical address (R319). -/
def State.descAt (s : State) (pa : Nat) : Option (Nat × Queue) :=
  s.queue.find? fun e => e.2.on && decide (e.2.desc ≤ pa) && decide (pa < e.2.desc + 128)

/-- A write to memory that may touch TAIL words: one written whole takes the maximum, any other keeps its value (R319). -/
def State.physWrite (s : State) (pa : Nat) (l : List Byte) (p : Bool) : State :=
  let n := l.length
  let tails := (s.queue.filter fun e => e.2.on && decide (e.2.desc + 24 < pa + n) && decide (pa < e.2.desc + 32)).map fun e => e.2.desc + 24
  let s := if s.err.isEmpty || n = 0 then s else s.physFix pa n
  tails.dedup.foldl (fun (r : State) t =>
    let old := s.readN t 8
    if pa ≤ t ∧ t + 8 ≤ pa + n then r.writeN t 8 (max old (r.readN t 8)) else r.writeN t 8 old) ((s.setBytes pa l).poisWrite pa n p)

/-- A write by a command processor, firmware or the host, at a physical address (R319, R323). -/
def State.devWrite (s : State) (pa : Nat) (l : List Byte) (p : Bool) : State :=
  match homeOf pa with
  | .phys pa => if (Home.phys pa).outside then s.setBytes pa l else s.physWrite pa l p
  | h => let k := s.keyOf h; ((s.setBytes k l).poisWrite k l.length p).sound k l.length
/-- The words that a device unit reads at a physical address, checked (R302, R313). -/
def State.devRead (s : State) (pa n : Nat) : State :=
  match homeOf pa with
  | .vault b off => (s.vaultRead b off n).2
  | _ => (s.physRead pa n).2
/-- `n` bytes, whole units, copied by firmware within SPACE 0 and 1: the source is read through its codes, the destination is written whole,
and a TAIL word there takes the maximum (R247, R313, R319, R334). -/
def State.copyRange (s : State) (src dst n : Nat) : State :=
  let s := (s.physRead src n).2
  let tails := (s.queue.filter fun e => e.2.on && decide (dst ≤ e.2.desc + 24) && decide (e.2.desc + 32 ≤ dst + n)).map fun e =>
    (e.2.desc + 24, s.readN (e.2.desc + 24) 8)
  let off (e : Nat × Nat) : Bool := !((decide (dst ≤ e.1) && decide (e.1 < dst + n)) || (decide (cacheKey dst ≤ e.1) && decide (e.1 < cacheKey (dst + n))))
  let s : State := { s with mem := copyMap s.mem 0#8 src dst n, pois := copyMap s.pois false src dst n, err := s.err.filter off }
  tails.foldl (fun (s : State) t => s.writeN t.1 8 (max t.2 (s.readN t.1 8))) s

/-- The physical address of a byte of a replay's record (R333). -/
def Replay.at (r : Replay) (off : Nat) : Nat :=
  (r.rrec.foldl (fun (a, n) p => (if n ≤ off ∧ off < n + p.2 then p.1 + (off - n) else a, n + p.2)) (0, 0)).1
/-- A field of a replay's record. -/
def State.rrField (s : State) (r : Replay) (off n : Nat) : Nat := s.readN (r.at off) n
/-- The page at a physical address may be copied by a replay of a partition (R346). -/
def State.pageOk (s : State) (part pa : Nat) : Bool := s.mapped part pa && s.mapped part (pa + 65535)

/-- Harvest: the page of a write by a task of pass 1 is copied before the write (R334). -/
def State.harvest (s : State) (k : Tsk) (part pa : Nat) : State :=
  match (SMap.get Part.reset s.part part).replay with
  | none => s
  | some r =>
    let pg := pa / 65536
    let area := s.rrField r 64 9
    let cap := s.rrField r 76 4
    let excl := (List.range (s.rrField r 80 1)).any fun i =>
      let lo := s.rrField r (96 + 16 * i) 9
      decide (lo ≤ pa) && decide (pa < lo + 65536 * s.rrField r (96 + 16 * i + 12) 4)
    let mine := ((SMap.get none s.task k.id).map fun t => r.launch == some t.launch).getD false
    if r.pass ≠ 1 ∨ r.full = true ∨ mine = false ∨ 2 ≤ spaceOf pa ∨ r.pages.contains pg = true ∨ excl = true then s
    else
      let put (s : State) (r : Replay) : State := { s with part := SMap.mod Part.reset s.part part fun p => { p with replay := some r } }
      let n := r.pages.length + 1
      let copy := area + 65536 * r.pages.length
      if cap < n + (n + 4095) / 4096 ∨ s.pageOk part copy = false then put s { r with full := true }
      else put (s.copyRange (pg * 65536) copy 65536) { r with pages := r.pages ++ [pg] }

/-- The group of a home accepts no asynchronous access now: a write to a retired bank takes it for 2 cycles (R235). -/
def State.excluded (s : State) (h : Home) : Bool :=
  match h with
  | .spad b off far =>
    let g := (s.getA b).itg
    decide (s.now < (SMap.get GUse.none g.use (g.place (s.bankOff b off far / 16) % 64 / 4)).excl)
  | _ => false
/-- What an asynchronous write of `n` bytes at a home takes of its groups (R235). -/
def State.tookWrite (s : State) (h : Home) (n : Nat) : State :=
  match h with
  | .spad b off far =>
    let o := s.bankOff b off far
    let now := s.now
    s.modA b fun x => x.modItg fun g => (wordsAt o n).foldl (fun (g : Itg) w =>
      let p := g.place w
      let f (u : GUse) : GUse := if bitAt g.rbank (p % 64) then { u with busy := true, excl := now + 2 } else { u with busy := true }
      { g with use := SMap.mod GUse.none g.use (p % 64 / 4) f }) g
  | _ => s

/-- Bytes written at a home by array `a` for task `k` (R191, R228, R232, R247): TV of the tiles written is set by any agent's write. -/
def State.writeHomeK (s : State) (k : Tsk) (a : Nat) (h : Home) (l : List Byte) (p : Bool) : State :=
  let s := s.tookWrite h l.length
  match h with
  | .spad b off far =>
    let o := s.bankOff b off far
    (s.spadWrite b o l p).modA b fun x => (x.setTv (x.tilesOf off l.length) true).modCel fun c => c.passOld b o l.length none p
  | .vault b off => ((s.setBytes (vaultKey b off) l).poisWrite (vaultKey b off) l.length p).sound (vaultKey b off) l.length
  | .phys pa =>
    let s := s.harvest k (s.getD (a / 32)).part pa
    if h.outside then (s.setBytes pa l).sendFlits pa ((l.length + 63) / 64) else s.physWrite pa l p
/-- Bytes written at a home for the task on the array. -/
def State.writeHome (s : State) (a : Nat) (h : Home) (l : List Byte) (p : Bool) : State := s.writeHomeK (s.getA a).tsk a h l p

/-- Places poison is never carried to (R190, R249): host and peer-device memory, a registered queue's ring and descriptor. -/
def State.guarded (s : State) (h : Home) (n : Nat) : Bool :=
  h.outside || (match h with
  | .phys pa => s.queue.any fun e => e.2.on &&
      ((decide (e.2.desc < pa + n) && decide (pa < e.2.desc + 128)) ||
       (decide (e.2.ring < pa + n) && decide (pa < e.2.ring + 64 * 2 ^ e.2.log)))
  | _ => false)

/-- A poisoned unit of 64 bytes that command `id` of array `a` writes in part, from byte `lo` to `hi`: clean once it has written all its
bytes with clean data (R247). DEDUCED (unsafe; notes/assumptions 35). -/
def State.healUnit (s : State) (a id u lo hi : Nat) (clean : Bool) : State :=
  if !s.isPois u || !clean then { s with heal := SMap.set (0, 0, 0) s.heal u (0, 0, 0) }
  else
    let e := SMap.get (0, 0, 0) s.heal u
    let m := (if e.1 = a ∧ e.2.1 = id then e.2.2 else 0) ||| (2 ^ hi - 2 ^ lo)
    if m = 2 ^ 64 - 1 then ({ s with heal := SMap.set (0, 0, 0) s.heal u (0, 0, 0) } : State).setPois u false
    else { s with heal := SMap.set (0, 0, 0) s.heal u (a, id, m) }
/-- Contiguous bytes that command `id` of task `k` on array `a` writes at a home, with poison by byte: a granule written whole takes the poison of
its bytes, one written in part joins it to its own (R247). -/
def State.writeHomeP (s : State) (k : Tsk) (a id : Nat) (h : Home) (l : List Byte) (ps : List Bool) : State :=
  let s := s.writeHomeK k a h l false
  if h.outside then s
  else
    let k := s.keyOf h
    let s := ps.zipIdx.foldl (fun s e => if e.1 then s.setPois (k + e.2) true else s) s
    match h with
    | .phys pa =>
      (List.range ((pa + l.length - 1) / 64 + 1 - pa / 64)).foldl (fun (s : State) i =>
        let u := (pa / 64 + i) * 64
        let lo := max pa u - u
        let hi := min (pa + l.length) (u + 64) - u
        s.healUnit a id u lo hi !(((ps.drop (u + lo - pa)).take (hi - lo)).any fun b => b)) s
    | _ => s

/-! ## Fault records (R294, R297, R298) -/

/-- The bytes of a fault record. -/
def faultBytes (va kind acc level ctx part arr node gen seq unit flags rank : Nat) (lidx : List Nat) : List Byte :=
  leBytes 9 va ++ leBytes 1 kind ++ leBytes 1 acc ++ leBytes 1 level ++ leBytes 2 ctx ++ leBytes 1 part ++ leBytes 1 arr ++
    leBytes 4 node ++ leBytes 4 gen ++ leBytes 2 seq ++ leBytes 1 unit ++ leBytes 1 flags ++ leBytes 4 rank ++
    (List.range 8).flatMap fun i => leBytes 4 (lidx[i]?.getD 0)

/-- A record put in a die's fault buffer: dropped and counted when the buffer is full; a record into an empty buffer sets the
fault-pending flag (R297). -/
def State.putFault (s : State) (die : Nat) (rec_ : List Byte) : State :=
  let d := s.getD die
  let s := s.devRead d.fbAddr 64
  let wix := s.readN d.fbAddr 4
  let rix := s.readN (d.fbAddr + 4) 4
  if (wix + 2 ^ 32 - rix) % 2 ^ 32 = d.fbNrec then s.physWrite (d.fbAddr + 16) (leBytes 4 (s.readN (d.fbAddr + 16) 4 + 1)) false
  else
    let s := s.physWrite (d.fbAddr + 64 + 64 * (wix % d.fbNrec)) rec_ false
    let s := s.physWrite d.fbAddr (leBytes 4 (wix + 1)) false
    if wix = rix then s.modD die fun d => { d with fpend := true } else s

/-- A fault record of an access of task `k` by array `a`: unit 0 copy and network, 1 matrix, 3 issue check; FORBID with kinds 2 to 6. -/
def State.taskFault (s : State) (k : Tsk) (a : Nat) (tr : TrCap) (va : Addr) (kind acc level unit seq : Nat) : State :=
  let gen := (s.getD (a / 32)).fbgen.toNat
  s.putFault (a / 32) (faultBytes va.toNat kind acc level tr.ctx.toNat tr.part a k.node gen seq unit
    (1 + (if kind = 1 then 0 else 2)) k.rank k.lidx)

end Sys2Proof.Machine
end

