-- ==== Sys2Proof/Machine/Scalar.lean ====
section
/-! DEFINITION. The scalar slot: spec/04_scalar.md R86-R116, with the number rules of R40, R47-R50. -/

namespace Sys2Proof.Machine

open Sys2Proof

/-- A next state. -/
abbrev Out := Host.Outcome State Fault Refusal

/-! ## Shared shapes -/

/-- A scalar slot: guarded by the predicate of M (R86). -/
def sSem (g : SG) (regs srcs : List RR) (eff : Ctx → State → State) : SlotSem :=
  { cls := .scalar, pg := g.p, chk := g.chk, regs := regs, srcs := srcs, eff := eff }

/-- A result of two scalar registers (R89). -/
def semI2 (g : SG) (l : Nat) (f : Word → Word → Word) (d a b : R6) : SlotSem :=
  sSem g [.s d, .s a, .s b] [.s a, .s b] fun c s =>
    let x := s.getA c.a
    wrS c l d ⟨f (x.sGet a).v (x.sGet b).v, (x.sGet a).p || (x.sGet b).p⟩ s

/-- A result of one scalar register. -/
def semI1 (g : SG) (l : Nat) (f : Word → Word) (d a : R6) : SlotSem :=
  sSem g [.s d, .s a] [.s a] fun c s =>
    let x := s.getA c.a
    wrS c l d ⟨f (x.sGet a).v, (x.sGet a).p⟩ s

/-- A result of a scalar register and an immediate, sign-extended to 64 bits (R90). -/
def semII (g : SG) (l : Nat) (f : Word → Word → Word) (d a : R6) (i : Imm 28) : SlotSem :=
  semI1 g l (fun x => f x (i.v.signExtend 64)) d a

/-- Words of the extension of an immediate. -/
def immW {n : Nat} (i : Imm n) : Nat := if i.ext then 1 else 0

/-! ## Integer arithmetic (R89, R90) -/

def opAdd (x y : Word) : Word := x + y
def opSub (x y : Word) : Word := x - y
def opMul (x y : Word) : Word := x * y
/-- High 64 bits of the signed 128-bit product. -/
def opMulh (x y : Word) : Word := BitVec.ofInt 64 (x.toInt * y.toInt / 2 ^ 64)
/-- Signed quotient toward zero; all ones by zero, −2^63 for the overflow (R89). -/
def opDiv (x y : Word) : Word := if y = 0#64 then BitVec.allOnes 64 else BitVec.ofInt 64 (Int.tdiv x.toInt y.toInt)
/-- Signed remainder with the sign of the dividend; the dividend by zero (R89). -/
def opRem (x y : Word) : Word := if y = 0#64 then x else BitVec.ofInt 64 (Int.tmod x.toInt y.toInt)
def opAnd (x y : Word) : Word := x &&& y
def opOr (x y : Word) : Word := x ||| y
def opXor (x y : Word) : Word := x ^^^ y
def opAndn (x y : Word) : Word := x &&& ~~~y
def opShl (x y : Word) : Word := x <<< (y.toNat % 64)
def opShr (x y : Word) : Word := x >>> (y.toNat % 64)
def opSar (x y : Word) : Word := x.sshiftRight (y.toNat % 64)
def opRol (x y : Word) : Word := x.rotateLeft (y.toNat % 64)
def opMin (x y : Word) : Word := if x.slt y then x else y
def opMax (x y : Word) : Word := if x.slt y then y else x
/-- Number of leading zero bits of the low `n` bits. -/
def clzN (n : Nat) (x : Word) : Nat :=
  match n with
  | 0 => 0
  | n + 1 => if bitAt x n then 0 else 1 + clzN n x
/-- Number of one bits among the low `n` bits. -/
def popN (n : Nat) (x : Word) : Nat :=
  match n with
  | 0 => 0
  | n + 1 => (if bitAt x n then 1 else 0) + popN n x
def opClz (x : Word) : Word := BitVec.ofNat 64 (clzN 64 x)
def opPopc (x : Word) : Word := BitVec.ofNat 64 (popN 64 x)

def semAdd (g : SG) (d a b : R6) : SlotSem := semI2 g 1 opAdd d a b
/-- `ADD sd, sa, sb` (R89). -/
def execAdd (g : SG) (d a b : R6) (s : State) : Out := .next (runSlot 0 (semAdd g d a b) s)
def semAddImm (g : SG) (d a : R6) (i : Imm 28) : SlotSem := semII g 1 opAdd d a i
/-- `ADD sd, sa, imm` (R90). -/
def execAddImm (g : SG) (d a : R6) (i : Imm 28) (s : State) : Out := .next (runSlot (immW i) (semAddImm g d a i) s)
def semSub (g : SG) (d a b : R6) : SlotSem := semI2 g 1 opSub d a b
/-- `SUB sd, sa, sb` (R89). -/
def execSub (g : SG) (d a b : R6) (s : State) : Out := .next (runSlot 0 (semSub g d a b) s)
def semSubImm (g : SG) (d a : R6) (i : Imm 28) : SlotSem := semII g 1 opSub d a i
/-- `SUB sd, sa, imm` (R90). -/
def execSubImm (g : SG) (d a : R6) (i : Imm 28) (s : State) : Out := .next (runSlot (immW i) (semSubImm g d a i) s)
def semMul (g : SG) (d a b : R6) : SlotSem := semI2 g 3 opMul d a b
/-- `MUL sd, sa, sb` (R89). -/
def execMul (g : SG) (d a b : R6) (s : State) : Out := .next (runSlot 0 (semMul g d a b) s)
def semMulImm (g : SG) (d a : R6) (i : Imm 28) : SlotSem := semII g 3 opMul d a i
/-- `MUL sd, sa, imm` (R90). -/
def execMulImm (g : SG) (d a : R6) (i : Imm 28) (s : State) : Out := .next (runSlot (immW i) (semMulImm g d a i) s)
def semMulh (g : SG) (d a b : R6) : SlotSem := semI2 g 3 opMulh d a b
/-- `MULH sd, sa, sb` (R89). -/
def execMulh (g : SG) (d a b : R6) (s : State) : Out := .next (runSlot 0 (semMulh g d a b) s)
def semMulhImm (g : SG) (d a : R6) (i : Imm 28) : SlotSem := semII g 3 opMulh d a i
/-- `MULH sd, sa, imm` (R90). -/
def execMulhImm (g : SG) (d a : R6) (i : Imm 28) (s : State) : Out := .next (runSlot (immW i) (semMulhImm g d a i) s)
def semDiv (g : SG) (d a b : R6) : SlotSem := semI2 g 20 opDiv d a b
/-- `DIV sd, sa, sb` (R89). -/
def execDiv (g : SG) (d a b : R6) (s : State) : Out := .next (runSlot 0 (semDiv g d a b) s)
def semDivImm (g : SG) (d a : R6) (i : Imm 28) : SlotSem := semII g 20 opDiv d a i
/-- `DIV sd, sa, imm` (R90). -/
def execDivImm (g : SG) (d a : R6) (i : Imm 28) (s : State) : Out := .next (runSlot (immW i) (semDivImm g d a i) s)
def semRem (g : SG) (d a b : R6) : SlotSem := semI2 g 20 opRem d a b
/-- `REM sd, sa, sb` (R89). -/
def execRem (g : SG) (d a b : R6) (s : State) : Out := .next (runSlot 0 (semRem g d a b) s)
def semRemImm (g : SG) (d a : R6) (i : Imm 28) : SlotSem := semII g 20 opRem d a i
/-- `REM sd, sa, imm` (R90). -/
def execRemImm (g : SG) (d a : R6) (i : Imm 28) (s : State) : Out := .next (runSlot (immW i) (semRemImm g d a i) s)
def semAnd (g : SG) (d a b : R6) : SlotSem := semI2 g 1 opAnd d a b
/-- `AND sd, sa, sb` (R89). -/
def execAnd (g : SG) (d a b : R6) (s : State) : Out := .next (runSlot 0 (semAnd g d a b) s)
def semAndImm (g : SG) (d a : R6) (i : Imm 28) : SlotSem := semII g 1 opAnd d a i
/-- `AND sd, sa, imm` (R90). -/
def execAndImm (g : SG) (d a : R6) (i : Imm 28) (s : State) : Out := .next (runSlot (immW i) (semAndImm g d a i) s)
def semOr (g : SG) (d a b : R6) : SlotSem := semI2 g 1 opOr d a b
/-- `OR sd, sa, sb` (R89). -/
def execOr (g : SG) (d a b : R6) (s : State) : Out := .next (runSlot 0 (semOr g d a b) s)
def semOrImm (g : SG) (d a : R6) (i : Imm 28) : SlotSem := semII g 1 opOr d a i
/-- `OR sd, sa, imm` (R90). -/
def execOrImm (g : SG) (d a : R6) (i : Imm 28) (s : State) : Out := .next (runSlot (immW i) (semOrImm g d a i) s)
def semXor (g : SG) (d a b : R6) : SlotSem := semI2 g 1 opXor d a b
/-- `XOR sd, sa, sb` (R89). -/
def execXor (g : SG) (d a b : R6) (s : State) : Out := .next (runSlot 0 (semXor g d a b) s)
def semXorImm (g : SG) (d a : R6) (i : Imm 28) : SlotSem := semII g 1 opXor d a i
/-- `XOR sd, sa, imm` (R90). -/
def execXorImm (g : SG) (d a : R6) (i : Imm 28) (s : State) : Out := .next (runSlot (immW i) (semXorImm g d a i) s)
def semAndn (g : SG) (d a b : R6) : SlotSem := semI2 g 1 opAndn d a b
/-- `ANDN sd, sa, sb` (R89). -/
def execAndn (g : SG) (d a b : R6) (s : State) : Out := .next (runSlot 0 (semAndn g d a b) s)
def semAndnImm (g : SG) (d a : R6) (i : Imm 28) : SlotSem := semII g 1 opAndn d a i
/-- `ANDN sd, sa, imm` (R90). -/
def execAndnImm (g : SG) (d a : R6) (i : Imm 28) (s : State) : Out := .next (runSlot (immW i) (semAndnImm g d a i) s)
def semShl (g : SG) (d a b : R6) : SlotSem := semI2 g 1 opShl d a b
/-- `SHL sd, sa, sb` (R89). -/
def execShl (g : SG) (d a b : R6) (s : State) : Out := .next (runSlot 0 (semShl g d a b) s)
def semShlImm (g : SG) (d a : R6) (i : Imm 28) : SlotSem := semII g 1 opShl d a i
/-- `SHL sd, sa, imm` (R90). -/
def execShlImm (g : SG) (d a : R6) (i : Imm 28) (s : State) : Out := .next (runSlot (immW i) (semShlImm g d a i) s)
def semShr (g : SG) (d a b : R6) : SlotSem := semI2 g 1 opShr d a b
/-- `SHR sd, sa, sb` (R89). -/
def execShr (g : SG) (d a b : R6) (s : State) : Out := .next (runSlot 0 (semShr g d a b) s)
def semShrImm (g : SG) (d a : R6) (i : Imm 28) : SlotSem := semII g 1 opShr d a i
/-- `SHR sd, sa, imm` (R90). -/
def execShrImm (g : SG) (d a : R6) (i : Imm 28) (s : State) : Out := .next (runSlot (immW i) (semShrImm g d a i) s)
def semSar (g : SG) (d a b : R6) : SlotSem := semI2 g 1 opSar d a b
/-- `SAR sd, sa, sb` (R89). -/
def execSar (g : SG) (d a b : R6) (s : State) : Out := .next (runSlot 0 (semSar g d a b) s)
def semSarImm (g : SG) (d a : R6) (i : Imm 28) : SlotSem := semII g 1 opSar d a i
/-- `SAR sd, sa, imm` (R90). -/
def execSarImm (g : SG) (d a : R6) (i : Imm 28) (s : State) : Out := .next (runSlot (immW i) (semSarImm g d a i) s)
def semRol (g : SG) (d a b : R6) : SlotSem := semI2 g 1 opRol d a b
/-- `ROL sd, sa, sb` (R89). -/
def execRol (g : SG) (d a b : R6) (s : State) : Out := .next (runSlot 0 (semRol g d a b) s)
def semRolImm (g : SG) (d a : R6) (i : Imm 28) : SlotSem := semII g 1 opRol d a i
/-- `ROL sd, sa, imm` (R90). -/
def execRolImm (g : SG) (d a : R6) (i : Imm 28) (s : State) : Out := .next (runSlot (immW i) (semRolImm g d a i) s)
def semMin (g : SG) (d a b : R6) : SlotSem := semI2 g 1 opMin d a b
/-- `MIN sd, sa, sb` (R89). -/
def execMin (g : SG) (d a b : R6) (s : State) : Out := .next (runSlot 0 (semMin g d a b) s)
def semMinImm (g : SG) (d a : R6) (i : Imm 28) : SlotSem := semII g 1 opMin d a i
/-- `MIN sd, sa, imm` (R90). -/
def execMinImm (g : SG) (d a : R6) (i : Imm 28) (s : State) : Out := .next (runSlot (immW i) (semMinImm g d a i) s)
def semMax (g : SG) (d a b : R6) : SlotSem := semI2 g 1 opMax d a b
/-- `MAX sd, sa, sb` (R89). -/
def execMax (g : SG) (d a b : R6) (s : State) : Out := .next (runSlot 0 (semMax g d a b) s)
def semMaxImm (g : SG) (d a : R6) (i : Imm 28) : SlotSem := semII g 1 opMax d a i
/-- `MAX sd, sa, imm` (R90). -/
def execMaxImm (g : SG) (d a : R6) (i : Imm 28) (s : State) : Out := .next (runSlot (immW i) (semMaxImm g d a i) s)
def semClz (g : SG) (d a : R6) : SlotSem := semI1 g 1 opClz d a
/-- `CLZ sd, sa` (R89). -/
def execClz (g : SG) (d a : R6) (s : State) : Out := .next (runSlot 0 (semClz g d a) s)
def semPopc (g : SG) (d a : R6) : SlotSem := semI1 g 1 opPopc d a
/-- `POPC sd, sa` (R89). -/
def execPopc (g : SG) (d a : R6) (s : State) : Out := .next (runSlot 0 (semPopc g d a) s)

/-! ## Constants, selection and moves (R91-R93) -/

def semLi (g : SG) (d : R6) (i : Imm 28) : SlotSem :=
  sSem g [.s d] [] fun c s => wrS c 1 d ⟨i.v.signExtend 64, false⟩ s
/-- `LI sd, imm` (R91, Q = 0). -/
def execLi (g : SG) (d : R6) (i : Imm 28) (s : State) : Out := .next (runSlot (immW i) (semLi g d i) s)

/-- sd[55:28] := imm (R91, Q = 1). -/
def semLiQ1 (g : SG) (d : R6) (i : Imm 28) : SlotSem :=
  sSem g [.s d] [.s d] fun c s =>
    let v := (s.getA c.a).sGet d
    wrS c 1 d ⟨v.v.extractLsb' 56 8 ++ (i.v ++ v.v.extractLsb' 0 28), v.p⟩ s
/-- `LI.q1 sd, imm` (R91). -/
def execLiQ1 (g : SG) (d : R6) (i : Imm 28) (s : State) : Out := .next (runSlot (immW i) (semLiQ1 g d i) s)

/-- sd[63:56] := imm[7:0] (R91, Q = 2). -/
def semLiQ2 (g : SG) (d : R6) (i : Imm 28) : SlotSem :=
  sSem g [.s d] [.s d] fun c s =>
    let v := (s.getA c.a).sGet d
    wrS c 1 d ⟨i.v.extractLsb' 0 8 ++ v.v.extractLsb' 0 56, v.p⟩ s
/-- `LI.q2 sd, imm` (R91). -/
def execLiQ2 (g : SG) (d : R6) (i : Imm 28) (s : State) : Out := .next (runSlot (immW i) (semLiQ2 g d i) s)

/-- A source that must not be poisoned (R87). -/
def killIf (b : Bool) (slot : Nat) : List Trap := if b then [trapOf .poisonkill slot] else []

/-- The forms of `MOV` (R93). -/
def semMov (g : SG) (k : MovK) : SlotSem :=
  match k with
  | .ss d a => semI1 g 1 (fun x => x) d a
  | .as d a => sSem g [.a d, .s a] [.s a] fun c s =>
      let v := (s.getA c.a).sGet a
      wrA c d ⟨v.v.setWidth 72, v.p⟩ s
  | .sa d a => sSem g [.s d, .a a] [.a a] fun c s =>
      let v := (s.getA c.a).aGet a
      wrS c 1 d ⟨v.v.extractLsb' 0 64, v.p⟩ s
  | .aa d a => sSem g [.a d, .a a] [.a a] fun c s => wrA c d ((s.getA c.a).aGet a) s
  | .hiAS d a => sSem g [.a d, .s a] [.a d, .s a] fun c s =>
      let x := s.getA c.a
      wrA c d ⟨(x.sGet a).v.extractLsb' 0 8 ++ (x.aGet d).v.extractLsb' 0 64, (x.sGet a).p || (x.aGet d).p⟩ s
  | .hiSA d a => sSem g [.s d, .a a] [.a a] fun c s =>
      let v := (s.getA c.a).aGet a
      wrS c 1 d ⟨(v.v.extractLsb' 64 8).setWidth 64, v.p⟩ s
  | .ps d a => sSem g [.p d, .s a] [.s a] fun c s =>
      let v := (s.getA c.a).sGet a
      wrP c 1 d (bitAt v.v 0) v.p s
  | .sp d a => sSem g [.s d, .p a] [] fun c s =>
      let x := s.getA c.a
      wrS c 1 d ⟨(BitVec.ofBool (x.pGet a)).setWidth 64, x.pPois a⟩ s
  | .gs a => { sSem g [.s a] [.s a] (fun c s => wrX c (.g ((s.getA c.a).sGet a |>.v.extractLsb' 0 16)) s) with
      own := fun c s => killIf ((s.getA c.a).sGet a).p c.slot }
  | .sg d => sSem g [.s d] [] fun c s => wrS c 1 d ⟨(s.getA c.a).sca.g.setWidth 64, false⟩ s
/-- `MOV` (R93). -/
def execMov (g : SG) (k : MovK) (s : State) : Out := .next (runSlot 0 (semMov g k) s)

/-- `SEL`: M.P selects, so only stage guards act (R92). -/
def semSel (g : SG) (d a b : R6) : SlotSem :=
  { sSem g [.s d, .s a, .s b] [.s a, .s b] (fun c s =>
      let x := s.getA c.a
      let v := if x.pGet g.p then x.sGet a else x.sGet b
      wrS c 1 d ⟨v.v, v.p || x.pPois g.p⟩ s) with pg := 0#3 }
/-- `SEL sd, sa, sb, p` (R92). -/
def execSel (g : SG) (d a b : R6) (s : State) : Out := .next (runSlot 0 (semSel g d a b) s)

/-! ## Compares (R94, R95) -/

/-- The condition of an integer compare (R94). -/
def cmpHolds (k : CmpC) (x y : Word) : Bool :=
  match k with
  | .eq => x == y | .ne => x != y | .lt => x.slt y | .le => !y.slt x | .ltu => x.ult y | .leu => !y.ult x

def semCmp (g : SG) (k : CmpC) (d : BitVec 3) (a b : R6) : SlotSem :=
  sSem g [.p d, .s a, .s b] [.s a, .s b] fun c s =>
    let x := s.getA c.a
    wrP c 1 d (cmpHolds k (x.sGet a).v (x.sGet b).v) ((x.sGet a).p || (x.sGet b).p) s
/-- `CMP.cond pd, sa, sb` (R94). -/
def execCmp (g : SG) (k : CmpC) (d : BitVec 3) (a b : R6) (s : State) : Out := .next (runSlot 0 (semCmp g k d a b) s)

def semCmpImm (g : SG) (k : CmpC) (d : BitVec 3) (a : R6) (i : Imm 28) : SlotSem :=
  sSem g [.p d, .s a] [.s a] fun c s =>
    let v := (s.getA c.a).sGet a
    wrP c 1 d (cmpHolds k v.v (i.v.signExtend 64)) v.p s
/-- `CMP.cond pd, sa, imm` (R90, R94). -/
def execCmpImm (g : SG) (k : CmpC) (d : BitVec 3) (a : R6) (i : Imm 28) (s : State) : Out :=
  .next (runSlot (immW i) (semCmpImm g k d a i) s)

/-- The scalar format of a form, and a source read in it (R36). -/
def fmtS (dbl : Bool) : Fmt := if dbl then fmt64 else fmt32
def srcS (dbl : Bool) (v : Word) : Nat := if dbl then v.toNat else v.toNat % 2 ^ 32

def semFcmp (g : SG) (dbl : Bool) (cond d : BitVec 3) (a b : R6) : SlotSem :=
  sSem g [.p d, .s a, .s b] [.s a, .s b] fun c s =>
    let x := s.getA c.a
    let f := fmtS dbl
    let r := FV.cmp cond (f.val x.ctlS.ftz (srcS dbl (x.sGet a).v)) (f.val x.ctlS.ftz (srcS dbl (x.sGet b).v))
    wrF c (c.t + 2) r.2 (wrP c 2 d r.1 ((x.sGet a).p || (x.sGet b).p) s)
/-- `FCMP.d`, `FCMP.s` (R95). -/
def execFcmp (g : SG) (dbl : Bool) (cond d : BitVec 3) (a b : R6) (s : State) : Out :=
  .next (runSlot 0 (semFcmp g dbl cond d a b) s)

/-! ## Floating-point arithmetic (R96, R97) -/

/-- A floating result of two sources: flags at the cycle it becomes visible (R49). -/
def semF2 (g : SG) (dbl : Bool) (l : Nat) (f : RCtl → Nat → Nat → Nat × Fl) (d a b : R6) : SlotSem :=
  sSem g [.s d, .s a, .s b] [.s a, .s b] fun c s =>
    let x := s.getA c.a
    let r := f x.ctlS (srcS dbl (x.sGet a).v) (srcS dbl (x.sGet b).v)
    wrF c (c.t + l) r.2 (wrS c l d ⟨BitVec.ofNat 64 r.1, (x.sGet a).p || (x.sGet b).p⟩ s)

def semFadd (g : SG) (dbl : Bool) (d a b : R6) : SlotSem := semF2 g dbl 4 (fmtS dbl).add d a b
/-- `FADD` (R96). -/
def execFadd (g : SG) (dbl : Bool) (d a b : R6) (s : State) : Out := .next (runSlot 0 (semFadd g dbl d a b) s)
def semFsub (g : SG) (dbl : Bool) (d a b : R6) : SlotSem := semF2 g dbl 4 (fmtS dbl).sub d a b
/-- `FSUB` (R96). -/
def execFsub (g : SG) (dbl : Bool) (d a b : R6) (s : State) : Out := .next (runSlot 0 (semFsub g dbl d a b) s)
def semFmul (g : SG) (dbl : Bool) (d a b : R6) : SlotSem := semF2 g dbl 4 (fmtS dbl).mul d a b
/-- `FMUL` (R96). -/
def execFmul (g : SG) (dbl : Bool) (d a b : R6) (s : State) : Out := .next (runSlot 0 (semFmul g dbl d a b) s)
def semFdiv (g : SG) (dbl : Bool) (d a b : R6) : SlotSem := semF2 g dbl (if dbl then 20 else 12) (fmtS dbl).div d a b
/-- `FDIV` (R96). -/
def execFdiv (g : SG) (dbl : Bool) (d a b : R6) (s : State) : Out := .next (runSlot 0 (semFdiv g dbl d a b) s)

def semFfma (g : SG) (dbl : Bool) (d a b : R6) : SlotSem :=
  sSem g [.s d, .s a, .s b] [.s d, .s a, .s b] fun c s =>
    let x := s.getA c.a
    let r := (fmtS dbl).fma x.ctlS (srcS dbl (x.sGet a).v) (srcS dbl (x.sGet b).v) (srcS dbl (x.sGet d).v)
    wrF c (c.t + 4) r.2 (wrS c 4 d ⟨BitVec.ofNat 64 r.1, (x.sGet a).p || (x.sGet b).p || (x.sGet d).p⟩ s)
/-- `FFMA`: sa × sb + sd with one rounding (R96). -/
def execFfma (g : SG) (dbl : Bool) (d a b : R6) (s : State) : Out := .next (runSlot 0 (semFfma g dbl d a b) s)

/-- A floating result of one source. -/
def semF1 (g : SG) (l : Nat) (f : RCtl → Word → Word × Fl) (d a : R6) : SlotSem :=
  sSem g [.s d, .s a] [.s a] fun c s =>
    let x := s.getA c.a
    let r := f x.ctlS (x.sGet a).v
    wrF c (c.t + l) r.2 (wrS c l d ⟨r.1, (x.sGet a).p⟩ s)

def semFsqrt (g : SG) (dbl : Bool) (d a : R6) : SlotSem :=
  semF1 g (if dbl then 24 else 14) (fun k v =>
    let r := (fmtS dbl).sqrt k (srcS dbl v)
    (BitVec.ofNat 64 r.1, r.2)) d a
/-- `FSQRT` (R96). -/
def execFsqrt (g : SG) (dbl : Bool) (d a : R6) (s : State) : Out := .next (runSlot 0 (semFsqrt g dbl d a) s)

/-- A conversion of the low bits of a value, written zero-extended (R97). -/
def cvtW (src dst : Fmt) (k : RCtl) (v : Word) : Word × Fl :=
  let r := cvtFF src dst k (v.toNat % 2 ^ src.width)
  (BitVec.ofNat 64 r.1, r.2)
/-- A conversion to an n-bit integer, written sign-extended (R97). -/
def cvtWI (src : Fmt) (n : Nat) (k : RCtl) (v : Word) : Word × Fl :=
  let r := cvtFI src n k (v.toNat % 2 ^ src.width)
  (BitVec.ofInt 64 (sInt n r.1), r.2)
/-- A conversion from an n-bit integer (R97). -/
def cvtIW (n : Nat) (dst : Fmt) (k : RCtl) (v : Word) : Word × Fl :=
  let r := cvtIF n dst k v.toNat
  (BitVec.ofNat 64 r.1, r.2)

/-- The conversions of `FCVT` by code (R97). -/
def fcvtOp (code : BitVec 4) (k : RCtl) (v : Word) : Word × Fl :=
  match code.toNat with
  | 0 => cvtW fmt64 fmt32 k v
  | 1 => cvtW fmt32 fmt64 k v
  | 2 => cvtWI fmt64 64 k v
  | 3 => cvtIW 64 fmt64 k v
  | 4 => cvtWI fmt32 64 k v
  | 5 => cvtIW 64 fmt32 k v
  | 6 => cvtW fmt32 fmtF16 k v
  | 7 => cvtW fmtF16 fmt32 k v
  | 8 => cvtW fmt32 fmtBf16 k v
  | 9 => cvtW fmtBf16 fmt32 k v
  | 10 => cvtW fmt32 fmtE4m3 k v
  | 11 => cvtW fmtE4m3 fmt32 k v
  | 12 => cvtW fmt32 fmtE5m2 k v
  | 13 => cvtW fmtE5m2 fmt32 k v
  | 14 => cvtWI fmt32 32 k v
  | _ => cvtIW 32 fmt32 k v

def semFcvt (g : SG) (code : BitVec 4) (d a : R6) : SlotSem := semF1 g 3 (fcvtOp code) d a
/-- `FCVT` (R97). -/
def execFcvt (g : SG) (code : BitVec 4) (d a : R6) (s : State) : Out := .next (runSlot 0 (semFcvt g code d a) s)

/-! ## Address arithmetic (R98) -/

def semAdda (g : SG) (d a : BitVec 4) (b : R6) : SlotSem :=
  sSem g [.a d, .a a, .s b] [.a a, .s b] fun c s =>
    let x := s.getA c.a
    wrA c d ⟨(x.aGet a).v + (x.sGet b).v.signExtend 72, (x.aGet a).p || (x.sGet b).p⟩ s
/-- `ADDA ad, aa, sb` (R98). -/
def execAdda (g : SG) (d a : BitVec 4) (b : R6) (s : State) : Out := .next (runSlot 0 (semAdda g d a b) s)

def semLea (g : SG) (d a : BitVec 4) (b sh : R6) (disp : BitVec 16) : SlotSem :=
  sSem g [.a d, .a a, .s b] [.a a, .s b] fun c s =>
    let x := s.getA c.a
    wrA c d ⟨(x.aGet a).v + (((x.sGet b).v.signExtend 72) <<< sh.toNat) + disp.signExtend 72,
      (x.aGet a).p || (x.sGet b).p⟩ s
/-- `LEA ad, aa, sb, sh, disp` (R98). -/
def execLea (g : SG) (d a : BitVec 4) (b sh : R6) (disp : BitVec 16) (s : State) : Out :=
  .next (runSlot 1 (semLea g d a b sh disp) s)

/-! ## Loads and stores (R99-R102) -/

/-- The checks of an own-scratchpad access of `n` bytes at `ea` after INVREG, in order (R100, R145, R155). -/
def spadTraps (x : Arr) (slot : Nat) (aa : PA) (ea : Addr) (align n : Nat) (load : Bool) : List Trap :=
  if aa.p then [trapOf .poisonkill slot]
  else if ea.toNat % align ≠ 0 then [trapOf .align slot]
  else match x.tsk.ownOff 0 ea with
    | none => [trapBounds slot 0xFF]
    | some off =>
      if !x.tsk.inAlloc off n then [trapBounds slot 0xFF]
      else if x.anyEngine (x.tilesOf off n) then [trapOf .tbusy slot]
      else if load && x.anyInvalid (x.tilesOf off n) then [trapOf .invtile slot]
      else []

/-- Bytes of a width code (R99). -/
def wBytes (w : BitVec 2) : Nat := 2 ^ w.toNat

/-- The effective address of `LD` and `ST` (R99): off is encoded in units of the width. -/
def lsEa (x : Arr) (w : BitVec 2) (a : BitVec 4) (off : Imm 28) : Addr :=
  (x.aGet a).v + (off.v.signExtend 72 <<< w.toNat)

/-- Offset of an address in the own scratchpad; 0 where it is none (the checks have refused it). -/
def Arr.spOff (x : Arr) (ea : Addr) : Nat := (x.tsk.ownOff 0 ea).getD 0

/-- A local read of `n` bytes at an offset: value, poison, and the state with the corrections the read makes. -/
def State.localRead (s : State) (a off n : Nat) : Nat × Bool × State :=
  let x := s.getA a
  let o := x.localOff off
  let ws := (List.range ((o + n - 1) / 4 + 1 - o / 4)).map (· + o / 4)
  let r := ws.foldl (fun (p, s) w =>
    let q := s.spadRead a (4 * w)
    (p || q.2.1, q.2.2)) (false, s)
  (s.readN (spadKey a o) n, r.1, r.2.syncUse a (wordsAt o n))

def semLd (g : SG) (w : BitVec 2) (d : R6) (a : BitVec 4) (off : Imm 28) : SlotSem :=
  { sSem g [.s d, .a a] [.a a] (fun c s =>
      let x := s.getA c.a
      let n := wBytes w
      let r := s.localRead c.a (x.spOff (lsEa x w a off)) n
      wrS c 6 d ⟨BitVec.ofInt 64 (sInt (8 * n) r.1), r.2.1⟩ r.2.2) with
    own := fun c s =>
      let x := s.getA c.a
      spadTraps x c.slot (x.aGet a) (lsEa x w a off) (wBytes w) (wBytes w) true }
/-- `LD.w sd, [aa + off]` (R99-R102): the value is visible at T + 6. -/
def execLd (g : SG) (w : BitVec 2) (d : R6) (a : BitVec 4) (off : Imm 28) (s : State) : Out :=
  .next (runSlot (immW off) (semLd g w d a off) s)

/-- The low `n` bytes of a value, least significant first. -/
def toBytes (n v : Nat) : List Byte :=
  match n with
  | 0 => []
  | n + 1 => BitVec.ofNat 8 v :: toBytes n (v / 256)

/-- A store of this cycle, performed after every read of the cycle (R102, R239). -/
def pushStore (c : Ctx) (off : Nat) (l : List Byte) (p : Bool) (s : State) : State :=
  s.modA c.a fun x => x.modCel fun e => { e with stq := stIns e.stq ⟨c.ord, off, l, p, false⟩ }

def semSt (g : SG) (w : BitVec 2) (d : R6) (a : BitVec 4) (off : Imm 28) : SlotSem :=
  { sSem g [.s d, .a a] [.a a, .s d] (fun c s =>
      let x := s.getA c.a
      pushStore c (x.spOff (lsEa x w a off)) (toBytes (wBytes w) (x.sGet d).v.toNat) (x.sGet d).p s) with
    own := fun c s =>
      let x := s.getA c.a
      spadTraps x c.slot (x.aGet a) (lsEa x w a off) (wBytes w) (wBytes w) false }
/-- `ST.w sd, [aa + off]` (R99-R102): performs at issue, after the cycle's reads. -/
def execSt (g : SG) (w : BitVec 2) (d : R6) (a : BitVec 4) (off : Imm 28) (s : State) : Out :=
  .next (runSlot (immW off) (semSt g w d a off) s)

/-! ## Special registers (R61, R103) -/

/-- The value of a special register as sampled at T, with its poison (R29, R61, R103). -/
def spRead (c : Ctx) (n : Nat) (s : State) : PV :=
  let x := s.getA c.a
  let clean (v : Word) : PV := ⟨v, false⟩
  match n with
  | 0 => let g := s.agg c.a c.t; ⟨g.flags, g.flagsP != 0#64⟩
  | 1 => let g := s.agg c.a c.t; ⟨g.cand, g.pcol != 0#64⟩
  | 2 => let g := s.agg c.a c.t; ⟨g.cor, g.pcol != 0#64⟩
  | 3 => clean x.sca.lc
  | 4 => clean x.sca.ec
  | 5 => clean (x.sca.rrb.setWidth 64)
  | 6 => clean (BitVec.ofNat 64 x.tsk.rank)
  | 7 => clean (BitVec.ofNat 64 x.tsk.nranks)
  | 8 => clean (BitVec.ofNat 64 (x.tsk.rank * (16 + x.tsk.dhop)))
  | 9 => clean x.sca.fpcsr
  | 10 => clean x.sca.uvec
  | 11 => clean (BitVec.ofNat 64 (s.getD (c.a / 32)).cyc)
  | 12 => clean (BitVec.ofNat 64 (32 - x.sca.svq.length))
  | 13 => clean (BitVec.ofNat 64 x.sca.vsq.length)
  | 14 => clean (BitVec.ofNat 64 c.a)
  | n =>
    if 16 ≤ n ∧ n ≤ 23 then
      clean (if n - 16 < x.tsk.levels.length then BitVec.ofNat 64 (x.tsk.lidx[n - 16]?.getD 0) else 0#64)
    else if 24 ≤ n ∧ n ≤ 31 then clean (BitVec.ofNat 64 (extAt x.tsk.levels (n - 24)))
    else clean 0#64

def semRds (g : SG) (d n : R6) : SlotSem :=
  sSem g [.s d] [] fun c s => wrS c 1 d (spRead c n.toNat s) s
/-- `RDS sd, name` (R103). -/
def execRds (g : SG) (d n : R6) (s : State) : Out := .next (runSlot 0 (semRds g d n) s)

/-- The write of a special register (R61, R103). -/
def spWrite (n : Nat) (v : Word) : Wr :=
  match n with
  | 3 => .lc v
  | 4 => .ec v
  | 5 => .rrb (v.extractLsb' 0 5)
  | 9 => .fpcsr v
  | _ => .uvec v

def semWrs (g : SG) (n a : R6) : SlotSem :=
  { sSem g [.s a] [.s a] (fun c s => wrX c (spWrite n.toNat ((s.getA c.a).sGet a).v) s) with
    own := fun c s => killIf ((s.getA c.a).sGet a).p c.slot }
/-- `WRS name, sa` (R103). -/
def execWrs (g : SG) (n a : R6) (s : State) : Out := .next (runSlot 0 (semWrs g n a) s)

/-! ## Queues (R110, R111) -/

def semEnq (g : SG) (a : R6) : SlotSem :=
  { sSem g [.s a] [.s a] (fun c s => wrX c (.svq ((s.getA c.a).sGet a)) s) with
    own := fun c s =>
      let x := s.getA c.a
      killIf (x.sGet a).p c.slot ++
        (if decide (32 ≤ x.sca.svq.length) && !bitAt c.pop 0 then [trapBounds c.slot 0] else []) }
/-- `ENQ sa` (R110). -/
def execEnq (g : SG) (a : R6) (s : State) : Out := .next (runSlot 0 (semEnq g a) s)

def semDeq (g : SG) (d : R6) (q : BitVec 3) : SlotSem :=
  { sSem g [.s d] [] (fun c s => wrS c 1 d (((s.getA c.a).headAt q.toNat).getD PV.zero) s) with heads := [q.toNat] }
/-- `DEQ sd, q` (R111). -/
def execDeq (g : SG) (d : R6) (q : BitVec 3) (s : State) : Out := .next (runSlot 0 (semDeq g d q) s)

/-! ## Selectors (R104) -/

def semXselSet (g : SG) (p : BitVec 2) (a : R6) : SlotSem :=
  { sSem g [.s a] [.s a] (fun c s => wrX c (.xsel p.toNat ((s.getA c.a).sGet a).v) s) with
    own := fun c s => killIf ((s.getA c.a).sGet a).p c.slot }
/-- `XSEL.SET` (R104). -/
def execXselSet (g : SG) (p : BitVec 2) (a : R6) (s : State) : Out := .next (runSlot 0 (semXselSet g p a) s)

def semYselSet (g : SG) (p : BitVec 2) (a : R6) : SlotSem :=
  { sSem g [.s a] [.s a] (fun c s => wrX c (.ysel p.toNat (((s.getA c.a).sGet a).v.extractLsb' 0 16)) s) with
    own := fun c s => killIf ((s.getA c.a).sGet a).p c.slot }
/-- `YSEL.SET` (R104). -/
def execYselSet (g : SG) (p : BitVec 2) (a : R6) (s : State) : Out := .next (runSlot 0 (semYselSet g p a) s)

/-- The registers an ANDNF source reads. -/
def fsrcRegs (f : FSrc) : List RR := match f with | .reg b => [.s b] | _ => []
/-- The source of `XSEL.ANDNF` and whether a bit of it is poisoned (R87, R104). -/
def xsrc (c : Ctx) (f : FSrc) (s : State) : Word × Bool :=
  match f with
  | .all => let g := s.agg c.a c.t; (g.cand, g.pcol != 0#64)
  | .any => let g := s.agg c.a c.t; (g.cor, g.pcol != 0#64)
  | .reg b => let v := (s.getA c.a).sGet b; (v.v, v.p)
/-- The source of `YSEL.ANDNF`. -/
def ysrc (c : Ctx) (f : FSrc) (s : State) : BitVec 16 × Bool :=
  match f with
  | .all => let g := s.agg c.a c.t; (g.rand, g.prow != 0#16)
  | .any => let g := s.agg c.a c.t; (g.ror, g.prow != 0#16)
  | .reg b => let v := (s.getA c.a).sGet b; (v.v.extractLsb' 0 16, v.p)

def semXselAndnf (g : SG) (p : BitVec 2) (f : FSrc) : SlotSem :=
  { sSem g (fsrcRegs f) (fsrcRegs f) (fun c s =>
      wrX c (.xsel p.toNat (SMap.get 0#64 (s.getA c.a).sca.xsel p.toNat &&& ~~~(xsrc c f s).1)) s) with
    own := fun c s => killIf (xsrc c f s).2 c.slot }
/-- `XSEL.ANDNF` (R104). -/
def execXselAndnf (g : SG) (p : BitVec 2) (f : FSrc) (s : State) : Out := .next (runSlot 0 (semXselAndnf g p f) s)

def semYselAndnf (g : SG) (p : BitVec 2) (f : FSrc) : SlotSem :=
  { sSem g (fsrcRegs f) (fsrcRegs f) (fun c s =>
      wrX c (.ysel p.toNat (SMap.get 0#16 (s.getA c.a).sca.ysel p.toNat &&& ~~~(ysrc c f s).1)) s) with
    own := fun c s => killIf (ysrc c f s).2 c.slot }
/-- `YSEL.ANDNF` (R104). -/
def execYselAndnf (g : SG) (p : BitVec 2) (f : FSrc) (s : State) : Out := .next (runSlot 0 (semYselAndnf g p f) s)

/-! ## Transfer of control (R105-R109) -/

/-- The target of a displacement from a bundle (R105). -/
def dispTarget {n : Nat} (c : Ctx) (d : BitVec n) : Int := (c.pc.toNat : Int) + 4 * d.toInt

/-- The target checks of a taken transfer (R73, R105). -/
def targetTraps (c : Ctx) (s : State) (t : Int) : List Trap :=
  if t % 4 ≠ 0 then [trapOf .align c.slot]
  else if t < 0 ∨ (4 * (s.imageOf (s.getA c.a)).length : Int) ≤ t then [trapBounds c.slot 0xFF]
  else []

/-- A taken transfer: its target issues at T + 2 (R82). -/
def jumpTo (c : Ctx) (t : Int) (s : State) : State :=
  s.modA c.a fun x => x.modSca fun r => { r with pc := BitVec.ofInt 32 t, readyAt := c.t + 2 }

/-- One step of CRC-64 by a bit: polynomial of ECMA-182, initial value 0, no final inversion (R335). -/
def crc64Bit (c : Word) (b : Bool) : Word :=
  if bitAt c 63 != b then (c <<< 1) ^^^ 0x42F0_E1EB_A9EA_3693#64 else c <<< 1
/-- CRC-64 of one byte. -/
def crc64Byte (c : Word) (b : Byte) : Word :=
  (List.range 8).foldl (fun c i => crc64Bit c (bitAt b (7 - i))) c
def crc64 (c : Word) (l : List Byte) : Word := l.foldl crc64Byte c

/-- The outcome of a conditional branch enters C1 of the task's signature (R335). -/
def signBranch (c : Ctx) (taken : Bool) (s : State) : State :=
  s.modA c.a fun x => x.modTsk fun k => { k with c1 := crc64Byte k.c1 (if taken then 1#8 else 0#8) }

/-- A transfer slot. -/
def xSem (g : SG) (regs srcs : List RR) (own : Ctx → State → List Trap) (eff : Ctx → State → State) : SlotSem :=
  { sSem g regs srcs eff with xfer := true, own := own }

def semBr (g : SG) (disp : Imm 40) : SlotSem :=
  xSem g [] [] (fun c s => targetTraps c s (dispTarget c disp.v)) (fun c s => jumpTo c (dispTarget c disp.v) s)
/-- `BR label` (R106). -/
def execBr (g : SG) (disp : Imm 40) (s : State) : Out := .next (runSlot (immW disp) (semBr g disp) s)

def semBrp (g : SG) (n : Bool) (p : BitVec 3) (disp : Imm 34) : SlotSem :=
  xSem g [.p p] []
    (fun c s =>
      let x := s.getA c.a
      if x.pPois p then killIf true c.slot
      else if x.pGet p != n then targetTraps c s (dispTarget c disp.v) else [])
    (fun c s =>
      let taken := (s.getA c.a).pGet p != n
      signBranch c taken (if taken then jumpTo c (dispTarget c disp.v) s else s))
/-- `BRP p, label` and `BRP.not` (R106). -/
def execBrp (g : SG) (n : Bool) (p : BitVec 3) (disp : Imm 34) (s : State) : Out :=
  .next (runSlot (immW disp) (semBrp g n p disp) s)

def semBrf (g : SG) (bit : R6) (n : Bool) (reg : BitVec 2) (disp : Imm 28) : SlotSem :=
  xSem g [] []
    (fun c s =>
      let v := (s.agg c.a c.t).reg reg
      if bitAt v.2 bit.toNat then killIf true c.slot
      else if bitAt v.1 bit.toNat != n then targetTraps c s (dispTarget c disp.v) else [])
    (fun c s =>
      let taken := bitAt ((s.agg c.a c.t).reg reg).1 bit.toNat != n
      signBranch c taken (if taken then jumpTo c (dispTarget c disp.v) s else s))
/-- `BRF reg.bit, label` and `BRF.not` (R106, R143). -/
def execBrf (g : SG) (bit : R6) (n : Bool) (reg : BitVec 2) (disp : Imm 28) (s : State) : Out :=
  .next (runSlot (immW disp) (semBrf g bit n reg disp) s)

/-- `CALL`: the link is visible at T + 1. DESIGN CHOICE (unsafe; notes/assumptions 52). -/
def semCall (g : SG) (d : R6) (disp : Imm 34) : SlotSem :=
  xSem g [.s d] [] (fun c s => targetTraps c s (dispTarget c disp.v))
    (fun c s => jumpTo c (dispTarget c disp.v) (wrS c 1 d ⟨c.next.setWidth 64, false⟩ s))
/-- `CALL sd, label` (R107). -/
def execCall (g : SG) (d : R6) (disp : Imm 34) (s : State) : Out := .next (runSlot (immW disp) (semCall g d disp) s)

/-- The target of `RET` and `JMPI` (R105, R107). -/
def regTarget (c : Ctx) (a : R6) (d : BitVec 28) (s : State) : Int := ((s.getA c.a).sGet a).v.toInt + 4 * d.toInt

def semRet (g : SG) (a : R6) : SlotSem :=
  xSem g [.s a] [.s a]
    (fun c s => if ((s.getA c.a).sGet a).p then killIf true c.slot else targetTraps c s (regTarget c a 0 s))
    (fun c s => jumpTo c (regTarget c a 0 s) s)
/-- `RET sa` (R107). -/
def execRet (g : SG) (a : R6) (s : State) : Out := .next (runSlot 0 (semRet g a) s)

def semJmpi (g : SG) (a : R6) (disp : Imm 28) : SlotSem :=
  xSem g [.s a] [.s a]
    (fun c s => if ((s.getA c.a).sGet a).p then killIf true c.slot else targetTraps c s (regTarget c a disp.v s))
    (fun c s => jumpTo c (regTarget c a disp.v s) s)
/-- `JMPI sa, disp` (R107). -/
def execJmpi (g : SG) (a : R6) (disp : Imm 28) (s : State) : Out := .next (runSlot (immW disp) (semJmpi g a disp) s)

/-- Whether `LOOP` is taken (R108): `lc` is not 0, or some g[j] with j ≤ min(ec, 16) − 2 is 1. -/
def loopTaken (x : Arr) : Bool :=
  let d := min x.sca.ec.toNat 16
  x.sca.lc != 0#64 || (decide (2 ≤ d) && (List.range (d - 1)).any fun j => bitAt x.sca.g j)

def semLoop (g : SG) (disp : Imm 40) : SlotSem :=
  xSem g [] []
    (fun c s => if loopTaken (s.getA c.a) then targetTraps c s (dispTarget c disp.v) else [])
    (fun c s =>
      let x := s.getA c.a
      let s := signBranch c (loopTaken x) (if loopTaken x then jumpTo c (dispTarget c disp.v) s else s)
      if x.sca.lc = 0#64 then s else wrX c (.lc (x.sca.lc - 1#64)) s)
/-- `LOOP label` (R108, R109). -/
def execLoop (g : SG) (disp : Imm 40) (s : State) : Out := .next (runSlot (immW disp) (semLoop g disp) s)

/-! ## Waits, the user-level interrupt, the end of the task (R112-R116) -/

def semTwaitTile (g : SG) (a : R6) : SlotSem :=
  { sSem g [.s a] [.s a] (fun _ s => s) with
    own := fun c s =>
      let x := s.getA c.a
      if (x.sGet a).p then killIf true c.slot
      else if x.ntiles ≤ (x.sGet a).v.toNat then [trapBounds c.slot 0xFF] else []
    hold := fun c s => let x := s.getA c.a; bitAt x.cpy.own (x.sGet a).v.toNat }
/-- `TWAIT.tile sa` (R112). -/
def execTwaitTile (g : SG) (a : R6) (s : State) : Out := .next (runSlot 0 (semTwaitTile g a) s)

def semTwaitLb (g : SG) (a : R6) : SlotSem :=
  { sSem g [.s a] [.s a] (fun _ s => s) with
    own := fun c s =>
      let x := s.getA c.a
      let v := x.sGet a
      if v.p then killIf true c.slot
      else if decide (64 ≤ v.v.toNat) || !(SMap.get LBlk.none x.cpy.lb v.v.toNat).held ||
          (SMap.get LBlk.none x.cpy.lb v.v.toNat).rel then [trapBounds c.slot 0xFF]
      else []
    hold := fun c s => let x := s.getA c.a; !(SMap.get LBlk.none x.cpy.lb (x.sGet a).v.toNat).ready }
/-- `TWAIT.lb sa` (R112). -/
def execTwaitLb (g : SG) (a : R6) (s : State) : Out := .next (runSlot 0 (semTwaitLb g a) s)

def semTwaitAll (g : SG) : SlotSem :=
  { sSem g [] [] (fun _ s => s) with hold := fun c s => (s.getA c.a).cpy.own != 0 }
/-- `TWAIT.all` (R112). -/
def execTwaitAll (g : SG) (s : State) : Out := .next (runSlot 0 (semTwaitAll g) s)

/-- `URET` (R114). DEDUCED (unsafe; notes/assumptions 22). -/
def semUret (g : SG) : SlotSem :=
  { sSem g [] [] (fun c s => s.modA c.a fun x => (x.push (c.t + 1) c.ord .uret).modSca fun r =>
      { r with pc := r.hRet, far := false, readyAt := c.t + 2, hWait := true }) with
    ill := fun c s => !(s.getA c.a).sca.hAct }
/-- `URET` (R114). -/
def execUret (g : SG) (s : State) : Out := .next (runSlot 0 (semUret g) s)

/-- `EXIT`: no later bundle issues; the task ends at EXIT_COMPLETE (R30, R116). -/
def semExit (g : SG) (succ : Option R6) : SlotSem :=
  let regs : List RR := match succ with | some a => [.s a] | none => []
  { sSem g regs regs (fun c s => s.modA c.a fun x => x.modTsk fun k =>
      { k with stop := .exit (succ.map fun a => (x.sGet a).v.toNat) }) with
    xfer := true
    ends := true
    own := fun c s =>
      let x := s.getA c.a
      match succ with
      | none => []
      | some a =>
        if (x.sGet a).p then killIf true c.slot
        else if x.tsk.nnodes ≤ (x.sGet a).v.toNat then [trapBounds c.slot 0xFF] else [] }
/-- `EXIT` and `EXIT sa` (R30, R116). -/
def execExit (g : SG) (succ : Option R6) (s : State) : Out := .next (runSlot 0 (semExit g succ) s)

/-- `NOP` has no effect (R80): a bundle of `NOP`s issues and the next follows. -/
def execNop (s : State) : Out := .next (issueSlots Hdr.plain 4 [] s)

/-! ## Guards (R221) -/

/-- A guard slot: it reads a mismatch bit, and for `GLA` and `GLB` a poison bit. -/
def guardSem (g : CG) (r : RR) (pz mm : Arr → Bool) : SlotSem :=
  { cls := .guard, pg := g.p, gx := g.gx, regs := [r], eff := fun _ s => s,
    own := fun c s =>
      let x := s.getA c.a
      if pz x then [trapReg .poisonkill c.slot r]
      else if mm x then [trapReg .vigil c.slot r] else [] }
/-- Extension words of a copy or guard slot's guard extension. -/
def cgW (g : CG) : Nat := if g.gx.isSome then 1 else 0

def semVgl (g : CG) (a : R6) : SlotSem :=
  guardSem g (.v a) (fun _ => false) (fun x => bitAt x.cel.vmm (vphys x.sca.rrb a))
/-- `VGL va` (R221). -/
def execVgl (g : CG) (a : R6) (s : State) : Out := .next (runSlot (cgW g) (semVgl g a) s)
def semSgl (g : CG) (a : R6) : SlotSem := guardSem g (.s a) (fun _ => false) (fun x => bitAt x.sca.smm a.toNat)
/-- `SGL sa` (R221). -/
def execSgl (g : CG) (a : R6) (s : State) : Out := .next (runSlot (cgW g) (semSgl g a) s)
def semGla (g : CG) (a : BitVec 4) : SlotSem :=
  guardSem g (.a a) (fun x => (x.aGet a).p) (fun x => bitAt x.sca.amm a.toNat)
/-- `GLA aa` (R221). -/
def execGla (g : CG) (a : BitVec 4) (s : State) : Out := .next (runSlot (cgW g) (semGla g a) s)
def semGlb (g : CG) (p : BitVec 3) : SlotSem :=
  guardSem g (.p p) (fun x => x.pPois p) (fun x => bitAt x.sca.pmm p.toNat)
/-- `GLB pd` (R221). -/
def execGlb (g : CG) (p : BitVec 3) (s : State) : Out := .next (runSlot (cgW g) (semGlb g p) s)

end Sys2Proof.Machine
end

