-- ==== Sys2Proof/Machine/Arbiter.lean ====
section
/-! DEFINITION. The asynchronous path of the scratchpad banks: the arbiter of a parity group's reads and what its writes take
(spec/08_memory.md R230-R235), and the upkeep of parity in the cycles it leaves free (R232, spec/13_system_faults.md R302-R304, R309). -/

namespace Sys2Proof.Machine

open Sys2Proof

/-! ## Grants (R231, R235, R309) -/

/-- A request of a cycle granted, with what it then takes of its group and whether it is reconstructed; `none` when it waits. The word of a
spare location is only read directly. -/
def Itg.grant (g : Itg) (now grp : Nat) (spare : Bool) (u : GUse) (r : AReq) : Option (Bool × GUse) :=
  let deg := g.degraded grp
  let full := decide (8 ≤ (SMap.get [] g.puq grp).length)
  let stale := SMap.get false g.stale (grp * 4096 + r.index)
  if now < u.excl then none
  else if u.direct.contains (r.bank, r.index) then some (false, u)
  else if u.whole then none
  else if bitAt g.rbank r.bank then
    if u.direct.isEmpty && u.taken.isEmpty then some (true, { u with whole := true, recon := true, busy := true }) else none
  else if !(u.direct.any fun d => d.1 == r.bank) && !u.taken.contains r.bank then
    some (false, { u with direct := u.direct ++ [(r.bank, r.index)], busy := true })
  else if !deg && !full && !stale && !spare && (u.direct.all fun d => d.1 == r.bank) && (u.taken.all (· == r.bank)) then
    some (true, { u with whole := true, recon := true, busy := true })
  else none

/-- A request put in its place: oldest first, then by port. -/
def reqIns (l : List AReq) (r : AReq) : List AReq :=
  match l with
  | [] => [r]
  | x :: l => if x.age < r.age || (x.age == r.age && decide (r.port < x.port)) then r :: x :: l else x :: reqIns l r

/-- The location at which a request reads is a spare one (R309). -/
def Itg.spareAt (g : Itg) (r : AReq) : Bool := g.holds (64 * r.index + r.bank) != 64 * r.index + r.bank
/-- A request of array `a` put to the arbiter: granted, or left waiting with its age (R231); a reconstruction and a wait are counted (R281
events 5 and 21). -/
def askGrant (a : Nat) (r : AReq) (s : State) : Bool × State :=
  let grp := r.bank / 4
  let g := (s.getA a).itg
  match g.grant s.now grp (g.spareAt r) (SMap.get GUse.none g.use grp) r with
  | some (rec_, u) =>
    let s := s.modA a fun x => x.modItg fun g => { g with use := SMap.set GUse.none g.use grp u }
    (true, if rec_ then s.countA a 5 1 else s)
  | none => (false, (s.modA a fun x => x.modItg fun g => { g with waits := g.waits ++ [r] }).countA a 21 1)

/-- `ASYNC_READ_GRANT` (R231, R281 events 5 and 21): the requests that wait for a group put to the arbiter in order, at the start of a
cycle. Those granted perform in it. -/
def execAsyncReadGrant (a grp : Nat) (reqs : List AReq) (s : State) : Out :=
  .next (
    if 128 ≤ a ∨ 16 ≤ grp ∨ reqs.any (fun r => decide (4 < r.port) || r.bank / 4 != grp || decide (4096 ≤ r.index)) = true then s
    else
      let s := s.modA a fun x => x.modItg fun g => { g with waits := g.waits.filter fun r => r.bank / 4 != grp }
      (reqs.foldl reqIns []).foldl (fun (s : State) r =>
        let q := askGrant a r s
        if q.1 then q.2.modA a fun x => x.modItg fun g => { g with granted := g.granted ++ [r] } else q.2) s)

/-- An asynchronous read at a home by a port asks for its bank: it may perform in this cycle, or it waits. Only scratchpads have the
arbiter. -/
def State.askRead (s : State) (port : Nat) (h : Home) : Bool × State :=
  match h with
  | .spad b off far =>
    let p := (s.getA b).itg.place (s.bankOff b off far / 16)
    let g := (s.getA b).itg
    let mine (r : AReq) : Bool := r.port == port && r.bank == p % 64 && r.index == p / 64
    match g.granted.find? mine with
    | some r => (true, s.modA b fun x => x.modItg fun g => { g with granted := g.granted.erase r })
    | none => if g.waits.any mine then (false, s) else askGrant b ⟨port, 0, p % 64, p / 64⟩ s
  | _ => (true, s)

/-- At the end of a cycle its grants are over; every request that still waits is older. -/
def Itg.newCycle (now : Nat) (g : Itg) : Itg :=
  if g.use.isEmpty && g.waits.isEmpty && g.granted.isEmpty then g
  else { g with
    use := (g.use.filter fun e => decide (now < e.2.excl)).map fun e => (e.1, { GUse.none with excl := e.2.excl }),
    waits := g.waits.map fun r => { r with age := r.age + 1 }, granted := [] }

/-! ## Upkeep (R232, R304) -/

/-- The delta that waits for an index. -/
def Itg.pending (g : Itg) (grp idx : Nat) : BitVec 128 :=
  (SMap.get [] g.puq grp).foldl (fun v e => if e.1 = idx then v ^^^ e.2 else v) 0
/-- Stale indices of a group, ascending. -/
def Itg.stales (g : Itg) (grp : Nat) : List Nat := (g.stale.filter fun e => e.2 && e.1 / 4096 == grp).map fun e => e.1 % 4096
/-- What has been taken of a group in this cycle. -/
def Itg.used (g : Itg) (grp : Nat) : GUse := SMap.get GUse.none g.use grp
def Itg.busied (g : Itg) (grp : Nat) : Itg := { g with use := SMap.mod GUse.none g.use grp fun u => { u with busy := true } }

/-- `PUQ_RETIREMENT` (R232): the oldest entry of a group's queue, in a cycle in which no reconstruction uses the parity bank. -/
def execPuqRetirement (a grp : Nat) (s : State) : Out :=
  .next (s.modA a fun x => x.modItg fun g =>
    match SMap.get [] g.puq grp with
    | [] => g
    | e :: l =>
      if (g.used grp).recon then g
      else { g.busied grp with puq := SMap.set [] g.puq grp l, par := SMap.mod 0 g.par (grp * 4096 + e.1) (· ^^^ e.2) })

/-- `STALE_REBUILD` (R232): the lowest stale index, in a cycle without asynchronous access to the group's banks and without retirement. -/
def execStaleRebuild (a grp : Nat) (s : State) : Out :=
  .next (
    let g := (s.getA a).itg
    match g.stales grp with
    | [] => s
    | i :: _ =>
      if (g.used grp).busy || !(SMap.get [] g.puq grp).isEmpty then s
      else s.modA a fun x => x.modItg fun g =>
        { g.busied grp with par := SMap.set 0 g.par (grp * 4096 + i) (s.groupXor a grp i), stale := SMap.set false g.stale (grp * 4096 + i) false })

/-- The next index of a group scrubbed: its words corrected or marked, then its parity word. -/
def scrub (a grp : Nat) (s : State) : State :=
  let i := SMap.get 0 (s.getA a).itg.scrub grp
  let g0 := (s.getA a).itg
  let words := (List.range 4).flatMap fun b => (List.range 4).map fun j => 16 * g0.holds (64 * i + 4 * grp + b) + 4 * j
  let s := words.foldl (fun (s : State) o =>
    if SMap.get 0 s.err (spadKey a o) = 0 then s
    else let r := s.spadRead a o; { r.2.2 with err := SMap.set 0 r.2.2.err (spadKey a o) 0 }) s
  let clean := words.all fun o => !s.spadPois a o
  let pk := parKey a grp i
  let lone := !s.unc16 pk && (List.range 4).any fun j => SMap.get 0 s.err (pk + 4 * j) != 0
  let g := (s.getA a).itg
  let want := s.groupXor a grp i ^^^ g.pending grp i
  let bad := clean && !g.degraded grp && !SMap.get false g.stale (grp * 4096 + i) &&
    (s.unc16 pk || SMap.get 0 g.par (grp * 4096 + i) != want)
  let s := s.modA a fun x => x.modItg fun g =>
    { g.busied grp with scrub := SMap.set 0 g.scrub grp ((i + 1) % 4096), scrubWait := SMap.set 0 g.scrubWait grp s.now,
                        par := if bad then SMap.set 0 g.par (grp * 4096 + i) want else g.par }
  let s : State := if bad || lone then { s with err := (List.range 4).foldl (fun m j => SMap.set 0 m (pk + 4 * j) 0) s.err } else s
  if bad || lone then s.corrected (a / 32) 2 else s

/-- `PATROL_SCRUB` (R304): in a cycle in which the conditions of a rebuild hold and no index is stale. -/
def execPatrolScrub (a grp : Nat) (s : State) : Out :=
  let g := (s.getA a).itg
  .next (if 128 ≤ a ∨ 16 ≤ grp ∨ (g.stales grp).isEmpty = false ∨ (SMap.get [] g.puq grp).isEmpty = false ∨ (g.used grp).busy = true then s
    else scrub a grp s)
/-- `SCRUB_TIMEOUT` (R304): after 1,024 cycles without a scrub the group takes this cycle from the asynchronous path, whose reads wait. -/
def execScrubTimeout (a grp : Nat) (s : State) : Out :=
  .next (if 128 ≤ a ∨ 16 ≤ grp ∨ s.now < SMap.get 0 (s.getA a).itg.scrubWait grp + 1024 then s
    else (scrub a grp s).modA a fun x => x.modItg fun g => { g with use := SMap.mod GUse.none g.use grp fun u => { u with whole := true, busy := true } })

end Sys2Proof.Machine
end

