-- ==== Sys2Proof/Machine/Tensor.lean ====
section
/-! DEFINITION. Tensor descriptors (R195-R198): fields, checks, positions, halo, spans, bit planes and shared-exponent blocks
(R42-R45). -/

namespace Sys2Proof.Machine

open Sys2Proof

/-! ## Fields of an entry (R195) -/

def tdBase (td : BitVec 1024) : Addr := td.extractLsb' 0 72
def tdFmt (td : BitVec 1024) : Nat := fld td 76 72
def tdRank (td : BitVec 1024) : Nat := fld td 79 77
def tdOrd (td : BitVec 1024) : Nat := fld td 81 80
def tdBlkCode (td : BitVec 1024) : Nat := fld td 83 82
/-- Block edge b of the blocked order. -/
def tdB (td : BitVec 1024) : Int := 8 * 2 ^ tdBlkCode td
def tdSen (td : BitVec 1024) : Bool := bitAt td 84
def tdPwm (td : BitVec 1024) : Bool := bitAt td 85
def tdFill (td : BitVec 1024) : Nat := fld td 127 96
def tdScale (td : BitVec 1024) : Nat := fld td 199 128
def tdPstr (td : BitVec 1024) : Nat := fld td 239 200
def tdExt (td : BitVec 1024) (d : Nat) : Int := fld td (256 + 96 * d + 31) (256 + 96 * d)
def tdStr (td : BitVec 1024) (d : Nat) : Int := fldS td (256 + 96 * d + 71) (256 + 96 * d + 32)
def tdLo (td : BitVec 1024) (d : Nat) : Int := fld td (256 + 96 * d + 79) (256 + 96 * d + 72)
def tdHi (td : BitVec 1024) (d : Nat) : Int := fld td (256 + 96 * d + 87) (256 + 96 * d + 80)
def tdGb (td : BitVec 1024) (d : Nat) : Int := fld td (256 + 96 * d + 95) (256 + 96 * d + 88)
/-- The entry with another base: a slot of a circular buffer or the address of a tile (R170, R204). -/
def tdWithBase (td : BitVec 1024) (a : Addr) : BitVec 1024 := (td >>> 72 <<< 72) ||| a.setWidth 1024
/-- The image without its OOB bit. -/
def tdNoOob (td : BitVec 1024) : BitVec 1024 := bitSet td 86 false

/-- Bytes of an element of a format; 0 for the bit-plane formats. -/
def fmtSize (f : Nat) : Nat :=
  match f with
  | 0 | 1 => 4
  | 2 | 3 | 4 => 2
  | 5 | 6 | 7 => 1
  | 13 | 14 => 8
  | _ => 0
/-- Magnitude bits of an SX format; 0 for any other. -/
def sxM (f : Nat) : Nat :=
  match f with
  | 10 => 2
  | 11 => 4
  | 12 => 7
  | _ => 0
/-- Bits of an INT4 or INT2 element; 0 for any other format. -/
def inM (f : Nat) : Nat := if f = 8 then 4 else if f = 9 then 2 else 0
def fmtPlanes (f : Nat) : Bool := decide (8 ≤ f ∧ f ≤ 12)
/-- The format's values are integers. -/
def fmtIsInt (f : Nat) : Bool := f == 1 || f == 4 || f == 7 || f == 8 || f == 9 || f == 14

/-- `TDSET` accepts the image (R198); initial records are judged alike (R268). -/
def tdOk (td : BitVec 1024) : Bool :=
  let r := tdRank td
  let b := tdB td
  decide (1 ≤ r) && decide (tdFmt td ≤ 14) && tdBlkCode td != 3 && fld td 95 87 == 0 && fld td 255 240 == 0 && fld td 1023 928 == 0 &&
  (List.range 7).all (fun d =>
    if d < r then decide (0 < tdExt td d) && decide (0 < tdGb td d) && (d != 0 || tdStr td 0 == 0)
    else fld td (256 + 96 * d + 95) (256 + 96 * d) == 0) &&
  (r != 1 || tdOrd td == 0) && (tdOrd td == 2 || tdBlkCode td == 0) && (tdOrd td != 2 || tdStr td 1 % b == 0) &&
  (!tdSen td || (List.range r).all fun d => decide ((tdExt td d + tdGb td d - 1) / tdGb td d ≤ 65535)) &&
  (sxM (tdFmt td) == 0 || tdFill td == 0)

/-! ## Positions (R196) -/

/-- The share of coordinate `x` of dimension `d` in the position. -/
def tdShare (td : BitVec 1024) (d : Nat) (x : Int) : Int :=
  if tdRank td = 1 then x
  else if d = 0 then
    match tdOrd td with
    | 0 => x
    | 1 => x * tdStr td 1
    | 2 => x / tdB td * (tdB td * tdB td) + x % tdB td
    | _ => 4 * x
  else if d = 1 then
    match tdOrd td with
    | 0 => x * tdStr td 1
    | 1 => x
    | 2 => x / tdB td * (tdB td * tdStr td 1) + x % tdB td * tdB td
    | _ => x / 4 * (4 * tdStr td 1) + x % 4
  else x * tdStr td d

/-- The position of a coordinate vector. -/
def tdPos (td : BitVec 1024) (xs : List Int) : Int :=
  (xs.zipIdx.foldl (fun p e => p + tdShare td e.2 e.1) 0)

/-- Validity of a coordinate vector (R197): 0 valid, 1 halo, 2 out of range. -/
def tdWhere (td : BitVec 1024) (xs : List Int) : Nat :=
  if xs.zipIdx.all fun e => decide (0 ≤ e.1 ∧ e.1 < tdExt td e.2) then 0
  else if xs.zipIdx.all fun e => decide (-tdLo td e.2 ≤ e.1 ∧ e.1 < tdExt td e.2 + tdHi td e.2) then 1
  else 2

/-- An address displaced, modulo 2^72. -/
def addrAdd (a : Nat) (d : Int) : Addr := BitVec.ofInt 72 (a + d)
/-- Address of element `p` of a format with a size in bytes. -/
def tdAddr (td : BitVec 1024) (p : Int) : Addr := addrAdd (tdBase td).toNat (p * fmtSize (tdFmt td))
/-- The words of a bit-plane block, header first for SX, then sign, then magnitudes; or the integer planes (R42, R43). -/
def tdPlaneAddrs (td : BitVec 1024) (b : Int) : List Addr :=
  let f := tdFmt td
  let pl (j : Nat) : Addr := addrAdd (tdBase td).toNat ((j : Int) * tdPstr td + 2 * b)
  if sxM f ≠ 0 then addrAdd (tdScale td) (2 * b) :: (List.range (sxM f + 1)).map pl
  else (List.range (inM f)).map pl

/-- FILL as the pattern of an element (R197). -/
def tdFillPat (td : BitVec 1024) : Nat :=
  let f := tdFmt td
  if fmtSize f = 8 then (BitVec.ofNat 32 (tdFill td)).signExtend 64 |>.toNat
  else if inM f ≠ 0 then tdFill td % 2 ^ inM f
  else if sxM f ≠ 0 then 0
  else tdFill td % 2 ^ (8 * fmtSize f)

/-! ## Spans -/

/-- Coordinates of dimension `d` between two bounds at which its share is least or greatest. -/
def tdEnds (td : BitVec 1024) (lo hi : Int) : List Int :=
  let b : Int := if tdOrd td = 3 then 4 else tdB td
  [lo, hi, (lo / b + 1) * b, hi / b * b, lo / b * b + b - 1, hi / b * b - 1].filter fun x => decide (lo ≤ x ∧ x ≤ hi)

/-- The least and the greatest position in a box of coordinates; the shares of the dimensions add up. DEDUCED (unsafe; notes/assumptions 26). -/
def tdHull (td : BitVec 1024) (box : List (Int × Int)) : Int × Int :=
  box.zipIdx.foldl (fun (l, h) e =>
    let vs := (tdEnds td e.1.1 e.1.2).map (tdShare td e.2)
    let v0 := tdShare td e.2 e.1.1
    (l + vs.foldl min v0, h + vs.foldl max v0)) (0, 0)

/-- The bytes an access to a box reaches, as address ranges: valid elements, and halo ones of a write under PWM; one range
for each plane of a bit-plane format. -/
def tdSpan (td : BitVec 1024) (wr : Bool) (box : List (Int × Int)) : List (Addr × Nat) :=
  let halo := wr && tdPwm td
  let cl := box.zipIdx.map fun e =>
    (max e.1.1 (if halo then -tdLo td e.2 else 0), min e.1.2 (tdExt td e.2 - 1 + (if halo then tdHi td e.2 else 0)))
  if cl.any fun e => decide (e.2 < e.1) then []
  else
    let (l, h) := tdHull td cl
    if fmtPlanes (tdFmt td) then
      (tdPlaneAddrs td (l / 16)).map fun a => (a, (2 * (h / 16 - l / 16) + 2).toNat)
    else [(tdAddr td l, ((h - l + 1) * fmtSize (tdFmt td)).toNat)]

/-- The part of a range that lies in the own scratchpad: `none` when none does, `some none` when it leaves the address form. -/
def Arr.ownSpan (x : Arr) (a : Addr) (n : Nat) : Option (Option (Nat × Nat)) :=
  match x.tsk.ownOff 0 a with
  | some off => some (some (off, n))
  | none => if (x.tsk.ownOff 0 (a + BitVec.ofNat 72 (n - 1))).isSome then some none else none

/-! ## Boxes -/

/-- The index vectors of a box of given edges, dimension 0 fastest. -/
def boxIdx (edges : List Nat) : List (List Nat) :=
  match edges with
  | [] => [[]]
  | e :: es => (boxIdx es).flatMap fun r => (List.range e).map fun i => i :: r

/-! ## Shared-exponent blocks (R43-R45) -/

/-- A value of an SX block as its header and element bits give it: exponent, micro-exponent, magnitude (R44). -/
def sxVal (m hdr i : Nat) (sgn : Bool) (mag : Nat) : FV :=
  let e := hdr % 256
  let mu := hdr / 2 ^ (8 + i / 2) % 2
  if e = 255 then .nan
  else if e = 0 ∨ mag = 0 then .fin false 0 0
  else .fin sgn mag ((e : Int) - 127 - mu - (m - 1))

/-- A block written from FP32 values: header, then for each element its sign and magnitude, with the flags (R45). `near`
rounds |x| / 2^q to the integer magnitude. -/
def sxEncode (m : Nat) (xs : List FV) : Nat × List (Bool × Nat) × Fl :=
  if xs.any fun x => x.isNan || x.isInf then (255, xs.map fun _ => (false, 0), Fl.nv)
  else
    -- exponent of the leading bit of a nonzero value
    let lg (x : FV) : Option Int := match x with
      | .fin _ mm e => if mm = 0 then none else some ((Nat.log2 mm : Int) + e)
      | _ => none
    match (xs.filterMap lg).max? with
    | none => (0, xs.map fun _ => (false, 0), 0#7)
    | some top =>
      let clamped := decide (top + 127 < 1)
      let e := min (max (top + 127) 1) 254
      let ev := e - 127
      let small (i : Nat) : Bool := match xs[i]? with
        | some x => (match lg x with | some l => decide (l < ev - 1) | none => true)
        | none => true
      let mu (j : Nat) : Nat := if small (2 * j) && small (2 * j + 1) then 1 else 0
      let el (i : Nat) (x : FV) : Bool × Nat := match x with
        | .fin s mm ex =>
          let q := roundTo .rne s mm ex (ev - mu (i / 2) - (m - 1))
          let mag := min q.1 (2 ^ m - 1)
          (mag != 0 && s, mag)
        | _ => (false, 0)
      let els := xs.zipIdx.map fun p => el p.2 p.1
      let lost := (xs.zip els).any fun p => !p.1.isZero && p.2.2 == 0
      let fl := if clamped && lost then Fl.sxuf else 0#7
      if els.all fun p => p.2 == 0 then (0, els, fl)
      else ((List.range 8).foldl (fun h j => h + mu j * 2 ^ (8 + j)) e.toNat, els, fl)

/-- The plane words of a block from the bits of its elements (bit j of an element goes to plane j). -/
def planesOf (n : Nat) (els : List Nat) : List Nat :=
  (List.range n).map fun j => els.zipIdx.foldl (fun w e => w + e.1 / 2 ^ j % 2 * 2 ^ e.2) 0
/-- Bits of element `i` of a block from its plane words. -/
def planeEl (ws : List Nat) (i : Nat) : Nat := ws.zipIdx.foldl (fun v e => v + e.1 / 2 ^ i % 2 * 2 ^ e.2) 0

end Sys2Proof.Machine
end

