-- ==== Sys2Proof/Machine/Special.lean ====
section
/-! DEFINITION. The special functions of R131: exact cases and special operands as the spec gives them; elsewhere any value
within the stated bound, chosen by the free value `Config.special` (notes/assumptions 7). -/

namespace Sys2Proof.Machine

open Sys2Proof

/-- The special functions (R131). -/
inductive SpFn where
  | rcp | rsq | exp2 | log2 | sin | cos | tanh
  deriving DecidableEq, Repr

def SpFn.num (f : SpFn) : Nat :=
  match f with
  | .rcp => 0 | .rsq => 1 | .exp2 => 2 | .log2 => 3 | .sin => 4 | .cos => 5 | .tanh => 6

/-- ln 2 in units of 2^-200, and π in units of 2^-400, both rounded down. -/
def ln2Fix : Int := 0xb17217f7d1cf79abc9e3b39803f2f6af40f343267298b62d8a
def piFix : Int := 0x3243f6a8885a308d313198a2e03707344a4093822299f31d0082efa98ec4e6c89452821e638d01377be5466cf34e90c6cc0ac

/-- Σ z^k / k! from term `k` on, in units of 2^-200, with `n` terms left and `t` the current term. -/
def expSeries (z : Int) (n k : Nat) (t : Int) : Int :=
  match n with
  | 0 => 0
  | n + 1 => t + expSeries z n (k + 1) (t * z / 2 ^ 200 / ((k : Int) + 1))
/-- e^z for 0 ≤ z < 1, in units of 2^-200. -/
def expFix (z : Int) : Int := expSeries z 50 0 (2 ^ 200)

/-- Σ w^(2k+1) / (2k+1), in units of 2^-200. -/
def atanhSeries (w : Int) (n k : Nat) (p : Int) : Int :=
  match n with
  | 0 => 0
  | n + 1 => p / (2 * (k : Int) + 1) + atanhSeries w n (k + 1) (p * w / 2 ^ 200 * w / 2 ^ 200)

/-- The series of sine (first term z) and cosine (first term 1), in units of 2^-200. -/
def trigSeries (z : Int) (n k : Nat) (t : Int) : Int :=
  match n with
  | 0 => 0
  | n + 1 => t + trigSeries z n (k + 2) (-(t * z / 2 ^ 200 * z / 2 ^ 200) / (((k : Int) + 1) * ((k : Int) + 2)))

/-- A finite value in units of 2^-200, rounded down. -/
def toFix (s : Bool) (m : Nat) (e : Int) : Int :=
  let v : Int := if 0 ≤ e + 200 then (m : Int) * 2 ^ (e + 200).toNat else (m : Int) / 2 ^ (-(e + 200)).toNat
  if s then -v else v

/-- x mod 2π, in units of 2^-200, for a finite x. -/
def mod2pi (s : Bool) (m : Nat) (e : Int) : Int :=
  let v : Int := if 0 ≤ e + 400 then (m : Int) * 2 ^ (e + 400).toNat else (m : Int) / 2 ^ (-(e + 400)).toNat
  let r := (if s then -v else v) % (2 * piFix)
  (if piFix < r then r - 2 * piFix else r) / 2 ^ 200

/-- A number in units of 2^-200 as sign, magnitude and exponent. -/
def ofFix (v : Int) : Bool × Nat × Int := (decide (v < 0), v.natAbs, -200)

/-- The function's value at a finite operand that is no exact case, to far more than 32-bit precision. -/
def spApprox (f : SpFn) (s : Bool) (m : Nat) (e : Int) : Bool × Nat × Int :=
  match f with
  | .rcp => (s, 2 ^ 200 / m, -e - 200)
  | .rsq =>
    let m1 := if e % 2 ≠ 0 then 2 * m else m
    let e1 := if e % 2 ≠ 0 then e - 1 else e
    (false, Nat.sqrt (2 ^ 400 / m1), -(e1 / 2) - 200)
  | .exp2 =>
    let x := toFix s m e
    let n := x / 2 ^ 200
    let fr := x % 2 ^ 200
    (false, (expFix (fr * ln2Fix / 2 ^ 200)).toNat, n - 200)
  | .log2 =>
    let n : Int := (Nat.log2 m : Int) + e
    let u : Int := toFix false m (-(Nat.log2 m : Int))
    let w := (u - 2 ^ 200) * 2 ^ 200 / (u + 2 ^ 200)
    ofFix (n * 2 ^ 200 + 2 * atanhSeries w 70 0 w * 2 ^ 200 / ln2Fix)
  | .sin =>
    let z := mod2pi s m e
    ofFix (trigSeries z 45 1 z)
  | .cos =>
    let z := mod2pi s m e
    ofFix (trigSeries z 45 0 (2 ^ 200))
  | .tanh =>
    if (Nat.log2 m : Int) + e < -14 then
      let x2 := toFix false (m * m) (2 * e)
      (s, m * (2 ^ 200 - x2 / 3 + 2 * (x2 * x2 / 2 ^ 200) / 15).toNat, e - 200)
    else
      let x := toFix false m e
      let q := 2 * x * 2 ^ 200 / ln2Fix
      let ex := (expFix ((q % 2 ^ 200) * ln2Fix / 2 ^ 200)) * 2 ^ (q / 2 ^ 200).toNat
      (s, ((ex - 2 ^ 200) * 2 ^ 200 / (ex + 2 ^ 200)).toNat, -200)

/-- The candidate is finite, of the value's sign, and within `k` units in the last place of the value, a unit being the distance of
FP32 numbers in the value's own binade. -/
def withinUlp (k y : Nat) (v : Bool × Nat × Int) : Bool :=
  match fmt32.val false y with
  | .fin s m e =>
    let u : Int := max ((Nat.log2 v.2.1 : Int) + v.2.2 - 23) (-149)
    let b := min (min e v.2.2) u
    let d : Int := (m : Int) * 2 ^ (e - b).toNat - (v.2.1 : Int) * 2 ^ (v.2.2 - b).toNat
    s == v.1 && decide (d.natAbs + 2 ^ (v.2.2 + 20 - b).toNat ≤ k * 2 ^ (u - b).toNat)
  | _ => false
/-- The candidate is finite and within 2^-22 of the value. -/
def withinAbs (v : Bool × Nat × Int) (y : Nat) : Bool :=
  match fmt32.val false y with
  | .fin s m e => decide ((toFix s m e - toFix v.1 v.2.1 v.2.2).natAbs + 2 ≤ 2 ^ 178)
  | _ => false

/-- A value within the function's bound: the free value where it satisfies the bound, else the nearest one. -/
def spChoose (f : SpFn) (x : W32) (v : Bool × Nat × Int) : Nat :=
  let y := (Config.special f.num x).toNat
  let ok :=
    match f with
    | .rcp | .rsq => withinUlp 1 y v
    | .exp2 | .tanh => withinUlp 2 y v
    | .log2 => withinUlp 2 y v || (decide (0x3F000000 ≤ x.toNat) && decide (x.toNat ≤ 0x40000000) && withinAbs v y)
    | .sin | .cos => withinAbs v y
  if ok then y else (fmt32.roundFin ⟨.rne, false, false⟩ v.1 v.2.1 v.2.2).1

/-- A result that is not exact: NX; a subnormal becomes a zero of its sign with UF (R131). -/
def spInexact (f : SpFn) (x : W32) (v : Bool × Nat × Int) : Nat × Fl :=
  let y := spChoose f x v
  if fmt32.isSub y || decide (y % 2 ^ 31 = 0) && decide (f = .rcp ∨ f = .exp2 ∨ f = .tanh) then (y / 2 ^ 31 * 2 ^ 31, Fl.unf ||| Fl.nx)
  else (y, Fl.nx)

/-- The exact power of two k when m × 2^e = 2^k. -/
def log2Exact (m : Nat) (e : Int) : Option Int :=
  if m = 2 ^ Nat.log2 m then some ((Nat.log2 m : Int) + e) else none
/-- FP32 bits of 2^k; a zero with UF and NX when that is subnormal (R131). -/
def pow2Bits (s : Bool) (k : Int) : Nat × Fl :=
  if k < -126 then (fmt32.zeroBits s, Fl.unf ||| Fl.nx) else (fmt32.pack s (2 ^ 23) (k - 23), 0#7)
/-- FP32 1.0 of a sign. -/
def oneBits (s : Bool) : Nat := fmt32.pack s (2 ^ 23) (-23)

/-- A special function of an FP32 operand (R131). DEDUCED (safe; notes/assumptions 7). -/
def special (f : SpFn) (ftz : Bool) (x : W32) : Nat × Fl :=
  match fmt32.val ftz x.toNat with
  | .nan => (fmt32.canon, 0#7)
  | .inf s =>
    match f with
    | .rcp => (fmt32.zeroBits s, 0#7)
    | .rsq => if s then (fmt32.canon, Fl.nv) else (0, 0#7)
    | .exp2 => if s then (0, 0#7) else (fmt32.infBits false, 0#7)
    | .log2 => if s then (fmt32.canon, Fl.nv) else (fmt32.infBits false, 0#7)
    | .sin | .cos => (fmt32.canon, Fl.nv)
    | .tanh => (oneBits s, 0#7)
  | .fin s 0 _ =>
    match f with
    | .rcp | .rsq => (fmt32.infBits s, Fl.dz)
    | .exp2 | .cos => (oneBits false, 0#7)
    | .log2 => (fmt32.infBits true, Fl.dz)
    | .sin | .tanh => (fmt32.zeroBits s, 0#7)
  | .fin s m e =>
    let other (_ : Unit) := spInexact f x (spApprox f s m e)
    match f with
    | .rcp => (match log2Exact m e with
        | some k => if 127 < -k then (fmt32.infBits s, Fl.ovf ||| Fl.nx) else pow2Bits s (-k)
        | none => if (Nat.log2 m : Int) + e < -128 then (fmt32.infBits s, Fl.ovf ||| Fl.nx) else other ())
    | .rsq => if s then (fmt32.canon, Fl.nv) else (match log2Exact m e with
        | some k => if k % 2 = 0 then pow2Bits false (-(k / 2)) else other ()
        | none => other ())
    | .exp2 =>
      if !s && decide (7 ≤ (Nat.log2 m : Int) + e) then (fmt32.infBits false, Fl.ovf ||| Fl.nx)
      else if s && decide (7 < (Nat.log2 m : Int) + e) then (0, Fl.unf ||| Fl.nx)
      else if (roundTo .rz s m e 0).2 then
        (if toFix s m e < -126 * 2 ^ 200 then (0, Fl.unf ||| Fl.nx) else other ())
      else pow2Bits false (if s then -((roundTo .rz s m e 0).1 : Int) else (roundTo .rz s m e 0).1)
    | .log2 => if s then (fmt32.canon, Fl.nv) else (match log2Exact m e with
        | some k => fmt32.round ⟨.rne, false, false⟩ (FV.ofInt k)
        | none => other ())
    | .tanh => if 4 ≤ (Nat.log2 m : Int) + e then (oneBits s, Fl.nx) else other ()
    | .sin | .cos => other ()

end Sys2Proof.Machine
end

