-- ==== Sys2Proof/Machine/Vector.lean ====
section
/-! DEFINITION. The vector slots: spec/05_vector.md R117-R148, the wavefront of R8-R11, check copies R118, R220, R222,
`LDW.WF`'s rows (R19, R207). A slot is captured at issue and executes row by row. -/

namespace Sys2Proof.Machine

open Sys2Proof

/-! ## Lanes (R36, R78) -/

def vtWidth (t : VT) : Nat :=
  match t with
  | .f32 | .i32 => 32
  | .bf16 | .f16 | .i16 => 16
  | .i8 => 8
def vtFmt (t : VT) : Fmt :=
  match t with
  | .bf16 => fmtBf16
  | .f16 => fmtF16
  | _ => fmt32

/-- Lane i of width w of a number. -/
def laneN (w i x : Nat) : Nat := x / 2 ^ (w * i) % 2 ^ w

/-- A three-operand lane function applied to every lane of width w; the flags are joined. -/
def lanes3 (w : Nat) (f : Nat → Nat → Nat → Nat × Fl) (a b d : W32) : W32 × Fl :=
  let r := (List.range (32 / w)).foldl (fun (v, fl) i =>
    let q := f (laneN w i a.toNat) (laneN w i b.toNat) (laneN w i d.toNat)
    (v + q.1 % 2 ^ w * 2 ^ (w * i), fl ||| q.2)) (0, 0#7)
  (BitVec.ofNat 32 r.1, r.2)

/-- An element function: control, va, vb, vd to result and flags. -/
abbrev EF := RCtl → W32 → W32 → W32 → W32 × Fl

/-- Lanes of a floating type by one function, of an integer type by another on signed values modulo 2^w (R121). -/
def arith (t : VT) (ff : Fmt → RCtl → Nat → Nat → Nat → Nat × Fl) (fi : Nat → Int → Int → Int) : EF :=
  fun k a b d =>
    let w := vtWidth t
    if t.isFloat then lanes3 w (fun x y z => ff (vtFmt t) k x y z) a b d
    else lanes3 w (fun x y _ => ((fi w (sInt w x) (sInt w y) % (2 ^ w : Int)).toNat, 0#7)) a b d

def efAdd (t : VT) : EF := arith t (fun f k x y _ => f.add k x y) fun _ x y => x + y
def efSub (t : VT) : EF := arith t (fun f k x y _ => f.sub k x y) fun _ x y => x - y
def efMul (t : VT) : EF := arith t (fun f k x y _ => f.mul k x y) fun _ x y => x * y
def efMin (t : VT) : EF := arith t (fun f k x y _ => (f.minmax k.ftz false x y, 0#7)) fun _ x y => min x y
def efMax (t : VT) : EF := arith t (fun f k x y _ => (f.minmax k.ftz true x y, 0#7)) fun _ x y => max x y
/-- A floating lane with its sign set by a function; NaN canonical, a flushed subnormal a zero of that sign (R121). -/
def signOp (f : Fmt) (ftz : Bool) (g : Bool → Bool) (x : Nat) : Nat × Fl :=
  match f.val ftz x with
  | .nan => (f.canon, 0#7)
  | .fin s 0 _ => (f.zeroBits (g s), 0#7)
  | v => ((if g v.sign then 2 ^ (f.ew + f.fw) else 0) + x % 2 ^ (f.ew + f.fw), 0#7)
def efAbs (t : VT) : EF := arith t (fun f k x _ _ => signOp f k.ftz (fun _ => false) x) fun _ x _ => (x.natAbs : Int)
def efNeg (t : VT) : EF := arith t (fun f k x _ _ => signOp f k.ftz (fun s => !s) x) fun _ x _ => -x
def efFma (t : VT) : EF := arith t (fun f k x y z => f.fma k x y z) fun _ x _ => x
def efFms (t : VT) : EF := arith t (fun f k x y z => f.fms k x y z) fun _ x _ => x
/-- Shifts by the low log2 n bits of the lane of vb (R121). -/
def shiftOp (t : VT) (g : Nat → Nat → Nat → Nat) : EF :=
  fun _ a b d => lanes3 (vtWidth t) (fun x y _ => (g (vtWidth t) x (y % vtWidth t), 0#7)) a b d
def efShl (t : VT) : EF := shiftOp t fun w x n => x * 2 ^ n % 2 ^ w
def efShr (t : VT) : EF := shiftOp t fun _ x n => x / 2 ^ n
def efSar (t : VT) : EF := shiftOp t fun w x n => ((sInt w x / 2 ^ n) % (2 ^ w : Int)).toNat
def efAnd : EF := fun _ a b _ => (a &&& b, 0#7)
def efOr : EF := fun _ a b _ => (a ||| b, 0#7)
def efXor : EF := fun _ a b _ => (a ^^^ b, 0#7)
def efNot : EF := fun _ a _ _ => (~~~a, 0#7)

/-- The condition of an integer `VCMP` lane (R124). -/
def icmp (cond : BitVec 3) (w x y : Nat) : Bool :=
  match cond.toNat with
  | 0 => x == y
  | 1 => x != y
  | 2 => decide (sInt w x < sInt w y)
  | 3 => decide (sInt w x ≤ sInt w y)
  | 4 => decide (sInt w y < sInt w x)
  | 5 => decide (sInt w y ≤ sInt w x)
  | 6 => decide (x < y)
  | _ => decide (x ≤ y)
/-- A compare that holds in every lane (R124). -/
def vcmpOp (t : VT) (cond : BitVec 3) (k : RCtl) (a b : W32) : Bool × Fl :=
  let w := vtWidth t
  (List.range (32 / w)).foldl (fun (v, fl) i =>
    let x := laneN w i a.toNat
    let y := laneN w i b.toNat
    let q := if t.isFloat then FV.cmp cond ((vtFmt t).val k.ftz x) ((vtFmt t).val k.ftz y) else (icmp cond w x y, 0#7)
    (v && q.1, fl ||| q.2)) (true, 0#7)

/-- The conversions of `VCVT` by code (R128). -/
def vcvtOp (code : BitVec 4) : EF := fun k a b d =>
  let l (w : Nat) (f : Nat → Nat × Fl) : W32 × Fl := lanes3 w (fun x _ _ => f x) a b d
  match code.toNat with
  | 0 => l 32 (cvtIF 32 fmt32 k)
  | 1 => l 32 (cvtFI fmt32 32 k)
  | 2 => l 16 (cvtFF fmtF16 fmtBf16 k)
  | 3 => l 16 (cvtFF fmtBf16 fmtF16 k)
  | 4 => l 16 (cvtFI fmtF16 16 k)
  | 5 => l 16 (cvtIF 16 fmtF16 k)
  | 6 => l 16 (cvtFI fmtBf16 16 k)
  | 7 => l 16 (cvtIF 16 fmtBf16 k)
  | 8 => l 8 (cvtFF fmtE4m3 fmtE5m2 k)
  | 9 => l 8 (cvtFF fmtE5m2 fmtE4m3 k)
  | 10 => l 8 (cvtFI fmtE4m3 8 k)
  | 11 => l 8 (cvtIF 8 fmtE4m3 k)
  | _ => l 32 fun x =>
      let r := FV.rint k.rm (fmt32.val k.ftz x)
      fmt32.finish k r

/-- The widenings of `VWID` by code and lane (R129). -/
def vwidOp (code : BitVec 4) (lane : BitVec 2) : EF := fun k a _ _ =>
  let f (g : Fmt) : W32 × Fl :=
    (BitVec.ofNat 32 (cvtFF g fmt32 ⟨.rne, k.ftz, false⟩ (laneN g.width lane.toNat a.toNat)).1, 0#7)
  match code.toNat with
  | 0 => f fmtBf16
  | 1 => f fmtF16
  | 2 => f fmtE4m3
  | 3 => f fmtE5m2
  | 4 => (BitVec.ofInt 32 (sInt 16 (laneN 16 lane.toNat a.toNat)), 0#7)
  | _ => (BitVec.ofInt 32 (sInt 8 (laneN 8 lane.toNat a.toNat)), 0#7)

/-- The narrow formats of `VNRW` (R130). -/
def nrwFmt (f : BitVec 2) : Fmt :=
  match f.toNat with
  | 0 => fmtBf16 | 1 => fmtF16 | 2 => fmtE4m3 | _ => fmtE5m2

/-- Error-feedback narrowing of an exact sum (R51): narrow bits, residue, flags. -/
def narrowFb (f : Fmt) (k : RCtl) (sum : FV × Fl) : Nat × Nat × Fl :=
  let d := f.round k sum.1
  let fl := d.2 ||| sum.2
  let dv := f.val false d.1
  if dv.isNan then (d.1, fmt32.canon, fl)
  else if (d.2 &&& Fl.ovf) != 0#7 || dv.isInf then (d.1, 0, fl)
  else (d.1, (fmt32.round ⟨.rne, false, false⟩ (FV.add .rne sum.1 dv.neg).1).1, fl)

/-- `VNRW` in one cell: the element vd becomes and the residue (R130). -/
def vnrwOp (z nf : Bool) (lane fmt : BitVec 2) (k : RCtl) (vs ve vd : W32) : W32 × W32 × Fl :=
  let f := nrwFmt fmt
  let y := if nf then FV.fin false 0 0 else fmt32.val k.ftz ve.toNat
  let r := narrowFb f k (FV.add k.rm (fmt32.val k.ftz vs.toNat) y)
  let w := f.width
  let old := if z then 0 else vd.toNat
  let sh := 2 ^ (w * lane.toNat)
  (BitVec.ofNat 32 (old - laneN w lane.toNat old * sh + r.1 * sh), BitVec.ofNat 32 r.2.1, r.2.2)

/-! ## Reductions and scans (R122, R133, R135) -/

/-- One combination of the lanes of two elements. -/
def redOp (op : BitVec 3) (t : VT) : EF :=
  match op.toNat with
  | 0 => efAdd t
  | 1 => efMax t
  | 2 => efMin t
  | 3 => efAnd
  | 4 => efOr
  | _ => efXor

/-- The identity of an op in every lane (R133). -/
def redId (op : BitVec 3) (t : VT) : W32 :=
  let w := vtWidth t
  let f := vtFmt t
  let x : Nat :=
    match op.toNat with
    | 0 => if t.isFloat then f.zeroBits true else 0
    | 1 => if t.isFloat then f.infBits true else 2 ^ (w - 1)
    | 2 => if t.isFloat then f.infBits false else 2 ^ (w - 1) - 1
    | 3 => 2 ^ w - 1
    | _ => 0
  (lanes3 w (fun _ _ _ => (x, 0#7)) 0 0 0).1

/-- One level of a balanced tree: neighbours combined, an odd last one carried upward. -/
def treeLevel (f : W32 → W32 → W32 × Fl) (l : List W32) : List W32 × Fl :=
  match l with
  | x :: y :: l =>
    let r := f x y
    let q := treeLevel f l
    (r.1 :: q.1, r.2 ||| q.2)
  | l => (l, 0#7)
/-- A balanced binary tree over a list, with `n` levels at most (R133, R215). -/
def treeRed (f : W32 → W32 → W32 × Fl) (n : Nat) (l : List W32) (fl : Fl) : W32 × Fl :=
  match n with
  | 0 => (l.headD 0, fl)
  | n + 1 => if l.length ≤ 1 then (l.headD 0, fl) else let r := treeLevel f l; treeRed f n r.1 (fl ||| r.2)

/-- A one-element prefix: flushed as an operand, a NaN canonical (R39, R47, R133). -/
def prefixOne (t : VT) (k : RCtl) (x : W32) : W32 :=
  if t.isFloat then
    (lanes3 (vtWidth t) (fun x _ _ => ((vtFmt t).round k ((vtFmt t).val k.ftz x) |>.1, 0#7)) x 0 0).1
  else x
/-- Sequential combinations of a list in order (R133). -/
def scanRed (f : W32 → W32 → W32 × Fl) (acc : W32) (l : List W32) (fl : Fl) : List W32 × Fl :=
  match l with
  | [] => ([], fl)
  | x :: l =>
    let r := f acc x
    let q := scanRed f r.1 l (fl ||| r.2)
    (r.1 :: q.1, q.2)

/-! ## What a row does -/

/-- Reads of one cycle: the array as visible, its number, the cycle. -/
structure RowCtx where
  s : State
  a : Nat
  x : Arr
  t : Nat
  r : Nat

/-- What one row of a vector slot does: writes with the cycle they become visible, stores, flags, whether a split element
failed, elements gathered for a column operation, bank words read. -/
structure RowRes where
  wr : List (Nat × Wr) := []
  st : List (Nat × W32 × Bool × Bool) := []
  fl : Fl := 0#7
  bad : Bool := false
  gath : List (Nat × Option W32 × Bool × Bool) := []
  words : List Nat := []
  vwords : List Nat := []
  staged : List Nat := []

/-- A cell of the row inside the selectors: its number, whether it executes, and whether its mask element is poisoned (R119). -/
def actCells (k : RowCtx) (c : Cap) : List (Nat × Bool × Bool) :=
  if bitAt c.ys k.r then
    ((List.range 64).filter fun i => bitAt c.xs i).map fun i =>
      let cell := k.r * 64 + i
      match c.gm with
      | none => (cell, true, false)
      | some m => let e := k.x.cel.mGet m.toNat cell; (cell, e.b, e.p)
  else []

/-- An element of a register as read: value, poison (a failing split element reads poisoned), and the failure (R222). -/
def rdEl (k : RowCtx) (c : Cap) (n : R6) (cell : Nat) : W32 × Bool × Bool :=
  let e := k.x.cel.vGet (vphys c.rrb n) cell
  (e.v, e.p || (e.split && e.fail), e.split && e.fail)

/-- A write by the cells of a row: value and poison where it executes, poison alone under a poisoned 0 mask (R119). -/
def cellWrites {α : Type} (cells : List (Nat × Bool × Bool)) (f : Nat → α × Bool) : List (Nat × Option α × Bool) :=
  cells.filterMap fun e =>
    if e.2.1 then let v := f e.1; some (e.1, some v.1, v.2 || e.2.2)
    else if e.2.2 then some (e.1, none, true) else none

/-- The flags of the executing cells. -/
def cellFlags (cells : List (Nat × Bool × Bool)) (f : Nat → Fl) : Fl :=
  cells.foldl (fun fl e => if e.2.1 then fl ||| f e.1 else fl) 0#7
def cellBad (cells : List (Nat × Bool × Bool)) (f : Nat → Bool) : Bool := cells.any fun e => e.2.1 && f e.1

/-- The cycle at which a result of latency L becomes visible in row r (R8). -/
def dueR (c : Cap) (r l : Nat) : Nat := c.t + 1 + r + l

/-- A row of an elementwise operation on registers: `srcs` are read, the function gives the element. -/
def rowEl (l : Nat) (d : R6) (srcs : List R6) (f : RCtl → List W32 → W32 × Fl) (k : RowCtx) (c : Cap) : RowRes :=
  let cells := actCells k c
  let g (cell : Nat) := srcs.map fun n => rdEl k c n cell
  { wr := [(dueR c k.r l, .v (vphys c.rrb d)
      (cellWrites cells fun i => ((f c.ctl ((g i).map (·.1))).1, (g i).any (·.2.1))))]
    fl := cellFlags cells fun i => (f c.ctl ((g i).map (·.1))).2
    bad := cellBad cells fun i => (g i).any (·.2.2) }

/-- A row of a three-operand element function: va, vb, vd as listed. -/
def rowEF (l : Nat) (f : EF) (d _ _ : R6) (srcs : List R6) (k : RowCtx) (c : Cap) : RowRes :=
  rowEl l d srcs (fun q vs =>
    match vs with
    | [x] => f q x 0 0
    | [x, y] => f q x y 0
    | [x, y, z] => f q x y z
    | _ => (0, 0#7)) k c

/-- A row that writes a value computed from the position, clean. -/
def rowPos (d : R6) (f : Nat → W32) (k : RowCtx) (c : Cap) : RowRes :=
  { wr := [(dueR c k.r 2, .v (vphys c.rrb d) (cellWrites (actCells k c) fun i => (f i, false)))] }

/-! ## Levels on the cells (R28, R126) -/

/-- Digit of level i in an index, counting from level `lo`. -/
def digitAt (l : List Level) (lo i x : Nat) : Nat :=
  x / ((List.range i).foldl (fun n j => if lo ≤ j then n * extAt l j else n) 1) % extAt l i
/-- Product of the extents of the levels of a domain. -/
def domProd (l : List Level) (d : Nat) : Nat := l.foldl (fun n v => if v.dom = d then n * v.ext else n) 1
def hasRow (l : List Level) : Bool := l.any fun v => v.dom == 1
/-- Width and height of the instance rectangle (R28). -/
def rectOf (l : List Level) : Nat × Nat :=
  if hasRow l then (domProd l 0, domProd l 1) else (min (domProd l 0) 64, (domProd l 0 + 63) / 64)
def inRect (l : List Level) (cell : Nat) : Bool :=
  decide (cell % 64 < (rectOf l).1) && decide (cell / 64 < (rectOf l).2)
/-- The index of a cell at level 0 or 1, all ones outside the instance rectangle (R126). -/
def cellLevel (k : Tsk) (lv cell : Nat) : W32 :=
  let l := k.levels
  if !inRect l cell then BitVec.allOnes 32
  else
    let x := if hasRow l then cell % 64 else cell
    let firstRow := (l.findIdx? (fun v => v.dom == 1)).getD 0
    if lv < l.length ∧ domAt l lv = 0 then BitVec.ofNat 32 (digitAt l 0 lv x)
    else if lv < l.length ∧ domAt l lv = 1 then BitVec.ofNat 32 (digitAt l firstRow lv (cell / 64))
    else BitVec.ofNat 32 (k.lidx[lv]?.getD 0)

/-! ## Rows of the instructions that are not elementwise -/

def rowVcmp (t : VT) (cond d : BitVec 3) (a b : R6) (k : RowCtx) (c : Cap) : RowRes :=
  let cells := actCells k c
  let f (i : Nat) := vcmpOp t cond c.ctl (rdEl k c a i).1 (rdEl k c b i).1
  { wr := [(dueR c k.r 2, .m d.toNat (cellWrites cells fun i => ((f i).1, (rdEl k c a i).2.1 || (rdEl k c b i).2.1)))]
    fl := cellFlags cells fun i => (f i).2
    bad := cellBad cells fun i => (rdEl k c a i).2.2 || (rdEl k c b i).2.2 }

def rowVsel (d a b : R6) (m : BitVec 3) (k : RowCtx) (c : Cap) : RowRes :=
  let cells := actCells k c
  let ch (i : Nat) := if (k.x.cel.mGet m.toNat i).b then rdEl k c a i else rdEl k c b i
  { wr := [(dueR c k.r 2, .v (vphys c.rrb d) (cellWrites cells fun i => ((ch i).1, (ch i).2.1 || (k.x.cel.mGet m.toNat i).p)))]
    bad := cellBad cells fun i => (rdEl k c a i).2.2 || (rdEl k c b i).2.2 }

def rowVmov (v : VMovK) (k : RowCtx) (c : Cap) : RowRes :=
  match v with
  | .vv d a => rowEl 2 d [a] (fun _ l => (l.headD 0, 0#7)) k c
  | .lvl0 d => rowPos d (cellLevel k.x.tsk 0) k c
  | .lvl1 d => rowPos d (cellLevel k.x.tsk 1) k c
  | .row d => rowPos d (fun i => BitVec.ofNat 32 (i / 64)) k c
  | .col d => rowPos d (fun i => BitVec.ofNat 32 (i % 64)) k c
  | .cr d => { wr := [(dueR c k.r 2, .v (vphys c.rrb d)
      (cellWrites (actCells k c) fun i => let e := SMap.get EP.zero k.x.cel.cr i; (e.v, e.p)))] }
  | .vm d m => { wr := [(dueR c k.r 2, .v (vphys c.rrb d)
      (cellWrites (actCells k c) fun i => let e := k.x.cel.mGet m.toNat i; (if e.b then 1#32 else 0#32, e.p)))] }
  | .mv m a =>
    let cells := actCells k c
    { wr := [(dueR c k.r 2, .m m.toNat (cellWrites cells fun i => ((rdEl k c a i).1 != 0#32, (rdEl k c a i).2.1)))]
      bad := cellBad cells fun i => (rdEl k c a i).2.2 }
  | .mm d a => { wr := [(dueR c k.r 2, .m d.toNat
      (cellWrites (actCells k c) fun i => let e := k.x.cel.mGet a.toNat i; (e.b, e.p)))] }

/-- `VBC`: one value in every executing cell; constants are clean (R127). -/
def rowVbc (d : R6) (v : VBcK) (k : RowCtx) (c : Cap) : RowRes :=
  let val : W32 × Bool :=
    match v with
    | .sreg _ => (c.sc.v.extractLsb' 0 32, c.sc.p)
    | .head _ => (c.sc.v.extractLsb' 0 32, c.sc.p)
    | .immHi a p => (p ++ (a ++ 0#4), false)
    | .immLo a p => ((p ++ a).signExtend 32, false)
  { wr := [(dueR c k.r 2, .v (vphys c.rrb d) (cellWrites (actCells k c) fun _ => val))] }

def rowVnrw (d vs ve : R6) (z nf : Bool) (lane fmt : BitVec 2) (k : RowCtx) (c : Cap) : RowRes :=
  let cells := actCells k c
  let rs (i : Nat) := rdEl k c vs i
  let re (i : Nat) : W32 × Bool × Bool := if nf then (0, false, false) else rdEl k c ve i
  let rd (i : Nat) : W32 × Bool × Bool := if z then (0, false, false) else rdEl k c d i
  let f (i : Nat) := vnrwOp z nf lane fmt c.ctl (rs i).1 (re i).1 (rd i).1
  let w1 := (dueR c k.r 4, Wr.v (vphys c.rrb d) (cellWrites cells fun i => ((f i).1, (rs i).2.1 || (re i).2.1 || (rd i).2.1)))
  let w2 := (dueR c k.r 4, Wr.v (vphys c.rrb ve) (cellWrites cells fun i => ((f i).2.1, (rs i).2.1 || (re i).2.1)))
  { wr := if nf then [w1] else [w1, w2]
    fl := cellFlags cells fun i => (f i).2.2
    bad := cellBad cells fun i => (rs i).2.2 || (re i).2.2 || (rd i).2.2 }

/-- A distance or position: from the immediate, or the captured scalar with its poison (R132). -/
def distVal (c : Cap) (x : Dist) : Nat × Bool :=
  match x with
  | .imm n => (n.toNat, false)
  | .reg _ => (c.sc.v.toNat % 64, c.sc.p)

/-- A row whose cells read another cell of va. -/
def rowFrom (l : Nat) (d a : R6) (pz : Bool) (src : Nat → Nat) (k : RowCtx) (c : Cap) : RowRes :=
  let cells := actCells k c
  { wr := [(dueR c k.r l, .v (vphys c.rrb d)
      (cellWrites cells fun i => ((rdEl k c a (src i)).1, (rdEl k c a (src i)).2.1 || pz)))]
    bad := cellBad cells fun i => (rdEl k c a (src i)).2.2 }

def rowVrotx (d a : R6) (x : Dist) (k : RowCtx) (c : Cap) : RowRes :=
  rowFrom 4 d a (distVal c x).2 (fun i => i / 64 * 64 + (i % 64 + 64 - (distVal c x).1) % 64) k c
def rowVbcx (d a : R6) (x : Dist) (k : RowCtx) (c : Cap) : RowRes :=
  rowFrom 3 d a (distVal c x).2 (fun i => i / 64 * 64 + (distVal c x).1) k c
/-- Column rotates and broadcasts read each source row as visible when row r executes (R134). -/
def rowVroty (d a : R6) (x : Dist) (k : RowCtx) (c : Cap) : RowRes :=
  rowFrom 3 d a (distVal c x).2 (fun i => (i / 64 + 16 - (distVal c x).1 % 16) % 16 * 64 + i % 64) k c
def rowVbcy (d a : R6) (x : Dist) (k : RowCtx) (c : Cap) : RowRes :=
  rowFrom 3 d a (distVal c x).2 (fun i => (distVal c x).1 % 16 * 64 + i % 64) k c

/-- The contributions of a row: the element of each executing cell, the identity elsewhere (R133). -/
def rowContrib (op : BitVec 3) (t : VT) (a : R6) (k : RowCtx) (c : Cap) : List W32 × Bool × Bool :=
  let cells := actCells k c
  let ex (i : Nat) := cells.any fun e => e.1 == i && e.2.1
  ((List.range 64).map fun j => let i := k.r * 64 + j; if ex i then (rdEl k c a i).1 else redId op t,
   cells.any fun e => e.2.1 && (rdEl k c a e.1).2.1,
   cellBad cells fun i => (rdEl k c a i).2.2)

def rowVredx (op : BitVec 3) (t : VT) (d a : R6) (push : Option R6) (k : RowCtx) (c : Cap) : RowRes :=
  let q := rowContrib op t a k c
  let v := treeRed (fun x y => redOp op t c.ctl x y 0) 7 q.1 0#7
  let p := match push with
    | some r => if r.toNat = k.r && c.dup == 0 then [(c.t + 9 + k.r, Wr.vsq ⟨v.1.setWidth 64, q.2.1⟩)] else []
    | none => []
  { wr := (dueR c k.r 8, .v (vphys c.rrb d) (cellWrites (actCells k c) fun _ => (v.1, q.2.1))) :: p
    fl := v.2
    bad := q.2.2 }

def rowVscanx (op : BitVec 3) (t : VT) (d a : R6) (k : RowCtx) (c : Cap) : RowRes :=
  let q := rowContrib op t a k c
  let x0 := prefixOne t c.ctl (q.1.headD 0)
  let v := scanRed (fun x y => redOp op t c.ctl x y 0) x0 (q.1.drop 1) 0#7
  let vs := x0 :: v.1
  let cells := actCells k c
  let pz (i : Nat) := cells.any fun e => e.2.1 && decide (e.1 ≤ i) && (rdEl k c a e.1).2.1
  { wr := [(dueR c k.r 10, .v (vphys c.rrb d) (cellWrites cells fun i => ((vs[i % 64]?).getD 0, pz i)))]
    fl := v.2
    bad := q.2.2 }

/-- The elements a row gives a column operation: cell, contribution of an executing cell, poison, poisoned mask (R135). -/
def rowGath (a : R6) (k : RowCtx) (c : Cap) : List (Nat × Option W32 × Bool × Bool) :=
  (actCells k c).map fun e =>
    if e.2.1 then (e.1, some (rdEl k c a e.1).1, (rdEl k c a e.1).2.1, e.2.2) else (e.1, none, false, e.2.2)

/-- The contributions of a column from what was gathered, the identity where nothing executes. -/
def colContrib (op : BitVec 3) (t : VT) (g : List (Nat × Option W32 × Bool × Bool)) (j : Nat) : List (W32 × Bool) :=
  (List.range 16).map fun r =>
    match g.find? (fun e => e.1 == r * 64 + j) with
    | some (_, some v, p, _) => (v, p)
    | _ => (redId op t, false)

/-- The cells a column operation writes, with what they executed and the poison of their masks. -/
def gathCells (g : List (Nat × Option W32 × Bool × Bool)) : List (Nat × Bool × Bool) :=
  g.map fun e => (e.1, e.2.1.isSome, e.2.2.2)

/-- The last row of `VREDY`: every row's result visible together at T + 22 (R135, R136). -/
def finVredy (op : BitVec 3) (t : VT) (d : R6) (push : Option R6) (g : List (Nat × Option W32 × Bool × Bool)) (c : Cap) : RowRes :=
  let col (j : Nat) := colContrib op t g j
  let red (j : Nat) := treeRed (fun x y => redOp op t c.ctl x y 0) 5 ((col j).map (·.1)) 0#7
  let tab := (List.range 64).map fun j => (red j, (col j).any (·.2))
  let at_ (i : Nat) : (W32 × Fl) × Bool := (tab[i % 64]?).getD ((0, 0#7), false)
  let p := match push with
    | some j => if c.dup == 0 then [(c.t + 22, Wr.vsq ⟨(at_ j.toNat).1.1.setWidth 64, (at_ j.toNat).2⟩)] else []
    | none => []
  { wr := (c.t + 22, .v (vphys c.rrb d) (cellWrites (gathCells g) fun i => ((at_ i).1.1, (at_ i).2))) :: p
    fl := tab.foldl (fun fl e => fl ||| e.1.2) 0#7 }

/-- The last row of `VSCANY` (R135). -/
def finVscany (op : BitVec 3) (t : VT) (d : R6) (g : List (Nat × Option W32 × Bool × Bool)) (c : Cap) : RowRes :=
  let col (j : Nat) := colContrib op t g j
  let sc (j : Nat) :=
    let l := (col j).map (·.1)
    let x0 := prefixOne t c.ctl (l.headD 0)
    let v := scanRed (fun x y => redOp op t c.ctl x y 0) x0 (l.drop 1) 0#7
    (x0 :: v.1, v.2)
  let tab := (List.range 64).map fun j => (sc j, (col j).map (·.2))
  let val (i : Nat) : W32 × Bool :=
    match tab[i % 64]? with
    | some (v, ps) => ((v.1[i / 64]?).getD 0, (ps.take (i / 64 + 1)).any id)
    | none => (0, false)
  { wr := [(c.t + 22, .v (vphys c.rrb d) (cellWrites (gathCells g) val))]
    fl := tab.foldl (fun fl e => fl ||| e.1.2) 0#7 }

def rowVcrw (a : R6) (k : RowCtx) (c : Cap) : RowRes :=
  let cells := actCells k c
  { wr := [(dueR c k.r 1, .cr (cellWrites cells fun i => ((rdEl k c a i).1, (rdEl k c a i).2.1)))]
    bad := cellBad cells fun i => (rdEl k c a i).2.2 }

/-- A neighbour's `cr` as visible at the reading cycle; an edge reads 0 or wraps (R82, R138). -/
def rowNbr (d : R6) (wrap : Bool) (nb : Nat → Nat → Option (Nat × Nat)) (wr : Nat → Nat → Nat × Nat) (k : RowCtx) (c : Cap) : RowRes :=
  { wr := [(dueR c k.r 1, .v (vphys c.rrb d) (cellWrites (actCells k c) fun i =>
      let src := match nb (i / 64) (i % 64) with
        | some q => some q
        | none => if wrap then some (wr (i / 64) (i % 64)) else none
      match src with
      | some q => let e := SMap.get EP.zero k.x.cel.cr (q.1 * 64 + q.2); (e.v, e.p)
      | none => (0, false)))] }
def rowVcrn (d : R6) (wrap : Bool) : RowCtx → Cap → RowRes :=
  rowNbr d wrap (fun r c => if r = 0 then none else some (r - 1, c)) (fun _ c => (15, c))
def rowVcrs (d : R6) (wrap : Bool) : RowCtx → Cap → RowRes :=
  rowNbr d wrap (fun r c => if r = 15 then none else some (r + 1, c)) (fun _ c => (0, c))
def rowVcre (d : R6) (wrap : Bool) : RowCtx → Cap → RowRes :=
  rowNbr d wrap (fun r c => if c = 63 then none else some (r, c + 1)) (fun r _ => (r, 0))
def rowVcrwN (d : R6) (wrap : Bool) : RowCtx → Cap → RowRes :=
  rowNbr d wrap (fun r c => if c = 0 then none else some (r, c - 1)) (fun r _ => (r, 63))

/-- `VSHUF`: byte c of the captured entry selects from va or vb of the row (R139, R140). -/
def rowVshuf (d a b : R6) (k : RowCtx) (c : Cap) : RowRes :=
  let cells := actCells k c
  let sel (i : Nat) : Nat := (c.sh.v.extractLsb' (8 * (i % 64)) 8).toNat
  let src (i : Nat) : W32 × Bool × Bool :=
    if 128 ≤ sel i then (0, false, false)
    else if sel i % 128 < 64 then rdEl k c a (i / 64 * 64 + sel i % 64)
    else rdEl k c b (i / 64 * 64 + sel i % 64)
  { wr := [(dueR c k.r 3, .v (vphys c.rrb d) (cellWrites cells fun i => ((src i).1, (src i).2.1 || c.sh.p)))]
    bad := cellBad cells fun i => (src i).2.2 }

/-- `VFLAG`: `cf` at T + 2 + r, its sample for the edge trees at T + 19 (R16, R18, R143). -/
def rowVflag (v : VFlK) (k : RowCtx) (c : Cap) : RowRes :=
  let f (i : Nat) : Bool × Bool :=
    match v with
    | .clr => (false, false)
    | .set => (true, false)
    | .mask m => let e := k.x.cel.mGet m.toNat i; (e.b, e.p)
    | .notMask m => let e := k.x.cel.mGet m.toNat i; (!e.b, e.p)
  let els := cellWrites (actCells k c) f
  if c.dup = 0 then { wr := [(dueR c k.r 1, .cf c.bn els), (c.t + 19, .cfs els)] } else {}

/-- Offset of a cell's word in the layout of R144. -/
def cellOff (cell : Nat) : Nat := 1024 * (cell / 64 / 4) + 16 * (cell % 64) + 4 * (cell / 64 % 4)

/-- The 32-bit word at a bank offset, with its poison, as a vector read of the bundle issued at `t` sees it: the bytes that a store of
that bundle took, and that no other write has taken in an earlier cycle since, read as before it (R102, R146, R240). DEDUCED (unsafe; notes/assumptions 49). -/
def State.seenWord (s : State) (a : Nat) (old : List OldB) (t off : Nat) : W32 × Bool :=
  let k := spadKey a off
  let mine := old.filter fun e => e.t == t
  if mine.isEmpty then (BitVec.ofNat 32 (s.readN k 4), s.spadPois a off)
  else
    let byte (i : Nat) : Nat := (((mine.find? fun e => e.key == k + i).map (·.b)).getD (s.byte (k + i))).toNat
    (BitVec.ofNat 32 (byte 0 + 256 * byte 1 + 65536 * byte 2 + 16777216 * byte 3),
     ((mine.find? fun e => granule e.key == granule k).map (·.p)).getD (s.spadPois a off))

/-- The staging parity of the edge loaders finds an error in a cell's element (R314). -/
def RowCtx.staged (k : RowCtx) (i : Nat) : Bool := SMap.get 0 k.s.err (regKey k.a 11 i) != 0
/-- The executing cells of a row. -/
def runCells (cells : List (Nat × Bool × Bool)) : List Nat := (cells.filter (·.2.1)).map (·.1)
/-- `VLD` and `LDW.WF`: each cell's word of the own scratchpad, visible after `l` (R19, R144, R207). -/
def rowVld (l : Nat) (d : R6) (k : RowCtx) (c : Cap) : RowRes :=
  let cells := actCells k c
  let off (i : Nat) := k.x.localOff (k.x.spOff c.ea + cellOff i)
  { wr := [(dueR c k.r l, .v (vphys c.rrb d) (cellWrites cells fun i =>
      let q := k.s.seenWord k.a k.x.cel.old c.t (off i)
      (q.1, q.2 || k.staged i)))]
    words := (runCells cells).map off
    staged := (runCells cells).filter k.staged }

def rowVst (sr : R6) (k : RowCtx) (c : Cap) : RowRes :=
  let cells := actCells k c
  { st := if c.dup ≠ 0 then [] else cells.filterMap fun e =>
      let v := rdEl k c sr e.1
      let off := k.x.spOff c.ea + cellOff e.1
      if e.2.1 then some (off, v.1, v.2.1 || e.2.2, false) else if e.2.2 then some (off, 0, true, true) else none
    bad := cellBad cells fun i => (rdEl k c sr i).2.2 }

/-- `VLDV`: each cell's word of the own vault, corrected, reconstructed or poisoned as it is read (R147, R305). -/
def rowVldv (d : R6) (k : RowCtx) (c : Cap) : RowRes :=
  let o (i : Nat) := (k.x.tsk.ownOff 1 c.ea).getD 0 + 64 * (i % 64) + 4 * (i / 64)
  { wr := [(dueR c k.r 8, .v (vphys c.rrb d) (cellWrites (actCells k c) fun i =>
      (BitVec.ofNat 32 (k.s.readN (vaultKey k.a (o i)) 4), k.s.vaultPois k.a (o i) || k.staged i)))]
    vwords := (runCells (actCells k c)).map o
    staged := (runCells (actCells k c)).filter k.staged }

/-- Tile element of slice element j of a cell, row-major over 64 × 512 (R148). -/
def sliceIdx (cell j : Nat) : Nat := (4 * (cell / 64) + j / 8) * 512 + 8 * (cell % 64) + j % 8

def rowVrdacc (d : R6) (acc : BitVec 3) (j : BitVec 5) (k : RowCtx) (c : Cap) : RowRes :=
  { wr := [(dueR c k.r 4, .v (vphys c.rrb d) (cellWrites (actCells k c) fun i =>
      let e := k.x.cel.accGet acc.toNat (sliceIdx i j.toNat); (e.v, e.p)))] }
def rowVwracc (acc : BitVec 3) (sr : R6) (j : BitVec 5) (k : RowCtx) (c : Cap) : RowRes :=
  let cells := actCells k c
  { wr := if c.dup ≠ 0 then [] else [(dueR c k.r 4, .acc acc.toNat
      ((cellWrites cells fun i => ((rdEl k c sr i).1, (rdEl k c sr i).2.1)).map fun e => (sliceIdx e.1 j.toNat, e.2)))]
    bad := cellBad cells fun i => (rdEl k c sr i).2.2 }


/-- A special function of each element (R131). -/
def rowSp (f : SpFn) (d a : R6) : RowCtx → Cap → RowRes :=
  rowEF 8 (fun q x _ _ => let r := special f q.ftz x; (BitVec.ofNat 32 r.1, r.2)) d a a [a]

/-- What row r of a vector slot does; column operations gather, and write with the last row. -/
def rowOf (i : Instr) (g : List (Nat × Option W32 × Bool × Bool)) (k : RowCtx) (c : Cap) : RowRes :=
  match i with
  | .vadd _ t d a b => rowEF 2 (efAdd t) d a b [a, b] k c
  | .vsub _ t d a b => rowEF 2 (efSub t) d a b [a, b] k c
  | .vmul _ t d a b => rowEF 4 (efMul t) d a b [a, b] k c
  | .vmin _ t d a b => rowEF 2 (efMin t) d a b [a, b] k c
  | .vmax _ t d a b => rowEF 2 (efMax t) d a b [a, b] k c
  | .vabs _ t d a => rowEF 2 (efAbs t) d a a [a] k c
  | .vneg _ t d a => rowEF 2 (efNeg t) d a a [a] k c
  | .vfma _ t d a b => rowEF 4 (efFma t) d a b [a, b, d] k c
  | .vfms _ t d a b => rowEF 4 (efFms t) d a b [a, b, d] k c
  | .vshl _ t d a b => rowEF 2 (efShl t) d a b [a, b] k c
  | .vshr _ t d a b => rowEF 2 (efShr t) d a b [a, b] k c
  | .vsar _ t d a b => rowEF 2 (efSar t) d a b [a, b] k c
  | .vand _ d a b => rowEF 2 efAnd d a b [a, b] k c
  | .vor _ d a b => rowEF 2 efOr d a b [a, b] k c
  | .vxor _ d a b => rowEF 2 efXor d a b [a, b] k c
  | .vnot _ d a => rowEF 2 efNot d a a [a] k c
  | .vcmp _ t cond d a b => rowVcmp t cond d a b k c
  | .vsel _ d a b m => rowVsel d a b m k c
  | .vmov _ v => rowVmov v k c
  | .vbc _ d v => rowVbc d v k c
  | .vcvt _ code d a => rowEF 4 (vcvtOp code) d a a [a] k c
  | .vnrw _ d vs ve z nf lane fmt => rowVnrw d vs ve z nf lane fmt k c
  | .vwid _ code lane d a => rowEF 2 (vwidOp code lane) d a a [a] k c
  | .vrcp _ d a => rowSp .rcp d a k c
  | .vrsq _ d a => rowSp .rsq d a k c
  | .vexp2 _ d a => rowSp .exp2 d a k c
  | .vlog2 _ d a => rowSp .log2 d a k c
  | .vsin _ d a => rowSp .sin d a k c
  | .vcos _ d a => rowSp .cos d a k c
  | .vtanh _ d a => rowSp .tanh d a k c
  | .vrotx _ d a x => rowVrotx d a x k c
  | .vbcx _ d a x => rowVbcx d a x k c
  | .vredx _ op t d a p => rowVredx op t d a p k c
  | .vscanx _ op t d a => rowVscanx op t d a k c
  | .vroty _ d a x => rowVroty d a x k c
  | .vbcy _ d a x => rowVbcy d a x k c
  | .vcrw _ a => rowVcrw a k c
  | .vcrn _ d x => rowVcrn d x k c
  | .vcrs _ d x => rowVcrs d x k c
  | .vcre _ d x => rowVcre d x k c
  | .vcrwN _ d x => rowVcrwN d x k c
  | .vshuf _ d a b _ => rowVshuf d a b k c
  | .vflag _ v => rowVflag v k c
  | .vld _ d _ _ => rowVld 6 d k c
  | .vst _ v _ _ => rowVst v k c
  | .vldv _ d _ _ => rowVldv d k c
  | .vrdacc _ d n j => rowVrdacc d n j k c
  | .vwracc _ n v j => rowVwracc n v j k c
  | .ldwWf _ d _ _ => rowVld 3 d k c
  | .vredy _ op t d a p =>
    let q := rowGath a k c
    let bad := cellBad (actCells k c) fun i => (rdEl k c a i).2.2
    if k.r = 15 then { finVredy op t d p (g ++ q) c with gath := q, bad := bad } else { gath := q, bad := bad }
  | .vscany _ op t d a =>
    let q := rowGath a k c
    let bad := cellBad (actCells k c) fun i => (rdEl k c a i).2.2
    if k.r = 15 then { finVscany op t d (g ++ q) c with gath := q, bad := bad } else { gath := q, bad := bad }
  | _ => {}

/-- The latency of R82 that fixes when a vector slot's flags and mismatches arrive (R49, R220). -/
def latOf (i : Instr) : Nat :=
  match i with
  | .vadd _ _ _ _ _ => 2
  | .vsub _ _ _ _ _ => 2
  | .vmin _ _ _ _ _ => 2
  | .vmax _ _ _ _ _ => 2
  | .vabs _ _ _ _ => 2
  | .vneg _ _ _ _ => 2
  | .vshl _ _ _ _ _ => 2
  | .vshr _ _ _ _ _ => 2
  | .vsar _ _ _ _ _ => 2
  | .vand _ _ _ _ => 2
  | .vor _ _ _ _ => 2
  | .vxor _ _ _ _ => 2
  | .vnot _ _ _ => 2
  | .vcmp _ _ _ _ _ _ => 2
  | .vsel _ _ _ _ _ => 2
  | .vmov _ _ => 2
  | .vbc _ _ _ => 2
  | .vwid _ _ _ _ _ => 2
  | .vmul _ _ _ _ _ => 4
  | .vfma _ _ _ _ _ => 4
  | .vfms _ _ _ _ _ => 4
  | .vcvt _ _ _ _ => 4
  | .vnrw _ _ _ _ _ _ _ _ => 4
  | .vrotx _ _ _ _ => 4
  | .vrdacc _ _ _ _ => 4
  | .vwracc _ _ _ _ => 4
  | .vrcp _ _ _ => 8
  | .vrsq _ _ _ => 8
  | .vexp2 _ _ _ => 8
  | .vlog2 _ _ _ => 8
  | .vsin _ _ _ => 8
  | .vcos _ _ _ => 8
  | .vtanh _ _ _ => 8
  | .vredx _ _ _ _ _ _ => 8
  | .vldv _ _ _ _ => 8
  | .vbcx _ _ _ _ => 3
  | .vroty _ _ _ _ => 3
  | .vbcy _ _ _ _ => 3
  | .vshuf _ _ _ _ _ => 3
  | .ldwWf _ _ _ _ => 3
  | .vscanx _ _ _ _ _ => 10
  | .vcrw _ _ => 1
  | .vcrn _ _ _ => 1
  | .vcrs _ _ _ => 1
  | .vcre _ _ _ => 1
  | .vcrwN _ _ _ => 1
  | .vflag _ _ => 1
  | .vld _ _ _ _ => 6
  | .vredy _ _ _ _ _ _ => 6
  | .vscany _ _ _ _ _ => 6
  | _ => 0

/-- Physical vector registers or masks a write names, for the mismatch bit (R220): masks have none. -/
def Wr.vreg (x : Wr) : Option Nat :=
  match x with
  | .v n _ => some n
  | _ => none

/-- The `.shd` copy of a write: check bits only (R222). -/
def Wr.toSplit (x : Wr) (fail : Bool) : Option Wr :=
  match x with
  | .v n els => some (.vsplit n ((els.filter (·.2.1.isSome)).map (·.1)) fail)
  | _ => none

/-- Executing cells write something. -/
def Wr.someEl (x : Wr) : Bool :=
  match x with
  | .v _ els => els.any fun e => e.2.1.isSome
  | _ => false

/-- One row of a vector slot executed at cycle `t` on array `a`: its writes become pending, its stores join the cycle's, its
flags are gathered and contributed at T + 18 + L by the last row, a failing split element stops the task (R49, R220, R222). -/
def rowStep (a t : Nat) (x : Arr) (w : Wave) (s : State) : State × Wave :=
  let c := w.cap
  let r := t - c.t - 1
  let o := rowOf w.ins w.gath ⟨s, a, x, t, r⟩ c
  let ord := ordOf c.t c.slot
  let err := (x.sca.chkErr.extractLsb' 0 32) != 0#32
  let l := latOf w.ins
  let fl := w.fl ||| o.fl
  let mis := w.mis || (err && o.wr.any fun e => e.2.someEl)
  let last := r == 15
  let s := (o.words.foldl (fun s off => (s.spadRead a off).2.2) s).syncUse a (o.words.map (· / 16))
  let s := o.vwords.foldl (fun s off => s.vaultFix a off) s
  let s := o.staged.foldl (fun (s : State) i =>
    (({ s with err := SMap.set 0 s.err (regKey a 11 i) 0 } : State).uncorrectable (a / 32) 11 a (regKey a 11 i))) s
  let s := s.modA a fun y =>
    let y := if c.dup = 0 then o.wr.foldl (fun y e => y.push e.1 ord e.2) y
      else if c.dup = 2 then o.wr.foldl (fun y e => match e.2.toSplit err with
        | some q => y.push e.1 ord q
        | none => y) y
      else y
    let y := o.st.foldl (fun y e => y.modCel fun q =>
      { q with stq := stIns q.stq ⟨ord, e.1, toBytes 4 e.2.1.toNat, e.2.2.1, e.2.2.2⟩ }) y
    let y := if o.bad then y.push (t + 19) ord .pipechk else y
    let y := if last && c.dup == 0 && fl != 0#7 then y.push (c.t + 18 + l) (flagOrd (c.t + 18 + l)) (.fflags fl) else y
    if last && c.dup == 1 && mis then
      o.wr.foldl (fun y e => match e.2.vreg with
        | some n => y.push (c.t + 18 + l) ord (.mmV n)
        | none => (match e.2 with | .m _ _ => y.push (c.t + 18 + l) ord .mmM | _ => y)) y
    else y
  (s, { w with gath := w.gath ++ o.gath, fl := fl, mis := mis })

/-- Every vector slot in the wavefront of an array executes its row of cycle `t`; those past row 15 leave (R8). -/
def rowsStep (a t : Nat) (x : Arr) (l : List Wave) (s : State) : State × List Wave :=
  match l with
  | [] => (s, [])
  | w :: l =>
    if w.cap.t < t then
      let q := rowStep a t x w s
      let z := rowsStep a t x l q.1
      (z.1, if t < w.cap.t + 16 then q.2 :: z.2 else z.2)
    else
      let z := rowsStep a t x l s
      (z.1, w :: z.2)

/-! ## Issue of a vector slot -/

/-- Extension words of a vector slot's guard extension. -/
def vgW (g : VG) : Nat := if g.gx.isSome then 1 else 0

/-- The mask that guards the slot (R70). -/
def VG_mask (g : VG) : Option (BitVec 3) :=
  match g.gx with
  | some e => if e.me then some e.mi else none
  | none => none

/-- What the slot captures at T (R8, R13, R14, R48, R62, R117). -/
def capOf (g : VG) (c : Ctx) (x : Arr) (sc : PV) (ea : Addr) (sh : ShE) : Cap :=
  { t := c.t, slot := c.slot
    xs := if g.sp = 0#2 then BitVec.allOnes 64 else SMap.get 0#64 x.sca.xsel g.sp.toNat
    ys := if g.sp = 0#2 then BitVec.allOnes 16 else SMap.get 0#16 x.sca.ysel g.sp.toNat
    gm := VG_mask g
    rrb := x.sca.rrb, rm := x.sca.fpcsr.extractLsb' 0 2, ftz := bitAt x.sca.fpcsr 3, f8sat := bitAt x.sca.fpcsr 4
    sc := sc, ea := ea, sh := sh, dup := c.dup, bn := x.cel.cfTimes.length }

/-- The valid bits that a write sets at issue, even if no cell executes it (R11, R60). -/
def setValid (x : Arr) (l : List RR) : Arr :=
  if x.atS then x else
  l.foldl (fun x r =>
    match r with
    | .v n => x.modCel fun e => { e with vv := bitSet e.vv (vphys x.sca.rrb n) true }
    | .m n => x.modCel fun e => { e with mv := bitSet e.mv n.toNat true }
    | .acc n => x.modCel fun e => { e with accv := bitSet e.accv n.toNat true }
    | _ => x) x

/-- The slot enters the wavefront. -/
def enterWave (i : Instr) (cap : Cap) (dst : List RR) (c : Ctx) (s : State) : State :=
  s.modA c.a fun x =>
    let x := x.modCel fun e => { e with waves := e.waves ++ [⟨i, cap, [], 0#7, false⟩] }
    if c.dup = 0 then setValid x dst else x

/-- A vector slot: guards of its extension, registers and sources with its mask guard, what it captures beside the
selectors, and the registers it writes. -/
def vSem (g : VG) (i : Instr) (dst srcs : List RR) (sc : Ctx → State → PV := fun _ _ => PV.zero)
    (ea : Ctx → State → Addr := fun _ _ => 0) (sh : Ctx → State → ShE := fun _ _ => ShE.zero) : SlotSem :=
  let gm : List RR := (VG_mask g).toList.map .m
  { cls := .vector, gx := g.gx, chk := g.chk, regs := dst ++ (srcs ++ gm), srcs := srcs ++ gm,
    eff := fun c s => enterWave i (capOf g c (s.getA c.a) (sc c s) (ea c s) (sh c s)) dst c s }

/-! ## The instructions -/

def semVadd (g : VG) (t : VT) (d a b : R6) : SlotSem :=
  vSem g (.vadd g t d a b) [.v d] [.v a, .v b]
/-- `VADD` (R121). -/
def execVadd (g : VG) (t : VT) (d a b : R6) (s : State) : Out := .next (runSlot (vgW g) (semVadd g t d a b) s)
def semVsub (g : VG) (t : VT) (d a b : R6) : SlotSem :=
  vSem g (.vsub g t d a b) [.v d] [.v a, .v b]
/-- `VSUB` (R121). -/
def execVsub (g : VG) (t : VT) (d a b : R6) (s : State) : Out := .next (runSlot (vgW g) (semVsub g t d a b) s)
def semVmul (g : VG) (t : VT) (d a b : R6) : SlotSem :=
  vSem g (.vmul g t d a b) [.v d] [.v a, .v b]
/-- `VMUL` (R121). -/
def execVmul (g : VG) (t : VT) (d a b : R6) (s : State) : Out := .next (runSlot (vgW g) (semVmul g t d a b) s)
def semVmin (g : VG) (t : VT) (d a b : R6) : SlotSem :=
  vSem g (.vmin g t d a b) [.v d] [.v a, .v b]
/-- `VMIN` (R121). -/
def execVmin (g : VG) (t : VT) (d a b : R6) (s : State) : Out := .next (runSlot (vgW g) (semVmin g t d a b) s)
def semVmax (g : VG) (t : VT) (d a b : R6) : SlotSem :=
  vSem g (.vmax g t d a b) [.v d] [.v a, .v b]
/-- `VMAX` (R121). -/
def execVmax (g : VG) (t : VT) (d a b : R6) (s : State) : Out := .next (runSlot (vgW g) (semVmax g t d a b) s)
def semVabs (g : VG) (t : VT) (d a : R6) : SlotSem :=
  vSem g (.vabs g t d a) [.v d] [.v a]
/-- `VABS` (R121). -/
def execVabs (g : VG) (t : VT) (d a : R6) (s : State) : Out := .next (runSlot (vgW g) (semVabs g t d a) s)
def semVneg (g : VG) (t : VT) (d a : R6) : SlotSem :=
  vSem g (.vneg g t d a) [.v d] [.v a]
/-- `VNEG` (R121). -/
def execVneg (g : VG) (t : VT) (d a : R6) (s : State) : Out := .next (runSlot (vgW g) (semVneg g t d a) s)
def semVfma (g : VG) (t : VT) (d a b : R6) : SlotSem :=
  vSem g (.vfma g t d a b) [.v d] [.v a, .v b, .v d]
/-- `VFMA`, one rounding (R121). -/
def execVfma (g : VG) (t : VT) (d a b : R6) (s : State) : Out := .next (runSlot (vgW g) (semVfma g t d a b) s)
def semVfms (g : VG) (t : VT) (d a b : R6) : SlotSem :=
  vSem g (.vfms g t d a b) [.v d] [.v a, .v b, .v d]
/-- `VFMS`, one rounding (R121). -/
def execVfms (g : VG) (t : VT) (d a b : R6) (s : State) : Out := .next (runSlot (vgW g) (semVfms g t d a b) s)
def semVshl (g : VG) (t : VT) (d a b : R6) : SlotSem :=
  vSem g (.vshl g t d a b) [.v d] [.v a, .v b]
/-- `VSHL` (R121). -/
def execVshl (g : VG) (t : VT) (d a b : R6) (s : State) : Out := .next (runSlot (vgW g) (semVshl g t d a b) s)
def semVshr (g : VG) (t : VT) (d a b : R6) : SlotSem :=
  vSem g (.vshr g t d a b) [.v d] [.v a, .v b]
/-- `VSHR` (R121). -/
def execVshr (g : VG) (t : VT) (d a b : R6) (s : State) : Out := .next (runSlot (vgW g) (semVshr g t d a b) s)
def semVsar (g : VG) (t : VT) (d a b : R6) : SlotSem :=
  vSem g (.vsar g t d a b) [.v d] [.v a, .v b]
/-- `VSAR` (R121). -/
def execVsar (g : VG) (t : VT) (d a b : R6) (s : State) : Out := .next (runSlot (vgW g) (semVsar g t d a b) s)
def semVand (g : VG) (d a b : R6) : SlotSem :=
  vSem g (.vand g d a b) [.v d] [.v a, .v b]
/-- `VAND` (R123). -/
def execVand (g : VG) (d a b : R6) (s : State) : Out := .next (runSlot (vgW g) (semVand g d a b) s)
def semVor (g : VG) (d a b : R6) : SlotSem :=
  vSem g (.vor g d a b) [.v d] [.v a, .v b]
/-- `VOR` (R123). -/
def execVor (g : VG) (d a b : R6) (s : State) : Out := .next (runSlot (vgW g) (semVor g d a b) s)
def semVxor (g : VG) (d a b : R6) : SlotSem :=
  vSem g (.vxor g d a b) [.v d] [.v a, .v b]
/-- `VXOR` (R123). -/
def execVxor (g : VG) (d a b : R6) (s : State) : Out := .next (runSlot (vgW g) (semVxor g d a b) s)
def semVnot (g : VG) (d a : R6) : SlotSem :=
  vSem g (.vnot g d a) [.v d] [.v a]
/-- `VNOT` (R123). -/
def execVnot (g : VG) (d a : R6) (s : State) : Out := .next (runSlot (vgW g) (semVnot g d a) s)
def semVcmp (g : VG) (t : VT) (cond d : BitVec 3) (a b : R6) : SlotSem :=
  vSem g (.vcmp g t cond d a b) [.m d] [.v a, .v b]
/-- `VCMP` (R124). -/
def execVcmp (g : VG) (t : VT) (cond d : BitVec 3) (a b : R6) (s : State) : Out := .next (runSlot (vgW g) (semVcmp g t cond d a b) s)
def semVsel (g : VG) (d a b : R6) (m : BitVec 3) : SlotSem :=
  vSem g (.vsel g d a b m) [.v d] [.v a, .v b, .m m]
/-- `VSEL` (R125). -/
def execVsel (g : VG) (d a b : R6) (m : BitVec 3) (s : State) : Out := .next (runSlot (vgW g + 1) (semVsel g d a b m) s)
/-- Destination and sources of `VMOV` (R126). -/
def vmovRegs (k : VMovK) : List RR × List RR :=
  match k with
  | .vv d a => ([.v d], [.v a])
  | .lvl0 d => ([.v d], [])
  | .lvl1 d => ([.v d], [])
  | .row d => ([.v d], [])
  | .col d => ([.v d], [])
  | .cr d => ([.v d], [])
  | .vm d m => ([.v d], [.m m])
  | .mv m a => ([.m m], [.v a])
  | .mm d a => ([.m d], [.m a])

def semVmov (g : VG) (k : VMovK) : SlotSem :=
  vSem g (.vmov g k) (vmovRegs k).1 (vmovRegs k).2
/-- `VMOV` (R126). -/
def execVmov (g : VG) (k : VMovK) (s : State) : Out := .next (runSlot (vgW g) (semVmov g k) s)
/-- What `VBC` captures: a scalar register or a latched head (R127). -/
def semVbc (g : VG) (d : R6) (k : VBcK) : SlotSem :=
  match k with
  | .sreg n => vSem g (.vbc g d k) [.v d] [.s n] (sc := fun c s => (s.getA c.a).sGet n)
  | .head q => { vSem g (.vbc g d k) [.v d] [] (sc := fun c s => ((s.getA c.a).headAt q.toNat).getD PV.zero) with heads := [q.toNat] }
  | .immHi _ _ => vSem g (.vbc g d k) [.v d] []
  | .immLo _ _ => vSem g (.vbc g d k) [.v d] []
/-- Extension words of `VBC`. -/
def vbcW (k : VBcK) : Nat := match k with | .immHi _ _ => 1 | .immLo _ _ => 1 | _ => 0
/-- `VBC` (R127). -/
def execVbc (g : VG) (d : R6) (k : VBcK) (s : State) : Out := .next (runSlot (vgW g + vbcW k) (semVbc g d k) s)
def semVcvt (g : VG) (code : BitVec 4) (d a : R6) : SlotSem :=
  vSem g (.vcvt g code d a) [.v d] [.v a]
/-- `VCVT` (R128). -/
def execVcvt (g : VG) (code : BitVec 4) (d a : R6) (s : State) : Out := .next (runSlot (vgW g) (semVcvt g code d a) s)
def semVnrw (g : VG) (d vs ve : R6) (z nf : Bool) (lane fmt : BitVec 2) : SlotSem :=
  vSem g (.vnrw g d vs ve z nf lane fmt) (.v d :: (if nf then [] else [.v ve]))
    (.v vs :: ((if nf then [] else [.v ve]) ++ (if z then [] else [.v d])))
/-- `VNRW` (R51, R130). -/
def execVnrw (g : VG) (d vs ve : R6) (z nf : Bool) (lane fmt : BitVec 2) (s : State) : Out := .next (runSlot (vgW g + 1) (semVnrw g d vs ve z nf lane fmt) s)
def semVwid (g : VG) (code : BitVec 4) (lane : BitVec 2) (d a : R6) : SlotSem :=
  vSem g (.vwid g code lane d a) [.v d] [.v a]
/-- `VWID` (R129). -/
def execVwid (g : VG) (code : BitVec 4) (lane : BitVec 2) (d a : R6) (s : State) : Out := .next (runSlot (vgW g) (semVwid g code lane d a) s)
def semVrcp (g : VG) (d a : R6) : SlotSem :=
  vSem g (.vrcp g d a) [.v d] [.v a]
/-- `VRCP` (R131). -/
def execVrcp (g : VG) (d a : R6) (s : State) : Out := .next (runSlot (vgW g) (semVrcp g d a) s)
def semVrsq (g : VG) (d a : R6) : SlotSem :=
  vSem g (.vrsq g d a) [.v d] [.v a]
/-- `VRSQ` (R131). -/
def execVrsq (g : VG) (d a : R6) (s : State) : Out := .next (runSlot (vgW g) (semVrsq g d a) s)
def semVexp2 (g : VG) (d a : R6) : SlotSem :=
  vSem g (.vexp2 g d a) [.v d] [.v a]
/-- `VEXP2` (R131). -/
def execVexp2 (g : VG) (d a : R6) (s : State) : Out := .next (runSlot (vgW g) (semVexp2 g d a) s)
def semVlog2 (g : VG) (d a : R6) : SlotSem :=
  vSem g (.vlog2 g d a) [.v d] [.v a]
/-- `VLOG2` (R131). -/
def execVlog2 (g : VG) (d a : R6) (s : State) : Out := .next (runSlot (vgW g) (semVlog2 g d a) s)
def semVsin (g : VG) (d a : R6) : SlotSem :=
  vSem g (.vsin g d a) [.v d] [.v a]
/-- `VSIN` (R131). -/
def execVsin (g : VG) (d a : R6) (s : State) : Out := .next (runSlot (vgW g) (semVsin g d a) s)
def semVcos (g : VG) (d a : R6) : SlotSem :=
  vSem g (.vcos g d a) [.v d] [.v a]
/-- `VCOS` (R131). -/
def execVcos (g : VG) (d a : R6) (s : State) : Out := .next (runSlot (vgW g) (semVcos g d a) s)
def semVtanh (g : VG) (d a : R6) : SlotSem :=
  vSem g (.vtanh g d a) [.v d] [.v a]
/-- `VTANH` (R131). -/
def execVtanh (g : VG) (d a : R6) (s : State) : Out := .next (runSlot (vgW g) (semVtanh g d a) s)
/-- The scalar register of a distance, and its capture (R132). -/
def distRegs (x : Dist) : List RR := match x with | .reg b => [.s b] | .imm _ => []
def distCap (x : Dist) (c : Ctx) (s : State) : PV := match x with | .reg b => (s.getA c.a).sGet b | .imm _ => PV.zero
def distW (x : Dist) : Nat := match x with | .reg _ => 0 | .imm _ => 1

def semVrotx (g : VG) (d a : R6) (x : Dist) : SlotSem :=
  vSem g (.vrotx g d a x) [.v d] (.v a :: distRegs x) (sc := distCap x)
/-- `VROTX` (R132). -/
def execVrotx (g : VG) (d a : R6) (x : Dist) (s : State) : Out := .next (runSlot (vgW g + distW x) (semVrotx g d a x) s)
def semVbcx (g : VG) (d a : R6) (x : Dist) : SlotSem :=
  vSem g (.vbcx g d a x) [.v d] (.v a :: distRegs x) (sc := distCap x)
/-- `VBCX` (R132). -/
def execVbcx (g : VG) (d a : R6) (x : Dist) (s : State) : Out := .next (runSlot (vgW g + distW x) (semVbcx g d a x) s)
def semVroty (g : VG) (d a : R6) (x : Dist) : SlotSem :=
  vSem g (.vroty g d a x) [.v d] (.v a :: distRegs x) (sc := distCap x)
/-- `VROTY` (R134). -/
def execVroty (g : VG) (d a : R6) (x : Dist) (s : State) : Out := .next (runSlot (vgW g + distW x) (semVroty g d a x) s)
def semVbcy (g : VG) (d a : R6) (x : Dist) : SlotSem :=
  vSem g (.vbcy g d a x) [.v d] (.v a :: distRegs x) (sc := distCap x)
/-- `VBCY` (R134). -/
def execVbcy (g : VG) (d a : R6) (x : Dist) (s : State) : Out := .next (runSlot (vgW g + distW x) (semVbcy g d a x) s)
/-- A slot in the wavefront whose push has not yet been handed to VSQ (R136). -/
def owesPush (now : Nat) (w : Wave) : Bool :=
  w.cap.dup == 0 && (match w.ins with
  | .vredx _ _ _ _ _ (some r) => decide (now ≤ w.cap.t + 1 + r.toNat)
  | .vredy _ _ _ _ _ (some _) => decide (now ≤ w.cap.t + 16)
  | _ => false)
/-- Entries VSQ holds plus pushes issued and not yet arrived (R136). -/
def vsqLoad (now : Nat) (x : Arr) : Nat :=
  x.sca.vsq.length + (x.sca.pend.filter fun e => match e.w with | .vsq _ => true | _ => false).length +
    (x.cel.waves.filter (owesPush now)).length
/-- The check of a push (R136). A push of an earlier slot of the bundle itself is not counted. DESIGN CHOICE (unsafe; notes/assumptions 53). -/
def pushTraps (p : Option R6) (c : Ctx) (s : State) : List Trap :=
  if p.isSome && decide (32 ≤ vsqLoad c.t (s.getA c.a)) then [trapBounds c.slot 1] else []
def pushW (p : Option R6) : Nat := if p.isSome then 1 else 0

def semVredx (g : VG) (op : BitVec 3) (t : VT) (d a : R6) (p : Option R6) : SlotSem :=
  { vSem g (.vredx g op t d a p) [.v d] [.v a] with own := pushTraps p }
/-- `VREDX` (R133, R136). -/
def execVredx (g : VG) (op : BitVec 3) (t : VT) (d a : R6) (p : Option R6) (s : State) : Out :=
  .next (runSlot (vgW g + pushW p) (semVredx g op t d a p) s)
def semVredy (g : VG) (op : BitVec 3) (t : VT) (d a : R6) (p : Option R6) : SlotSem :=
  { vSem g (.vredy g op t d a p) [.v d] [.v a] with own := pushTraps p }
/-- `VREDY` (R135, R136). -/
def execVredy (g : VG) (op : BitVec 3) (t : VT) (d a : R6) (p : Option R6) (s : State) : Out :=
  .next (runSlot (vgW g + pushW p) (semVredy g op t d a p) s)
def semVscanx (g : VG) (op : BitVec 3) (t : VT) (d a : R6) : SlotSem :=
  vSem g (.vscanx g op t d a) [.v d] [.v a]
/-- `VSCANX` (R133). -/
def execVscanx (g : VG) (op : BitVec 3) (t : VT) (d a : R6) (s : State) : Out := .next (runSlot (vgW g) (semVscanx g op t d a) s)
def semVscany (g : VG) (op : BitVec 3) (t : VT) (d a : R6) : SlotSem :=
  vSem g (.vscany g op t d a) [.v d] [.v a]
/-- `VSCANY` (R135). -/
def execVscany (g : VG) (op : BitVec 3) (t : VT) (d a : R6) (s : State) : Out := .next (runSlot (vgW g) (semVscany g op t d a) s)
def semVcrw (g : VG) (a : R6) : SlotSem :=
  vSem g (.vcrw g a) [] [.v a]
/-- `VCRW` (R137). -/
def execVcrw (g : VG) (a : R6) (s : State) : Out := .next (runSlot (vgW g) (semVcrw g a) s)
def semVcrn (g : VG) (d : R6) (wrap : Bool) : SlotSem :=
  vSem g (.vcrn g d wrap) [.v d] []
/-- `VCRN` (R138). -/
def execVcrn (g : VG) (d : R6) (wrap : Bool) (s : State) : Out := .next (runSlot (vgW g) (semVcrn g d wrap) s)
def semVcrs (g : VG) (d : R6) (wrap : Bool) : SlotSem :=
  vSem g (.vcrs g d wrap) [.v d] []
/-- `VCRS` (R138). -/
def execVcrs (g : VG) (d : R6) (wrap : Bool) (s : State) : Out := .next (runSlot (vgW g) (semVcrs g d wrap) s)
def semVcre (g : VG) (d : R6) (wrap : Bool) : SlotSem :=
  vSem g (.vcre g d wrap) [.v d] []
/-- `VCRE` (R138). -/
def execVcre (g : VG) (d : R6) (wrap : Bool) (s : State) : Out := .next (runSlot (vgW g) (semVcre g d wrap) s)
def semVcrwN (g : VG) (d : R6) (wrap : Bool) : SlotSem :=
  vSem g (.vcrwN g d wrap) [.v d] []
/-- `VCRWN` (R138). -/
def execVcrwN (g : VG) (d : R6) (wrap : Bool) (s : State) : Out := .next (runSlot (vgW g) (semVcrwN g d wrap) s)
/-- An entry of the active bank of the shuffle-pattern memory (R139). -/
def Arr.shEntry (x : Arr) (e : R6) : ShE := SMap.get ShE.zero x.cel.shp ((if x.cel.shAct then 64 else 0) + e.toNat)
def semVshuf (g : VG) (d a b e : R6) : SlotSem :=
  { vSem g (.vshuf g d a b e) [.v d] [.v a, .v b] (sh := fun c s => (s.getA c.a).shEntry e) with
    own := fun c s => if ((s.getA c.a).shEntry e).valid then [] else [trapOf .shpat c.slot] }
/-- `VSHUF` (R140). -/
def execVshuf (g : VG) (d a b e : R6) (s : State) : Out := .next (runSlot (vgW g + 1) (semVshuf g d a b e) s)

/-- The entries `SHPLD` reads: 64 bytes each, poisoned with any of their words (R141). -/
def shEntries (s : State) (a off n : Nat) : List ShE × State :=
  let x := s.getA a
  (List.range n).foldl (fun (l, s) i =>
    let o := x.localOff (off + 64 * i)
    let r := s.localRead a (off + 64 * i) 64
    (l ++ [⟨BitVec.ofNat 512 (s.readN (spadKey a o) 64), true, r.2.1⟩], r.2.2)) ([], s)

/-- `SHPLD`: read at T, written by T + 4 + n, in issue order (R141). DESIGN CHOICE (unsafe; notes/assumptions 52). -/
def semShpld (g : VG) (e : R6) (a : BitVec 4) (n : R6) : SlotSem :=
  { cls := .vector, gx := g.gx, chk := g.chk, regs := [.a a], srcs := [.a a], shld := true
    own := fun c s => let x := s.getA c.a; spadTraps x c.slot (x.aGet a) (x.aGet a).v 64 (64 * (n.toNat + 1)) true
    eff := fun c s =>
      let x := s.getA c.a
      let q := shEntries s c.a (x.spOff (x.aGet a).v) (n.toNat + 1)
      q.2.modA c.a fun x =>
        let due := max (c.t + 4 + (n.toNat + 1)) x.cel.shBusy
        (x.push due c.ord (.shLoad e.toNat q.1)).modCel fun z => { z with shBusy := due } }
/-- `SHPLD e, aa, n` (R141). -/
def execShpld (g : VG) (e : R6) (a : BitVec 4) (n : R6) (s : State) : Out := .next (runSlot (vgW g) (semShpld g e a n) s)

/-- `SHPSW`: the banks exchanged for bundles issued at T + 1 and later; SHPAT while a load has not completed (R142). -/
def semShpsw (g : VG) : SlotSem :=
  { cls := .vector, gx := g.gx, chk := g.chk
    own := fun c s => if c.shld || decide (c.t < (s.getA c.a).cel.shBusy) then [trapOf .shpat c.slot] else []
    eff := fun c s => wrX c .shSwap s }
/-- `SHPSW` (R142). -/
def execShpsw (g : VG) (s : State) : Out := .next (runSlot (vgW g) (semShpsw g) s)

def vflagSrc (k : VFlK) : List RR := match k with | .mask m => [.m m] | .notMask m => [.m m] | _ => []
def semVflag (g : VG) (k : VFlK) : SlotSem :=
  let m := vSem g (.vflag g k) [] (vflagSrc k)
  { m with eff := fun c s => (m.eff c s).modA c.a fun x => x.modCel fun e => { e with vflagAt := some c.t } }
/-- `VFLAG` (R16, R143). -/
def execVflag (g : VG) (k : VFlK) (s : State) : Out := .next (runSlot (vgW g) (semVflag g k) s)

/-- The effective address of a cell-memory access: off in units of `u` bytes (R144, R147). -/
def vEa (u : Nat) (a : BitVec 4) (off : Imm 28) (c : Ctx) (s : State) : Addr :=
  ((s.getA c.a).aGet a).v + off.v.signExtend 72 * BitVec.ofNat 72 u

def semVld (g : VG) (d : R6) (a : BitVec 4) (off : Imm 28) : SlotSem :=
  { vSem g (.vld g d a off) [.v d] [.a a] (ea := vEa 1024 a off) with
    own := fun c s => let x := s.getA c.a; spadTraps x c.slot (x.aGet a) (vEa 1024 a off c s) 1024 4096 true }
/-- `VLD` (R144, R145). -/
def execVld (g : VG) (d : R6) (a : BitVec 4) (off : Imm 28) (s : State) : Out :=
  .next (runSlot (vgW g + immW off) (semVld g d a off) s)

def semVst (g : VG) (v : R6) (a : BitVec 4) (off : Imm 28) : SlotSem :=
  { vSem g (.vst g v a off) [] [.v v, .a a] (ea := vEa 1024 a off) with
    own := fun c s => let x := s.getA c.a; spadTraps x c.slot (x.aGet a) (vEa 1024 a off c s) 1024 4096 false }
/-- `VST` (R144-R146). -/
def execVst (g : VG) (v : R6) (a : BitVec 4) (off : Imm 28) (s : State) : Out :=
  .next (runSlot (vgW g + immW off) (semVst g v a off) s)

/-- The checks of `VLDV` after INVREG (R147): POISONKILL, ALIGN, BOUNDS. -/
def vldvTraps (x : Arr) (slot : Nat) (aa : PA) (ea : Addr) : List Trap :=
  if aa.p then [trapOf .poisonkill slot]
  else if ea.toNat % 4096 ≠ 0 then [trapOf .align slot]
  else match x.tsk.ownOff 1 ea with
    | none => [trapBounds slot 0xFF]
    | some off => if x.tsk.inVault off 4096 then [] else [trapBounds slot 0xFF]
def semVldv (g : VG) (d : R6) (a : BitVec 4) (off : Imm 28) : SlotSem :=
  { vSem g (.vldv g d a off) [.v d] [.a a] (ea := vEa 4096 a off) with
    own := fun c s => let x := s.getA c.a; vldvTraps x c.slot (x.aGet a) (vEa 4096 a off c s) }
/-- `VLDV` (R147). -/
def execVldv (g : VG) (d : R6) (a : BitVec 4) (off : Imm 28) (s : State) : Out :=
  .next (runSlot (vgW g + immW off) (semVldv g d a off) s)

def semVrdacc (g : VG) (d : R6) (acc : BitVec 3) (j : BitVec 5) : SlotSem :=
  { vSem g (.vrdacc g d acc j) [.v d] [.acc acc] with
    own := fun c s => if (s.getA c.a).mat.cmds.any (·.writesAcc acc.toNat) then [trapOf .accbusy c.slot] else [] }
/-- `VRDACC` (R148, R171). -/
def execVrdacc (g : VG) (d : R6) (acc : BitVec 3) (j : BitVec 5) (s : State) : Out :=
  .next (runSlot (vgW g) (semVrdacc g d acc j) s)

def semVwracc (g : VG) (acc : BitVec 3) (v : R6) (j : BitVec 5) : SlotSem :=
  { vSem g (.vwracc g acc v j) [.acc acc] [.v v] with
    own := fun c s => if (s.getA c.a).mat.cmds.any (fun m => m.writesAcc acc.toNat || m.readsAcc acc.toNat)
      then [trapOf .accbusy c.slot] else [] }
/-- `VWRACC` (R148, R171). -/
def execVwracc (g : VG) (acc : BitVec 3) (v : R6) (j : BitVec 5) (s : State) : Out :=
  .next (runSlot (vgW g) (semVwracc g acc v j) s)

/-! ## The west loader in wavefront mode (R19, R207) -/

/-- `LDW.WF`: every cell is written, whatever the selectors; visible at T + 4 + r. -/
def semLdwWf (g : CG) (d : R6) (a : BitVec 4) (off : Imm 28) : SlotSem :=
  { cls := .copy, pg := g.p, gx := g.gx, regs := [.v d, .a a], srcs := [.a a]
    own := fun c s => let x := s.getA c.a; spadTraps x c.slot (x.aGet a) (vEa 1024 a off c s) 1024 4096 true
    eff := fun c s =>
      let x := s.getA c.a
      enterWave (.ldwWf g d a off)
        { capOf ⟨0#2, false, none⟩ c x PV.zero (vEa 1024 a off c s) ShE.zero with dup := 0 } [.v d] c s }
/-- `LDW.WF vd, [aa + off]` (R207). -/
def execLdwWf (g : CG) (d : R6) (a : BitVec 4) (off : Imm 28) (s : State) : Out :=
  .next (runSlot (cgW g + immW off) (semLdwWf g d a off) s)

end Sys2Proof.Machine
end

