-- ==== Sys2Proof/Machine/Copy.lean ====
section
/-! DEFINITION. The copy-and-network slots that copy, and those that act at issue: spec/07_movement.md R186-R208, with the
issue of a command (R186, R189, R194, R204) that the network slots share. -/

namespace Sys2Proof.Machine

open Sys2Proof

/-! ## Shared checks -/

/-- A copy slot (R65, R186): guards, registers named and read, own checks, effect. -/
def cSem (g : CG) (regs srcs : List RR) (own : Ctx → State → List Trap) (eff : Ctx → State → State) : SlotSem :=
  { cls := .copy, pg := g.p, gx := g.gx, regs := regs, srcs := srcs, own := own, eff := eff }

/-- The checks of a record of `n` bytes read from the own scratchpad through an address register (R155, R188 orders 2 to 6). -/
def recTraps (c : Ctx) (s : State) (a : BitVec 4) (align n : Nat) : List Trap :=
  let x := s.getA c.a
  match spadTraps x c.slot (x.aGet a) (x.aGet a).v align n true with
  | [] => if s.spadPoisN c.a (x.localOff (x.spOff (x.aGet a).v)) n then [trapOf .poisonkill c.slot] else []
  | l => l
/-- The record, as a load of its bundle. -/
def recBits (c : Ctx) (s : State) (a : BitVec 4) (n : Nat) : Nat :=
  let x := s.getA c.a
  s.readN (spadKey c.a (x.localOff (x.spOff (x.aGet a).v))) n
/-- The corrections that the read of a record makes (R302). -/
def recRead (c : Ctx) (a : BitVec 4) (n : Nat) (s : State) : State :=
  (s.localRead c.a ((s.getA c.a).spOff ((s.getA c.a).aGet a).v) n).2.2

/-! ## Heads of descriptors (R200) -/

def hTds (d : BitVec 1024) : Nat := fld d 7 0
def hTdd (d : BitVec 1024) : Nat := fld d 15 8
def hBr (d : BitVec 1024) : Nat := fld d 18 16
def hScb (d : BitVec 1024) : Bool := bitAt d 19
def hScbi (d : BitVec 1024) : Nat := fld d 23 20
def hDcb (d : BitVec 1024) : Bool := bitAt d 24
def hDcbi (d : BitVec 1024) : Nat := fld d 28 25
def hUi (d : BitVec 1024) : Bool := bitAt d 29
def hPost (d : BitVec 1024) : Nat := fld d 34 32

/-- The head's reserved bits and the fields the instruction does not use are 0, and POST is a post code. DEDUCED (unsafe; notes/assumptions 27). -/
def headOk (d : BitVec 1024) (tds tdd br cb : Bool) : Bool :=
  fld d 31 30 == 0 && fld d 63 35 == 0 && hPost d != 7 && (tds || hTds d == 0) && (tdd || hTdd d == 0) && (br || hBr d == 0) &&
  (hScb d || hScbi d == 0) && (hDcb d || hDcbi d == 0) && (cb || (!hScb d && !hDcb d))

/-- The queue code (R67) of a post code, if any (R187): `ql0`, `ql1`, then `qn0` to `qn3`. -/
def postHead (p : Nat) : Option Nat := if p = 0 then none else if p ≤ 2 then some (p + 5) else some (p - 1)

/-! ## Commands -/

/-- A command that has passed its own checks: what it captures, its spans in the own scratchpad (offset, bytes, whether read),
the ring slots it takes, what it adds to a counter of collectives, whether it is a frame command, whose span is every tile (R223), and
what its issue changes beside. -/
structure CPrep where
  kind : CKind
  desc : BitVec 1024 := 0
  tds : BitVec 1024 := 0
  tdd : BitVec 1024 := 0
  spans : List (Nat × Nat × Bool) := []
  post : Nat := 0
  ui : Bool := false
  scb : Option Nat := none
  dcb : Option Nat := none
  coll : Option Nat := none
  frame : Bool := false
  more : Ctx → State → State := fun _ s => s

/-- Checks 10 to 12 of R188: spans, rings, reply head, command queue; owner bits; valid bits. -/
def CPrep.traps (c : Ctx) (x : Arr) (p : CPrep) : List Trap :=
  let y := x.cpy
  let full (q : Nat) : Bool := decide (8 ≤ (SMap.get [] x.sca.heads q).length)
  if p.spans.any fun e => !p.frame && !x.tsk.inAlloc e.1 e.2.1 then [trapBounds c.slot 0xFF]
  else match p.scb, p.dcb, postHead p.post with
    | scb, dcb, q =>
      if (scb.map fun k => let b := SMap.get CBuf.none y.cb k; b.ful - b.tk == 0#32).getD false then [trapBounds c.slot 0xFF]
      else if (dcb.map fun k => let b := SMap.get CBuf.none y.cb k; decide (b.slots ≤ (b.res - b.con).toNat)).getD false then
        [trapBounds c.slot 0xFF]
      else if (q.map full).getD false then [trapBounds c.slot (q.getD 0)]
      else if 16 ≤ y.cmds.length then [trapBounds c.slot 0x11]
      else if p.spans.any fun e => x.anyEngine (x.tilesOf e.1 e.2.1) then [trapOf .tbusy c.slot]
      else if p.spans.any fun e => e.2.2 && x.anyInvalid (x.tilesOf e.1 e.2.1) then [trapOf .invtile c.slot]
      else []

/-- A ring's counter moved by an issue. -/
def takeSlot (src : Bool) (k : Nat) (y : Cpy) : Cpy :=
  { y with cb := SMap.mod CBuf.none y.cb k fun b => if src then { b with tk := b.tk + 1 } else { b with res := b.res + 1 } }

/-- The issue of a command (R186, R189, R194, R204): sequence number, reservation, tiles, ring slots. -/
def CPrep.issue (c : Ctx) (p : CPrep) (s : State) : State :=
  let x := s.getA c.a
  let y := x.cpy
  let tiles := (p.spans.flatMap fun e => x.tilesOf e.1 e.2.1).dedup
  let ring (src : Bool) (k : Nat) : Nat × Nat :=
    let b := SMap.get CBuf.none y.cb k
    (k, (if src then b.tk else b.res).toNat)
  let cmd : CCmd :=
    { seq := y.seq, n := y.nissue, kind := p.kind, desc := p.desc, tds := p.tds, tdd := p.tdd, tr := x.trCap, tiles := tiles,
      post := p.post, ui := p.ui, scb := p.scb.map (ring true), dcb := p.dcb.map (ring false), t := c.t,
      nth := (p.coll.map fun k => SMap.get 0 y.coll k).getD 0, lbuf := [], plan := none, count := 0, oob := false, ovf := false,
      empty := false, fault := false, pz := false, arrived := false, whole := false, park := none, inord := false, old := none }
  let s := match postHead p.post with
    | some q => let k := q + 8 * (SMap.get [] x.sca.heads q).length; s.regsNew c.a 10 k (k + 1)
    | none => s
  let s := s.modA c.a fun x =>
    let x := (x.setOwn tiles true).modCpy fun y =>
      let y := { y with seq := y.seq + 1, nissue := y.nissue + 1, cmds := y.cmds ++ [cmd] }
      let y := (p.scb.map fun k => takeSlot true k y).getD y
      let y := (p.dcb.map fun k => takeSlot false k y).getD y
      (p.coll.map fun k => { y with coll := SMap.mod 0 y.coll k (· + 1) }).getD y
    let x := match postHead p.post with
      | some q => x.modSca fun r => { r with heads := SMap.mod [] r.heads q fun l => l ++ [(⟨cmd.seq, none⟩ : RQ)] }
      | none => x
    x.count 17 1
  p.more c s

/-- The translations of addresses that a check looks up (R281, R289, R296). -/
def lookAll (acc : Nat) (l : List Addr) (c : Ctx) (s : State) : State :=
  l.foldl (fun (s : State) v => s.warm c.a (s.getA c.a).trCap v acc) s
/-- A command slot: its preparation gives the first failing check of orders 3 to 10 or the command; `look`: the
addresses that its checks look up for an access of kind `acc`, once those before them have passed. -/
def cmdSem (g : CG) (regs srcs : List RR) (pre : Ctx → State → List Trap) (prep : Ctx → State → Except Trap CPrep)
    (pf : Ctx → State → Option State := fun _ _ => none) (look : Ctx → State → List Addr := fun _ _ => []) (acc : Nat := 0) : SlotSem :=
  { cSem g regs srcs
      (fun c s =>
        match pre c s with
        | [] =>
          (match prep c s with
          | .error t => [t]
          | .ok p => p.traps c (s.getA c.a))
        | l => l)
      (fun c s =>
        match prep c s with
        | .error _ => s
        | .ok p => p.issue c s) with
    pf := pf, look := fun c s => lookAll acc (match pre c s with | [] => look c s | _ => []) c s }

/-- The state in which an issue check that met a page fault parks the task (R296). -/
def parkIssue (c : Ctx) (va : Addr) (s : State) : State :=
  let x := s.getA c.a
  (s.taskFault x.tsk c.a x.trCap va 1 0 (match s.locatePure c.a x.trCap va 1 0 with | .bad _ l => l | _ => 0) 3 0).modA c.a fun x =>
    x.modTsk fun k => { k with stop := match k.stop with | .no => .park | o => o }

/-! ## Sides of a copy -/

/-- The address of a ring's slot `n` (R203). -/
def CBuf.slotOff (x : Arr) (b : CBuf) (n : Nat) : Nat := b.off + n % max 1 b.slots * (b.zt * x.tileSize)
/-- An on-chip address of the own scratchpad. -/
def ownAddr (off : Nat) : Addr := BitVec.ofNat 72 (0xFF * 2 ^ 64 + off)

/-- A side of a command with its ring slot: entry image with the slot as its base, and the slot's bytes. -/
def sideOf (x : Arr) (img : BitVec 1024) (src : Bool) (cb : Option Nat) : BitVec 1024 × Option (Nat × Nat) :=
  match cb with
  | none => (img, none)
  | some k =>
    let b := SMap.get CBuf.none x.cpy.cb k
    let off := b.slotOff x (if src then b.tk else b.res).toNat
    (tdWithBase img (ownAddr off), some (off, b.zt * x.tileSize))

/-- The own-scratchpad spans of a side; `none` when one leaves the address form or the ring slot. -/
def sideSpans (x : Arr) (ranges : List (Addr × Nat)) (src : Bool) (slot : Option (Nat × Nat)) : Option (List (Nat × Nat × Bool)) :=
  let own := ranges.filterMap fun e => x.ownSpan e.1 e.2
  match slot with
  | none => if own.any (·.isNone) then none else some ((own.filterMap id).map fun e => (e.1, e.2, src))
  | some (off, n) =>
    if own.any (·.isNone) || own.length != ranges.length ||
        (own.filterMap id).any fun e => !(decide (off ≤ e.1) && decide (e.1 + e.2 ≤ off + n)) then none
    else some ((off, n, false) :: (own.filterMap id).map fun e => (e.1, e.2, src))

/-- A configured ring of the direction a side needs (R188 order 8): drain for a source, fill for a destination. -/
def ringOk (x : Arr) (src : Bool) (cb : Option Nat) : Bool :=
  match cb with
  | none => true
  | some k => let b := SMap.get CBuf.none x.cpy.cb k; b.on && b.dir == src

/-! ## CPY and CPYM (R200, R201, R208) -/

def boxS (d : BitVec 1024) (k : Nat) : Int := fldS d (64 + 32 * k + 31) (64 + 32 * k)
def boxD (d : BitVec 1024) (k : Nat) : Int := fldS d (288 + 32 * k + 31) (288 + 32 * k)
def boxN (d : BitVec 1024) (k : Nat) : Nat := fld d (512 + 32 * k + 31) (512 + 32 * k)
/-- Origins and edges of a box on one side, by dimension of its entry. -/
def boxRange (d : BitVec 1024) (org : BitVec 1024 → Nat → Int) (rank : Nat) : List (Int × Int) :=
  (List.range rank).map fun k => (org d k, org d k + (if k < hBr d then (boxN d k : Int) - 1 else 0))

/-- The box's groups of 16 begin at block boundaries of an entry (R201). -/
def boxBlocks (d : BitVec 1024) (td : BitVec 1024) (org : BitVec 1024 → Nat → Int) : Bool :=
  let k := tdOrd td
  decide (k ≤ 1) && org d k % 16 == 0 && (decide (hBr d ≤ k) || boxN d k % 16 == 0) && decide (k < hBr d) &&
  tdPos td ((List.range (tdRank td)).map (org d)) % 16 == 0 &&
  (List.range (min (hBr d) (tdRank td))).all fun j => j == k || boxN d j == 1 || tdShare td j 1 % 16 == 0

/-- The fields of a box descriptor are in range (R200, R201, R208). -/
def boxOk (d tds tdd : BitVec 1024) (mc : Bool) : Bool :=
  headOk d true true true true && decide (1 ≤ hBr d) && decide (1 ≤ tdRank tds) && decide (1 ≤ tdRank tdd) &&
  decide (hBr d ≤ tdRank tds) && decide (hBr d ≤ tdRank tdd) && tdFmt tds == tdFmt tdd &&
  (if mc then fld d 1023 784 == 0 else fld d 1023 736 == 0) &&
  (List.range 7).all (fun k => if k < hBr d then boxN d k != 0 else boxS d k == 0 && boxD d k == 0 && boxN d k == 0) &&
  (!fmtPlanes (tdFmt tds) || (tdOrd tds == tdOrd tdd && boxBlocks d tds boxS && boxBlocks d tdd boxD))

/-- The preparation shared by the copies: entries, ring slots, spans of both sides, the list. -/
def copySides (c : Ctx) (x : Arr) (kind : CKind) (d : BitVec 1024) (rs rd : BitVec 1024 → List (Int × Int)) (doff : Nat)
    (lists : List (Nat × Nat)) : Except Trap CPrep :=
  let scb := if hScb d then some (hScbi d) else none
  let dcb := if hDcb d then some (hDcbi d) else none
  if !ringOk x true scb || !ringOk x false dcb then .error (trapOf .cbcfg c.slot)
  else
    let (ts, ss) := sideOf x (SMap.get 0 x.cpy.tdt (hTds d)) true scb
    let (td, sd) := sideOf x (SMap.get 0 x.cpy.tdt (hTdd d)) false dcb
    match sideSpans x (tdSpan ts false (rs ts)) true ss, sideSpans x (tdSpan td true (rd td)) false sd with
    | some a, some b =>
      .ok { kind := kind, desc := d, tds := ts, tdd := td,
            spans := (doff, 128, true) :: lists.map (fun e => (e.1, e.2, true)) ++ a ++ b,
            post := hPost d, ui := hUi d, scb := scb, dcb := dcb }
    | _, _ => .error (trapBounds c.slot 0xFF)

/-- The 128-byte descriptor at an address register. -/
def descOf (c : Ctx) (s : State) (a : BitVec 4) : BitVec 1024 := BitVec.ofNat 1024 (recBits c s a 128)
/-- The offset of the descriptor. -/
def descOff (c : Ctx) (s : State) (a : BitVec 4) : Nat := (s.getA c.a).spOff ((s.getA c.a).aGet a).v
/-- The corrections of the descriptor read, made as the command issues. -/
def withRead (a : BitVec 4) (r : Except Trap CPrep) : Except Trap CPrep :=
  match r with
  | .error t => .error t
  | .ok p => .ok { p with more := fun c s => recRead c a 128 (p.more c s) }

def prepCpy (a : BitVec 4) (c : Ctx) (s : State) : Except Trap CPrep :=
  let x := s.getA c.a
  let d := descOf c s a
  if !boxOk d (SMap.get 0 x.cpy.tdt (hTds d)) (SMap.get 0 x.cpy.tdt (hTdd d)) false then .error (trapOf .mtype c.slot)
  else withRead a (copySides c x .cpy d (fun t => boxRange d boxS (tdRank t)) (fun t => boxRange d boxD (tdRank t)) (descOff c s a) [])
def semCpy (g : CG) (a : BitVec 4) : SlotSem := cmdSem g [.a a] [.a a] (fun c s => recTraps c s a 128 128) (prepCpy a)
/-- `CPY aa` (R200, R201). -/
def execCpy (g : CG) (a : BitVec 4) (s : State) : Out := .next (runSlot (cgW g) (semCpy g a) s)

/-! ## CPYG and CPYS (R202) -/

def lstOff (d : BitVec 1024) : Nat := fld d 95 64
def lstCount (d : BitVec 1024) : Nat := fld d 127 96
def pDim (d : BitVec 1024) : Nat := fld d 130 128
def pOrg (d : BitVec 1024) (k : Nat) : Int := fldS d (160 + 32 * k + 31) (160 + 32 * k)
/-- Gather block extent of the listed entry; 1 beyond its rank. -/
def gbOf (lt : BitVec 1024) (k : Nat) : Int := if k < tdRank lt then tdGb lt k else 1
/-- Listed coordinates that in-range entries can reach. -/
def listedBox (lt : BitVec 1024) : List (Int × Int) :=
  (List.range (tdRank lt)).map fun k => (0, (tdExt lt k + tdGb lt k - 1) / tdGb lt k * tdGb lt k - 1)
/-- Packed coordinates that the entries can reach. -/
def packedBox (d lt pt : BitVec 1024) : List (Int × Int) :=
  (List.range (tdRank pt)).map fun k =>
    (pOrg d k, pOrg d k + gbOf lt k - 1 + (if k = pDim d then ((lstCount d : Int) - 1) * gbOf lt (pDim d) else 0))

def prepGs (gather : Bool) (a : BitVec 4) (c : Ctx) (s : State) : Except Trap CPrep :=
  let x := s.getA c.a
  let d := descOf c s a
  let ts := SMap.get 0 x.cpy.tdt (hTds d)
  let td := SMap.get 0 x.cpy.tdt (hTdd d)
  let pt := if gather then td else ts
  if !(headOk d true true false true && decide (1 ≤ tdRank ts) && decide (1 ≤ tdRank td) && tdFmt ts == tdFmt td &&
      !fmtPlanes (tdFmt ts) && fld d 1023 384 == 0 && fld d 159 131 == 0 && decide (pDim d < tdRank pt) &&
      decide (1 ≤ lstCount d ∧ lstCount d ≤ 2 ^ 20) && lstOff d % 16 == 0) then .error (trapOf .mtype c.slot)
  else withRead a (copySides c x (if gather then .cpyg else .cpys) d
    (fun t => if gather then listedBox t else packedBox d td t) (fun t => if gather then packedBox d ts t else listedBox t)
    (descOff c s a) [(lstOff d, 16 * lstCount d)])
def semCpyg (g : CG) (a : BitVec 4) : SlotSem := cmdSem g [.a a] [.a a] (fun c s => recTraps c s a 128 128) (prepGs true a)
/-- `CPYG aa` (R202). -/
def execCpyg (g : CG) (a : BitVec 4) (s : State) : Out := .next (runSlot (cgW g) (semCpyg g a) s)
def semCpys (g : CG) (a : BitVec 4) : SlotSem := cmdSem g [.a a] [.a a] (fun c s => recTraps c s a 128 128) (prepGs false a)
/-- `CPYS aa` (R202). -/
def execCpys (g : CG) (a : BitVec 4) (s : State) : Out := .next (runSlot (cgW g) (semCpys g a) s)

/-! ## CPYM (R208) -/

def mcMask (d : BitVec 1024) : BitVec 32 := d.extractLsb' 736 32
def mcWin (d : BitVec 1024) : Nat := fld d 783 768
/-- The bytes of a multicast read's source from its first to its last; `none` when no coordinate is valid. -/
def mcSpan (d ts : BitVec 1024) : Option (Nat × Nat) :=
  match tdSpan ts false (boxRange d boxS (tdRank ts)) with
  | [] => none
  | r :: rs =>
    let lo := rs.foldl (fun m e => min m e.1.toNat) r.1.toNat
    let hi := rs.foldl (fun m e => max m (e.1.toNat + e.2)) (r.1.toNat + r.2)
    some (lo, hi - lo)

/-- The checks of `CPYM` before its source is looked up: the command, and the source's first address and bytes if there is one. -/
def cpymPre (a : BitVec 4) (c : Ctx) (s : State) : Except Trap (CPrep × Option (Nat × Nat)) :=
  let x := s.getA c.a
  let d := descOf c s a
  let ts := SMap.get 0 x.cpy.tdt (hTds d)
  let td := SMap.get 0 x.cpy.tdt (hTdd d)
  if !boxOk d ts td true then .error (trapOf .mtype c.slot)
  else match copySides c x .cpym d (fun t => boxRange d boxS (tdRank t)) (fun t => boxRange d boxD (tdRank t)) (descOff c s a) [] with
    | .error t => .error t
    | .ok p =>
      let out := tdSpan p.tdd true (boxRange d boxD (tdRank p.tdd))
      if out.any (fun e => (x.ownSpan e.1 e.2).isNone) || !bitAt (mcMask d) (c.a % 32) then .error (trapBounds c.slot 0xFF)
      else match mcSpan d p.tds with
        | none => .ok (p, none)
        | some (lo, n) =>
          if lo / 2 ^ 64 % 256 = 0xFF ∨ lo / 8192 ≠ (lo + n - 1) / 8192 then .error (trapBounds c.slot 0xFF) else .ok (p, some (lo, n))
def prepCpym (a : BitVec 4) (c : Ctx) (s : State) : Except Trap CPrep :=
  match cpymPre a c s with
  | .error t => .error t
  | .ok (p, none) => withRead a (.ok p)
  | .ok (p, some (lo, _)) =>
    match s.locatePure c.a (s.getA c.a).trCap (BitVec.ofNat 72 lo) 1 0 with
    | .bad 1 _ => withRead a (.ok p)
    | .bad _ _ => .error (trapOf .tfault c.slot)
    | .ok (.phys pa) => if spaceOf pa < 2 then withRead a (.ok p) else .error (trapBounds c.slot 0xFF)
    | _ => .error (trapBounds c.slot 0xFF)
def semCpym (g : CG) (a : BitVec 4) : SlotSem :=
  cmdSem g [.a a] [.a a] (fun c s => recTraps c s a 128 128) (prepCpym a) (fun c s =>
    match cpymPre a c s with
    | .ok (_, some (lo, _)) =>
      (match s.locatePure c.a (s.getA c.a).trCap (BitVec.ofNat 72 lo) 1 0 with
      | .bad 1 _ => some (parkIssue c (BitVec.ofNat 72 lo) s)
      | _ => none)
    | _ => none) fun c s => match cpymPre a c s with
      | .ok (_, some (lo, _)) => [BitVec.ofNat 72 lo]
      | _ => []
/-- `CPYM aa` (R208): the issue; the request travels to the home slice afterwards. -/
def execCpym (g : CG) (a : BitVec 4) (s : State) : Out := .next (runSlot (cgW g) (semCpym g a) s)

/-! ## Load-blocks (R206) -/

/-- Tags that no load-block holds. -/
def freeTags (x : Arr) : List Nat := (List.range 64).filter fun t => !(SMap.get LBlk.none x.cpy.lb t).held
/-- Lines of a load-block. -/
def LBlk.keys (b : LBlk) : List Nat := (List.range b.lines).map (· + b.pa / 128)

/-- The claim: one of the free tags (which one is a free value), the missing lines being filled (R206). -/
def lblkClaim (d : R6) (pa n : Nat) (c : Ctx) (s : State) : State :=
  let x := s.getA c.a
  let fr := freeTags x
  let (w, s) := s.draw
  let tag := fr[w.toNat % fr.length]?.getD 0
  let b : LBlk := ⟨true, pa, n, false, false, x.cpy.seq - 1⟩
  let miss := b.keys.filter fun k => SMap.get 0 s.line k == 0
  let s := b.keys.foldl State.claimLine s
  let b := { b with ready := b.keys.all fun k => SMap.get 0 s.line k == 2 }
  let s := s.modA c.a fun x =>
    ((x.modCpy fun y =>
      { y with lb := SMap.set LBlk.none y.lb tag b,
               cmds := y.cmds.map fun m => if m.seq = b.seq then { m with kind := .lblk tag } else m }).count 22 1).count 8 miss.length
  wrS c 1 d ⟨BitVec.ofNat 64 tag, false⟩ s

/-- The span of a load-block leaves its 8 KiB region, or lies on the chip. -/
def lblkOut (ea : Addr) (n : R6) : Bool :=
  decide (ea.toNat / 8192 ≠ (ea.toNat + 128 * (n.toNat + 1) - 1) / 8192) || ea.extractLsb' 64 8 == 0xFF#8
def prepLblk (d : R6) (a : BitVec 4) (n : R6) (c : Ctx) (s : State) : Except Trap CPrep :=
  let x := s.getA c.a
  let ea := (x.aGet a).v
  if lblkOut ea n then .error (trapBounds c.slot 0xFF)
  else
    let go (pa : Nat) : Except Trap CPrep :=
      if (freeTags x).isEmpty then .error (trapBounds c.slot 0x12)
      else .ok { kind := .lblk 0, more := lblkClaim d pa (n.toNat + 1) }
    match s.locatePure c.a x.trCap ea 1 0 with
    | .bad 1 _ => go 0
    | .bad _ _ => .error (trapOf .tfault c.slot)
    | .ok (.phys pa) => if spaceOf pa < 2 then go pa else .error (trapBounds c.slot 0xFF)
    | _ => .error (trapBounds c.slot 0xFF)
def semLblk (g : CG) (d : R6) (a : BitVec 4) (n : R6) : SlotSem :=
  cmdSem g [.s d, .a a] [.a a] (fun c s =>
      let v := (s.getA c.a).aGet a
      if v.p then [trapOf .poisonkill c.slot] else if v.v.toNat % 128 ≠ 0 then [trapOf .align c.slot] else [])
    (prepLblk d a n) (fun c s =>
      let x := s.getA c.a
      match s.locatePure c.a x.trCap (x.aGet a).v 1 0 with
      | .bad 1 _ => some (parkIssue c (x.aGet a).v s)
      | _ => none) fun c s => let ea := ((s.getA c.a).aGet a).v; if lblkOut ea n then [] else [ea]
/-- `LBLK sd, [aa], n` (R206). DESIGN CHOICE (unsafe; notes/assumptions 36). -/
def execLblk (g : CG) (d : R6) (a : BitVec 4) (n : R6) (s : State) : Out := .next (runSlot (cgW g) (semLblk g d a n) s)

/-- A load-block released: its tag is free at once, or when its fill has completed; lines no block holds are ordinary again. -/
def releaseTag (a tag : Nat) (s : State) : State :=
  let b := SMap.get LBlk.none (s.getA a).cpy.lb tag
  if !b.held then s
  else if !b.ready then
    s.modA a fun x => x.modCpy fun y => { y with lb := SMap.set LBlk.none y.lb tag { b with rel := true } }
  else
    let s := s.modA a fun x => x.modCpy fun y => { y with lb := SMap.set LBlk.none y.lb tag LBlk.none }
    let heldBy (k : Nat) : Bool := s.arr.any fun e => e.2.cpy.lb.any fun l => l.2.held && l.2.keys.contains k
    { s with line := b.keys.foldl (fun m k => if heldBy k then m else SMap.set 0 m k 3) s.line }

def semLblkRel (g : CG) (b : R6) : SlotSem :=
  cSem g [.s b] [.s b] (fun c s =>
      let x := s.getA c.a
      let v := x.sGet b
      if v.p then [trapOf .poisonkill c.slot]
      else
        let t := SMap.get LBlk.none x.cpy.lb v.v.toNat
        if 64 ≤ v.v.toNat ∨ t.held = false ∨ t.rel = true then [trapBounds c.slot 0x12] else [])
    fun c s => releaseTag c.a ((s.getA c.a).sGet b).v.toNat s
/-- `LBLK.rel sb` (R206). -/
def execLblkRel (g : CG) (b : R6) (s : State) : Out := .next (runSlot (cgW g) (semLblkRel g b) s)

/-! ## Circular buffers (R203-R205) -/

/-- The image of a circular buffer (R203). -/
def cbOf (v : BitVec 128) : CBuf := ⟨true, bitAt v 48, fld v 47 40, fld v 39 32, fld v 31 0, 0, 0, 0, 0, []⟩
/-- Its fields are in range. -/
def cbOk (tile : Nat) (v : BitVec 128) : Bool :=
  let b := cbOf v
  fld v 127 49 == 0 && decide (1 ≤ b.zt ∧ b.zt ≤ 64) && decide (1 ≤ b.slots ∧ b.slots ≤ 64) && b.off % tile == 0
/-- Bytes of a ring. -/
def CBuf.size (tile : Nat) (b : CBuf) : Nat := b.slots * b.zt * tile

def semCbcfg (g : CG) (cb a : BitVec 4) : SlotSem :=
  cSem g [.a a] [.a a] (fun c s =>
      let x := s.getA c.a
      match recTraps c s a 16 16 with
      | [] =>
        let v := BitVec.ofNat 128 (recBits c s a 16)
        let b := cbOf v
        let old := SMap.get CBuf.none x.cpy.cb cb.toNat
        let n := b.size x.tileSize
        if !cbOk x.tileSize v then [trapOf .mtype c.slot]
        else if (old.on && x.anyEngine (x.tilesOf old.off (old.size x.tileSize))) ||
            x.cpy.cb.any (fun e => decide (e.1 ≠ cb.toNat) && e.2.on && decide (e.2.off < b.off + n) &&
              decide (b.off < e.2.off + e.2.size x.tileSize)) then [trapOf .cbcfg c.slot]
        else if !x.tsk.inAlloc b.off n then [trapBounds c.slot 0xFF] else []
      | l => l)
    fun c s =>
      let b := cbOf (BitVec.ofNat 128 (recBits c s a 16))
      (recRead c a 16 s).modA c.a fun x => x.modCpy fun y => { y with cb := SMap.set CBuf.none y.cb cb.toNat b }
/-- `CBCFG cbn, aa` (R203). -/
def execCbcfg (g : CG) (cb a : BitVec 4) (s : State) : Out := .next (runSlot (cgW g) (semCbcfg g cb a) s)

def semCbw (g : CG) (wd : BitVec 4) (kind : Bool) (cb : BitVec 4) (n : R6) : SlotSem :=
  cSem g [] [] (fun c s =>
      if (SMap.get CBuf.none (s.getA c.a).cpy.cb cb.toNat).on then [] else [trapOf .cbcfg c.slot])
    fun c s => s.modA c.a fun x => x.modCpy fun y =>
      { y with wd := SMap.set WDesc.none y.wd wd.toNat ⟨true, cb, kind, n.toNat + 1⟩ }
/-- `CBW wdw, cbn, kind, count` (R205). -/
def execCbw (g : CG) (wd : BitVec 4) (kind : Bool) (cb : BitVec 4) (n : R6) (s : State) : Out :=
  .next (runSlot (cgW g) (semCbw g wd kind cb n) s)

def semCbadvP (g : CG) (cb : BitVec 4) (n : R6) : SlotSem :=
  cSem g [] [] (fun c s =>
      let b := SMap.get CBuf.none (s.getA c.a).cpy.cb cb.toNat
      if !b.on || !b.dir then [trapOf .cbcfg c.slot]
      else if b.slots - (b.ful - b.con).toNat < n.toNat + 1 then [trapBounds c.slot 0xFF] else [])
    fun c s => s.modA c.a fun x => x.modCpy fun y =>
      { y with cb := SMap.mod CBuf.none y.cb cb.toNat fun b => { b with ful := b.ful + BitVec.ofNat 32 (n.toNat + 1) } }
/-- `CBADV.p cb, n` (R204). -/
def execCbadvP (g : CG) (cb : BitVec 4) (n : R6) (s : State) : Out := .next (runSlot (cgW g) (semCbadvP g cb n) s)

def semCbadvC (g : CG) (cb : BitVec 4) (n : R6) : SlotSem :=
  cSem g [] [] (fun c s =>
      let b := SMap.get CBuf.none (s.getA c.a).cpy.cb cb.toNat
      if !b.on || b.dir then [trapOf .cbcfg c.slot]
      else if (b.ful - b.con).toNat < n.toNat + 1 then [trapBounds c.slot 0xFF] else [])
    fun c s => s.modA c.a fun x => x.modCpy fun y =>
      { y with cb := SMap.mod CBuf.none y.cb cb.toNat fun b => { b with con := b.con + BitVec.ofNat 32 (n.toNat + 1) } }
/-- `CBADV.c cb, n` (R204). -/
def execCbadvC (g : CG) (cb : BitVec 4) (n : R6) (s : State) : Out := .next (runSlot (cgW g) (semCbadvC g cb n) s)

/-! ## Tensor entries (R198) -/

def semTdset (g : CG) (td : BitVec 8) (a : BitVec 4) : SlotSem :=
  cSem g [.a a] [.a a] (fun c s =>
      match recTraps c s a 128 128 with
      | [] => if tdOk (descOf c s a) then [] else [trapOf .mtype c.slot]
      | l => l)
    fun c s => wrX c (.td td.toNat (descOf c s a)) (recRead c a 128 s)
/-- `TDSET tdi, aa` (R198): entry i for commands issued at T + 1 and later. -/
def execTdset (g : CG) (td : BitVec 8) (a : BitVec 4) (s : State) : Out := .next (runSlot (1 + cgW g) (semTdset g td a) s)

def semTdget (g : CG) (td : BitVec 8) (a : BitVec 4) : SlotSem :=
  cSem g [.a a] [.a a] (fun c s =>
      let x := s.getA c.a
      spadTraps x c.slot (x.aGet a) (x.aGet a).v 128 128 true)
    fun c s =>
      let x := s.getA c.a
      pushStore c (x.spOff (x.aGet a).v) (toBytes 128 (SMap.get 0#1024 x.cpy.tdt td.toNat).toNat) false s
/-- `TDGET aa, tdi` (R198): the image at T, as a store of its bundle. -/
def execTdget (g : CG) (td : BitVec 8) (a : BitVec 4) (s : State) : Out := .next (runSlot (1 + cgW g) (semTdget g td a) s)

/-! ## Tiles (R192, R193) -/

/-- The checks of `TOWN` on a handle. -/
def townTraps (a : R6) (c : Ctx) (s : State) : List Trap :=
  let x := s.getA c.a
  let v := x.sGet a
  if v.p then [trapOf .poisonkill c.slot]
  else if x.ntiles ≤ v.v.toNat then [trapBounds c.slot 0xFF]
  else if bitAt x.cpy.own v.v.toNat then [trapOf .tbusy c.slot] else []
def semTownRel (g : CG) (a : R6) : SlotSem :=
  cSem g [.s a] [.s a] (townTraps a) fun c s => s.modA c.a fun x => x.setTv [(x.sGet a).v.toNat] false
/-- `TOWN.rel sa` (R193). -/
def execTownRel (g : CG) (a : R6) (s : State) : Out := .next (runSlot (cgW g) (semTownRel g a) s)
def semTownClm (g : CG) (a : R6) : SlotSem :=
  cSem g [.s a] [.s a] (townTraps a) fun c s => s.modA c.a fun x => x.setTv [(x.sGet a).v.toNat] true
/-- `TOWN.clm sa` (R193). -/
def execTownClm (g : CG) (a : R6) (s : State) : Out := .next (runSlot (cgW g) (semTownClm g a) s)

def semTcfg (g : CG) (a : R6) : SlotSem :=
  cSem g [.s a] [.s a] (fun c s =>
      let x := s.getA c.a
      let v := x.sGet a
      if v.p then [trapOf .poisonkill c.slot]
      else if 6 < v.v.toNat then [trapBounds c.slot 0xFF]
      else if x.cpy.own ≠ 0 then [trapOf .tcfgbusy c.slot]
      else if x.cpy.cb.any fun e => e.2.on then [trapOf .cbcfg c.slot] else [])
    fun c s => wrX c (.tcfg (((s.getA c.a).sGet a).v.extractLsb' 0 3)) s
/-- `TCFG sa` (R192): z for bundles issued at T + 1 and later. -/
def execTcfg (g : CG) (a : R6) (s : State) : Out := .next (runSlot (cgW g) (semTcfg g a) s)

end Sys2Proof.Machine
end

