-- ==== Sys2Proof/Machine/Network.lean ====
section
/-! DEFINITION. The network slots: spec/07_movement.md R209-R219. Each is checked and issued here; its accesses perform in
Remote.lean. -/

namespace Sys2Proof.Machine

open Sys2Proof

/-! ## Remote reads and writes (R209) -/

/-- Checks of orders 2 and 3 on two address registers. -/
def twoAddr (c : Ctx) (s : State) (l r : BitVec 4) : List Trap :=
  let x := s.getA c.a
  if (x.aGet l).p || (x.aGet r).p then [trapOf .poisonkill c.slot]
  else if (x.aGet l).v.toNat % 8 ≠ 0 ∨ (x.aGet r).v.toNat % 8 ≠ 0 then [trapOf .align c.slot] else []

/-- The checks of `NRD` and `NWR`: their remote side is a span too where it lies in the own scratchpad (R194, R226). -/
def prepNrw (rd : Bool) (l r : BitVec 4) (n : R6) (c : Ctx) (s : State) : Except Trap CPrep :=
  let x := s.getA c.a
  let la := (x.aGet l).v
  let len := 8 * (n.toNat + 1)
  match x.tsk.ownOff 0 la, sideSpans x [((x.aGet r).v, len)] rd none with
  | some off, some b =>
    .ok { kind := if rd then .nrd la (x.aGet r).v len else .nwr la (x.aGet r).v len, spans := (off, len, !rd) :: b }
  | _, _ => .error (trapBounds c.slot 0xFF)
def semNrd (g : CG) (l r : BitVec 4) (n : R6) : SlotSem :=
  cmdSem g [.a l, .a r] [.a l, .a r] (fun c s => twoAddr c s l r) (prepNrw true l r n)
/-- `NRD [al], [am], bytes` (R209). -/
def execNrd (g : CG) (l r : BitVec 4) (n : R6) (s : State) : Out := .next (runSlot (cgW g) (semNrd g l r n) s)
def semNwr (g : CG) (l r : BitVec 4) (n : R6) : SlotSem :=
  cmdSem g [.a l, .a r] [.a l, .a r] (fun c s => twoAddr c s l r) (prepNrw false l r n)
/-- `NWR [am], [al], bytes` (R209). -/
def execNwr (g : CG) (l r : BitVec 4) (n : R6) (s : State) : Out := .next (runSlot (cgW g) (semNwr g l r n) s)

/-! ## Indexed read, scatter-add, binning (R211-R213) -/

def nrdxChunk (d : BitVec 1024) : Nat := fld d 159 128
def nrdxAstr (d : BitVec 1024) : Int := fldS d 223 160
/-- The portions of an indexed read's target (R211). -/
def nrdxParts (d ts : BitVec 1024) : List (Addr × Nat) :=
  let ext := (tdExt ts 0).toNat
  let chunk := nrdxChunk d
  (List.range ((ext + chunk - 1) / max 1 chunk)).map fun k =>
    (addrAdd (tdBase ts).toNat ((k : Nat) * nrdxAstr d), min chunk (ext - k * chunk) * fmtSize (tdFmt ts))
/-- The checks of `NRDX`: a portion that lies in the own scratchpad is a span (R194, R226). -/
def prepNrdx (a : BitVec 4) (c : Ctx) (s : State) : Except Trap CPrep :=
  let x := s.getA c.a
  let d := descOf c s a
  let ts := SMap.get 0 x.cpy.tdt (hTds d)
  let td := SMap.get 0 x.cpy.tdt (hTdd d)
  let n := lstCount d
  if !(headOk d true true false true && !hScb d && fld d 1023 224 == 0 && tdRank ts == 1 && tdRank td == 1 &&
      tdFmt ts == tdFmt td && !fmtPlanes (tdFmt ts) && decide (1 ≤ nrdxChunk d ∧ nrdxChunk d ≤ 2 ^ 31) &&
      decide (1 ≤ n ∧ n ≤ 2 ^ 20) && lstOff d % 4 == 0) then .error (trapOf .mtype c.slot)
  else
    let dcb := if hDcb d then some (hDcbi d) else none
    if !ringOk x false dcb then .error (trapOf .cbcfg c.slot)
    else
      let (td, sd) := sideOf x td false dcb
      let out := tdSpan td true [(0, (n : Int) - 1)]
      match sideSpans x out false sd, sideSpans x (nrdxParts d ts) true none with
      | some b, some ps =>
        if out.any fun e => (x.ownSpan e.1 e.2).isNone then .error (trapBounds c.slot 0xFF)
        else withRead a (.ok { kind := .nrdx, desc := d, tds := ts, tdd := td, post := hPost d, ui := hUi d, dcb := dcb,
                               spans := (descOff c s a, 128, true) :: (lstOff d, 4 * n, true) :: (b ++ ps) })
      | _, _ => .error (trapBounds c.slot 0xFF)
def semNrdx (g : CG) (a : BitVec 4) : SlotSem := cmdSem g [.a a] [.a a] (fun c s => recTraps c s a 128 128) (prepNrdx a)
/-- `NRDX aa` (R211). -/
def execNrdx (g : CG) (a : BitVec 4) (s : State) : Out := .next (runSlot (cgW g) (semNrdx g a) s)

def saIdx (d : BitVec 1024) : Nat := fld d 95 64
def saVal (d : BitVec 1024) : Nat := fld d 127 96
def saCount (d : BitVec 1024) : Nat := fld d 159 128
def saMode (d : BitVec 1024) : Nat := fld d 161 160
def saFrac (d : BitVec 1024) : Nat := fld d 167 162
/-- The checks of `NSADD` and its accesses (R212). DEDUCED (unsafe; notes/assumptions 28). -/
def prepNsadd (a : BitVec 4) (c : Ctx) (s : State) : Except Trap CPrep :=
  let x := s.getA c.a
  let d := descOf c s a
  let td := SMap.get 0 x.cpy.tdt (hTdd d)
  let n := saCount d
  let fmt := match saMode d with | 0 => 0 | 1 => 1 | _ => 14
  if !(headOk d false true false false && fld d 1023 168 == 0 && decide (saMode d ≤ 2) && decide (saFrac d ≤ 62) &&
      decide (1 ≤ n ∧ n ≤ 2 ^ 20) && tdRank td == 1 && tdFmt td == fmt) then .error (trapOf .mtype c.slot)
  else match sideSpans x (tdSpan td true [(0, tdExt td 0 - 1)]) false none with
    | none => .error (trapBounds c.slot 0xFF)
    | some b => withRead a (.ok { kind := .nsadd, desc := d, tdd := td, post := hPost d, ui := hUi d,
                                  spans := [(descOff c s a, 128, true), (saIdx d, 4 * n, true), (saVal d, 4 * n, true)] ++ b })
def semNsadd (g : CG) (a : BitVec 4) : SlotSem := cmdSem g [.a a] [.a a] (fun c s => recTraps c s a 128 128) (prepNsadd a)
/-- `NSADD aa` (R212). -/
def execNsadd (g : CG) (a : BitVec 4) (s : State) : Out := .next (runSlot (cgW g) (semNsadd g a) s)

def nbRec (d : BitVec 1024) : Nat := fld d 95 64
def nbKey (d : BitVec 1024) : Nat := fld d 127 96
def nbHdr (d : BitVec 1024) : Addr := d.extractLsb' 160 72
/-- The checks of `NBIN`; a header in the own scratchpad is owned by its first 32 bytes (R194, R213). DEDUCED (unsafe; notes/assumptions 28). -/
def prepNbin (a : BitVec 4) (c : Ctx) (s : State) : Except Trap CPrep :=
  let d := descOf c s a
  let n := saCount d
  if !(headOk d false false false false && fld d 1023 232 == 0 && decide (1 ≤ n ∧ n ≤ 2 ^ 20) && (nbHdr d).toNat % 64 == 0 &&
      nbRec d % 64 == 0) then .error (trapOf .mtype c.slot)
  else match sideSpans (s.getA c.a) [(nbHdr d, 32)] false none with
    | none => .error (trapBounds c.slot 0xFF)
    | some b => withRead a (.ok { kind := .nbin, desc := d, post := hPost d, ui := hUi d,
                                  spans := [(descOff c s a, 128, true), (nbKey d, 4 * n, true), (nbRec d, 64 * n, true)] ++ b })
def semNbin (g : CG) (a : BitVec 4) : SlotSem := cmdSem g [.a a] [.a a] (fun c s => recTraps c s a 128 128) (prepNbin a)
/-- `NBIN aa` (R213). -/
def execNbin (g : CG) (a : BitVec 4) (s : State) : Out := .next (runSlot (cgW g) (semNbin g a) s)

/-! ## Atomics (R210, R243) -/

/-- An atomic: `op` numbers add, min, max, cas, xchg, and, or from 0. A word of the own scratchpad is a span of it (R194, R226). -/
def natomSem (op : Nat) (g : CG) (w : Bool) (scope : BitVec 3) (r : Bool) (head : BitVec 2) (a : BitVec 4) (b : R6) : SlotSem :=
  let regs : List RR := if op = 3 then [.a a, .s b, .s (b + 1)] else [.a a, .s b]
  let y (x : Arr) : PV := if op = 3 then x.sGet (b + 1) else PV.zero
  let n := if w then 8 else 4
  cmdSem g regs regs
    (fun c s =>
      let x := s.getA c.a
      let ea := x.aGet a
      if ea.p then [trapOf .poisonkill c.slot]
      else if ((x.sGet b).p || (y x).p) && (match s.locatePure c.a x.trCap ea.v n 2 with
          | .ok h => s.guarded h n | _ => false) then [trapOf .poisonkill c.slot]
      else if ea.v.toNat % n ≠ 0 then [trapOf .align c.slot] else [])
    (fun c s =>
      let x := s.getA c.a
      match sideSpans x [((x.aGet a).v, n)] false none with
      | none => .error (trapBounds c.slot 0xFF)
      | some l => .ok
          { kind := .natom op w scope (x.aGet a).v (x.sGet b) (y x) (if r then some (2 + head.toNat) else none),
            post := if r then 3 + head.toNat else 0, spans := l,
            more := fun c s => s.countA c.a 20 1 })

def semNatomAdd (g : CG) (w : Bool) (sc : BitVec 3) (r : Bool) (hd : BitVec 2) (a : BitVec 4) (b : R6) : SlotSem :=
  natomSem 0 g w sc r hd a b
/-- `NATOM.add` (R210). -/
def execNatomAdd (g : CG) (w : Bool) (sc : BitVec 3) (r : Bool) (hd : BitVec 2) (a : BitVec 4) (b : R6) (s : State) : Out :=
  .next (runSlot (cgW g) (semNatomAdd g w sc r hd a b) s)
def semNatomMin (g : CG) (w : Bool) (sc : BitVec 3) (r : Bool) (hd : BitVec 2) (a : BitVec 4) (b : R6) : SlotSem :=
  natomSem 1 g w sc r hd a b
/-- `NATOM.min` (R210). -/
def execNatomMin (g : CG) (w : Bool) (sc : BitVec 3) (r : Bool) (hd : BitVec 2) (a : BitVec 4) (b : R6) (s : State) : Out :=
  .next (runSlot (cgW g) (semNatomMin g w sc r hd a b) s)
def semNatomMax (g : CG) (w : Bool) (sc : BitVec 3) (r : Bool) (hd : BitVec 2) (a : BitVec 4) (b : R6) : SlotSem :=
  natomSem 2 g w sc r hd a b
/-- `NATOM.max` (R210). -/
def execNatomMax (g : CG) (w : Bool) (sc : BitVec 3) (r : Bool) (hd : BitVec 2) (a : BitVec 4) (b : R6) (s : State) : Out :=
  .next (runSlot (cgW g) (semNatomMax g w sc r hd a b) s)
def semNatomCas (g : CG) (w : Bool) (sc : BitVec 3) (r : Bool) (hd : BitVec 2) (a : BitVec 4) (b : R6) : SlotSem :=
  natomSem 3 g w sc r hd a b
/-- `NATOM.cas` (R210). -/
def execNatomCas (g : CG) (w : Bool) (sc : BitVec 3) (r : Bool) (hd : BitVec 2) (a : BitVec 4) (b : R6) (s : State) : Out :=
  .next (runSlot (cgW g) (semNatomCas g w sc r hd a b) s)
def semNatomXchg (g : CG) (w : Bool) (sc : BitVec 3) (r : Bool) (hd : BitVec 2) (a : BitVec 4) (b : R6) : SlotSem :=
  natomSem 4 g w sc r hd a b
/-- `NATOM.xchg` (R210). -/
def execNatomXchg (g : CG) (w : Bool) (sc : BitVec 3) (r : Bool) (hd : BitVec 2) (a : BitVec 4) (b : R6) (s : State) : Out :=
  .next (runSlot (cgW g) (semNatomXchg g w sc r hd a b) s)
def semNatomAnd (g : CG) (w : Bool) (sc : BitVec 3) (r : Bool) (hd : BitVec 2) (a : BitVec 4) (b : R6) : SlotSem :=
  natomSem 5 g w sc r hd a b
/-- `NATOM.and` (R210). -/
def execNatomAnd (g : CG) (w : Bool) (sc : BitVec 3) (r : Bool) (hd : BitVec 2) (a : BitVec 4) (b : R6) (s : State) : Out :=
  .next (runSlot (cgW g) (semNatomAnd g w sc r hd a b) s)
def semNatomOr (g : CG) (w : Bool) (sc : BitVec 3) (r : Bool) (hd : BitVec 2) (a : BitVec 4) (b : R6) : SlotSem :=
  natomSem 6 g w sc r hd a b
/-- `NATOM.or` (R210). -/
def execNatomOr (g : CG) (w : Bool) (sc : BitVec 3) (r : Bool) (hd : BitVec 2) (a : BitVec 4) (b : R6) (s : State) : Out :=
  .next (runSlot (cgW g) (semNatomOr g w sc r hd a b) s)

/-! ## Collectives (R214, R215, R218, R219) -/

/-- The counter of a kind of collective at a level: kinds 0 `NRED`, 1 `EQX`, 2 `GBAR`. -/
def collKey (kind lvl : Nat) : Nat := kind * 8 + lvl

def redPc (d : BitVec 1024) : Nat := fld d 191 160
def redLvl (d : BitVec 1024) : Nat := fld d 146 144
def redE (d : BitVec 1024) : Nat := fld d 143 128
def redDst (d : BitVec 1024) : Nat := fld d 127 96
def redSrc (d : BitVec 1024) : Nat := fld d 95 64
def prepNred (op : BitVec 3) (t : VT) (a : BitVec 4) (c : Ctx) (s : State) : Except Trap CPrep :=
  let k := (s.getA c.a).tsk
  let d := descOf c s a
  let lv := redLvl d
  if !(headOk d false false false false && fld d 1023 192 == 0 && fld d 159 147 == 0 && decide (1 ≤ redE d ∧ redE d ≤ 4096)) then
    .error (trapOf .mtype c.slot)
  else if !namesLevel k.levels lv || decide (partCount k.levels lv < redPc d) ||
      (redPc d != 0 && decide (redPc d ≤ partNo k.levels k.lidx lv)) then .error (trapOf .collcount c.slot)
  else withRead a (.ok { kind := .nred op t, desc := d, post := hPost d, ui := hUi d, coll := some (collKey 0 lv),
                         spans := [(descOff c s a, 128, true), (redSrc d, 4 * redE d, true), (redDst d, 4 * redE d, false)] })
def semNred (g : CG) (op : BitVec 3) (t : VT) (a : BitVec 4) : SlotSem :=
  cmdSem g [.a a] [.a a] (fun c s => recTraps c s a 128 128) (prepNred op t a)
/-- `NRED.op.t aa` (R214, R215). -/
def execNred (g : CG) (op : BitVec 3) (t : VT) (a : BitVec 4) (s : State) : Out := .next (runSlot (cgW g) (semNred g op t a) s)

def mcSrc (d : BitVec 1024) : Nat := fld d 95 64
def mcSize (d : BitVec 1024) : Nat := fld d 127 96
def mcNrep (d : BitVec 1024) : Nat := fld d 131 128
def mcRep (d : BitVec 1024) (i : Nat) : Addr := d.extractLsb' (256 + 72 * i) 72
/-- The addresses that the issue check of `.ord` looks up: each replica's pages (R216). -/
def repVas (d : BitVec 1024) : List Addr :=
  (List.range (mcNrep d)).flatMap fun i => (List.range ((mcSize d + 65535) / 65536 + 1)).map fun j =>
    mcRep d i + BitVec.ofNat 72 (min (65536 * j) (mcSize d - 16))
/-- What an issue check finds of the replicas of `.ord`: 0 nothing against them, 1 one elsewhere, 2 one forbidden (R216). -/
def repCheck (c : Ctx) (s : State) (d : BitVec 1024) : Nat :=
  (repVas d).foldl (fun r v =>
    match s.locatePure c.a (s.getA c.a).trCap v 16 1 with
    | .ok (.phys pa) => if spaceOf pa < 2 then r else max r 1
    | .ok _ => max r 1
    | .bad 1 _ => r
    | .bad _ _ => 2
    | .miss => r) 0
/-- The fields of the descriptor are in range (R216). -/
def nmcstOk (d : BitVec 1024) : Bool :=
  let n := mcSize d
  headOk d false false false false && fld d 1023 832 == 0 && fld d 255 132 == 0 && decide (1 ≤ mcNrep d ∧ mcNrep d ≤ 8) &&
  n % 16 == 0 && decide (16 ≤ n ∧ n ≤ 65536) && mcSrc d % 16 == 0 &&
  (List.range (mcNrep d)).all fun i => (mcRep d i).toNat % 16 == 0
/-- The checks of `NMCST`; a replica in the own scratchpad is a span (R194, R226). -/
def prepNmcst (ord : Bool) (a : BitVec 4) (c : Ctx) (s : State) : Except Trap CPrep :=
  let d := descOf c s a
  let n := mcSize d
  if !nmcstOk d then .error (trapOf .mtype c.slot)
  else
    let k := if ord then repCheck c s d else 0
    if k = 2 then .error (trapOf .tfault c.slot)
    else if k = 1 then .error (trapBounds c.slot 0xFF)
    else match sideSpans (s.getA c.a) ((List.range (mcNrep d)).map fun i => (mcRep d i, n)) false none with
    | none => .error (trapBounds c.slot 0xFF)
    | some l => withRead a (.ok
        { kind := .nmcst ord, desc := d, post := hPost d, ui := hUi d,
          spans := [(descOff c s a, 128, true), (mcSrc d, n, true)] ++ l })
def semNmcst (g : CG) (ord : Bool) (a : BitVec 4) : SlotSem :=
  cmdSem g [.a a] [.a a] (fun c s => recTraps c s a 128 128) (prepNmcst ord a) (fun _ _ => none)
    (fun c s => let d := descOf c s a; if ord && nmcstOk d then repVas d else []) 1
/-- `NMCST aa` and `NMCST.ord aa` (R216). -/
def execNmcst (g : CG) (ord : Bool) (a : BitVec 4) (s : State) : Out := .next (runSlot (cgW g) (semNmcst g ord a) s)

def semNdrain (g : CG) (scope post : BitVec 3) : SlotSem :=
  cmdSem g [] [] (fun _ _ => []) fun _ _ => .ok { kind := .ndrain scope, post := post.toNat }
/-- `NDRAIN.scope [post]` (R217). -/
def execNdrain (g : CG) (scope post : BitVec 3) (s : State) : Out := .next (runSlot (cgW g) (semNdrain g scope post) s)

/-- The QUAD placement level of a task. DEDUCED (unsafe; notes/assumptions 31). -/
def quadLevel (k : Tsk) : Option Nat := (List.range k.levels.length).find? fun i => isPlacement k.levels i && domAt k.levels i == 4
def prepEqx (c : Ctx) (s : State) : Except Trap CPrep :=
  let k := (s.getA c.a).tsk
  match k.exch, quadLevel k with
  | true, some lv => .ok { kind := .eqx, spans := [(k.spalloc - 262144, 131072, false)], coll := some (collKey 1 lv) }
  | _, _ => .error (trapOf .collcount c.slot)
def semEqx (g : CG) : SlotSem := cmdSem g [] [] (fun _ _ => []) prepEqx
/-- `EQX` (R218): the window's tiles become engine-owned; the arrival is registered later. -/
def execEqx (g : CG) (s : State) : Out := .next (runSlot (cgW g) (semEqx g) s)

def prepGbar (level post : BitVec 3) (c : Ctx) (s : State) : Except Trap CPrep :=
  let k := (s.getA c.a).tsk
  if !namesLevel k.levels level.toNat then .error (trapOf .collcount c.slot)
  else .ok { kind := .gbar level, post := post.toNat, coll := some (collKey 2 level.toNat) }
def semGbar (g : CG) (level post : BitVec 3) : SlotSem := cmdSem g [] [] (fun _ _ => []) (prepGbar level post)
/-- `GBAR level, [post]` (R219). -/
def execGbar (g : CG) (level post : BitVec 3) (s : State) : Out := .next (runSlot (cgW g) (semGbar g level post) s)

end Sys2Proof.Machine
end

