-- ==== Sys2Proof/Machine/Plan.lean ====
section
/-! DEFINITION. What the copy-class commands read and write, piece by piece: R196, R197, R200-R202, R208, R209, R211-R216, R238,
R358. -/

namespace Sys2Proof.Machine

open Sys2Proof

/-! ## Lists in the own scratchpad -/

/-- The lists a command reads in its own scratchpad, as offset and bytes (R202, R211-R213, R215, R216). -/
def CCmd.lists (m : CCmd) : List (Nat × Nat) :=
  let d := m.desc
  match m.kind with
  | .cpyg | .cpys => [(lstOff d, 16 * lstCount d)]
  | .nrdx => [(lstOff d, 4 * lstCount d)]
  | .nsadd => [(saIdx d, 4 * saCount d), (saVal d, 4 * saCount d)]
  | .nbin => [(nbKey d, 4 * saCount d), (nbRec d, 64 * saCount d)]
  | .nred _ _ => if redPc d = 0 then [] else [(redSrc d, 4 * redE d)]
  | .nmcst _ => [(mcSrc d, mcSize d)]
  | _ => []
/-- The aligned 16-byte units of the lists (R238). -/
def CCmd.units (m : CCmd) : List Nat := (m.lists.flatMap fun e => wordsAt e.1 e.2).dedup

/-- A word that a command has read. -/
def CCmd.wordAt (m : CCmd) (w : Nat) : Option (W32 × Bool) := (m.lbuf.find? fun e => e.1 == w).map (·.2)
/-- A byte that a command has read, with its poison. -/
def CCmd.listByte (m : CCmd) (off : Nat) : Byte × Bool :=
  match m.wordAt (off / 4) with
  | some (v, p) => (v.extractLsb' (8 * (off % 4)) 8, p)
  | none => (0, false)
/-- `n` bytes that a command has read. -/
def CCmd.listBytes (m : CCmd) (off n : Nat) : List (Byte × Bool) := (List.range n).map fun i => m.listByte (off + i)
/-- A 32-bit entry of a list, with its poison. -/
def CCmd.listWord (m : CCmd) (off : Nat) : W32 × Bool :=
  let l := m.listBytes off 4
  (BitVec.ofNat 32 (l.foldr (fun b v => b.1.toNat + 256 * v) 0), l.any (·.2))
/-- The unit is read. -/
def CCmd.unitRead (m : CCmd) (u : Nat) : Bool := (m.wordAt (4 * u)).isSome

/-- The tensor whose blocks a gather or scatter lists. DEDUCED (unsafe; notes/assumptions 32). -/
def CCmd.listed (m : CCmd) : BitVec 1024 := match m.kind with | .cpys => m.tdd | _ => m.tds
/-- Entry `j` of the list is the sentinel (R202). -/
def CCmd.sentinel (m : CCmd) (j : Nat) : Bool :=
  tdSen m.listed && (match m.wordAt (lstOff m.desc / 4 + 4 * j) with
    | some (v, p) => !p && v.extractLsb' 0 16 == 0xFFFF#16
    | none => false)
/-- Entries before the sentinel. -/
def CCmd.entries (m : CCmd) : Nat :=
  let n := lstCount m.desc
  ((List.range n).find? m.sentinel).getD n
/-- The lists are read: every unit, or every one before the sentinel with it. -/
def CCmd.listsRead (m : CCmd) : Bool :=
  match m.kind with
  | .cpyg | .cpys => m.units.all m.unitRead || (tdSen m.listed && decide (m.entries < lstCount m.desc))
  | _ => m.units.all m.unitRead
/-- A unit may be read next: under a sentinel the entries are read in order and none after it. -/
def CCmd.unitNext (m : CCmd) (i : Nat) : Bool :=
  match m.kind with
  | .cpyg | .cpys => !tdSen m.listed || (m.lbuf.length == 4 * i && m.entries == lstCount m.desc)
  | _ => true

/-! ## Pieces -/

/-- A plan: its pieces in order, which side met a coordinate out of range, COUNT, and whether a poisoned value was met. -/
structure Plan where
  ps : List XPiece
  oobS : Bool
  oobD : Bool
  count : Nat
  pz : Bool
  deriving DecidableEq, Repr, Inhabited

/-- `n` bytes moved, cut at the 32-bit words of both sides; without a source the pattern `cst` is written. -/
def cutPieces (fuel n el grp : Nat) (src : Option Addr) (cst : Nat) (dst : Addr) (halo : Bool) : List XPiece :=
  match fuel with
  | 0 => []
  | fuel + 1 =>
    if n = 0 then []
    else
      let k := min n (4 - dst.toNat % 4)
      let k := (src.map fun a => min k (4 - a.toNat % 4)).getD k
      { el := el, grp := grp, src := src, cst := BitVec.ofNat 64 (cst % 2 ^ (8 * k)), dst := dst, n := k,
        mask := BitVec.allOnes 64, halo := halo, orp := false, got := if src.isSome then none else some (0, false), done := false } ::
      cutPieces fuel (n - k) el grp (src.map fun a => a + BitVec.ofNat 72 k) (cst / 2 ^ (8 * k)) (dst + BitVec.ofNat 72 k) halo

/-- What a read of a coordinate takes (R197): an address, or a pattern. -/
def readSide (td : BitVec 1024) (xs : List Int) : Option Addr × Nat :=
  match tdWhere td xs with
  | 0 => (some (tdAddr td (tdPos td xs)), 0)
  | 1 => (none, tdFillPat td)
  | _ => (none, 0)
/-- A write of a coordinate reaches memory (R197): `some` true for a halo write. -/
def writeSide (td : BitVec 1024) (xs : List Int) : Option Bool :=
  match tdWhere td xs with
  | 0 => some false
  | 1 => if tdPwm td then some true else none
  | _ => none

/-- One element of a format with a size in bytes moved to a coordinate. -/
def elemMove (el grp : Nat) (rd : Option Addr × Nat) (td : BitVec 1024) (xd : List Int) : List XPiece :=
  let n := fmtSize (tdFmt td)
  match writeSide td xd with
  | some halo => cutPieces n n el grp rd.1 rd.2 (tdAddr td (tdPos td xd)) halo
  | none => []

/-! ## Boxes (R201, R208, R358) -/

/-- Coordinates of a box element on one side. -/
def boxAt (d td : BitVec 1024) (org : BitVec 1024 → Nat → Int) (i : List Nat) : List Int :=
  (List.range (tdRank td)).map fun k => org d k + ((i.getD k 0 : Nat) : Int)
/-- The index vectors of a box in box order. -/
def boxIs (d : BitVec 1024) : List (List Nat) := boxIdx ((List.range (hBr d)).map (boxN d))

/-- A block of a bit-plane format moved whole: its plane words, with the header of an SX block, keep the bits of the positions
the box writes (R201, R358). -/
def blockMove (el : Nat) (d ts td : BitVec 1024) (i : List Nat) : List XPiece :=
  let k := tdOrd ts
  let at_ (j : Nat) : List Nat := i.zipIdx.map fun e => if e.2 = k then e.1 + j else e.1
  let wr (j : Nat) := writeSide td (boxAt d td boxD (at_ j))
  let rd (j : Nat) := tdWhere ts (boxAt d ts boxS (at_ j))
  let js := List.range 16
  let out := js.filter fun j => (wr j).isSome
  if out.isEmpty then []
  else
    let mem := out.filter fun j => rd j == 0
    let fill := out.filter fun j => rd j == 1
    let bits (l : List Nat) : Nat := l.foldl (fun w j => w + 2 ^ j) 0
    let halo := out.all fun j => wr j == some true
    let hdr := if sxM (tdFmt td) = 0 then 0 else 1
    let srcs := tdPlaneAddrs ts (tdPos ts (boxAt d ts boxS i) / 16)
    let dsts := tdPlaneAddrs td (tdPos td (boxAt d td boxD i) / 16)
    (srcs.zip dsts).zipIdx.flatMap fun e =>
      let cst := if e.2 < hdr then 0 else if tdFillPat ts / 2 ^ (e.2 - hdr) % 2 = 1 then bits fill else 0
      let mask := if e.2 < hdr then 0xFFFF else bits mem
      let ps := cutPieces 2 2 el 0 (if mem.isEmpty then none else some e.1.1) cst e.1.2 halo
      -- the bits kept follow the bytes of the word
      (ps.foldl (fun (l, sh) p =>
        (l ++ [{ p with mask := BitVec.ofNat 64 (mask / 2 ^ sh % 2 ^ (8 * p.n)), cst := BitVec.ofNat 64 (cst / 2 ^ sh % 2 ^ (8 * p.n)),
                        orp := decide (hdr ≤ e.2) && decide (out.length < 16) }], sh + 8 * p.n)) ([], 0)).1

/-- The plan of a copy of a box. -/
def cpyPlan (m : CCmd) : Plan :=
  let d := m.desc
  let is := boxIs d
  { ps :=
      if fmtPlanes (tdFmt m.tds) then
        (is.filter fun i => ((i[tdOrd m.tds]?).getD 0) % 16 == 0).zipIdx.flatMap fun e => blockMove e.2 d m.tds m.tdd e.1
      else is.zipIdx.flatMap fun e => elemMove e.2 0 (readSide m.tds (boxAt d m.tds boxS e.1)) m.tdd (boxAt d m.tdd boxD e.1),
    oobS := is.any fun i => tdWhere m.tds (boxAt d m.tds boxS i) == 2,
    oobD := is.any fun i => tdWhere m.tdd (boxAt d m.tdd boxD i) == 2,
    count := is.length, pz := false }

/-! ## Gather and scatter (R202) -/

/-- Coordinate words of entry `j`; `none` when one is poisoned (R190). -/
def CCmd.coords (m : CCmd) (j : Nat) : Option (List Nat) :=
  let l := (List.range (tdRank m.listed)).map fun k => m.listBytes (lstOff m.desc + 16 * j + 2 * k) 2
  if l.any fun e => e.any (·.2) then none
  else some (l.map fun (e : List (Byte × Bool)) => e.foldr (fun b v => b.1.toNat + 256 * v) 0)

/-- The plan of a gather or a scatter: entries in order, the offsets of a block in any order. Identical blocks among 32
consecutive entries share their reads when the listed tensor is not in the own scratchpad. -/
def gsPlan (x : Arr) (gather : Bool) (m : CCmd) : Plan :=
  let d := m.desc
  let lt := m.listed
  let pt := if gather then m.tdd else m.tds
  let n := m.entries
  let gb := (List.range (tdRank lt)).map (tdGb lt)
  let blk (k : Nat) : Int := (tdExt lt k + tdGb lt k - 1) / tdGb lt k
  let os := boxIdx (gb.map Int.toNat)
  let js := (List.range n).map fun j => (j, m.coords j)
  let far := (x.tsk.ownOff 0 (tdBase lt)).isNone
  let inr (c : List Nat) : Bool := c.zipIdx.all fun e => decide ((e.1 : Int) < blk e.2)
  let grp (j : Nat) (c : List Nat) : Nat :=
    if far then ((js.drop (j / 32 * 32)).find? fun e => e.2 == some c).elim j (·.1) else j
  let xl (c o : List Nat) : List Int :=
    (List.range (tdRank lt)).map fun k => ((c.getD k 0 : Nat) : Int) * tdGb lt k + ((o.getD k 0 : Nat) : Int)
  let xp (j : Nat) (o : List Nat) : List Int :=
    (List.range (tdRank pt)).map fun k =>
      pOrg d k + ((o.getD k 0 : Nat) : Int) + (if k = pDim d then (j : Int) * gbOf lt k else 0)
  { ps := js.flatMap fun e =>
      match e.2 with
      | none => []
      | some c =>
        os.zipIdx.flatMap fun o =>
          let el := e.1 * os.length + o.2
          if gather then elemMove el (grp e.1 c) (if inr c then readSide lt (xl c o.1) else (none, 0)) pt (xp e.1 o.1)
          else if inr c then elemMove el 0 (readSide pt (xp e.1 o.1)) lt (xl c o.1) else [],
    oobS := if gather then js.any fun e => (e.2.map fun c => !inr c || os.any fun o => tdWhere lt (xl c o) == 2).getD false
            else js.any fun e => (e.2.map fun c => inr c && os.any fun o => tdWhere pt (xp e.1 o) == 2).getD false,
    oobD := if gather then js.any fun e => (e.2.map fun _ => os.any fun o => tdWhere pt (xp e.1 o) == 2).getD false
            else js.any fun e => (e.2.map fun c => !inr c || os.any fun o => tdWhere lt (xl c o) == 2).getD false,
    count := n, pz := js.any fun e => e.2.isNone }

/-! ## Remote reads and writes (R209, R211) -/

/-- The plan of `NRD` and `NWR`: aligned 8-byte words. -/
def nrwPlan (src dst : Addr) (n : Nat) : Plan :=
  { ps := (List.range (n / 8)).flatMap fun i =>
      let o := BitVec.ofNat 72 (8 * i)
      cutPieces 8 8 i 0 (some (src + o)) 0 (dst + o) false,
    oobS := false, oobD := false, count := n / 8, pz := false }

/-- The plan of an indexed read. A poisoned index writes its element poisoned, with a free value from word `f` on. -/
def nrdxPlan (f : Nat) (m : CCmd) : Plan :=
  let d := m.desc
  let n := lstCount d
  let sz := fmtSize (tdFmt m.tds)
  let idx (j : Nat) : W32 × Bool := m.listWord (lstOff d + 4 * j)
  let out (v : W32) : Bool := decide (v.toInt < 0 ∨ tdExt m.tds 0 ≤ v.toInt)
  let grp (j : Nat) : Nat := ((List.range j).drop (j / 32 * 32) |>.find? fun i => idx i == idx j).getD j
  let src (v : W32) : Addr :=
    addrAdd (tdBase m.tds).toNat
      ((v.toNat / nrdxChunk d : Nat) * nrdxAstr d + ((v.toNat % nrdxChunk d * sz : Nat) : Int))
  { ps := (List.range n).flatMap fun j =>
      let v := idx j
      if v.2 then (elemMove j (grp j) (none, (Config.freeWord (f + j)).toNat % 2 ^ (8 * sz)) m.tdd [(j : Int)]).map fun p =>
        { p with got := some (0, true) }
      else elemMove j (grp j) (if out v.1 then (none, 0) else (some (src v.1), 0)) m.tdd [(j : Int)],
    oobS := (List.range n).any fun j => !(idx j).2 && out (idx j).1,
    oobD := (List.range n).any fun j => tdWhere m.tdd [(j : Int)] == 2,
    count := n, pz := (List.range n).any fun j => (idx j).2 }

/-! ## Scatter-add (R212) -/

/-- The mode's addition: FP32 with round to nearest even, subnormals kept and NaNs canonical; or wrapping. -/
def saAdd (mode : Nat) (x y : Word) : Word :=
  match mode with
  | 0 => BitVec.ofNat 64 (fmt32.add ⟨.rne, false, false⟩ (x.toNat % 2 ^ 32) (y.toNat % 2 ^ 32)).1
  | 1 => ((x + y).extractLsb' 0 32).setWidth 64
  | _ => x + y
/-- Bytes of a target element. -/
def saSize (mode : Nat) : Nat := if mode = 2 then 8 else 4

/-- A list value as its contribution: the value unless it contributes nothing, whether it poisons, whether it saturated. -/
def saContrib (mode frac : Nat) (v : W32) (p : Bool) : Option Word × Bool × Bool :=
  if mode ≠ 2 then (some (v.setWidth 64), p, false)
  else
    match fmt32.val false v.toNat with
    | .fin s mm e =>
      let x := FV.fin s mm (e + frac)
      let r := x.toInt .rne (-(2 ^ 63 : Int)) (2 ^ 63 - 1)
      (some (BitVec.ofInt 64 r.1), p, (r.2 &&& Fl.nv) != 0#7)
    | _ => (none, true, false)

/-- Positions of a chunk that address each target element, elements in order of their first position. -/
def saGroups (l : List (Nat × W32 × Bool)) : List (Nat × List (W32 × Bool)) :=
  ((l.map (·.1)).reverse.dedup.reverse).map fun e => (e, (l.filter fun c => c.1 == e).map (·.2))

/-- What the target's combiner applies for one element of a chunk: the sum, nothing to add, poison; and saturation. -/
def saFold (mode frac : Nat) (l : List (W32 × Bool)) : Option Word × Bool × Bool :=
  l.foldl (fun r c =>
    let k := saContrib mode frac c.1 c.2
    (match r.1, k.1 with
      | some a, some b => some (saAdd mode a b)
      | some a, none => some a
      | none, b => b,
     r.2.1 || k.2.1, r.2.2 || k.2.2)) (none, false, false)

/-- The outcome of a scatter-add's lists: its adds in order, OOB, OVF, PZ. -/
def saPlan (m : CCmd) : List NKind × Bool × Bool × Bool :=
  let d := m.desc
  let mode := saMode d
  let n := saCount d
  let ent (j : Nat) := (m.listWord (saIdx d + 4 * j), m.listWord (saVal d + 4 * j))
  let inr (v : W32) : Bool := decide (0 ≤ v.toInt ∧ v.toInt < tdExt m.tdd 0)
  let chunk (c : Nat) : List (Nat × W32 × Bool) :=
    ((List.range n).drop (64 * c) |>.take 64).filterMap fun j =>
      let e := ent j
      if e.1.2 || !inr e.1.1 then none else some (e.1.1.toNat, e.2)
  let gs := (List.range ((n + 63) / 64)).flatMap fun c => (saGroups (chunk c)).map fun g => (g.1, saFold mode (saFrac d) g.2)
  (gs.map fun g => NKind.sadd (addrAdd (tdBase m.tdd).toNat ((g.1 * saSize mode : Nat) : Int)) mode (g.2.1.getD 0) g.2.1.isNone g.2.2.1,
   (List.range n).any fun j => !(ent j).1.2 && !inr (ent j).1.1,
   gs.any fun g => g.2.2.2,
   (List.range n).any fun j => (ent j).1.2)

/-! ## Binning (R213) -/

/-- The reads of a bin header: its first 32 bytes. -/
def nbHead (m : CCmd) : Plan :=
  { ps := (cutPieces 8 32 0 0 (some (nbHdr m.desc)) 0 0 false).map fun p => { p with done := true },
    oobS := false, oobD := false, count := saCount m.desc, pz := false }
/-- The header's NB, CAP, OCAP, RBASE and OBASE as read; `none` when one is poisoned. -/
def nbFields (ps : List XPiece) : Option (List Nat) :=
  let w (i : Nat) : Option Nat := match (ps[i]?).bind (·.got) with
    | some (v, false) => some v.toNat
    | _ => none
  match w 0, w 1, w 2, w 6, w 7 with
  | some a, some b, some c, some d, some e => some [a, b, c, d, e]
  | _, _, _, _, _ => none
/-- The appends of a command in order, OOB and PZ, decided against the header as read. -/
def nbPlan (m : CCmd) (h : Option (List Nat)) : List NKind × Bool × Bool :=
  let d := m.desc
  let n := saCount d
  match h with
  | none => ([], false, true)
  | some l =>
    let nb := l.headD 0
    let key (j : Nat) := m.listWord (nbKey d + 4 * j)
    let rec_ (j : Nat) := m.listBytes (nbRec d + 64 * j) 64
    ((List.range n).filterMap (fun j =>
        let k := key j
        if k.2 || decide (nb ≤ k.1.toNat) then none
        else some (.bin (nbHdr d) l k.1.toNat ((rec_ j).map (·.1)) ((rec_ j).map (·.2)))),
     (List.range n).any fun j => !(key j).2 && decide (nb ≤ (key j).1.toNat),
     (List.range n).any fun j => (key j).2)

/-! ## Reductions (R214, R215) -/

/-- The words a participant gives. -/
def redWords (m : CCmd) : List (W32 × Bool) := (List.range (redE m.desc)).map fun i => m.listWord (redSrc m.desc + 4 * i)
/-- Element `i` of the result over the participants' words. -/
def redAt (op : BitVec 3) (t : VT) (ws : List (List (W32 × Bool))) (i : Nat) : W32 × Bool :=
  let l := ws.map fun w => w[i]?.getD (0, false)
  ((treeRed (fun a b => redOp op t ⟨.rne, false, false⟩ a b 0) l.length (l.map (·.1)) 0).1, l.any (·.2))
/-- The writes of a result into the own scratchpad. -/
def redPlan (m : CCmd) (vals : List (W32 × Bool)) : Plan :=
  { ps := vals.zipIdx.flatMap fun e =>
      (cutPieces 4 4 e.2 0 none e.1.1.toNat (ownAddr (redDst m.desc + 4 * e.2)) false).map fun p => { p with got := some (0, e.1.2) },
    oobS := false, oobD := false, count := redE m.desc, pz := false }

/-! ## The plan of a command -/

/-- The plan of a command whose lists are read; `f` is the number of the first free word it may use. -/
def planOf (x : Arr) (f : Nat) (m : CCmd) : Plan :=
  match m.kind with
  | .cpy | .cpym => cpyPlan m
  | .cpyg => gsPlan x true m
  | .cpys => gsPlan x false m
  | .nrd l r n => nrwPlan r l n
  | .nwr l r n => nrwPlan l r n
  | .nrdx => nrdxPlan f m
  | .nbin => nbHead m
  | _ => default

end Sys2Proof.Machine
end

