-- ==== Sys2Proof/Machine/Clos.lean ====
section
/-! DEFINITION. The die's folded Clos network (R253) and what a `CPYM` counts on it: the fixed paths of requests and data, the flits on
each link, and the counts of a slice: spec/10_programs_sharing.md R253-R256, R359. -/

namespace Sys2Proof.Machine

open Sys2Proof

/-! ## Switches and links (R253) -/

/-- The edge switch of an array of the die, and of a slice. -/
def edgeOfArr (i : Nat) : Nat := i / 4
def edgeOfSlice (s : Nat) : Nat := s / 3
/-- The pod of an edge or middle switch. -/
def podOf (k : Nat) : Nat := k / 2
/-- The link exists on a die: an edge and a middle switch are joined within a pod, every middle switch to every top switch, and a top
switch to its namesake on each other compute die. -/
def Link.ok (die : Nat) (l : Link) : Bool :=
  match l with
  | .slice s => decide (s < 24)
  | .array i => decide (i < 32)
  | .edgeMid e m => decide (e < 8) && decide (m < 8) && podOf e == podOf m
  | .midTop m t => decide (m < 8) && decide (t < 4)
  | .port t d => decide (t < 4) && decide (d < 4) && decide (d ≠ die)

/-! ## Paths (R254, R359) -/

/-- The links between array `a` of the device and slice `s` of die `x`, each with its die, array side first. The port between two dies is
a link of both. -/
def mcPath (a x s : Nat) : List (Nat × Link) :=
  let y := a / 32
  let ea := edgeOfArr (a % 32)
  let eb := edgeOfSlice s
  let ma := 2 * podOf ea + s % 2
  let mb := 2 * podOf eb + s % 2
  let t := s % 4
  if x ≠ y then
    [(y, .array (a % 32)), (y, .edgeMid ea ma), (y, .midTop ma t), (y, .port t x), (x, .port t y), (x, .midTop mb t), (x, .edgeMid eb mb),
     (x, .slice s)]
  else if ea = eb then [(y, .array (a % 32)), (y, .slice s)]
  else if podOf ea = podOf eb then [(y, .array (a % 32)), (y, .edgeMid ea ma), (y, .edgeMid eb ma), (y, .slice s)]
  else
    [(y, .array (a % 32)), (y, .edgeMid ea ma), (y, .midTop ma t), (y, .midTop mb t), (y, .edgeMid eb mb), (y, .slice s)]

/-! ## Counts (R255, R256) -/

/-- `n` flits more on a link's channel. -/
def addFlits (l : List ((Link × Chan) × Nat)) (k : Link × Chan) (n : Nat) : List ((Link × Chan) × Nat) :=
  if n = 0 then l
  else if l.any (·.1 == k) then l.map fun e => if e.1 = k then (k, e.2 + n) else e else l ++ [(k, n)]
/-- `n` flits more on the channel of every link of a list. -/
def State.flitsOn (s : State) (c : Chan) (n : Nat) (l : List (Nat × Link)) : State :=
  l.foldl (fun (s : State) e => s.modD e.1 fun d => { d with flits := addFlits d.flits (e.2, c) n }) s
/-- The count of a link's channel. -/
def Die.flitCount (d : Die) (k : Link × Chan) : Nat := ((d.flits.find? (·.1 == k)).map (·.2)).getD 0
/-- The counts of a slice. -/
def Die.modSlice (s : Nat) (f : SliceCnt → SliceCnt) (d : Die) : Die := { d with slice := SMap.mod SliceCnt.zero d.slice s f }

/-! ## Groups (R208, R255) -/

/-- The bytes of a group's span. -/
def MGrp.span (g : MGrp) : Nat := ((mcSpan g.desc g.tds).map (·.2)).getD 0
/-- The 16-byte units that the span touches. -/
def MGrp.units (g : MGrp) : Nat := if g.span = 0 then 0 else (g.pa % 16 + g.span + 15) / 16
/-- Flits that carry the first `n` units. -/
def MGrp.flitsTo (g : MGrp) (n : Nat) : Nat := (min g.span (16 * n - g.pa % 16) + 63) / 64
/-- The union of the paths to the joined arrays: no link carries the data twice. -/
def MGrp.tree (g : MGrp) : List (Nat × Link) := (g.tos.flatMap fun a => mcPath a g.home (sliceOf g.pa)).dedup
/-- The slice has sent up to unit `n` of group `g` to its joined arrays. -/
def State.sentTo (s : State) (g : MGrp) (n : Nat) : State :=
  let k := g.flitsTo n - g.flitsTo g.pos
  let s := s.flitsOn .multicast k g.tree
  s.modD g.home fun d =>
    let d := if g.pos < g.units ∧ g.units ≤ n then d.modSlice (sliceOf g.pa) fun c => { c with sent := c.sent + 1 } else d
    let d := if k = 0 then d else d.modSlice (sliceOf g.pa) fun c => { c with next := s.now + 1 }
    { d with grps := d.grps.map fun h => if h.num = g.num then { h with pos := n } else h }
/-- Closed groups of the same slice are sent in the order in which they closed. -/
def State.grpTurn (s : State) (g : MGrp) : Bool :=
  !(s.getD g.home).grps.any fun h => h.shut && decide (h.ord < g.ord) && sliceOf h.pa == sliceOf g.pa && decide (h.pos < h.units)
/-- The next unit of a group may leave its slice: its turn has come, and the slice sends one flit in a cycle at most (R255). -/
def State.mayFlit (s : State) (g : MGrp) : Bool :=
  s.grpTurn g && decide (g.pos < g.units) &&
  (g.flitsTo (g.pos + 1) == g.flitsTo g.pos || decide ((SMap.get SliceCnt.zero (s.getD g.home).slice (sliceOf g.pa)).next ≤ s.now))
/-- A group that nobody is left to take is over: it is open, or it has been sent. -/
def MGrp.over (g : MGrp) : Bool := g.members.isEmpty && (!g.shut || decide (g.units ≤ g.pos))
/-- A member leaves its group, as its command completes or its task is killed. A closed group is still sent to every array that had joined;
an open one that all have left is gone. DESIGN CHOICE (unsafe; notes/assumptions 61). -/
def State.leaveGroup (s : State) (a : Nat) (seq : BitVec 16) : State :=
  let leave (g : MGrp) : MGrp := { g with members := g.members.filter (· != (a, seq)) }
  { s with die := s.die.map fun e => (e.1, { e.2 with grps := (e.2.grps.map leave).filter fun g => !g.over }) }
/-- A closed group that all members have left goes on: its slice sends its next flit in this cycle if it may. -/
def sendLeft (s : State) : State :=
  let s := (s.die.flatMap fun e => e.2.grps.filter fun g => g.shut && g.members.isEmpty).foldl (fun (s : State) g =>
    if s.mayFlit g then
      s.sentTo g (((List.range (g.units + 1)).find? fun n => decide (g.pos < n) && decide (g.flitsTo (g.pos + 1) < g.flitsTo (n + 1))).getD g.units)
    else s) s
  if s.die.all fun e => e.2.grps.all fun g => !g.over then s
  else { s with die := s.die.map fun e => (e.1, { e.2 with grps := e.2.grps.filter fun g => !g.over }) }

end Sys2Proof.Machine
end

