-- ==== Sys2Proof/Machine/Remote.lean ====
section
/-! DEFINITION. The accesses of the copy-class commands as they perform, and their completions: spec/07_movement.md R189, R190,
R197, R201-R219, R358 and spec/08_memory.md R228, R237-R243. An event that is not due leaves the machine as it is. -/

namespace Sys2Proof.Machine

open Sys2Proof

/-! ## Commands -/

def Arr.cmdOf (x : Arr) (seq : BitVec 16) : Option CCmd := x.cpy.cmds.find? fun m => m.seq == seq
def State.modCmd (s : State) (a : Nat) (seq : BitVec 16) (f : CCmd → CCmd) : State :=
  s.modA a fun x => x.modCpy fun y => { y with cmds := y.cmds.map fun m => if m.seq = seq then f m else m }
/-- The task on the array has been killed or the array has failed it: its commands stop (R310). -/
def Arr.killed (x : Arr) : Bool := match x.tsk.stop with | .kill _ _ _ _ => true | _ => false
/-- Vector accesses of the bundles up to cycle t have performed (R148, R194, R240). -/
def Arr.quiet (x : Arr) (t : Nat) : Bool :=
  !(x.cel.waves.any fun w => decide (w.cap.t ≤ t)) && !(x.cel.stq.any fun e => decide (e.ord / 64 ≤ t)) &&
  !(x.sca.pend.any fun w => match w.w with | .acc _ _ => decide (w.ord / 64 ≤ t) | _ => false)

/-- Accesses of the command wait: the array is not running it, or an access of it has parked (R295, R310). -/
def CCmd.stuck (m : CCmd) (x : Arr) : Bool := !x.tsk.run || x.killed || m.park.isSome
/-- The access would precede a local access of the command's own bundle or an earlier one, which an access to the own scratchpad may
not (R194, R240). -/
def CCmd.early (m : CCmd) (s : State) (a : Nat) (h : Home) : Bool :=
  match h with
  | .spad b _ _ => decide (b = a) && !(s.getA a).quiet m.t
  | _ => false

/-! ## Ordering (R217-R219, R228, R240) -/

/-- The scope code of the level of a barrier. -/
def levelScope (k : Tsk) (lvl : Nat) : Nat := ((k.levels[lvl]?).map (·.scope)).getD 6

/-- The NI holds back a remote access with place `n` in issue order to a home: behind an outstanding drain, and behind an exchange or a
barrier until its arrival; behind an exchange, for a window, until the swap. DEDUCED (safe; notes/assumptions 30). -/
def State.heldBack (s : State) (a n : Nat) (h : Option Home) : Bool :=
  let x := s.getA a
  let inWin (h : Home) : Bool := match h with | .spad b off _ => (s.getA b).tsk.inWindow off | _ => false
  x.cpy.cmds.any fun m => decide (m.n < n) && (match m.kind with
    | .ndrain _ => true
    | .eqx => !m.arrived || ((!m.whole || x.cpy.swapDue) && (h.map inWin).getD true)
    | .gbar _ => !m.arrived
    | _ => false)

/-- The NI holds back an access of a command: every access of a network command is the NI's (`net`), and of any other those to a home
outside the array (R240). -/
def State.heldAt (s : State) (a : Nat) (m : CCmd) (net : Bool) (va : Addr) (acc : Nat) : Bool :=
  let h := match s.locatePure a m.tr va 1 acc with | .ok h => some h | _ => none
  (net || (h.map (Home.away a)).getD true) && s.heldBack a m.n h

/-- The address an outstanding remote access writes. -/
def NKind.addr (o : NKind) : Addr :=
  match o with
  | .wr va _ _ => va
  | .sadd va _ _ _ _ => va
  | .bin h _ _ _ _ => h

/-- The first address of each page of a range. -/
def pagesOf (va : Addr) (n : Nat) : List Addr :=
  va :: ((List.range ((va.toNat + n - 1) / 65536 - va.toNat / 65536)).map fun i => BitVec.ofNat 72 ((va.toNat / 65536 + i + 1) * 65536))

/-- Every remote access issued by the array before place `n` has performed at a scope; an address whose home is not known yet counts as
within it (R217, R228, R240). -/
def State.drained (s : State) (a n scope : Nat) : Bool :=
  let x := s.getA a
  let near (net : Bool) (tr : TrCap) (va : Addr) (acc : Nat) : Bool :=
    match s.locatePure a tr va 1 acc with
    | .ok h => (net || h.away a) && decide (homeScope a h ≤ scope)
    | _ => true
  let pieces (m : CCmd) : List XPiece := m.plan.getD (if m.listsRead then (planOf x s.free m).ps else [])
  let reads (net : Bool) (m : CCmd) : Bool :=
    (pieces m).all fun q => q.got.isSome || (q.src.map fun v => !near net m.tr v 0).getD true
  (x.cpy.ni.all fun o => !decide (o.n < n) || !near true o.tr o.kind.addr 1) &&
  (x.cpy.cmds.all fun m => !decide (m.n < n) || m.whole || m.fault || (match m.kind with
    | .nrd _ _ _ => reads true m
    | .nwr _ _ _ => (pieces m).all fun q => q.done || !near true m.tr q.dst 1
    | .nrdx => m.listsRead && reads true m
    | .nsadd => !near true m.tr (tdBase m.tdd) 1
    | .nbin => !near true m.tr (nbHdr m.desc) 1
    | .natom _ _ _ ea _ _ _ => !near true m.tr ea 2
    | .nmcst _ => (List.range (mcNrep m.desc)).all fun i =>
        m.nth.testBit i || (pagesOf (mcRep m.desc i) (mcSize m.desc)).all fun v => !near true m.tr v 1
    | .cpy | .cpyg | .cpys | .cpym =>
      if m.listsRead then reads false m && (pieces m).all fun q => q.done || !near false m.tr q.dst 1
      else (x.tsk.ownOff 0 (tdBase m.tds)).isSome && (x.tsk.ownOff 0 (tdBase m.tdd)).isSome
    | _ => true))

/-! ## Failures (R190) -/

/-- Poison put on `n` bytes of an unwritten destination, where poison may go. -/
def State.poisonAt (s : State) (k : Tsk) (a : Nat) (tr : TrCap) (va : Addr) (n : Nat) : State :=
  match s.locatePureK k a tr va n 1 with
  | .ok h =>
    if s.guarded h n then s else (List.range n).foldl (fun (s : State) i => s.setPois (s.keyOf h + i) true) s
  | _ => s

/-- A command whose access failed: it writes no more, every destination word it has not written is poisoned, and it completes with
FAULT. DEDUCED (unsafe; notes/assumptions 29). -/
def State.failCmd (s : State) (a : Nat) (seq : BitVec 16) : State :=
  let x := s.getA a
  match x.cmdOf seq with
  | none => s
  | some m =>
    let ps := m.plan.getD (planOf x s.free m).ps
    let s := (ps.filter fun p => !p.done).foldl (fun (s : State) p => s.poisonAt x.tsk a m.tr p.dst p.n) s
    let s := match m.kind with
      | .nmcst _ => ((List.range (mcNrep m.desc)).filter fun i => !m.nth.testBit i).foldl
          (fun (s : State) i => (List.range (mcSize m.desc / 16)).foldl
            (fun (s : State) j => s.poisonAt x.tsk a m.tr (mcRep m.desc i + BitVec.ofNat 72 (16 * j)) 16) s) s
      | _ => s
    let (w, s) := match m.kind with
      | .natom _ _ _ _ _ _ (some _) => s.draw
      | _ => (0, s)
    s.modCmd a seq fun m =>
      { m with fault := true, whole := true, plan := some (ps.map fun p => { p with done := true }),
               old := (match m.kind with | .natom _ _ _ _ _ _ (some _) => some ⟨w, true⟩ | _ => m.old) }

/-- The same with its fault record (R294, R298). -/
def State.failRec (s : State) (a : Nat) (seq : BitVec 16) (tr : TrCap) (va : Addr) (acc kind level : Nat) : State :=
  (s.taskFault (s.getA a).tsk a tr va kind acc level 0 seq.toNat).failCmd a seq

/-- Bytes an outstanding remote access would still write. -/
def NKind.size (o : NKind) : Nat :=
  match o with
  | .wr _ l _ => l.length
  | .sadd _ m _ _ _ => saSize m
  | .bin _ _ _ _ _ => 0

/-- Poison on the destination words that a network write has not sent yet (R190). -/
def State.poisonUnsent (s : State) (a : Nat) (k : Tsk) (m : CCmd) : State :=
  match m.kind with
  | .nwr _ _ _ => ((m.plan.getD (planOf (s.getA a) s.free m).ps).filter fun p => !p.done).foldl
      (fun (s : State) p => s.poisonAt k a m.tr p.dst p.n) s
  | .nmcst false => (m.units.filter fun u => !m.unitRead u).foldl (fun (s : State) u => (List.range (mcNrep m.desc)).foldl
      (fun (s : State) i => s.poisonAt k a m.tr (mcRep m.desc i + BitVec.ofNat 72 (16 * u - mcSrc m.desc)) 16) s) s
  | _ => s
/-- A remote access of a command failed: the record, and the command's remaining accesses dropped with their destination words
poisoned. A command that has not completed sends no more and completes with FAULT (R190, R241). -/
def State.failNi (s : State) (a : Nat) (k : Tsk) (o : NIOp) (va : Addr) (acc kind level : Nat) : State :=
  let s := s.taskFault k a o.tr va kind acc level 0 o.seq.toNat
  let x := s.getA a
  let live := if o.own.isSome then none else (x.cmdOf o.seq).filter fun m => m.n == o.n
  let rest := x.cpy.ni.filter fun e => e.seq == o.seq && e.n == o.n && e.own == o.own
  let s := rest.foldl (fun (s : State) e => s.poisonAt k a e.tr e.kind.addr e.kind.size) s
  let s := s.modA a fun x => x.modCpy fun y => { y with ni := y.ni.filter fun e => !(e.seq == o.seq && e.n == o.n && e.own == o.own) }
  match live with
  | some m => (s.poisonUnsent a k m).modCmd a o.seq fun m => { m with fault := true, whole := true }
  | none => s

/-! ## Walks (R289) -/

/-- The array enters the fault-wait state (R295): its gang is to be preempted at the next boundary, after S code if that runs (R278). -/
def Arr.faultWait (x : Arr) : Arr := x.modCsr fun c => { c with preq := true }
/-- The array has stopped at a boundary for a save. -/
def Arr.stopping (x : Arr) : Bool := match x.tsk.stop with | .preempt | .park => true | _ => false

/-- An access waits on a walk of its page: one in flight, or a new one while the die's walker has room. It misses once (R281). -/
def State.startWalk (s : State) (a : Nat) (tr : TrCap) (va : Addr) (acc : Nat) (seq : BitVec 16) (u : WUnit) : State :=
  let d := s.getD (a / 32)
  let vpn := va.toNat / 65536
  let w : Waiter := ⟨a, seq, va, acc, u⟩
  let same (k : Walk) : Bool := k.part == tr.part && k.ctx == tr.ctx && k.vpn == vpn
  if d.walks.any fun k => same k && k.waiters.contains w then s
  else if d.walks.any same then
    (s.countA a 12 1).modD (a / 32) fun d => { d with walks := d.walks.map (fun k =>
      if same k then { k with waiters := k.waiters ++ [w] } else k) }
  else if d.walks.length < 32 then
    let root := at16 (tr.tlb.extractLsb' 0 56)
    (((s.walkKeys tr.part va.toNat 4 root).foldl (fun (s : State) k => (s.physRead k 8).2) s).countA a 12 1).modD (a / 32) fun d => { d with walks := d.walks ++ [⟨tr.part, tr.ctx, vpn, root, d.tgen, s.walk tr.part va.toNat 4 root, [w]⟩] }
  else s

/-- One access translated: it reaches its home, is left for a port that takes no flit now, is left waiting on a walk, or fails. -/
def State.reach (s : State) (k : Tsk) (a : Nat) (tr : TrCap) (va : Addr) (n acc : Nat) (seq : BitVec 16) (u : WUnit)
    (ok : Home → State → State) (bad : Nat → Nat → State → State) : State :=
  match s.locateK k a tr va n acc with
  | (.ok h, s) => if s.portWaits h then s else ok h s
  | (.miss, s) => s.startWalk a tr va acc seq u
  | (.bad kd l, s) => bad kd l s
/-- The same of an access that performs there: the lines it touches are present. -/
def State.access (s : State) (k : Tsk) (a : Nat) (tr : TrCap) (va : Addr) (n acc : Nat) (seq : BitVec 16) (u : WUnit)
    (ok : Home → State → State) (bad : Nat → Nat → State → State) : State :=
  s.reach k a tr va n acc seq u (fun h s => ok h (s.touch a h n)) bad

/-- Whether accesses of a command can all perform: they can, some wait on walks, or one is not mapped (R289, R294). -/
inductive Ready where
  | ok | wait | bad (va : Addr) (kind level : Nat)
  deriving DecidableEq, Repr
def State.readyAll (s : State) (a : Nat) (tr : TrCap) (seq : BitVec 16) (u : WUnit) (acc : Nat) (l : List (Addr × Nat)) : Ready × State :=
  l.foldl (fun (r, s) e =>
    match r with
    | .bad v k l => (.bad v k l, s)
    | r =>
      match State.locate s a tr e.1 e.2 acc with
      | (.ok h, s) => (if s.portWaits h then .wait else r, s)
      | (.miss, s) => (.wait, s.startWalk a tr e.1 acc seq u)
      | (.bad k l, s) => (.bad e.1 k l, s)) (.ok, s)

/-! ## Lists and sources in the own scratchpad -/

/-- Remote accesses sent (R241). Those of a command with an access that waits, or has parked, keep their place behind it (R301). -/
def State.spawn (s : State) (a : Nat) (m : CCmd) (l : List NKind) : State :=
  s.modA a fun x => x.modCpy fun y =>
    let mine := y.ni.filter fun e => e.n == m.n && e.own.isNone
    { y with ni := y.ni ++ l.map fun k => ⟨m.n, m.seq, m.tr, k, mine.findSome? (·.park), m.inord || mine.any (·.inord), none⟩ }

/-- Poisoned bytes are bound for a place where poison may not go, as far as translation tells (R190, R249). -/
def State.boundPois (s : State) (a : Nat) (tr : TrCap) (va : Addr) (pz : List Bool) : Bool :=
  pz.any id && (match s.locatePure a tr va pz.length 1 with
    | .ok h => s.guarded h pz.length
    | _ => false)

/-- The port of the asynchronous path that a command's accesses use at a scratchpad (R231): 1 the copy engine, 2 gather and scatter,
3 collectives; 4 at another array's, and for every update. -/
def CCmd.port (m : CCmd) : Nat :=
  match m.kind with
  | .cpyg | .cpys | .nrdx | .nsadd | .nbin => 2
  | .nred _ _ | .nmcst _ => 3
  | _ => 1

/-- A 16-byte unit of a list read; without `.ord` a multicast write sends its replicas of the unit (R216, R238). -/
def readList (a : Nat) (m : CCmd) (i : Nat) (s : State) : State :=
  match m.units[i]? with
  | none => s
  | some u =>
    if m.unitRead u || !m.unitNext i || m.fault || !(s.getA a).quiet m.t || (m.inord && (m.units.take i).any fun v => !m.unitRead v) then s
    else
      let g := s.askRead m.port (.spad a (16 * u) false)
      if !g.1 then g.2
      else
      let s := g.2
      let x := s.getA a
      let r := (List.range 4).foldl (fun (l, s) j =>
        let q := State.spadRead s a (x.localOff (16 * u + 4 * j))
        (l ++ [(4 * u + j, q.1, q.2.1)], q.2.2)) ([], s)
      let s := r.2.modCmd a m.seq fun m => { m with lbuf := m.lbuf ++ r.1 }
      match m.kind with
      | .nmcst false =>
        let bytes := r.1.flatMap fun e => leBytes 4 e.2.1.toNat
        let pz := r.1.flatMap fun e => List.replicate 4 e.2.2
        let to_ (i : Nat) : Addr := mcRep m.desc i + BitVec.ofNat 72 (16 * u - mcSrc m.desc)
        let hot := (List.range (mcNrep m.desc)).any fun i => s.boundPois a m.tr (to_ i) pz
        (s.spawn a m ((List.range (mcNrep m.desc)).map fun i => .wr (to_ i) bytes pz)).modCmd a m.seq fun m => { m with pz := m.pz || hot }
      | _ => s

/-! ## Reductions meet (R214, R215) -/

/-- The command of participant `i` that meets this one: the same kind and level, the same place among them. -/
def State.partner (s : State) (a : Nat) (lvl : Nat) (m : CCmd) (same : CKind → CCmd → Bool) (i : Nat) : Option (Nat × CCmd) :=
  match (s.getA a).tsk.peerArr lvl i with
  | none => none
  | some b =>
    if s.sameGang (s.getA a).tsk a b then
      ((s.getA b).cpy.cmds.find? fun q => same m.kind q && q.nth == m.nth).map fun q => (b, q)
    else none

def sameNred (lvl : Nat) (_ : CKind) (q : CCmd) : Bool := match q.kind with | .nred _ _ => redLvl q.desc == lvl | _ => false

/-- A reduction fails with its destination poisoned (R215). -/
def State.failNred (s : State) (a : Nat) (seq : BitVec 16) : State :=
  (s.modCmd a seq fun q => if q.plan.isSome then q else
    { q with plan := some (redPlan q (List.replicate (redE q.desc) (0, true))).ps }).failCmd a seq
/-- A reduction that has read its source: with every participant's read, the results are known to each; unequal ones fail each, those
that issue later too (R215). DESIGN CHOICE (unsafe; notes/assumptions 63). -/
def meetNred (a : Nat) (m : CCmd) (op : BitVec 3) (t : VT) (s : State) : State :=
  let pc := redPc m.desc
  let lv := redLvl m.desc
  if pc = 0 then
    s.modCmd a m.seq fun m => { m with plan := some (redPlan m (List.replicate (redE m.desc) (redId op t, false))).ps, empty := true, arrived := true }
  else if pc = 1 then s.modCmd a m.seq fun m => { m with plan := some (redPlan m (redWords m)).ps, arrived := true }
  else
    let ps := (List.range pc).map (s.partner a lv m (sameNred lv))
    let all := ps.filterMap id
    if all.any fun e => redE e.2.desc != redE m.desc || redPc e.2.desc != pc || decide (e.2.kind ≠ m.kind) then
      let n := all.foldl (fun k e => max k (redPc e.2.desc)) pc
      let late := ((List.range n).filterMap fun i => (s.getA a).tsk.peerArr lv i).filter fun b => !all.any fun e => e.1 == b
      let s := late.foldl (fun (s : State) b => s.modA b fun x => x.modCpy fun y => { y with unmet := y.unmet ++ [(lv, m.nth)] }) s
      all.foldl (fun (s : State) e => s.failNred e.1 e.2.seq) s
    else if all.length = pc ∧ all.all (fun e => e.2.listsRead) = true then
      let ws := all.map fun e => redWords e.2
      let vals := (List.range (redE m.desc)).map (redAt op t ws)
      all.foldl (fun (s : State) e => s.modCmd e.1 e.2.seq fun q => { q with plan := some (redPlan q vals).ps, arrived := true }) s
    else s

/-! ## Plans made -/

/-- What becomes known once the lists are read: the pieces of a copy, the adds and appends of a scatter, a reduction's arrival. A command loaded
with its frame has the first unit to perform in `count` until then (R280, R295). -/
def settle (a : Nat) (seq : BitVec 16) (s : State) : State :=
  let x := s.getA a
  match x.cmdOf seq with
  | none => s
  | some m =>
    if m.fault || m.whole || !m.listsRead then s
    else match m.kind with
      | .cpy | .cpym | .cpyg | .cpys | .nrd _ _ _ | .nwr _ _ _ | .nrdx =>
        if m.plan.isSome then s
        else
          let p := planOf x s.free m
          let f := match m.kind with | .nrdx => p.count | _ => 0
          ({ s with free := s.free + f } : State).modCmd a seq fun m =>
            { m with plan := some (p.ps.zipIdx.map fun e => { e.1 with done := e.1.done || decide (e.2 < m.count) }), oob := p.oobS || p.oobD,
                     count := p.count, pz := m.pz || p.pz }
      | .nsadd =>
        let r := saPlan m
        (s.spawn a m r.1).modCmd a seq fun m =>
          { m with whole := true, count := saCount m.desc, oob := r.2.1, ovf := r.2.2.1, pz := m.pz || r.2.2.2 }
      | .nbin =>
        match m.plan with
        | none => s.modCmd a seq fun m => { m with plan := some (nbHead m).ps }
        | some ps =>
          if ps.all fun p => p.got.isSome then
            let r := nbPlan m (nbFields ps)
            (s.spawn a m r.1).modCmd a seq fun m =>
              { m with whole := true, count := saCount m.desc, oob := r.2.1, pz := m.pz || r.2.2 }
          else s
      | .nred op t =>
        if m.arrived then s
        else if x.cpy.unmet.contains (redLvl m.desc, m.nth) then
          (s.modA a fun x => x.modCpy fun y => { y with unmet := y.unmet.erase (redLvl m.desc, m.nth) }).failNred a seq
        else meetNred a m op t s
      | .nmcst false => s.modCmd a seq fun m => { m with whole := true, count := mcSize m.desc / 16 }
      | _ => s

/-! ## Reads and writes of pieces (R197, R201, R228, R238) -/

/-- Bytes of the unit a command reads and writes at once. -/
def CCmd.unit (m : CCmd) : Nat :=
  match m.kind with
  | .nrd _ _ _ | .nwr _ _ _ => 8
  | _ => 16
/-- The least and the greatest end of addresses. -/
def spanOf (l : List (Addr × Nat)) : Nat × Nat :=
  match l with
  | [] => (0, 0)
  | e :: l => l.foldl (fun (lo, hi) e => (min lo e.1.toNat, max hi (e.1.toNat + e.2))) (e.1.toNat, e.1.toNat + e.2)
/-- A home displaced within its unit. -/
def Home.plus (h : Home) (d : Nat) : Home :=
  match h with
  | .spad a off f => .spad a (off + d) f
  | .vault a off => .vault a (off + d)
  | .phys pa => .phys (pa + d)
/-- Pieces of the source unit of piece `p` that are read with it and not yet read. -/
def readMates (u : Nat) (p q : XPiece) : Bool :=
  q.got.isNone && q.grp == p.grp && (match p.src, q.src with
    | some v, some w => v.toNat / u == w.toNat / u
    | _, _ => false)
/-- The values of pieces read from a home that starts at address `lo`. -/
def takeRead (h : Home) (lo : Nat) (f : XPiece → Bool) (ps : List XPiece) (s : State) : List XPiece × State :=
  ps.foldl (fun (l, s) q =>
    if f q then
      let r := State.readHome s (h.plus ((q.src.getD 0).toNat - lo)) q.n
      (l ++ [{ q with got := some (BitVec.ofNat 64 r.1, r.2.1) }], r.2.2)
    else (l ++ [q], s)) ([], s)

/-- The read of the source unit of a piece. -/
def readUnit (a : Nat) (m : CCmd) (ps : List XPiece) (p : XPiece) (s : State) : State :=
  match p.src with
  | none => s
  | some _ =>
    let f := readMates m.unit p
    let (lo, hi) := spanOf ((ps.filter f).filterMap fun q => q.src.map fun v => (v, q.n))
    let va := BitVec.ofNat 72 lo
    let x := s.getA a
    let net := match m.kind with | .nrd _ _ _ | .nrdx | .nbin => true | _ => false
    let first := ps.find? fun q => q.got.isNone
    if p.got.isSome || (m.inord && !(first.map f).getD true) || s.heldAt a m net va 0 then s
    else s.access x.tsk a m.tr va (hi - lo) 0 m.seq .cpy
      (fun h s =>
        if m.early s a h then s
        else
          let g := s.askRead (if h.away a then 4 else m.port) h
          if !g.1 then g.2
          else
          let r := takeRead h lo f ps g.2
          let s := r.2.modCmd a m.seq fun m => { m with plan := some r.1 }
          settle a m.seq (if net || h.away a then s.countA a 7 1 else s))
      (fun k l s => s.failRec a m.seq m.tr va 0 k l)

/-- The members of the shut multicast group that a command has joined (R208). -/
def groupOf (a : Nat) (m : CCmd) (s : State) : Option MGrp :=
  s.die.findSome? fun d => d.2.grps.find? fun g => g.shut && g.members.contains (a, m.seq)

/-- The group of a command sends its next unit: the read performs, once for all members (R208), units in ascending order and groups in
the order in which they closed (R255). -/
def readGroup (a : Nat) (m : CCmd) (p : XPiece) (s : State) : State :=
  match groupOf a m s, mcSpan m.desc m.tds with
  | some g, some (lo, _) =>
    if p.got.isSome || !s.mayFlit g then s
    else
      let here (q : XPiece) : Bool := q.got.isNone && (match q.src with | some v => v.toNat / 16 == lo / 16 + g.pos | none => false)
      (g.members.foldl (fun (s : State) e =>
        match (s.getA e.1).cmdOf e.2 with
        | none => s
        | some q =>
          let ps := q.plan.getD (planOf (s.getA e.1) 0 q).ps
          let r := takeRead (.phys g.pa) lo here ps s
          r.2.modCmd e.1 e.2 fun q => { q with plan := some r.1 }) s).sentTo g (g.pos + 1)
  | _, _ => s

/-- The bytes of a piece as it writes them, with their poison. -/
def XPiece.out (ps : List XPiece) (p : XPiece) : List (Addr × Byte × Bool) :=
  let v := ((p.got.getD (0, false)).1 &&& p.mask) ||| p.cst
  let pz := if p.orp then ps.any fun q => q.el == p.el && (q.got.getD (0, false)).2 else (p.got.getD (0, false)).2
  (leBytes p.n v.toNat).zipIdx.map fun e => (p.dst + BitVec.ofNat 72 e.2, e.1, pz)

/-- Bytes in address order, the last writer of an address kept. -/
def byAddr (l : List (Addr × Byte × Bool)) : SMap (Byte × Bool) := l.foldl (fun m e => SMap.put m e.1.toNat e.2) []
/-- Runs of consecutive addresses. -/
def runsOf (l : SMap (Byte × Bool)) : List (Nat × List Byte × List Bool) :=
  l.foldr (fun e r =>
    match r with
    | (b, bs, ps) :: r => if b = e.1 + 1 then (e.1, e.2.1 :: bs, e.2.2 :: ps) :: r else (e.1, [e.2.1], [e.2.2]) :: (b, bs, ps) :: r
    | [] => [(e.1, [e.2.1], [e.2.2])]) []

/-- Writes of bytes that lie in the unit at a home whose first byte has address `lo`. Poisoned bytes are dropped where poison may not
go; the second result tells whether some were. -/
def putRuns (k : Tsk) (a id lo : Nat) (h : Home) (l : List (Addr × Byte × Bool)) (s : State) : State × Bool :=
  let g := s.guarded h (l.length)
  let keep := if g then l.filter fun e => !e.2.2 else l
  ((runsOf (byAddr keep)).foldl (fun (s : State) r => s.writeHomeP k a id (h.plus (r.1 - lo)) r.2.1 r.2.2) s, keep.length != l.length)

/-- The write of the destination unit of a piece: in the order of the plan (R201); the halo elements of a unit before its others when
another unit has some too (R197); the elements of an indexed read in index order (R211). -/
def writeUnit (a : Nat) (m : CCmd) (ps : List XPiece) (p : XPiece) (s : State) : State :=
  let u := m.unit
  let here (q : XPiece) : Bool := !q.done && q.dst.toNat / u == p.dst.toNat / u
  let halos := ps.any fun q => q.halo && !q.done && !here q
  let mine (q : XPiece) : Bool := here q && (q.halo || !halos)
  let qs := ps.filter mine
  let order := match m.kind with | .nrdx => true | _ => false
  let top := qs.foldl (fun n q => max n q.el) 0
  let first := ((ps.filter fun q => q.halo && !q.done) ++ ps.filter fun q => !q.halo && !q.done).head?
  if qs.isEmpty || (ps.any fun q => q.got.isNone && qs.any fun r => r.el == q.el) ||
      (order && ps.any fun q => !q.done && decide (q.el < top) && !mine q) || (m.inord && !(first.map mine).getD true) then s
  else
    let bytes := ((qs.filter (·.halo)) ++ qs.filter fun q => !q.halo).flatMap (XPiece.out ps)
    let (lo, hi) := spanOf (bytes.map fun e => (e.1, 1))
    let va := BitVec.ofNat 72 lo
    match m.kind with
    | .nwr _ _ _ =>
      (s.spawn a m [.wr va (bytes.map (·.2.1)) (bytes.map (·.2.2))]).modCmd a m.seq fun m =>
        { m with plan := some (ps.map fun q => if mine q then { q with done := true } else q),
                 pz := m.pz || s.boundPois a m.tr va (bytes.map (·.2.2)) }
    | _ =>
      if s.heldAt a m false va 1 then s
      else s.access (s.getA a).tsk a m.tr va (hi - lo) 1 m.seq .cpy
        (fun h s =>
          if m.early s a h || s.excluded h then s
          else
            let r := putRuns (s.getA a).tsk a m.n lo h bytes s
            let s := if h.away a then r.1.countA a 19 1 else r.1
            s.modCmd a m.seq fun m =>
              { m with plan := some (ps.map fun q => if mine q then { q with done := true } else q), pz := m.pz || r.2 })
        (fun k l s => s.failRec a m.seq m.tr va 1 k l)

/-- Every participant's destination is written: the reduction is over for all (R241). -/
def endNred (a : Nat) (m : CCmd) (s : State) : State :=
  match m.kind with
  | .nred _ _ =>
    let mine (m : CCmd) : Bool := m.arrived && (m.plan.map fun p => p.all (·.done)).getD false
    match (s.getA a).cmdOf m.seq with
    | none => s
    | some m =>
      if redPc m.desc ≤ 1 then (if mine m then s.modCmd a m.seq fun m => { m with whole := true, count := redE m.desc } else s)
      else
        let lv := redLvl m.desc
        let all := (List.range (redPc m.desc)).map (s.partner a lv m (sameNred lv))
        if all.all fun e => (e.map fun e => mine e.2).getD false then
          (all.filterMap id).foldl (fun (s : State) e => s.modCmd e.1 e.2.seq fun m => { m with whole := true, count := redE m.desc }) s
        else s
  | _ => s

/-! ## Atomics (R210, R243) -/

/-- The new value of an atomic, of `n` bytes. -/
def atomNew (op n : Nat) (old x y : Word) : Word :=
  let t (v : Word) : Nat := v.toNat % 2 ^ (8 * n)
  let i (v : Word) : Int := sInt (8 * n) v.toNat
  let r : Nat :=
    match op with
    | 0 => (t old + t x) % 2 ^ (8 * n)
    | 1 => if i x < i old then t x else t old
    | 2 => if i old < i x then t x else t old
    | 3 => if t old = t x then t y else t old
    | 4 => t x
    | 5 => t (old &&& x)
    | _ => t (old ||| x)
  BitVec.ofNat 64 r

/-- An atomic performed. Host memory takes only `add`, `cas` and `xchg`, and the root complex may refuse (R243). Poisoned data bound for
a place that takes none is dropped, with PZ (R190, R249). DEDUCED (unsafe; notes/assumptions 29). -/
def doNatom (a : Nat) (m : CCmd) (op : Nat) (w : Bool) (scope : BitVec 3) (ea : Addr) (x y : PV) (reply : Bool) (s : State) : State :=
  let n := if w then 8 else 4
  if m.whole || s.heldAt a m true ea 2 then s
  else s.access (s.getA a).tsk a m.tr ea n 2 m.seq .cpy
    (fun h s =>
      let g := if m.early s a h || s.excluded h then (false, s) else s.askRead 4 h
      let s := g.2
      if !g.1 then s else
      let host := match h with | .phys pa => spaceOf pa == 4 | _ => false
      let (fw, s) := if host then s.draw else (0, s)
      if scope.toNat < homeScope a h || (host && !(op == 0 || op == 3 || op == 4)) || (host && bitAt fw 0) then s.failCmd a m.seq
      else
        let r := s.readHome h n
        let old : Word := BitVec.ofNat 64 r.1
        let p := r.2.1 || x.p
        if (p || (op == 3 && y.p)) && s.guarded h n then
          -- poisoned data goes to no such place: the update is dropped
          let (w, s) := r.2.2.draw
          s.modCmd a m.seq fun m => { m with whole := true, count := 1, pz := true, old := some ⟨w, true⟩ }
        else
        let s := r.2.2.writeHome a h (leBytes n (atomNew op n old x.v y.v).toNat) p
        let s := if reply then s.modA a fun x => x.modTsk fun k => { k with sig := k.sig ++ [(m.t * 2 ^ 32 + m.n % 2 ^ 32, old)] } else s
        s.modCmd a m.seq fun m => { m with whole := true, count := 1, old := some ⟨old, r.2.1⟩ })
    (fun k l s => s.failRec a m.seq m.tr ea 2 k l)

/-! ## Ordered replicas (R216, R244) -/

/-- Replica `i` of an ordered multicast write, whole. -/
def writeReplica (a : Nat) (m : CCmd) (i : Nat) (s : State) : State :=
  let va := mcRep m.desc i
  let n := mcSize m.desc
  if mcNrep m.desc ≤ i || m.nth.testBit i || !m.listsRead || m.whole || (m.inord && (List.range i).any fun j => !m.nth.testBit j) then s
  else if (pagesOf va n).any fun v => s.heldAt a m true v 1 then s
  else
    -- the last page is translated before anything is written
    let last := va + BitVec.ofNat 72 (n - 16)
    s.access (s.getA a).tsk a m.tr last 16 1 m.seq .cpy (fun hl s =>
      s.access (s.getA a).tsk a m.tr va 16 1 m.seq .cpy (fun h0 s =>
        if s.excluded h0 || s.excluded hl then s else
        let l := (m.listBytes (mcSrc m.desc) n)
        let first := min n (65536 - va.toNat % 65536)
        let put (h : Home) (off k : Nat) (s : State) : State × Bool :=
          let r := putRuns (s.getA a).tsk a m.n 0 h (((l.drop off).take k).zipIdx.map fun e => (BitVec.ofNat 72 e.2, e.1.1, e.1.2)) s
          (if h.outside then r.1.asMulticast s h else r.1, r.2)
        let p := put h0 0 first s
        let q := if first < n then
            (match hl with | .phys pa => put (.phys (pa - pa % 65536)) first (n - first) p.1 | _ => (p.1, false)) else (p.1, false)
        let drop := p.2 || q.2
        let s := q.1.countA a 19 (n / 16)
        s.modCmd a m.seq fun m =>
          let w := m.nth + 2 ^ i
          { m with nth := w, whole := w == 2 ^ mcNrep m.desc - 1, count := n / 16, pz := m.pz || drop })
        (fun k l s => s.failRec a m.seq m.tr va 1 k l))
      (fun k l s => s.failRec a m.seq m.tr last 1 k l)

/-! ## Outstanding remote accesses -/

/-- One outstanding remote access removed. -/
def dropNi (a i : Nat) (s : State) : State := s.modA a fun x => x.modCpy fun y => { y with ni := y.ni.eraseIdx i }

/-- A poisoned value met where it may not be used: its command completes with PZ, or, completed already, the task is killed (R190). -/
def State.niPois (s : State) (a : Nat) (o : NIOp) : State :=
  if o.own.isSome then s
  else match (s.getA a).cmdOf o.seq with
    | some m => if m.n = o.n then s.modCmd a o.seq fun m => { m with pz := true } else s
    | none => s.modA a fun x => if x.killed then x else x.stopKill Cause.poisonkill.code 0 x.sca.pc false

/-- An append performed: the bin's counter, then the record's units, or the overflow count, flag and region (R213). A poisoned counter or
overflow count is no index: the record is dropped (R190). DEDUCED (unsafe; notes/assumptions 28). -/
def doBin (a i : Nat) (o : NIOp) (k : Tsk) (h : Addr) (f : List Nat) (key : Nat) (bytes : List Byte) (pz : List Bool) (s : State) : State :=
  let ctr := h + BitVec.ofNat 72 (32 + 4 * key)
  let at_ (n : Nat) : Nat := f.getD n 0
  let units (base : Nat) : List NIOp := (List.range 4).map fun j =>
    { o with kind := .wr (h + BitVec.ofNat 72 (base + 16 * j)) ((bytes.drop (16 * j)).take 16) ((pz.drop (16 * j)).take 16) }
  let spad (hm : Home) : Bool := match hm with | .spad _ _ _ => true | _ => false
  s.access k a o.tr ctr 4 2 o.seq .ni
    (fun hc s =>
      let g := if s.excluded hc then (false, s) else s.askRead 4 hc
      let s := g.2
      if !spad hc then s.failNi a k o ctr 2 4 0xFF
      else if !g.1 then s
      else
        let r := s.readHome hc 4
        let slot := r.1
        let s := (r.2.2.writeHome a hc (leBytes 4 (slot + 1)) r.2.1).countA a 19 1
        let add (l : List NIOp) (s : State) : State := s.modA a fun x => x.modCpy fun y => { y with ni := y.ni.eraseIdx i ++ l }
        if r.2.1 then add [] (s.niPois a o)
        else if slot < at_ 1 then add (units (at_ 3 + 64 * (key * at_ 1 + slot))) s
        else
          match s.locatePureK k a o.tr (h + 16) 4 2, s.locatePureK k a o.tr (h + 12) 4 2 with
          | .ok ho, .ok hf =>
            let q := s.readHome ho 4
            let n := q.1
            let s := q.2.2.writeHome a ho (leBytes 4 (n + 1)) q.2.1
            let fl := s.readHome hf 4
            let s := fl.2.2.writeHome a hf (leBytes 4 (fl.1 ||| 1)) fl.2.1
            if q.2.1 then add [] (s.niPois a o) else add (if n < at_ 2 then units (at_ 4 + 64 * n) else []) s
          | _, _ => s.failNi a k o (h + 16) 2 4 0xFF)
    (fun kd l s => s.failNi a k o ctr 2 kd l)

/-- A sequence number is a multicast write's (R216). -/
def Arr.spreads (x : Arr) (seq : BitVec 16) : Bool := ((x.cmdOf seq).map fun m => match m.kind with | .nmcst _ => true | _ => false).getD false

/-- Outstanding remote access `i` of the array performed. Adds to one element by one command keep their order (R212), appends to one
bin theirs (R213), and the accesses from a parked one on all theirs (R295, R301). -/
def doNi (a i : Nat) (s : State) : State :=
  let x := s.getA a
  match x.cpy.ni[i]? with
  | none => s
  | some o =>
    let k := o.own.getD x.tsk
    let va := o.kind.addr
    let before := (x.cpy.ni.take i).any fun e => e.n == o.n && e.own == o.own && (o.inord || (match e.kind, o.kind with
      | .sadd v _ _ _ _, .sadd w _ _ _ _ => v == w
      | .bin _ _ p _ _, .bin _ _ q _ _ => p == q
      | _, _ => false))
    if o.park.isSome || before || s.heldBack a o.n (match s.locatePureK k a o.tr va 1 1 with | .ok h => some h | _ => none) then s
    else match o.kind with
      | .wr va bytes pz =>
        s.access k a o.tr va bytes.length 1 o.seq .ni
          (fun h s =>
            if s.excluded h then s else
            let s := if s.guarded h bytes.length && pz.any id then s.niPois a o else s
            let t := (putRuns k a o.n va.toNat h ((bytes.zip pz).zipIdx.map fun e => (va + BitVec.ofNat 72 e.2, e.1)) s).1
            let t := if h.outside && x.spreads o.seq then t.asMulticast s h else t
            dropNi a i (t.countA a 19 1))
          (fun kd l s => s.failNi a k o va 1 kd l)
      | .sadd va mode val skip pz =>
        let n := saSize mode
        s.access k a o.tr va n 2 o.seq .ni
          (fun h s =>
            match h with
            | .spad _ _ _ =>
              let g := if s.excluded h then (false, s) else s.askRead 4 h
              let s := g.2
              if !g.1 then s else
              let r := s.readHome h n
              let new := if skip then BitVec.ofNat 64 r.1 else saAdd mode (BitVec.ofNat 64 r.1) val
              dropNi a i ((r.2.2.writeHome a h (leBytes n new.toNat) (r.2.1 || pz)).countA a 19 1)
            | _ => s.failNi a k o va 2 4 0xFF)
          (fun kd l s => s.failNi a k o va 2 kd l)
      | .bin h f key bytes pz => doBin a i o k h f key bytes pz s

/-! ## The event -/

/-- One access of a command (R228, R238, R240): `unit` mod 4 is 0 for a list unit, 1 for the read of a piece's source unit, 2 for
the write of a piece's destination unit or a replica, 3 for an outstanding remote access by its place in the list. -/
def performAccess (a : Nat) (seq : BitVec 16) (unit : Nat) (s : State) : State :=
  let i := unit / 4
  if unit % 4 = 3 then
    (if ((s.getA a).cpy.ni[i]?.map fun o => o.seq == seq).getD false then doNi a i s else s)
  else
    let s := settle a seq s
    let x := s.getA a
    match x.cmdOf seq with
    | none => s
    | some m =>
      if m.stuck x || m.fault then s
      else match m.kind with
        | .natom op w sc ea v y q => doNatom a m op w sc ea v y q.isSome s
        | _ =>
          if unit % 4 = 0 then settle a seq (readList a m i s)
          else if unit % 4 = 1 then
            match (m.plan.getD [])[i]? with
            | none => s
            | some p =>
              (match m.kind with
              | .cpym => readGroup a m p s
              | _ => readUnit a m (m.plan.getD []) p s)
          else match m.kind with
            | .nmcst true => writeReplica a m i s
            | _ =>
              match (m.plan.getD [])[i]? with
              | none => s
              | some p => endNred a m (writeUnit a m (m.plan.getD []) p s)

/-! ## Completion (R189, R190, R194, R204, R206, R241) -/

/-- The command's own work is over. -/
def State.cmdDone (s : State) (a : Nat) (m : CCmd) : Bool :=
  let all := (m.plan.map fun p => p.all (·.done)).getD false
  m.fault || (match m.kind with
  | .cpy | .cpyg | .cpys | .cpym | .nrd _ _ _ | .nwr _ _ _ | .nrdx => all
  | .lblk t =>
    let b := SMap.get LBlk.none (s.getA a).cpy.lb t
    b.ready || !b.held || b.seq != m.seq
  | .eqx => m.whole && !(s.getA a).cpy.swapDue
  | .ndrain sc => s.drained a m.n sc.toNat
  | .ctxsv _ _ | .ctxld _ => m.whole
  | _ => m.whole)

/-- The status word (R189). -/
def CCmd.status (m : CCmd) : Word :=
  BitVec.ofNat 64 (m.count * 2 ^ 32 + (if m.pz then 2 ^ 20 else 0) + (if m.fault then 2 ^ 19 else 0) + (if m.empty then 2 ^ 18 else 0) +
    (if m.ovf then 2 ^ 17 else 0) + (if m.oob then 2 ^ 16 else 0) + m.seq.toNat)

/-- A reserved entry filled (R189, R210). -/
def Arr.fillHead (x : Arr) (q : Nat) (seq : BitVec 16) (v : PV) : Arr :=
  x.modSca fun c => { c with heads := SMap.mod [] c.heads q (fun l =>
    l.map fun e => if e.seq = seq ∧ e.val = none then { e with val := some v } else e) }

/-- A ring counter advanced past every completed slot reached in order. -/
def advance (n : Nat) (c : W32) (ds : List Nat) : W32 × List Nat :=
  match n with
  | 0 => (c, ds)
  | n + 1 => if ds.contains c.toNat then advance n (c + 1) (ds.erase c.toNat) else (c, ds)
/-- A slot of a ring completed (R204). -/
def slotDone (src : Bool) (e : Nat × Nat) (y : Cpy) : Cpy :=
  { y with cb := SMap.mod CBuf.none y.cb e.1 (fun b =>
      let ds := b.doneSlots ++ [e.2]
      let r := advance ds.length (if src then b.con else b.ful) ds
      if src then { b with con := r.1, doneSlots := r.2 } else { b with ful := r.1, doneSlots := r.2 }) }

/-- The completion of a command. -/
def completeCmd (a : Nat) (m : CCmd) (s : State) : State :=
  let x0 := s.getA a
  let pl := match m.kind with
    | .cpy | .cpym | .cpyg | .cpys | .nrdx => if m.listsRead then planOf x0 0 m else default
    | _ => default
  let sticky (b : Bool) (n : Nat) (y : Cpy) : Cpy := if b then { y with tdt := SMap.mod 0#1024 y.tdt n fun t => bitSet t 86 true } else y
  let single := match m.kind with | .nsadd => true | _ => false
  let s := s.modA a fun x =>
    let x := (x.setOwn m.tiles false).modCpy fun y =>
      let y := (m.scb.map fun e => slotDone true e y).getD y
      let y := (m.dcb.map fun e => slotDone false e y).getD y
      let y := sticky (pl.oobS) (hTds m.desc) y
      let y := sticky (pl.oobD || (single && m.oob)) (hTdd m.desc) y
      { y with cmds := y.cmds.filter fun q => q.seq != m.seq }
    let x : Arr := match postHead m.post, m.kind with
      | some q, .natom _ _ _ _ _ _ (some _) => x.fillHead q m.seq (m.old.getD PV.zero)
      | some q, _ => x.fillHead q m.seq ⟨m.status, false⟩
      | none, _ => x
    let x := if m.ui && !x.tsk.chain then
        x.modSca fun c => { c with uirq := c.uirq ++ [(m.seq.setWidth 64, m.status)] } else x
    if m.pz && !x.killed then x.stopKill Cause.poisonkill.code 0 x.sca.pc false else x
  match m.kind with
  | .cpym => s.leaveGroup a m.seq
  | _ => s

/-- `COPY_COMMAND_COMPLETE` (R189, R190). -/
def execCopyCommandComplete (a : Nat) (seq : BitVec 16) (s : State) : Out :=
  let s := settle a seq s
  let x := s.getA a
  .next (match x.cmdOf seq with
    | none => s
    | some m => if m.stuck x || !s.cmdDone a m then s else completeCmd a m s)

/-! ## Arrivals (R218, R219) -/

def sameEqx (_ : CKind) (q : CCmd) : Bool := match q.kind with | .eqx => true | _ => false
def sameGbar (l : BitVec 3) (_ : CKind) (q : CCmd) : Bool := match q.kind with | .gbar k => k == l | _ => false

/-- `EQX_ARRIVAL` (R218): the arrival registers once the earlier accesses have performed at QUAD scope; the last one swaps the banks
of every member at the end of the cycle. -/
def execEqxArrival (a : Nat) (seq : BitVec 16) (s : State) : Out :=
  let x := s.getA a
  .next (match x.cmdOf seq, quadLevel x.tsk with
    | some m, some lv =>
      if m.stuck x || !x.quiet m.t || m.arrived || !sameEqx m.kind m || !s.drained a m.n 3 then s
      else
        let s := s.modCmd a seq fun m => { m with arrived := true }
        let all := (List.range (partCount x.tsk.levels lv)).map (s.partner a lv m sameEqx)
        if all.all fun e => (e.map fun e => e.2.arrived).getD false then
          (all.filterMap id).foldl (fun (s : State) e =>
            (s.modCmd e.1 e.2.seq fun m => { m with whole := true }).modA e.1 fun y =>
              let w := y.tilesOf (y.tsk.spalloc - 262144) 131072
              (y.modCpy fun c => { c with swapDue := true }).setTv w true) s
        else s
    | _, _ => s)

/-- `GBAR_ARRIVAL` (R219). -/
def execGbarArrival (a : Nat) (seq : BitVec 16) (s : State) : Out :=
  let x := s.getA a
  .next (match x.cmdOf seq with
    | some m =>
      (match m.kind with
      | .gbar l =>
        if m.stuck x || m.arrived || !s.drained a m.n (levelScope x.tsk l.toNat) then s
        else
          let s := s.modCmd a seq fun m => { m with arrived := true }
          let all := (List.range (partCount x.tsk.levels l.toNat)).map (s.partner a l.toNat m (sameGbar l))
          if all.all fun e => (e.map fun e => e.2.arrived).getD false then
            (all.filterMap id).foldl (fun (s : State) e => s.modCmd e.1 e.2.seq fun m => { m with whole := true }) s
          else s
      | _ => s)
    | none => s)

/-! ## Multicast groups (R208) -/

/-- The parts of a descriptor that a key compares: BR, SORG and BOX. -/
def mcShape (d : BitVec 1024) : Nat × Nat × Nat := (hBr d, fld d 287 64, fld d 735 512)
/-- A group has every array of its mask. -/
def MGrp.full (g : MGrp) : Bool :=
  match g.members with
  | [] => false
  | (b, _) :: _ => (List.range 32).all fun i => !bitAt g.mask i || g.members.any fun e => e.1 == b / 32 * 32 + i

/-- Groups closed where `f` of them holds, in the order of the list. -/
def Die.shutWhere (d : Die) (f : MGrp → Bool) : Die :=
  d.grps.foldl (fun (d : Die) g =>
    if f g && !g.shut then { d with nshut := d.nshut + 1, grps := d.grps ++ [{ g with shut := true, ord := d.nshut, tos := g.members.map (·.1) }] }
    else { d with grps := d.grps ++ [g] }) { d with grps := [] }
/-- The groups changed; those that have every array of their mask close. -/
def Die.shutFull (d : Die) (f : MGrp → MGrp) : Die := ({ d with grps := d.grps.map f } : Die).shutWhere MGrp.full

/-- `MULTICAST_REQUEST_ARRIVAL` (R208, R254-R256): the request joins the open group of its key at the home slice, or opens one. -/
def execMulticastRequestArrival (a : Nat) (seq : BitVec 16) (s : State) : Out :=
  let s := settle a seq s
  let x := s.getA a
  .next (match x.cmdOf seq with
    | some m =>
      let is := match m.kind with | .cpym => true | _ => false
      (match mcSpan m.desc m.tds with
      | some (lo, n) =>
        let va := BitVec.ofNat 72 lo
        if m.stuck x || m.arrived || !is || s.heldAt a m true va 0 then s
        else
          s.reach x.tsk a m.tr va 1 0 seq .cpy
            (fun h s =>
              match h with
              | .phys pa =>
                let home := dieOf pa
                let s := s.modCmd a seq fun m => { m with arrived := true }
                let sl := sliceOf pa
                let s := s.flitsOn .request 1 (mcPath a home sl)
                let key (g : MGrp) : Bool := !g.shut && g.pa == pa && g.tds == tdNoOob m.tds && mcShape g.desc == mcShape m.desc &&
                  g.mask == mcMask m.desc && (g.members.headD (0, 0)).1 / 32 == a / 32
                if (s.getD home).grps.any key then
                  s.modD home fun d => (d.modSlice sl fun c => { c with req := c.req + 1, joined := c.joined + 1 }).shutFull
                    fun g => if key g then { g with members := g.members ++ [(a, seq)] } else g
                else
                  -- the missing lines are fetched once
                  let ks := (List.range ((pa + n - 1) / 128 + 1 - pa / 128)).map (· + pa / 128)
                  let miss := ks.filter fun k => SMap.get 0 s.line k == 0
                  let s := miss.foldl (fun (s : State) k => s.putLine k 3) s
                  let g : MGrp := ⟨(s.getD home).ngrp, pa, tdNoOob m.tds, m.desc, home, mcMask m.desc, mcWin m.desc, s.now, [(a, seq)], false, 0, 0, []⟩
                  (s.countA a 8 miss.length).modD home fun d =>
                    ({ (d.modSlice sl fun c => { c with req := c.req + 1, opened := c.opened + 1, fills := c.fills + miss.length,
                                                        hits := c.hits + (ks.length - miss.length) }) with
                       ngrp := d.ngrp + 1, grps := d.grps ++ [g] } : Die).shutFull id
              | _ => s.failRec a seq m.tr va 0 4 0xFF)
            (fun k l s => s.failRec a seq m.tr va 0 k l)
      | none => s)
    | none => s)

/-- `MULTICAST_WINDOW_EXPIRY` (R208). -/
def execMulticastWindowExpiry (die grp : Nat) (s : State) : Out :=
  .next (s.modD die fun d => d.shutWhere fun g => g.num == grp && decide (g.at_ + g.win ≤ s.now))

/-! ## Cache fills (R206, R237) -/

/-- `CACHE_FILL_COMPLETE` (R206): a line of a load-block is held, one that was missing having come, if its slice has room for it (4 MiB); a
block whose lines are all held is ready, and one released meanwhile frees its tag. -/
def execCacheFillComplete (line : Nat) (s : State) : Out :=
  .next (
    if (SMap.get 0 s.line line ≠ 1 ∧ SMap.get 0 s.line line ≠ 4) ∨ s.holdRoom line = false then s
    else
      let s := s.putLine line 2
      let ok (b : LBlk) : Bool := b.held && b.keys.all fun k => SMap.get 0 s.line k == 2
      let due := s.arr.flatMap fun e => (e.2.cpy.lb.filter fun l => l.2.rel && ok l.2).map fun l => (e.1, l.1)
      let s := { s with arr := s.arr.map fun e => (e.1, e.2.modCpy fun y =>
        { y with lb := y.lb.map fun l => (l.1, if ok l.2 then { l.2 with ready := true } else l.2) }) }
      due.foldl (fun (s : State) e => releaseTag e.1 e.2 s) s)

end Sys2Proof.Machine
end

