-- ==== Sys2Proof/Machine/MatOps.lean ====
section
/-! DEFINITION. The arithmetic and the operands of the matrix engine: exact products and group sums (R53-R56), combinations (R163),
stationary planes and metadata (R164-R166), the conversions and writes of a tile (R45, R50, R52, R156, R162, R170, R175, R358). -/

namespace Sys2Proof.Machine

open Sys2Proof

/-- The bits of a set of numbers below `n`. -/
def bitsOf (n : Nat) (f : Nat → Bool) : Nat := (List.range n).foldl (fun v i => v + (if f i then 2 ^ i else 0)) 0

/-! ## Element codes -/

/-- The value of an element's code; FP8 and FP16 subnormals are zeros under the flush mode (R56). The code of an SX element packs
magnitude, sign, micro-exponent and exponent from bits 0, 7, 8 and 9 (R44). -/
def codeVal (f : Nat) (flush : Bool) (c : Nat) : FV :=
  match f with
  | 0 => fmt32.val false c
  | 1 => FV.ofInt (sInt 32 c)
  | 2 => fmtBf16.val false c
  | 3 => fmtF16.val flush c
  | 4 => FV.ofInt (sInt 16 c)
  | 5 => fmtE4m3.val flush c
  | 6 => fmtE5m2.val flush c
  | 7 => FV.ofInt (sInt 8 c)
  | 8 => FV.ofInt (sInt 4 c)
  | 9 => FV.ofInt (sInt 2 c)
  | 13 => fmt64.val false c
  | 14 => FV.ofInt (sInt 64 c)
  | _ => sxVal (sxM f) (c / 512 % 256 + c / 256 % 2 * 256) 0 (c / 128 % 2 == 1) (c % 128)

/-- Bits of an element as R165 counts them. -/
def elBits (f : Nat) : Nat :=
  match f with
  | 8 => 4 | 9 => 2 | 10 => 4 | 11 => 6 | 12 => 9
  | f => 8 * fmtSize f

/-- A combination of R163: `some` true for the integer ones. -/
def comboOf (fa fb : Nat) : Option Bool :=
  let fp8 (f : Nat) : Bool := f == 5 || f == 6
  if (fp8 fa && fp8 fb) || (fa == fb && (fa == 2 || fa == 3 || sxM fa != 0)) || (sxM fa != 0 && fb == 5) || (sxM fb != 0 && fa == 5) then
    some false
  else if (fa == 7 || fa == 8) && (fb == 7 || fb == 8) then some true
  else none
/-- The combinations of stage 2 (R354). -/
def stageOk (stage : BitVec 2) (fa fb : Nat) : Bool :=
  stage != 2#2 || ((fa == 5 || fa == 6) && (fb == 5 || fb == 6)) || (fa == 2 && fb == 2)
/-- Sixteen consecutive k positions lie in one block (R163); `kd` is the dimension of k. -/
def sxLaid (td : BitVec 1024) (kd : Nat) : Bool :=
  sxM (tdFmt td) == 0 ||
  ((List.range 16).all (fun i => tdShare td kd i == i) && tdShare td kd 16 % 16 == 0 && decide (kd < tdRank td) &&
   (tdRank td == 1 || (List.range 7).all fun j => tdShare td (1 - kd) (2 ^ j) % 16 == 0))

/-! ## Reading operands -/

/-- On whose behalf the engine writes: the array, the command, its translation. -/
structure Eng where
  a : Nat
  seq : BitVec 16
  tr : TrCap

/-- The units of 16 bytes that a step has read, by number: their bytes, and their poison by byte (R238). -/
abbrev UBuf := SMap (Nat × Nat)
/-- `n` bytes at an address among the units read: value and poison; nothing when a unit of them has not been read. -/
def engRead (b : UBuf) (va : Addr) (n : Nat) : Option (Nat × Bool) :=
  let u := va.toNat / 16
  let o := va.toNat % 16
  match b.find u with
  | none => none
  | some v =>
    if o + n ≤ 16 then some (v.1 / 256 ^ o % 256 ^ n, v.2 / 2 ^ o % 2 ^ n != 0)
    else match b.find (u + 1) with
      | none => none
      | some w =>
        let k := 16 - o
        some (v.1 / 256 ^ o + w.1 % 256 ^ (n - k) * 256 ^ k, v.2 / 2 ^ o != 0 || w.2 % 2 ^ (n - k) != 0)
/-- Several reads; nothing when one of them is missing. -/
def engReads (b : UBuf) (l : List (Addr × Nat)) : Option (List (Nat × Bool)) :=
  match l with
  | [] => some []
  | e :: l => match engRead b e.1 e.2, engReads b l with
    | some v, some r => some (v :: r)
    | _, _ => none

/-- What is read for the element at a position: its bytes, or the words of its block. -/
def rawAddrs (td : BitVec 1024) (p : Int) : List (Addr × Nat) :=
  let f := tdFmt td
  if !fmtPlanes f then [(tdAddr td p, fmtSize f)] else (tdPlaneAddrs td (p / 16)).map fun v => (v, 2)
/-- The code and poison of the element at a position. -/
def rawAt (b : UBuf) (td : BitVec 1024) (p : Int) : Option (Nat × Bool) :=
  let f := tdFmt td
  if !fmtPlanes f then engRead b (tdAddr td p) (fmtSize f)
  else
    let i := (p % 16).toNat
    (engReads b (rawAddrs td p)).map fun ws =>
      let w := ws.map (·.1)
      let pz := ws.any (·.2)
      if sxM f = 0 then (planeEl w i, pz)
      else
        let h := w.headD 0
        (planeEl (w.drop 2) i + 128 * ((w.getD 1 0) / 2 ^ i % 2) + 256 * (h / 2 ^ (8 + i / 2) % 2) + 512 * (h % 256), pz)

/-- The position of element (x0, x1), nothing outside the extents (R156). -/
def inPos (td : BitVec 1024) (x0 x1 : Int) : Option Int :=
  if 0 ≤ x0 ∧ x0 < tdExt td 0 ∧ 0 ≤ x1 ∧ (if tdRank td = 1 then x1 = 0 else x1 < tdExt td 1) then
    some (tdShare td 0 x0 + (if tdRank td = 1 then 0 else tdShare td 1 x1))
  else none
/-- The same whatever the extents (R176). -/
def freePos (td : BitVec 1024) (x0 x1 : Int) : Int := tdShare td 0 x0 + (if tdRank td = 1 then 0 else tdShare td 1 x1)

/-- A value of an operand with its poison. -/
abbrev OpV := FV × Bool
def OpV.zero : OpV := (.fin false 0 0, false)
/-- An element is not an exact zero, or is poisoned (R160). -/
def opLive (v : OpV) : Bool := v.2 || !v.1.isZero

/-- What is read for a block of elements by their positions. -/
def blockAddrs (td : BitVec 1024) (ps : List (Option Int)) : List (Addr × Nat) :=
  ps.flatMap fun p => match p with | some p => rawAddrs td p | none => []
/-- A block of operand elements by their positions; absent ones are exact zeros. -/
def opBlock (b : UBuf) (td : BitVec 1024) (flush : Bool) (ps : List (Option Int)) : Option (List OpV) :=
  match ps with
  | [] => some []
  | none :: ps => (opBlock b td flush ps).map fun l => OpV.zero :: l
  | some p :: ps => match rawAt b td p, opBlock b td flush ps with
    | some v, some l => some ((codeVal (tdFmt td) flush v.1, v.2) :: l)
    | _, _ => none

/-! ## Stationary planes (R164-R167) -/

namespace MwtDesc
def td (d : BitVec 256) : Nat := fld d 7 0
def role (d : BitVec 256) : Bool := bitAt d 8
def spn (d : BitVec 256) : Nat := fld d 15 12
def spm (d : BitVec 256) : Nat := 4 * fld d 17 16
def org0 (d : BitVec 256) : Nat := fld d 63 32
def org1 (d : BitVec 256) : Nat := fld d 95 64
def klen (d : BitVec 256) : Nat := fld d 111 96
def maddr (d : BitVec 256) : Addr := d.extractLsb' 128 72
/-- Stored k positions. -/
def kept (d : BitVec 256) : Nat := if spm d = 0 then klen d else klen d * spn d / spm d
/-- Bits of an index, of a group field, and groups of a word (R166). -/
def ibits (d : BitVec 256) : Nat := match spm d with | 4 => 2 | 8 => 3 | _ => 4
def fbits (d : BitVec 256) : Nat := 4 * ((spn d * ibits d + 3) / 4)
/-- Where a field is wider than a word (N:12 with N above 8) there is no group in a word: no metadata word is read and every field reads 0.
DESIGN CHOICE (unsafe; notes/assumptions 54). -/
def perWord (d : BitVec 256) : Nat := 32 / max 1 (fbits d)
/-- Fields in range (R164). -/
def ok (d : BitVec 256) : Bool :=
  fld d 255 200 == 0 && fld d 127 112 == 0 && fld d 31 18 == 0 && fld d 11 9 == 0 && decide (1 ≤ klen d ∧ klen d ≤ 4096) &&
  (if spm d = 0 then spn d == 0 else decide (1 ≤ spn d ∧ spn d < spm d) && klen d % spm d == 0)
/-- Output indices that lie within the tensor's extents. -/
def outs (d : BitVec 256) (t : BitVec 1024) : Nat :=
  if role d then min 64 ((if tdRank t = 1 then 1 else tdExt t 1) - org1 d).toNat else min 512 (tdExt t 0 - org0 d).toNat
/-- Groups and metadata words. -/
def groups (d : BitVec 256) (t : BitVec 1024) : Nat := if spm d = 0 then 0 else outs d t * (klen d / spm d)
def words (d : BitVec 256) (t : BitVec 1024) : Nat := (groups d t + perWord d - 1) / perWord d
end MwtDesc

/-! ## Small operations (R176) -/

namespace MmsDesc
def cpitch (d : BitVec 256) : Nat := fld d 239 224
def n (d : BitVec 256) : Nat := fld d 217 208
def k (d : BitVec 256) : Nat := fld d 203 192
def borg1 (d : BitVec 256) : Nat := fld d 191 160
def borg0 (d : BitVec 256) : Nat := fld d 159 128
def vstamp (d : BitVec 256) : Nat := fld d 127 112
def hold (d : BitVec 256) : Nat := fld d 108 96
def ui (d : BitVec 256) : Bool := bitAt d 89
def acc (d : BitVec 256) : Bool := bitAt d 88
def rows (d : BitVec 256) : Nat := fld d 87 80
def btd (d : BitVec 256) : Nat := fld d 79 72
def atd (d : BitVec 256) : Nat := fld d 71 64
def coff (d : BitVec 256) : Nat := fld d 63 32
def aoff (d : BitVec 256) : Nat := fld d 31 0
/-- Fields in range for a B of a given element size in bits (R176). -/
def ok (d : BitVec 256) (bits : Nat) : Bool :=
  fld d 255 240 == 0 && fld d 223 218 == 0 && fld d 207 204 == 0 && fld d 111 109 == 0 && fld d 95 90 == 0 &&
  decide (1 ≤ n d ∧ n d ≤ 512) && decide (1 ≤ k d ∧ k d * bits ≤ 4096) && decide (hold d ≤ 4096) &&
  (rows d == 4 || rows d == 8 || rows d == 16 || rows d == 32) && cpitch d % 4 == 0 && decide (4 * n d ≤ cpitch d)
end MmsDesc

/-! ## Metadata and planes (R166, R167) -/

/-- The field of group `q`. -/
def Plane.field (p : Plane) (q : Nat) : Nat :=
  let d := p.desc
  (SMap.get (0, false) p.metaW (q / MwtDesc.perWord d)).1 / 2 ^ (MwtDesc.fbits d * (q % MwtDesc.perWord d)) % 2 ^ MwtDesc.fbits d
/-- The indices of a group field. -/
def groupIdx (d : BitVec 256) (f : Nat) : List Nat :=
  (List.range (MwtDesc.spn d)).map fun i => f / 2 ^ (i * MwtDesc.ibits d) % 2 ^ MwtDesc.ibits d
/-- A group field is bad (R167). -/
def groupBad (d : BitVec 256) (f : Nat) : Bool :=
  let l := groupIdx d f
  f / 2 ^ (MwtDesc.spn d * MwtDesc.ibits d) != 0 || l.any (fun x => decide (MwtDesc.spm d ≤ x)) ||
  (l.zip (l.drop 1)).any fun e => decide (e.2 ≤ e.1)
/-- The first metadata fault: word and group within it, the number of groups of a word for spare bits (R167). -/
def metaFault (p : Plane) : Option (Nat × Nat) :=
  let d := p.desc
  let n := MwtDesc.groups d p.td
  let pw := MwtDesc.perWord d
  if MwtDesc.spm d = 0 then none
  else (List.range p.nmeta).findSome? fun w =>
    match (List.range pw).find? fun g => decide (w * pw + g < n) && groupBad d (p.field (w * pw + g)) with
    | some g => some (w, g)
    | none => if (SMap.get (0, false) p.metaW w).1 / 2 ^ (pw * MwtDesc.fbits d) = 0 then none else some (w, pw)
/-- The stored position of dense k of output index `o`, if it is kept. -/
def Plane.slot (p : Plane) (o k : Nat) : Option Nat :=
  let d := p.desc
  let m := MwtDesc.spm d
  if MwtDesc.klen d ≤ k then none
  else if m = 0 then some k
  else (groupIdx d (p.field (o * (MwtDesc.klen d / m) + k / m))).findIdx? (fun x => x == k % m) |>.map fun i => k / m * MwtDesc.spn d + i
/-- The stationary element of output index `o` at dense k; pruned and absent positions are exact zeros (R56, R161). -/
def Plane.at_ (p : Plane) (flush : Bool) (o : Nat) (k : Int) : OpV :=
  match (if k < 0 then none else p.slot o k.toNat) with
  | none => OpV.zero
  | some i =>
    let v := SMap.get (0, false) p.els (o * 4096 + i)
    (codeVal (tdFmt p.td) flush v.1, v.2)

/-- The stored elements of a plane: key and position (R164). -/
def planePos (d : BitVec 256) (t : BitVec 1024) : List (Nat × Int) :=
  (List.range (MwtDesc.outs d t)).flatMap fun i => (List.range (MwtDesc.kept d)).filterMap fun k =>
    (if MwtDesc.role d then inPos t (MwtDesc.org0 d + k : Nat) (MwtDesc.org1 d + i : Nat)
     else inPos t (MwtDesc.org0 d + i : Nat) (MwtDesc.org1 d + k : Nat)).map fun p => (i * 4096 + k, p)
/-- The metadata words of a plane. -/
def metaAddrs (d : BitVec 256) (t : BitVec 1024) : List (Addr × Nat) :=
  (List.range (MwtDesc.words d t)).map fun w => (MwtDesc.maddr d + BitVec.ofNat 72 (4 * w), 4)
/-- A plane loaded from the units read (R165). -/
def loadPlane (b : UBuf) (d : BitVec 256) (t : BitVec 1024) : Option Plane :=
  let els := (planePos d t).foldl (fun o e => match o, rawAt b t e.2 with
    | some m, some v => some (SMap.set (0, false) m e.1 v)
    | _, _ => none) (some ([] : SMap (Nat × Bool)))
  match els, engReads b (metaAddrs d t) with
  | some els, some ws =>
    let p : Plane := ⟨.loading, d, t, els, ws.zipIdx.foldl (fun m e => SMap.set (0, false) m e.2 e.1) [], MwtDesc.words d t, none⟩
    some { p with fault := metaFault p }
  | _, _ => none

/-! ## Group sums (R53-R55) -/

/-- An exact product; a zero factor gives an exact zero (R53). -/
def prodM (x y : FV) : FV := if x.isZero || y.isZero then .fin false 0 0 else (FV.mul x y).1
/-- The exact sum of values. -/
def sumM (l : List FV) : FV := l.foldl (fun a x => (FV.add .rne a x).1) (.fin false 0 0)
/-- G of R54: nothing for an exact zero sum. -/
def groupG (ps : List FV) : Option Nat × Fl :=
  let pos := ps.any fun x => x.isInf && !x.sign
  let neg := ps.any fun x => x.isInf && x.sign
  if ps.any (·.isNan) || (pos && neg) then (some fmt32.canon, if pos && neg then Fl.nv else 0#7)
  else if pos || neg then (some (fmt32.infBits neg), 0#7)
  else
    let x := sumM ps
    if x.isZero then (none, 0#7) else let r := fmt32.round ⟨.rne, false, false⟩ x; (some r.1, r.2)
/-- An exact integer value. -/
def fvInt (x : FV) : Int := match x with | .fin s m e => sgnAt s m e 0 | _ => 0
/-- One group accumulated into an element (R54, R55); poison joins (R174). -/
def accGroup (int : Bool) (av bv : List OpV) (acc : EP) : EP × Fl :=
  let ps := (av.zip bv).map fun e => prodM e.1.1 e.2.1
  let pz := acc.p || av.any (·.2) || bv.any (·.2)
  if int then (⟨BitVec.ofInt 32 (acc.v.toNat + (ps.map fvInt).foldl (· + ·) 0), pz⟩, 0#7)
  else match groupG ps with
    | (none, f) => (⟨acc.v, pz⟩, f)
    | (some g, f) => let r := fmt32.add ⟨.rne, false, false⟩ acc.v.toNat g; (⟨BitVec.ofNat 32 r.1, pz⟩, f ||| r.2)

/-! ## Converting a tile's elements (R45, R49, R50, R52, R170) -/

/-- A floating format by its code. -/
def fmtOf (f : Nat) : Option Fmt :=
  match f with
  | 0 => some fmt32 | 2 => some fmtBf16 | 3 => some fmtF16 | 5 => some fmtE4m3 | 6 => some fmtE5m2 | 13 => some fmt64
  | _ => none
/-- Bits of an integer format; 0 for any other. -/
def fmtInt (f : Nat) : Nat :=
  match f with
  | 1 => 32 | 4 => 16 | 7 => 8 | 8 => 4 | 9 => 2 | 14 => 64
  | _ => 0
/-- A stored element as FP32 or INT32, by the destination format (R163). -/
def accVal (f : Nat) (raw : W32) : FV := if fmtInt f = 0 then fmt32.val false raw.toNat else FV.ofInt (sInt 32 raw.toNat)
/-- A value converted to a format with a code for each element, rounding to nearest even. -/
def convCode (f : Nat) (x : FV) : Nat × Fl :=
  match fmtOf f with
  | some g => g.round ⟨.rne, false, false⟩ x
  | none =>
    let n := fmtInt f
    match FV.rint .rne x with
    | (.fin s m e, fl) => let r := satInt n (sgnAt s m e 0); (r.1, if r.2 = 0#7 then fl else r.2)
    | (.inf s, _) => (if s then 2 ^ (n - 1) else 2 ^ (n - 1) - 1, Fl.nv)
    | _ => (0, Fl.nv)
/-- The residue of R52 for the sum and the stored value. DESIGN CHOICE (unsafe; notes/assumptions 50). -/
def residue (s d : FV) (fl : Fl) : W32 :=
  if d.isNan then BitVec.ofNat 32 fmt32.canon
  else if (fl &&& Fl.ovf) != 0#7 || d.isInf then 0
  else BitVec.ofNat 32 (fmt32.round ⟨.rne, false, false⟩ (FV.add .rne s d.neg).1).1

/-- An element to store: coordinates, raw accumulator value, residue under error feedback, poison. -/
structure StEl where
  x0 : Int
  x1 : Int
  raw : W32
  res : Option W32
  p : Bool
  deriving DecidableEq, Repr

/-- The value to convert: the element, or its exact sum with the residue. DESIGN CHOICE (unsafe; notes/assumptions 65). -/
def StEl.val (f : Nat) (e : StEl) : FV :=
  match e.res with
  | none => accVal f e.raw
  | some r => (FV.add .rne (accVal f e.raw) (fmt32.val false r.toNat)).1
/-- Code, flags and new residue of an element of a format without blocks. FP32 to FP32 keeps the bits. -/
def StEl.conv (f : Nat) (e : StEl) : Nat × Fl × W32 :=
  if f = 0 ∧ e.res = none then (e.raw.toNat, 0#7, 0)
  else
    let v := e.val f
    let r := convCode f v
    (r.1, r.2, residue v (codeVal f false r.1) r.2)

/-- The bytes of the elements of one block of a bit-plane format; positions not given are zero and clean (R358). -/
def blockBytes (td : BitVec 1024) (b : Int) (els : List StEl) : List (Addr × Byte × Bool) × Fl × List (StEl × W32) :=
  let f := tdFmt td
  let pz := els.any (·.p)
  let at_ (i : Nat) : Option StEl := els.find? fun e => (inPos td e.x0 e.x1).map (· % 16) == some (i : Int)
  let js := List.range 16
  let out (ws : List Nat) : List (Addr × Byte × Bool) :=
    ((tdPlaneAddrs td b).zip ws).flatMap fun e => (leBytes 2 e.2).zipIdx.map fun c => (e.1 + BitVec.ofNat 72 c.2, c.1, pz)
  if sxM f = 0 then
    let cs := js.map fun i => ((at_ i).map fun e => e.conv f).getD (0, 0#7, 0)
    (out (planesOf (inM f) (cs.map (·.1))), cs.foldl (fun a c => a ||| c.2.1) 0#7,
     els.map fun e => (e, (e.conv f).2.2))
  else
    let xs := js.map fun i => ((at_ i).map fun e => e.val f).getD (.fin false 0 0)
    let r := sxEncode (sxM f) xs
    let sign := r.2.1.zipIdx.foldl (fun w e => if e.1.1 then w + 2 ^ e.2 else w) 0
    (out (r.1 :: sign :: planesOf (sxM f) (r.2.1.map (·.2))), r.2.2,
     els.map fun e =>
       let i := ((inPos td e.x0 e.x1).getD 0 % 16).toNat
       let q := r.2.1.getD i (false, 0)
       (e, residue (e.val f) (sxVal (sxM f) r.1 i q.1 q.2) 0#7))

/-- The bytes, flags and new residues of the elements of a tile written through an entry. -/
def tileBytes (td : BitVec 1024) (els : List StEl) : List (Addr × Byte × Bool) × Fl × List (StEl × W32) :=
  let f := tdFmt td
  if fmtPlanes f then
    let bs := (els.filterMap fun e => (inPos td e.x0 e.x1).map (· / 16)).dedup
    bs.foldl (fun (l, fl, rs) b =>
      let r := blockBytes td b (els.filter fun e => (inPos td e.x0 e.x1).map (· / 16) == some b)
      (l ++ r.1, fl ||| r.2.1, rs ++ r.2.2)) ([], 0#7, [])
  else
    els.foldl (fun (l, fl, rs) e =>
      match inPos td e.x0 e.x1 with
      | none => (l, fl, rs)
      | some p =>
        let c := e.conv f
        (l ++ (leBytes (fmtSize f) c.1).zipIdx.map (fun b => (tdAddr td p + BitVec.ofNat 72 b.2, b.1, e.p)), fl ||| c.2.1, rs ++ [(e, c.2.2)]))
      ([], 0#7, [])

/-- Runs cut at 16-byte units. -/
def cutRun (fuel : Nat) (r : Nat × List Byte × List Bool) : List (Nat × List Byte × List Bool) :=
  match fuel with
  | 0 => []
  | fuel + 1 =>
    if r.2.1.isEmpty then []
    else
      let k := 16 - r.1 % 16
      (r.1, r.2.1.take k, r.2.2.take k) :: cutRun fuel (r.1 + k, r.2.1.drop k, r.2.2.drop k)

/-- The units of 16 bytes that hold bytes to write (R238). -/
def unitsOf (l : List (Addr × Byte × Bool)) : List MWr :=
  ((runsOf (byAddr l)).flatMap fun r => cutRun (r.2.1.length + 1) r).map fun r => ⟨BitVec.ofNat 72 r.1, r.2.1, r.2.2⟩
/-- A unit written by the engine: what is left of it, and whether its address is not mapped. A group that accepts no access now leaves it
unwritten (R235). -/
def unitWrite (g : Eng) (w : MWr) (s : State) : List MWr × Bool × State :=
  match s.locate g.a g.tr w.va w.bytes.length 1 with
  | (.ok h, s) =>
    if s.excluded h then ([w], false, s)
    else ([], false, (s.touch g.a h w.bytes.length).writeHomeP (s.getA g.a).tsk g.a (2 ^ 32 + g.seq.toNat) h w.bytes w.pz)
  | (_, s) => ([], true, s)
/-- Units written in order: what is left of them, and whether an address was not mapped. -/
def engWrite (g : Eng) (l : List MWr) (s : State) : List MWr × Bool × State :=
  match l with
  | [] => ([], false, s)
  | w :: l =>
    let r := unitWrite g w s
    let q := engWrite g l r.2.2
    (r.1 ++ q.1, r.2.1 || q.2.1, q.2.2)

/-! ## Status (R173) -/

/-- Flags as the stickies of `MSTAT`. -/
def stickOf (f : Fl) : BitVec 9 :=
  let b (m : Fl) (i : Nat) : BitVec 9 := if (f &&& m) = 0#7 then 0 else BitVec.ofNat 9 (2 ^ i)
  b Fl.nv 3 ||| b Fl.ovf 2 ||| b Fl.unf 1 ||| b Fl.nx 0 ||| b Fl.sxuf 7 ||| b Fl.isat 6
def stickPz (p : Bool) : BitVec 9 := if p then 0x20#9 else 0
def stickOvf (p : Bool) : BitVec 9 := if p then 0x100#9 else 0

/-! ## Tile steps and stores (R156, R160, R162, R175) -/

/-- The elements of C of a tile within its extents, rows of tile I and columns of tile J. -/
def cEls (td : BitVec 1024) (c : Cel) (n : Nat) (i j : Int) (bad : Nat → Bool) : List StEl :=
  (List.range 64).flatMap fun (r : Nat) => (List.range 512).filterMap fun (k : Nat) =>
    let x0 : Int := 512 * j + (k : Nat)
    let x1 : Int := 64 * i + (r : Nat)
    if (inPos td x0 x1).isSome then
      let e := c.accGet n (512 * r + k)
      some ⟨x0, x1, e.v, none, e.p || bad r⟩
    else none

/-- Rows whose checksum does not match (R175). -/
def badRow (int : Bool) (mtol : Nat) (c : Cel) (n r : Nat) : Bool :=
  let el (k : Nat) : W32 := (c.accGet n (512 * r + k)).v
  let data := (List.range 504).map el
  if int then decide ((data.foldl (fun x v => x + v) (0 : W32)) ≠ el 504)
  else
    let vs := data.map fun v => fmt32.val false v.toNat
    let nan := vs.any (·.isNan)
    let mixed := vs.any (fun v => v.isInf && v.sign) && vs.any fun v => v.isInf && !v.sign
    let x := if nan || mixed then FV.nan else fmt32.val false (fmt32.round ⟨.rne, false, false⟩ (sumM vs)).1
    let y := fmt32.val false (el 504).toNat
    let ab (v : FV) : FV := if v.sign then v.neg else v
    let diff := ab (FV.add .rne x y.neg).1
    let lim := match sumM (vs.map ab) with
      | .fin s m e => FV.fin s m (e - mtol)
      | v => v
    (x.isNan != y.isNan) || FV.lt lim diff

/-- The words of a sparse slot (R162): counts, then entries; columns ascend, or go by (column mod 64) in the WRM. Words of a row
with a poisoned element carry its poison. The flag tells that entries were dropped. -/
def sparseWords (int wrm : Bool) (w : Nat) (c : Cel) (n : Nat) : List (W32 × Bool) × Bool :=
  let cols := if wrm then (List.range 64).flatMap fun m => (List.range 8).map fun q => 64 * q + m else List.range 512
  let some_ (e : EP) : Bool := e.v != 0 && (int || e.v != 0x8000_0000#32)
  let rows := (List.range 64).map fun r => cols.filterMap fun k =>
    let e := c.accGet n (512 * r + k)
    if some_ e then some (k, e) else none
  let pzr (r : Nat) : Bool := (List.range 512).any fun k => (c.accGet n (512 * r + k)).p
  let counts := (List.range 32).map fun i =>
    (BitVec.ofNat 32 ((rows.getD (2 * i) []).length + 65536 * (rows.getD (2 * i + 1) []).length), pzr (2 * i) || pzr (2 * i + 1))
  let es := rows.flatMap id
  let room := (w - 32) / 2
  (counts ++ (es.take room).flatMap fun e => [(BitVec.ofNat 32 e.1, false), (e.2.v, e.2.p)], decide (room < es.length))

/-- A tile stored at the end of an iteration: bytes, stickies, and whether a checksum row mismatched. -/
def storeBytes (g : Nest) (int : Bool) (c : Cel) (n : Nat) (i j : Int) : List (Addr × Byte × Bool) × BitVec 9 × Bool :=
  let h := g.tab.hdr
  let td := g.tdC
  if NestHdr.out h = 1 then
    if i < 0 ∨ j < 0 ∨ tdExt td 2 ≤ i ∨ tdExt td 1 ≤ j then ([], 0, false)
    else
      let r := sparseWords int (g.flow == .rw) (tdExt td 0).toNat c n
      (r.1.zipIdx.flatMap (fun e =>
        let va := tdAddr td (tdPos td [(e.2 : Int), j, i])
        (leBytes 4 e.1.1.toNat).zipIdx.map fun b => (va + BitVec.ofNat 72 b.2, b.1, e.1.2)), stickOvf r.2, false)
  else
    let bads := if NestHdr.csum h then (List.range 64).filter (badRow int (NestHdr.mtol h) c n) else []
    let r := tileBytes td (cEls td c n i j fun q => bads.contains q)
    (r.1, stickOf r.2.1, !bads.isEmpty)

/-- The stationary operand of a flow: `some` true for A. -/
def Nest.stat (g : Nest) : Option Bool :=
  match g.flow with
  | .ip => none
  | .op => some (NestHdr.sa g.tab.hdr)
  | .rw => some true

/-- The k positions of chunk Kc. -/
def chunkKs (kc : Int) : List Int := (List.range 16).map fun (q : Nat) => 16 * kc + (q : Int)
/-- Data columns of a tile (R175); the block of B in a tile step has 512 (R160). -/
def Nest.ncol (g : Nest) : Nat := if NestHdr.csum g.tab.hdr then 504 else 512
/-- Positions of the streamed blocks of A and B in a tile step; none for a stationary operand (R159, R161). -/
def Nest.posA (g : Nest) (i kc : Int) : List (Option Int) :=
  if g.stat = some true then [] else (List.range 64).flatMap fun (r : Nat) => (chunkKs kc).map fun k => inPos g.tdA k (64 * i + r)
def Nest.posB (g : Nest) (j kc : Int) : List (Option Int) :=
  if g.stat = some false then [] else (List.range 512).flatMap fun (c : Nat) => (chunkKs kc).map fun k => inPos g.tdB (512 * j + c) k
/-- Columns 505 to 511 of a checked tile hold +0 (R175). -/
def Nest.plain (g : Nest) (n : Nat) (c : Cel) : Cel :=
  if NestHdr.csum g.tab.hdr then
    (List.range 64).foldl (fun c r => (List.range 7).foldl (fun c q => c.accSet n (512 * r + 505 + q) EP.zero) c) c
  else c

/-- One tile step on tile `n` (R156, R160) with the units read: accumulators, stickies, skipped groups; nothing when a unit is missing. -/
def tileStep (b : UBuf) (a : Nat) (g : Nest) (int : Bool) (n : Nat) (i j kc : Int) (s : State) : Option (BitVec 9 × Nat × State) :=
  let h := g.tab.hdr
  let fl := NestHdr.flush h
  let pl := (s.getA a).mat.act
  let ks := chunkKs kc
  let rowsA := List.range 64
  let colsB := List.range 512
  let ra := if g.stat = some true then some (rowsA.flatMap fun r => ks.map fun k => pl.at_ fl r k) else opBlock b g.tdA fl (g.posA i kc)
  let rb := if g.stat = some false then some (colsB.flatMap fun c => ks.map fun k => pl.at_ fl c k) else opBlock b g.tdB fl (g.posB j kc)
  match ra, rb with
  | some av, some bv =>
    let s := if g.zpend then s.modA a fun x => x.modCel fun c =>
      { c with acc := c.acc.filter fun e => !(decide (n * 32768 ≤ e.1) && decide (e.1 < (n + 1) * 32768)) } else s
    let row (l : List OpV) (r : Nat) : List OpV := (l.drop (16 * r)).take 16
    let zeroQ (q : Nat) : Bool := colsB.all fun c => !opLive ((row bv c).getD q OpV.zero)
    let dead := if g.flow == .rw then (List.range 16).filter zeroQ else []
    let skip := if g.flow == .rw then false else if g.stat = some true then !bv.any opLive else !av.any opLive
    if skip then some (0, 1, s.modA a fun x => x.modCel (g.plain n))
    else
      let live (l : List OpV) : List OpV := (l.zipIdx.filter fun e => !dead.contains e.2).map (·.1)
      let as := rowsA.map fun r => live (row av r)
      let bs := (List.range g.ncol).map fun c => live (row bv c)
      let chk := if NestHdr.csum h then
          [(504, (List.range (16 - dead.length)).map fun q =>
            (sumM (bs.map fun b => (b.getD q OpV.zero).1), bs.any fun b => (b.getD q OpV.zero).2))] else []
      let cols := bs.zipIdx.map (fun e => (e.2, e.1)) ++ chk
      let r := as.zipIdx.foldl (fun (c, f) ar =>
        cols.foldl (fun ((c : Cel), f) b =>
          let k := 512 * ar.2 + b.1
          let q := accGroup int ar.1 b.2 (c.accGet n k)
          (c.accSet n k q.1, f ||| q.2)) (c, f)) ((s.getA a).cel, 0#7)
      let pz := as.any (fun l => l.any (·.2)) || bs.any fun l => l.any (·.2)
      some (stickOf r.2 ||| stickPz pz, dead.length, s.modA a fun x => x.modCel fun _ => g.plain n r.1)
  | _, _ => none

/-- A residue of a tile written back by `MST.ef`: value and poison (R52). -/
def putResidue (res : Nat) (l : List (StEl × W32)) (c : Cel) : Cel :=
  l.foldl (fun c e => c.accSet res (512 * e.1.x1.toNat + e.1.x0.toNat) ⟨e.2, e.1.p⟩) c

end Sys2Proof.Machine
end

