-- ==== Sys2Proof/Machine/Matrix.lean ====
section
/-! DEFINITION. The matrix slots and the matrix engine's own steps: spec/06_matrix.md R149-R175, but for `MMS` and the merge buffer
(Merge.lean). -/

namespace Sys2Proof.Machine

open Sys2Proof

/-! ## Shared -/

/-- Words of the guard extension of a matrix slot. -/
def mgW (g : MG) : Nat := if g.gx.isSome then 1 else 0

def mSem (g : MG) (regs srcs : List RR) (own : Ctx → State → List Trap) (eff : Ctx → State → State) : SlotSem :=
  { cls := .matrix, gx := g.gx, regs := regs, srcs := srcs, own := own, eff := eff }

/-- A 32-byte image read by a matrix slot. -/
def img256 (c : Ctx) (s : State) (a : BitVec 4) : BitVec 256 := BitVec.ofNat 256 (recBits c s a 32)

/-- The ninth outstanding command (R150). DEDUCED (unsafe; notes/assumptions 33). -/
def ninth (c : Ctx) (s : State) : List Trap := if 8 ≤ (s.getA c.a).mat.cmds.length then [trapBounds c.slot 0x10] else []

/-- A command takes its number and joins the queue (R150). -/
def matIssue (c : Ctx) (k : MKind) (ui : Bool) (tiles : List Nat) (s : State) : State :=
  s.modA c.a fun x =>
    ((x.setOwn tiles true).modMat fun m =>
      { m with seq := m.seq + 1, cmds := m.cmds ++ [⟨m.seq, k, ui, tiles, c.t, false, false, none, 0#7, 0#9, x.trCap, [], [], none, 0⟩] }).count 18 1
/-- Valid bits of accumulator tiles set at issue (R60). -/
def setAccv (a : Nat) (l : List Nat) (s : State) : State :=
  s.modA a fun x => if x.atS then x else x.modCel fun c => { c with accv := l.foldl (fun v n => bitSet v n true) c.accv }

/-- Where a range lies: an offset of the own scratchpad, or the own vault; nothing elsewhere (R161). -/
def matPlace (x : Arr) (sp vault : Bool) (r : Addr × Nat) : Option (Option Nat) :=
  match x.tsk.ownOff 0 r.1 with
  | some off =>
    if sp && x.tsk.inAlloc off r.2 && (x.tsk.ownOff 0 (r.1 + BitVec.ofNat 72 (r.2 - 1))).isSome then some (some off) else none
  | none =>
    match x.tsk.ownOff 1 r.1 with
    | some off => if vault && x.tsk.inVault off r.2 then some none else none
    | none => none

/-- Ranges with their places checked: BOUNDS, TBUSY, and INVTILE where they are read; or the tiles touched. -/
def placeAll (c : Ctx) (x : Arr) (read : Bool) (l : List (Option (Option Nat) × Nat)) : Except Trap (List Nat) :=
  if l.any fun e => e.1.isNone then .error (trapBounds c.slot 0xFF)
  else
    let ts := (l.flatMap fun e => match e.1 with | some (some off) => x.tilesOf off e.2 | _ => []).dedup
    if x.anyEngine ts then .error (trapOf .tbusy c.slot)
    else if read && x.anyInvalid ts then .error (trapOf .invtile c.slot)
    else .ok ts

def trapsOf {α : Type} (r : Except Trap α) : List Trap := match r with | .error t => [t] | .ok _ => []

/-- The full extent of an entry (R161). -/
def fullBox (td : BitVec 1024) : List (Int × Int) := (List.range (tdRank td)).map fun d => (0, tdExt td d - 1)

/-! ## MLN (R152-R155) -/

/-- A header image whose fields are in range. -/
def hdrOk (h : BitVec 256) : Bool :=
  fld h 255 45 == 0 && fld h 39 38 == 0 && fld h 5 3 == 0 && decide (1 ≤ NestHdr.nlev h ∧ NestHdr.nlev h ≤ 6) && decide (NestHdr.out h ≤ 1)
/-- A level image whose fields are in range. -/
def levOk (l : BitVec 256) : Bool := fld l 255 85 == 0 && fld l 31 24 == 0 && NestLev.count l != 0

def semMln (g : MG) (r : NestRec) (a : BitVec 4) : SlotSem :=
  mSem g [.a a] [.a a] (fun c s =>
      match recTraps c s a 32 32 with
      | [] =>
        let v := img256 c s a
        let ok := match r with | .header => hdrOk v | .level _ _ _ => levOk v
        if ok then [] else [trapOf .mtype c.slot]
      | l => l)
    fun c s =>
      let v := img256 c s a
      (recRead c a 32 s).modA c.a fun x => x.modMat fun m =>
        match r with
        | .header => { m with nest := { m.nest with hdr := v } }
        | .level l ke k =>
          { m with nest := { m.nest with lev := SMap.set 0 m.nest.lev l.toNat v, bind := SMap.set 0 m.nest.bind l.toNat (BitVec.ofBool ke ++ k) } }
/-- `MLN hdr` and `MLN` of a level record (R155). -/
def execMln (g : MG) (r : NestRec) (a : BitVec 4) (s : State) : Out := .next (runSlot (mgW g) (semMln g r a) s)

def semMlnK (g : MG) (k a : BitVec 4) : SlotSem :=
  mSem g [.a a] [.a a] (fun c s => recTraps c s a 8 8)
    fun c s =>
      let v := BitVec.ofNat 64 (recBits c s a 8)
      (recRead c a 8 s).modA c.a fun x => x.modMat fun m => { m with k := SMap.set 0#64 m.k k.toNat v }
/-- `MLN kn, aa` (R155). -/
def execMlnK (g : MG) (k a : BitVec 4) (s : State) : Out := .next (runSlot (mgW g) (semMlnK g k a) s)

/-! ## MGO (R156, R157) -/

/-- The formats of A and B: the stationary one from the active plane. -/
def Nest.fmts (g : Nest) (act : Plane) : Nat × Nat :=
  (if g.stat = some true then tdFmt act.td else tdFmt g.tdA, if g.stat = some false then tdFmt act.td else tdFmt g.tdB)

/-- The nest an `MGO` captures (R152, R156). -/
def goNest (flow : Flow) (x : Arr) : Nest :=
  let t := x.mat.nest
  let td (n : Nat) : BitVec 1024 := SMap.get 0 x.cpy.tdt n
  { flow := flow, tab := t, kval := (List.range 6).foldl (fun m l => SMap.set 0#64 m l (SMap.get 0#64 x.mat.k ((t.binding l).extractLsb' 0 4).toNat)) [],
    tdA := td (NestHdr.atd t.hdr), tdB := td (NestHdr.btd t.hdr), tdC := td (NestHdr.ctd t.hdr),
    idx := List.replicate (NestHdr.nlev t.hdr) 0, zpend := false, used := 0, fin := false }

/-- C's entry suits the accumulator type and the output form (R157 order 3, R162). -/
def cOk (g : Nest) (int : Bool) : Bool :=
  let td := g.tdC
  if NestHdr.out g.tab.hdr = 1 then
    tdRank td == 3 && tdFmt td == 1 && tdExt td 0 % 2 == 0 && decide (34 ≤ tdExt td 0)
  else decide (1 ≤ tdRank td) && (if int then sxM (tdFmt td) == 0 else inM (tdFmt td) == 0)

/-- The checks of `MGO` in order (R157), or the tiles its spans touch. DESIGN CHOICE (unsafe; notes/assumptions 55). -/
def goCheck (flow : Flow) (c : Ctx) (s : State) : Except Trap (List Nat) :=
  let x := s.getA c.a
  let g := goNest flow x
  let h := g.tab.hdr
  let ls := g.tab.levels
  let act := x.mat.act
  let se := ls.any NestLev.se
  let top := ls.foldl (fun n l => n + (NestLev.count l - 1) * NestLev.accstr l) (NestHdr.acc h)
  let kmax := ls.foldl (fun (n : Int) l => n + max 0 (((NestLev.count l : Int) - 1) * NestLev.dk l)) 0
  let useA := g.stat != some true
  let useB := g.stat != some false
  if NestHdr.nlev h = 0 ∨ NestHdr.nlev h = 7 ∨ ls.any (fun l => NestLev.count l == 0) = true ∨ 1 < NestHdr.out h ∨
      (NestHdr.sa h = true ∧ flow ≠ .op) ∨ (NestHdr.out h = 1 ∧ flow = .ip) ∨
      (NestHdr.csum h = true ∧ (NestHdr.out h = 1 ∨ se = false)) then .error (trapOf .mtype c.slot)
  else if flow ≠ .ip ∧ act.st ≠ .loaded then .error (trapOf .invtile c.slot)
  else
    let (fa, fb) := g.fmts act
    let sparse := act.st == .loaded && MwtDesc.spm act.desc != 0
    match comboOf fa fb with
    | none => .error (trapOf .mtype c.slot)
    | some int =>
      if !stageOk s.dev.stage fa fb || (useA && tdRank g.tdA == 0) || (useB && tdRank g.tdB == 0) ||
          !sxLaid (if useA then g.tdA else act.td) 0 || !sxLaid (if useB then g.tdB else act.td) 1 ||
          (flow != .ip && sxM (tdFmt act.td) != 0 && (if MwtDesc.role act.desc then MwtDesc.org0 act.desc else MwtDesc.org1 act.desc) % 16 != 0) ||
          (sparse && (flow == .ip || sxM (tdFmt act.td) != 0)) || (se && !cOk g int) then .error (trapOf .mtype c.slot)
      else if (match g.stat with
          | none => false
          | some r => MwtDesc.td act.desc != (if r then NestHdr.atd h else NestHdr.btd h) || MwtDesc.role act.desc != r ||
              decide (((MwtDesc.klen act.desc + 15) / 16 : Nat) ≤ kmax)) then .error (trapOf .mtype c.slot)
      else if (if x.atS then 8 else x.tsk.accs) ≤ top then .error ⟨.invreg, c.slot, min top 255, 7⟩
      else
        match (if x.atS || ls.any NestLev.zs then none else g.tab.reach.find? fun n => !bitAt x.cel.accv n) with
        | some n => .error ⟨.invreg, c.slot, n, 7⟩
        | none =>
          let rg (td : BitVec 1024) (sp vault : Bool) : List (Option (Option Nat) × Nat) :=
            (tdSpan td false (fullBox td)).map fun r => (matPlace x sp vault r, r.2)
          match placeAll c x false ((if useA then rg g.tdA true false else []) ++ (if useB then rg g.tdB (flow == .op) (flow != .op) else []) ++
              (if se then rg g.tdC true true else [])) with
          | .error t => .error t
          | .ok ts => if 8 ≤ x.mat.cmds.length then .error (trapBounds c.slot 0x10) else .ok ts

/-- `MGO` in a flow. -/
def goSem (flow : Flow) (g : MG) (ui : Bool) : SlotSem :=
  mSem g [] [] (fun c s => trapsOf (goCheck flow c s)) fun c s =>
    match goCheck flow c s with
    | .error _ => s
    | .ok ts =>
      let n := goNest flow (s.getA c.a)
      setAccv c.a n.tab.reach (matIssue c (.mgo n) ui ts s)
def semMgoIp (g : MG) (ui : Bool) : SlotSem := goSem .ip g ui
/-- `MGO.ip` (R157, R159). -/
def execMgoIp (g : MG) (ui : Bool) (s : State) : Out := .next (runSlot (mgW g) (semMgoIp g ui) s)
def semMgoOp (g : MG) (ui : Bool) : SlotSem := goSem .op g ui
/-- `MGO.op` (R157, R159). -/
def execMgoOp (g : MG) (ui : Bool) (s : State) : Out := .next (runSlot (mgW g) (semMgoOp g ui) s)
def semMgoRw (g : MG) (ui : Bool) : SlotSem := goSem .rw g ui
/-- `MGO.rw` (R157, R159). -/
def execMgoRw (g : MG) (ui : Bool) (s : State) : Out := .next (runSlot (mgW g) (semMgoRw g ui) s)

/-! ## MWT and MSWP (R164-R167) -/

/-- An address in every page of a range, and its last one. -/
def probes (r : Addr × Nat) : List Addr :=
  (List.range ((r.2 + 65535) / 65536)).map (fun i => r.1 + BitVec.ofNat 72 (65536 * i)) ++ [r.1 + BitVec.ofNat 72 (r.2 - 1)]

/-- The place of a range that `MWT` reads: the own scratchpad, or a vault of the own quad (R165). -/
def quadPlace (c : Ctx) (s : State) (r : Addr × Nat) : Option (Option Nat) :=
  let x := s.getA c.a
  match x.tsk.ownOff 0 r.1 with
  | some _ => matPlace x true false r
  | none =>
    let home (v : Addr) : Bool := match s.locatePure c.a x.trCap v 1 0 with
      | .ok (.vault b _) => decide (b / 4 = c.a / 4)
      | _ => false
    if (probes r).all home then some none else none

/-- The ranges that an `MWT` reads: its box of the tensor, and its metadata. -/
def mwtReads (d : BitVec 256) (t : BitVec 1024) : List (Addr × Nat) :=
  let n := MwtDesc.outs d t
  let box (o m : Nat) : Int × Int := ((o : Int), (o : Int) + m - 1)
  let b := if MwtDesc.role d then [box (MwtDesc.org0 d) (MwtDesc.kept d), box (MwtDesc.org1 d) n]
           else [box (MwtDesc.org0 d) n, box (MwtDesc.org1 d) (MwtDesc.kept d)]
  let b := (List.range (tdRank t)).map fun i => b.getD i (0, 0)
  let w := MwtDesc.words d t
  tdSpan t false b ++ if w = 0 then [] else [(MwtDesc.maddr d, 4 * w)]
/-- The checks of `MWT` on its descriptor (R165 orders 2, 3), or the ranges it reads. -/
def mwtRanges (a : BitVec 4) (c : Ctx) (s : State) : Except Trap (List (Addr × Nat)) :=
  let d := img256 c s a
  let t := SMap.get 0 (s.getA c.a).cpy.tdt (MwtDesc.td d)
  if !MwtDesc.ok d || tdRank t == 0 then .error (trapOf .mtype c.slot)
  else
    let r := MwtDesc.role d
    let cap := if r then 32768 else 4096
    let meta_ := if MwtDesc.spm d = 0 then 0 else MwtDesc.klen d / MwtDesc.spm d * MwtDesc.fbits d
    if cap < MwtDesc.kept d * elBits (tdFmt t) ∨ cap / 8 < meta_ then .error (trapBounds c.slot 0xFF)
    else .ok (mwtReads d t)
/-- The checks of `MWT` after its descriptor read (R165), or the tiles touched. -/
def mwtCheck (a : BitVec 4) (c : Ctx) (s : State) : Except Trap (List Nat) :=
  match mwtRanges a c s with
  | .error t => .error t
  | .ok rs =>
    let x := s.getA c.a
    match placeAll c x false (rs.map fun r => (quadPlace c s r, r.2)) with
    | .error t => .error t
    | .ok ts => if 8 ≤ x.mat.cmds.length then .error (trapBounds c.slot 0x10) else .ok ts
def semMwt (g : MG) (a : BitVec 4) : SlotSem :=
  { mSem g [.a a] [.a a] (fun c s =>
      match recTraps c s a 32 32 with
      | [] => trapsOf (mwtCheck a c s)
      | l => l)
    (fun c s =>
      match mwtCheck a c s with
      | .error _ => s
      | .ok ts =>
        let d := img256 c s a
        recRead c a 32 (matIssue c (.mwt d (SMap.get 0 (s.getA c.a).cpy.tdt (MwtDesc.td d))) false ts s)) with
    look := fun c s => match recTraps c s a 32 32, mwtRanges a c s with
      | [], .ok rs => lookAll 0 ((rs.filter fun r => ((s.getA c.a).tsk.ownOff 0 r.1).isNone).flatMap probes) c s
      | _, _ => s }
/-- `MWT aa` (R164, R165). -/
def execMwt (g : MG) (a : BitVec 4) (s : State) : Out := .next (runSlot (mgW g) (semMwt g a) s)

def isMwt (m : MCmd) : Bool := match m.kind with | .mwt _ _ => true | _ => false
def isMms (m : MCmd) : Bool := match m.kind with | .mms _ => true | _ => false

/-- The metadata checks of `MSWP` (R167). -/
def mswpTraps (c : Ctx) (s : State) : List Trap :=
  let m := (s.getA c.a).mat
  if m.cmds.any isMwt then [trapOf .accbusy c.slot]
  else if m.shd.st ≠ .loaded then []
  else if m.shd.metaW.any fun e => e.2.2 then [trapOf .poisonkill c.slot]
  else match m.shd.fault with
    | some (w, g) => [⟨.mmeta, c.slot, g, w⟩]
    | none => []
def semMswp (g : MG) : SlotSem :=
  { mSem g [] [] (fun c s => match mswpTraps c s with | [] => ninth c s | l => l) (matIssue · .mswp false []) with
    tfx := fun c k s => if k = .mmeta ∨ k = .poisonkill ∧ mswpTraps c s ≠ [] then
      s.modA c.a fun x => x.modMat fun m => { m with shd := Plane.empty } else s }
/-- `MSWP` (R167). -/
def execMswp (g : MG) (s : State) : Out := .next (runSlot (mgW g) (semMswp g) s)

/-! ## Accumulator commands (R168-R171) -/

def semMz (g : MG) (acc : BitVec 3) : SlotSem :=
  mSem g [.acc acc] [] ninth fun c s => setAccv c.a [acc.toNat] (matIssue c (.mz acc.toNat) false [] s)
/-- `MZ accn` (R168). -/
def execMz (g : MG) (acc : BitVec 3) (s : State) : Out := .next (runSlot (mgW g) (semMz g acc) s)

/-- The rows and columns a tile transfer covers, as a box of its entry. -/
def tileBox (td : BitVec 1024) : List (Int × Int) :=
  (List.range (tdRank td)).map fun d => (0, (if d = 0 then min 512 (tdExt td 0) else if d = 1 then min 64 (tdExt td 1) else 1) - 1)
/-- The span of a tile transfer from ea, checked. -/
def tileCheck (a : BitVec 4) (read : Bool) (td : BitVec 1024) (c : Ctx) (x : Arr) : Except Trap (List Nat) :=
  let t := tdWithBase td (x.aGet a).v
  placeAll c x read ((tdSpan t false (tileBox t)).map fun r => (matPlace x true true r, r.2))
/-- POISONKILL, then ALIGN (R100, R169). -/
def eaTraps (a : BitVec 4) (c : Ctx) (x : Arr) : List Trap :=
  if (x.aGet a).p then [trapOf .poisonkill c.slot] else if (x.aGet a).v.toNat % 4 ≠ 0 then [trapOf .align c.slot] else []

def semMst (g : MG) (acc res : BitVec 3) (a : BitVec 4) (ui ef : Bool) (td : BitVec 8) : SlotSem :=
  let entry (x : Arr) : BitVec 1024 := SMap.get 0 x.cpy.tdt td.toNat
  mSem g ([.acc acc, .a a] ++ if ef then [.acc res] else []) ([.acc acc, .a a] ++ if ef then [.acc res] else [])
    (fun c s =>
      let x := s.getA c.a
      match eaTraps a c x with
      | [] =>
        if tdRank (entry x) = 0 ∨ (ef = true ∧ res = acc) then [trapOf .mtype c.slot]
        else match tileCheck a false (entry x) c x with
          | .error t => [t]
          | .ok _ =>
            if x.mat.cmds.any (fun m => m.writesAcc acc.toNat || (ef && m.writesAcc res.toNat)) then [trapOf .accbusy c.slot] else ninth c s
      | l => l)
    fun c s =>
      let x := s.getA c.a
      match tileCheck a false (entry x) c x with
      | .error _ => s
      | .ok ts => matIssue c (.mst acc.toNat res.toNat ef (x.aGet a).v (tdWithBase (entry x) (x.aGet a).v)) ui ts s
/-- `MST aa, accn, tdi` with `.ef` and `.uirq` (R170). -/
def execMst (g : MG) (acc res : BitVec 3) (a : BitVec 4) (ui ef : Bool) (td : BitVec 8) (s : State) : Out :=
  .next (runSlot (1 + mgW g) (semMst g acc res a ui ef td) s)

def semMla (g : MG) (acc : BitVec 3) (a : BitVec 4) (td : BitVec 8) : SlotSem :=
  let entry (x : Arr) : BitVec 1024 := SMap.get 0 x.cpy.tdt td.toNat
  mSem g [.acc acc, .a a] [.a a]
    (fun c s =>
      let x := s.getA c.a
      match eaTraps a c x with
      | [] =>
        if tdRank (entry x) = 0 ∨ 1 < tdFmt (entry x) then [trapOf .mtype c.slot]
        else match tileCheck a true (entry x) c x with
          | .error t => [t]
          | .ok _ =>
            if x.mat.cmds.any (fun m => m.writesAcc acc.toNat || m.readsAcc acc.toNat) then [trapOf .accbusy c.slot] else ninth c s
      | l => l)
    fun c s =>
      let x := s.getA c.a
      match tileCheck a true (entry x) c x with
      | .error _ => s
      | .ok ts => setAccv c.a [acc.toNat] (matIssue c (.mla acc.toNat (x.aGet a).v (tdWithBase (entry x) (x.aGet a).v)) false ts s)
/-- `MLA accn, aa, tdi` (R169). -/
def execMla (g : MG) (acc : BitVec 3) (a : BitVec 4) (td : BitVec 8) (s : State) : Out :=
  .next (runSlot (1 + mgW g) (semMla g acc a td) s)

/-! ## Waiting and status (R172, R173) -/

/-- The pending cause of the lowest sequence number, in issue order modulo 2^16 below `next`. -/
def firstPend (next : BitVec 16) (l : List (BitVec 16 × Cause)) : Option (BitVec 16 × Cause) :=
  l.foldl (fun b e =>
    match b with
    | none => some e
    | some u => if (next - 1 - e.1).toNat > (next - 1 - u.1).toNat then some e else some u) none

def semMwait (g : MG) : SlotSem :=
  { mSem g [] [] (fun c s =>
      let m := (s.getA c.a).mat
      if m.cmds.isEmpty then ((firstPend m.seq m.pendc).map fun e => (⟨e.2, c.slot, 0, e.1.toNat⟩ : Trap)).toList else [])
      (fun _ s => s) with
    hold := fun c s => !(s.getA c.a).mat.cmds.isEmpty,
    tfx := fun c k s => if k = .asyncmat ∨ k = .msdc then
        s.modA c.a fun x => x.modMat fun m =>
          { m with pendc := match firstPend m.seq m.pendc with | some e => m.pendc.erase e | none => m.pendc }
      else s }
/-- `MWAIT` (R172). -/
def execMwait (g : MG) (s : State) : Out := .next (runSlot (mgW g) (semMwait g) s)
def semMwaitWt (g : MG) : SlotSem :=
  { mSem g [] [] (fun _ _ => []) (fun _ s => s) with hold := fun c s => (s.getA c.a).mat.cmds.any isMwt }
/-- `MWAIT.wt` (R172). -/
def execMwaitWt (g : MG) (s : State) : Out := .next (runSlot (mgW g) (semMwaitWt g) s)

/-- The status word (R173). -/
def Mat.status (m : Mat) : Word := m.cseq ++ BitVec.ofNat 4 m.cmds.length ++ 0#35 ++ m.stick
def semMstat (g : MG) (d : R6) : SlotSem :=
  mSem g [.s d] [] (fun _ _ => []) fun c s => wrS c 1 d ⟨(s.getA c.a).mat.status, false⟩ s
/-- `MSTAT sd` (R173). -/
def execMstat (g : MG) (d : R6) (s : State) : Out := .next (runSlot (mgW g) (semMstat g d) s)
def semMstatClr (g : MG) (d : R6) : SlotSem :=
  mSem g [.s d] [] (fun _ _ => []) fun c s =>
    (wrS c 1 d ⟨(s.getA c.a).mat.status, false⟩ s).modA c.a fun x => x.modMat fun m => { m with stick := 0 }
/-- `MSTAT.clr sd` (R173). -/
def execMstatClr (g : MG) (d : R6) (s : State) : Out := .next (runSlot (mgW g) (semMstatClr g d) s)

/-! ## The engine (R150, R156, R158) -/

/-- A dispatched stack waits for or runs on the plane of an array (R180, R181). -/
def State.stackOn (s : State) (a : Nat) : Bool := (SMap.get Quad.reset s.quad (a / 4)).stks.any fun k => !k.isOpen && k.owner == a
def State.stackRuns (s : State) (a : Nat) : Bool := (SMap.get Quad.reset s.quad (a / 4)).stks.any fun k => k.run && k.owner == a

def Arr.mcmd (x : Arr) (seq : BitVec 16) : Option MCmd := x.mat.cmds.find? fun m => m.seq == seq
def State.modMcmd (s : State) (a : Nat) (seq : BitVec 16) (f : MCmd → MCmd) : State :=
  s.modA a fun x => x.modMat fun m => { m with cmds := m.cmds.map fun c => if c.seq = seq then f c else c }

/-- A command may start (R150). -/
def mayStart (x : Arr) (m : MCmd) : Bool :=
  let before := x.mat.cmds.takeWhile fun c => c.seq != m.seq
  !m.started && !isMms m && x.quiet m.t && x.tsk.run && !x.killed &&
  !x.stopping &&
  (if isMwt m then before.all fun c => !isMwt c && (match c.kind with | .mswp => false | _ => true) else before.all isMms)

/-- The elements of a tile transfer: place in the tile and position. -/
def tilePos (td : BitVec 1024) : List (Nat × Int) :=
  (List.range 64).flatMap fun (r : Nat) => (List.range 512).filterMap fun (k : Nat) => (inPos td k r).map fun p => (512 * r + k, p)
/-- An `MLA` performed: the tile takes the rows and columns of the source, +0 elsewhere. -/
def doMla (b : UBuf) (acc : Nat) (td : BitVec 1024) : Option (List (Nat × EP)) :=
  (tilePos td).foldl (fun o e => match o, rawAt b td e.2 with
    | some l, some v => some ((acc * 32768 + e.1, (⟨BitVec.ofNat 32 v.1, v.2⟩ : EP)) :: l)
    | _, _ => none) (some [])

/-- An accumulator tile without its elements: +0, clean. -/
def Cel.clearAcc (c : Cel) (n : Nat) : Cel :=
  { c with acc := c.acc.filter fun e => !(decide (n * 32768 ≤ e.1) && decide (e.1 < (n + 1) * 32768)) }

/-- An `MST` performed: flags and what is to be written. -/
def doMst (a acc res : Nat) (ef : Bool) (td : BitVec 1024) (s : State) : Fl × List MWr × State :=
  let c := (s.getA a).cel
  let els := (List.range 64).flatMap fun (r : Nat) => (List.range 512).filterMap fun (k : Nat) =>
    if (inPos td k r).isSome then
      let e := c.accGet acc (512 * r + k)
      let q := c.accGet res (512 * r + k)
      some (⟨k, r, e.v, if ef then some q.v else none, e.p || (ef && q.p)⟩ : StEl)
    else none
  let b := tileBytes td els
  (b.2.1, unitsOf b.1, if ef then s.modA a fun x => x.modCel (putResidue res b.2.2) else s)

/-! ### What a step reads, and whether it can -/

/-- The next index vector; nothing after the last (R156). -/
def nextIdx (ls : List (BitVec 256)) (idx : List Nat) : Option (List Nat) :=
  match ls, idx with
  | l :: ls, i :: idx => if i + 1 < NestLev.count l then some ((i + 1) :: idx) else (nextIdx ls idx).map fun r => 0 :: r
  | _, _ => none

/-- A nest's coordinates at its index vector: I, J, Kc, the accumulator tile, and whether the step is live (R156). -/
structure At where
  i : Int
  j : Int
  kc : Int
  n : Nat
  live : Bool
def Nest.at_ (g : Nest) : At :=
  let ls := g.tab.levels
  let ix (l : Nat) : Nat := g.idx.getD l 0
  let sumI (f : BitVec 256 → Int) : Int := ls.zipIdx.foldl (fun v e => v + ix e.2 * f e.1) 0
  { i := sumI NestLev.di, j := sumI NestLev.dj, kc := sumI NestLev.dk,
    n := ls.zipIdx.foldl (fun v e => v + ix e.2 * NestLev.accstr e.1) (NestHdr.acc g.tab.hdr),
    live := ls.zipIdx.all fun e =>
      let b := g.tab.binding e.2
      !bitAt b 4 || bitAt (SMap.get 0#64 g.kval e.2) (ix e.2 % 64) }

/-- The rows and columns of an `MMS` operand: positions of A, of B, and the words of C that it reads (R176). -/
def bandPosA (r : MmsReq) : List (Option Int) :=
  (List.range (MmsDesc.rows r.desc)).flatMap fun (i : Nat) => (List.range (MmsDesc.k r.desc)).map fun (k : Nat) => some (freePos r.tdA k i)
def bandPosB (r : MmsReq) : List (Option Int) :=
  (List.range (MmsDesc.n r.desc)).flatMap fun (j : Nat) => (List.range (MmsDesc.k r.desc)).map fun (k : Nat) =>
    some (freePos r.tdB (MmsDesc.borg0 r.desc + j : Nat) (MmsDesc.borg1 r.desc + k : Nat))
def bandC (r : MmsReq) : List (Addr × Nat) :=
  if !MmsDesc.acc r.desc then []
  else (List.range (MmsDesc.rows r.desc)).flatMap fun i => (List.range (MmsDesc.n r.desc)).map fun j =>
    (ownAddr (MmsDesc.coff r.desc + i * MmsDesc.cpitch r.desc + 4 * j), 4)

/-- What the current step of a command reads from memory (R156, R164, R169, R176). -/
def MCmd.reads (m : MCmd) : List (Addr × Nat) :=
  match m.kind with
  | .mgo g => let q := g.at_; if q.live then blockAddrs g.tdA (g.posA q.i q.kc) ++ blockAddrs g.tdB (g.posB q.j q.kc) else []
  | .mla _ _ td => (tilePos td).flatMap fun e => rawAddrs td e.2
  | .mwt d td => ((planePos d td).flatMap fun e => rawAddrs td e.2) ++ metaAddrs d td
  | .mms r => blockAddrs r.tdA (bandPosA r) ++ blockAddrs r.tdB (bandPosB r) ++ bandC r
  | _ => []

/-- The engine as a command uses it. -/
def MCmd.eng (m : MCmd) (a : Nat) : Eng := ⟨a, m.seq, m.tr⟩

/-- The units of 16 bytes that reads touch (R238). -/
def unitNos (l : List (Addr × Nat)) : List Nat :=
  (l.flatMap fun e => let u := e.1.toNat / 16; if e.1.toNat % 16 + e.2 ≤ 16 then [u] else [u, u + 1]).eraseReps
/-- Units that the current step of a command has still to read. -/
def MCmd.missing (m : MCmd) : List Nat := (unitNos m.reads).filter fun u => (m.buf.find u).isNone
/-- The address of a unit. -/
def unitVa (u : Nat) : Addr := BitVec.ofNat 72 (16 * u)
/-- Units to be translated: every one on the chip, and one of each page elsewhere. -/
def pageReads (l : List Nat) : List (Addr × Nat) :=
  (l.foldl (fun (r : List Nat) u => if u / 2 ^ 60 % 256 != 0xFF && r.any (fun v => v / 4096 == u / 4096) then r else u :: r) []).map fun u => (unitVa u, 16)

/-- The poison of the 16 bytes at a home, by byte. -/
def State.poisBits (s : State) (h : Home) : Nat :=
  (List.range 16).foldl (fun v i =>
    let p := match h with
      | .spad b off far => s.spadPois b (s.bankOff b off far + i)
      | .vault b off => State.vaultPois s b (off + i)
      | .phys pa => s.isPois (pa + i) && spaceOf pa != 4
    v + if p then 2 ^ i else 0) 0
/-- A unit of 16 bytes read for the current step of a command, if its bank grants it, and kept (R231, R238, R242). -/
def fetchUnit (a : Nat) (seq : BitVec 16) (u : Nat) (s : State) : State :=
  match (s.getA a).mcmd seq with
  | none => s
  | some m =>
    if (m.buf.find u).isSome then s
    else match s.locate a m.tr (unitVa u) 16 0 with
      | (.ok h, s) =>
        if s.portWaits h then s
        else
          let g := s.askRead (if h.away a then 4 else 0) h
          if !g.1 then g.2
          else
            let r := (g.2.touch a h 16).readHome h 16
            let pz := if r.2.1 then r.2.2.poisBits h else 0
            r.2.2.modMcmd a seq fun m => { m with buf := m.buf.put u (r.1, pz) }
      | (_, s) => s
/-- The units that a command has read for its current step. -/
def State.bufOf (s : State) (a : Nat) (seq : BitVec 16) : UBuf := (((s.getA a).mcmd seq).map (·.buf)).getD []
/-- The reads of a command's current step: every page it reads translated (R289, R294), then every unit asked for. The step can be taken once
all have come. -/
def State.ready (s : State) (a : Nat) (m : MCmd) : Ready × State :=
  let l := m.missing
  match s.readyAll a m.tr m.seq .mat 0 (pageReads l) with
  | (.ok, s) =>
    let s := l.foldl (fun (s : State) u => fetchUnit a m.seq u s) s
    (if l.all fun u => ((s.bufOf a m.seq).find u).isSome then .ok else .wait, s)
  | r => r
/-- A unit of a command written ahead of the others. -/
def writeAhead (a : Nat) (seq : BitVec 16) (i : Nat) (s : State) : State :=
  match (s.getA a).mcmd seq with
  | none => s
  | some m =>
    match m.wr[i]? with
    | none => s
    | some w => let r := unitWrite (m.eng a) w s; r.2.2.modMcmd a seq fun m => { m with wr := m.wr.take i ++ r.1 ++ m.wr.drop (i + 1) }
/-- What a command has still to write, written but for what must wait (R235); an address that is not mapped leaves ASYNCMAT pending. -/
def flushWr (a : Nat) (m : MCmd) (s : State) : State :=
  let r := engWrite (m.eng a) m.wr s
  r.2.2.modMcmd a m.seq fun m => { m with wr := r.1, bad := if r.2.1 then some .asyncmat else m.bad }

/-- A command that met a forbidden access: its record, and ASYNCMAT pending (R174, R182, R294). A load leaves the shadow plane invalid. -/
def failMat (a : Nat) (seq : BitVec 16) (va : Addr) (kind level : Nat) (s : State) : State :=
  match (s.getA a).mcmd seq with
  | none => s
  | some m =>
    if m.whole then s
    else
      let s := (s.taskFault (s.getA a).tsk a m.tr va kind 0 level 1 seq.toNat).modMcmd a seq fun m =>
        { m with whole := true, bad := some .asyncmat, buf := [], kind := match m.kind with | .mgo g => .mgo { g with fin := true } | k => k }
      if isMwt m then s.modA a fun x => x.modMat fun m => { m with shd := Plane.empty } else s

/-- `MATRIX_COMMAND_START` (R150): the command's turn has come, and the units it reads have been read; what it writes it has then still to
write. A nest runs by `TILE_STEP`. DEDUCED (unsafe; notes/assumptions 13). -/
def startMat (a : Nat) (m : MCmd) (s : State) : State :=
  let s := match m.kind with
    | .mst n r ef _ _ => let s := s.rrRead a (.acc (BitVec.ofNat 3 n)); if ef then s.rrRead a (.acc (BitVec.ofNat 3 r)) else s
    | .mswp => (s.regsRead a 8 0 (2 ^ 32)).regsRead a 13 0 (2 ^ 32)
    | .mz n | .mla n _ _ => s.regsNew a 6 (n * 32768) ((n + 1) * 32768)
    | .mwt _ _ => (s.regsNew a 8 0 (2 ^ 32)).regsNew a 13 0 (2 ^ 32)
    | _ => s
  let b := s.bufOf a m.seq
  let fin (fl : Fl) (wr : List MWr) (s : State) : State := s.modMcmd a m.seq fun m => { m with whole := true, fl := fl, wr := wr, buf := [] }
  match m.kind with
  | .mz n => fin 0#7 [] (s.modA a fun x => x.modCel fun c => c.clearAcc n)
  | .mla n _ td =>
    match doMla b n td with
    | some l => fin 0#7 [] (s.modA a fun x => x.modCel fun c =>
        { c.clearAcc n with acc := l.foldl (fun m e => SMap.set EP.zero m e.1 e.2) (c.clearAcc n).acc })
    | none => s
  | .mst n r ef _ td => let q := doMst a n r ef td s; fin q.1 q.2.1 q.2.2
  | .mswp => fin 0#7 [] (s.modA a fun x => x.modMat fun m =>
      { m with act := if m.shd.st = .loaded then m.shd else Plane.empty, shd := if m.shd.st = .loading then m.shd else Plane.empty })
  | .mwt d td =>
    match loadPlane b d td with
    | some p => fin 0#7 [] (s.modA a fun x => x.modMat fun m => { m with shd := p })
    | none => s
  | .mgo _ => s
  | .mms _ => s
/-- The command begins: an `MWT` makes the shadow plane LOADING (R165). -/
def beginMat (a : Nat) (m : MCmd) (s : State) : State :=
  let s := s.modMcmd a m.seq fun m => { m with started := true }
  match m.kind with
  | .mwt d td => s.modA a fun x => x.modMat fun t => { t with shd := { Plane.empty with st := .loading, desc := d, td := td } }
  | _ => s
/-- The command may begin, or has begun and can go on. -/
def mayRun (s : State) (a : Nat) (m : MCmd) : Bool :=
  let x := s.getA a
  if m.started then
    !m.whole && m.park.isNone && x.tsk.run && !x.killed && !isMms m && (match m.kind with | .mgo _ => false | _ => true)
  else mayStart x m && !s.stackOn a
def execMatrixCommandStart (a : Nat) (seq : BitVec 16) (s : State) : Out :=
  .next (match (s.getA a).mcmd seq with
    | none => s
    | some m =>
      if !mayRun s a m then s
      else
        let s := if m.started then s else beginMat a m s
        match (match m.kind with | .mgo _ => (Ready.ok, s) | _ => s.ready a m) with
        | (.ok, s) => startMat a m s
        | (.wait, s) => s
        | (.bad va k l, s) => failMat a seq va k l s)

/-- One index vector of a nest (R156) with the units it has read: begins, the tile step if live, stores, and the step to the next. -/
def walkStep (a : Nat) (m : MCmd) (g : Nest) (s : State) : State :=
  let s := ((s.rrRead a (.acc (BitVec.ofNat 3 g.at_.n))).regsRead a 7 0 (2 ^ 32)).regsRead a 12 0 (2 ^ 32)
  let x := s.getA a
  let ls := g.tab.levels
  let (fa, fb) := g.fmts x.mat.act
  let int := (comboOf fa fb).getD false
  let begins (l : Nat) : Bool := (g.idx.take l).all (· == 0)
  let ends (l : Nat) : Bool := ((g.idx.zip ls).take l).all fun e => e.1 + 1 == NestLev.count e.2
  let z := g.zpend || ls.zipIdx.any fun e => begins e.2 && NestLev.zs e.1
  let used := ls.zipIdx.foldl (fun u e => if begins e.2 then bitSet u e.2 false else u) g.used
  let q := g.at_
  let g := { g with zpend := z, used := used }
  let r : Option (Nest × BitVec 9) × State :=
    if !q.live then (some (g, 0), s.countA a 14 1)
    else
      match tileStep (s.bufOf a m.seq) a g int q.n q.i q.j q.kc (s.countA a 3 1) with
      | none => (none, s)
      | some (ms, k, s) => (some ({ g with zpend := false, used := (List.range ls.length).foldl (fun u l => bitSet u l true) g.used }, ms), s.countA a 4 k)
  match r with
  | (none, s) => s
  | (some (g, ms), s) =>
    let todo := ls.zipIdx.filter fun e => NestLev.se e.1 && bitAt g.used e.2 && ends e.2
    let w := todo.foldl (fun (wr, ms, sd) _ =>
      let b := storeBytes g int (s.getA a).cel q.n q.i q.j
      (wr ++ unitsOf b.1, ms ||| b.2.1, sd || b.2.2)) (([] : List MWr), ms, false)
    let nx := nextIdx ls g.idx
    s.modMcmd a m.seq fun m =>
      { m with kind := .mgo { g with idx := nx.getD g.idx, fin := nx.isNone }, whole := nx.isNone, ms := m.ms ||| w.2.1, wr := w.1, buf := [],
               bad := if w.2.2 then some .msdc else m.bad }

/-- The nest that runs on an array. -/
def Arr.nest (x : Arr) : Option (MCmd × Nest) :=
  x.mat.cmds.findSome? fun m => match m.kind with | .mgo g => if m.started then some (m, g) else none | _ => none
/-- The nest is inside a tile step: it has read ahead, or it has stores to perform (R158). -/
def MCmd.stepping (m : MCmd) : Bool := !m.buf.isEmpty || !m.wr.isEmpty

/-- A dispatched stack, the first that waits for the array's plane, takes it from a nest at its next tile-step boundary: it has the higher
priority, or has waited 4,096 cycles (R177, R181). -/
def State.stackTakes (s : State) (a : Nat) : Bool :=
  match (SMap.get Quad.reset s.quad (a / 4)).stks.find? fun k => !k.isOpen && k.owner == a with
  | none => false
  | some k => !k.run && (decide ((s.getA a).csr.prio.toNat < k.reqs.foldl (fun n r => max n r.prio) 0) || decide (k.at_ + 4096 ≤ s.now))
/-- `TILE_STEP` (R156, R158, R277): the running nest's stores of its last step perform, or it takes its next step, unless a stack has its
plane or takes it at this boundary (R181). -/
def execTileStep (a : Nat) (s : State) : Out :=
  let x := s.getA a
  .next (match x.nest with
    | none => s
    | some (m, g) =>
      if !x.tsk.run || x.killed || m.park.isSome || s.stackRuns a || ((x.stopping || s.stackTakes a) && !m.stepping) then s
      else if !m.wr.isEmpty then flushWr a m s
      else if m.whole then s
      else match s.ready a m with
        | (.ok, s) => walkStep a m g s
        | (.wait, s) => s
        | (.bad va k l, s) => failMat a m.seq va k l s)

/-- A command completed (R150, R165, R172, R173): its tiles return, its flags and pending cause show. -/
def endMat (a : Nat) (m : MCmd) (s : State) : State :=
  s.modA a fun x =>
    let x := (x.setOwn m.tiles false).modMat fun t =>
      { t with cmds := t.cmds.filter fun c => c.seq != m.seq, cseq := m.seq, stick := t.stick ||| m.ms,
               pendc := match m.bad with | some k => t.pendc ++ [(m.seq, k)] | none => t.pendc,
               shd := if isMwt m && t.shd.st == .loading then { t.shd with st := .loaded } else t.shd }
    let x := x.modSca fun c => { c with fpcsr := c.fpcsr ||| (m.fl.setWidth 64 <<< 8) }
    if m.ui && !x.tsk.chain then
      x.modSca fun c => { c with uirq := c.uirq ++ [(m.seq.setWidth 64, BitVec.ofNat 64 ((m.bad.map Cause.code).getD 0))] }
    else x

/-- `MATRIX_COMMAND_COMPLETE`: a started command whose effect is whole performs what it has still to write, and completes when nothing is
left. -/
def execMatrixCommandComplete (a : Nat) (seq : BitVec 16) (s : State) : Out :=
  let x := s.getA a
  .next (match x.mcmd seq with
    | none => s
    | some m =>
      if !m.started || !m.whole || isMms m || !x.tsk.run || x.killed then s
      else
        let s := flushWr a m s
        match (s.getA a).mcmd seq with
        | some m => if m.wr.isEmpty then endMat a m s else s
        | none => s)

end Sys2Proof.Machine
end

