-- ==== Sys2Proof/Machine/Merge.lean ====
section
/-! DEFINITION. `MMS` and the merge buffer: spec/06_matrix.md R176-R184. A request is held in its command until it arrives; the
quad holds the stacks, the dispatched ones last and in dispatch order. -/

namespace Sys2Proof.Machine

open Sys2Proof

/-- The ranges a box of an operand reaches, extents ignored (R176). -/
def freeSpan (td : BitVec 1024) (b0 b1 : Int × Int) : List (Addr × Nat) :=
  let (l, h) := tdHull td ([b0, b1].take (tdRank td))
  if fmtPlanes (tdFmt td) then (tdPlaneAddrs td (l / 16)).map fun a => (a, (2 * (h / 16 - l / 16) + 2).toNat)
  else [(tdAddr td l, ((h - l + 1) * fmtSize (tdFmt td)).toNat)]

/-- A list of positions as runs of consecutive ones. -/
def intRuns (l : List Int) : List (Int × Int) :=
  l.foldr (fun x r =>
    match r with
    | (a, b) :: r => if a = x + 1 then (x, b) :: r else (x, x) :: (a, b) :: r
    | [] => [(x, x)]) []
/-- The positions of a box of an operand, extents ignored (R176), as runs: each is the sum of its shares in two dimensions. -/
def freeRuns (td : BitVec 1024) (b0 b1 : Int × Int) : List (Int × Int) :=
  let ax (d : Nat) (b : Int × Int) : List Int :=
    if d < tdRank td then (List.range (b.2 - b.1 + 1).toNat).map fun (i : Nat) => tdShare td d (b.1 + i) else [0]
  let s0 := ax 0 b0
  let s1 := ax 1 b1
  let r0 := intRuns s0
  let r1 := intRuns s1
  if s0.length * r1.length ≤ s1.length * r0.length then s0.flatMap fun x => r1.map fun r => (x + r.1, x + r.2)
  else s1.flatMap fun y => r0.map fun r => (r.1 + y, r.2 + y)
/-- The ranges that hold the elements of a run. -/
def runRanges (td : BitVec 1024) (r : Int × Int) : List (Addr × Nat) :=
  if fmtPlanes (tdFmt td) then (tdPlaneAddrs td (r.1 / 16)).map fun a => (a, (2 * (r.2 / 16 - r.1 / 16) + 2).toNat)
  else [(tdAddr td r.1, ((r.2 - r.1 + 1) * fmtSize (tdFmt td)).toNat)]
/-- An address of an element in each page that holds elements of the B tile; on the chip the first and the last of each range (R177, R296). -/
def bPages (td : BitVec 1024) (d : BitVec 256) : List Addr :=
  let rs := freeRuns td ((MmsDesc.borg0 d : Int), MmsDesc.borg0 d + MmsDesc.n d - 1) ((MmsDesc.borg1 d : Int), MmsDesc.borg1 d + MmsDesc.k d - 1)
  (rs.flatMap (runRanges td)).foldl (fun l e =>
    (if e.1.extractLsb' 64 8 = 0xFF#8 then [e.1, e.1 + BitVec.ofNat 72 (e.2 - 1)] else pagesOf e.1 e.2).foldl (fun l v =>
      if l.any fun w => v == w || (v.extractLsb' 64 8 != 0xFF#8 && v.toNat / 65536 == w.toNat / 65536) then l else l ++ [v]) l) []

/-- What the issue check finds of the B tile (R177): a page fault at an address, forbidden, or its homes. -/
def bProbe (a : Nat) (tr : TrCap) (td : BitVec 1024) (d : BitVec 256) (s : State) : Except (Option Addr) (List Home) :=
  let rs := (bPages td d).map fun v => (v, s.locatePure a tr v 1 0)
  if rs.any fun e => match e.2 with | .bad 1 _ => false | .ok _ => false | _ => true then .error none
  else match rs.find? fun e => match e.2 with | .bad _ _ => true | _ => false with
    | some e => .error (some e.1)
    | none => .ok (rs.filterMap fun e => match e.2 with | .ok h => some h | _ => none)

/-- A and B entries of a request: A's base is AOFF of the own scratchpad. -/
def mmsA (x : Arr) (d : BitVec 256) : BitVec 1024 := tdWithBase (SMap.get 0 x.cpy.tdt (MmsDesc.atd d)) (ownAddr (MmsDesc.aoff d))
def mmsB (x : Arr) (d : BitVec 256) : BitVec 1024 := SMap.get 0 x.cpy.tdt (MmsDesc.btd d)

/-- The A and C ranges, checked (R177 orders 5, 6). -/
def mmsTiles (c : Ctx) (x : Arr) (d : BitVec 256) : Except Trap (List Nat) :=
  let aSp := (freeSpan (mmsA x d) (0, (MmsDesc.k d : Int) - 1) (0, (MmsDesc.rows d : Int) - 1)).map fun r => (matPlace x true false r, r.2)
  let cn := (MmsDesc.rows d - 1) * MmsDesc.cpitch d + 4 * MmsDesc.n d
  placeAll c x false (aSp ++ [(matPlace x true false (ownAddr (MmsDesc.coff d), cn), cn)])

/-- The descriptor and the combination of an `MMS` are in range (R177 orders 2, 3). -/
def mmsOk (a : BitVec 4) (c : Ctx) (s : State) : Bool :=
  let x := s.getA c.a
  let d := img256 c s a
  let ta := mmsA x d
  let tb := mmsB x d
  tdRank ta != 0 && tdRank tb != 0 && MmsDesc.ok d (elBits (tdFmt tb)) && (comboOf (tdFmt ta) (tdFmt tb)).isSome &&
  stageOk s.dev.stage (tdFmt ta) (tdFmt tb) && sxLaid ta 0 && sxLaid tb 1 && (sxM (tdFmt tb) == 0 || MmsDesc.borg1 d % 16 == 0)
/-- The checks of `MMS` after its descriptor read, in order (R177). -/
def mmsTraps (a : BitVec 4) (c : Ctx) (s : State) : List Trap :=
  let x := s.getA c.a
  let d := img256 c s a
  let tb := mmsB x d
  if !mmsOk a c s then [trapOf .mtype c.slot]
  else match bProbe c.a x.trCap tb d s with
    | .error none => [trapOf .tfault c.slot]
    | .error (some _) => []
    | .ok _ =>
      match mmsTiles c x d with
      | .error t => [t]
      | .ok _ => ninth c s

/-- Homes of a B tile: the vault that holds it whole, if one does, and the physical place of its first element: of its first byte, or of its
bit in the word of the last plane. DESIGN CHOICE (unsafe; notes/assumptions 67). -/
def bHomes (a : Nat) (tr : TrCap) (tb : BitVec 1024) (d : BitVec 256) (s : State) : Option Nat × Nat :=
  let homes := match bProbe a tr tb d s with | .ok l => l | _ => []
  let p := freePos tb (MmsDesc.borg0 d) (MmsDesc.borg1 d)
  let planes := fmtPlanes (tdFmt tb)
  let va := if planes then (tdPlaneAddrs tb (p / 16)).getLastD 0 else tdAddr tb p
  (match homes with
    | .vault b _ :: _ => if homes.all fun h => match h with | .vault b' _ => b' == b | _ => false then some b else none
    | _ => none,
   match s.locatePure a tr va 1 0 with
    | .ok h => 16 * s.keyOf h + (if planes then (p % 16).toNat else 0)
    | _ => 0)

/-- The request an `MMS` makes. -/
def mmsReq (a : BitVec 4) (c : Ctx) (s : State) : MmsReq :=
  let x := s.getA c.a
  let d := img256 c s a
  let tb := mmsB x d
  let q := SMap.get Quad.reset s.quad (c.a / 4)
  let h := bHomes c.a x.trCap tb d s
  { arr := c.a, seq := x.mat.seq, ctx := x.csr.ctx, prio := x.csr.prio.toNat, desc := d, tdA := mmsA x d, tdB := tb,
    hold := min (MmsDesc.hold d) (min x.tsk.hold q.qcap), arrival := c.t, bkey := h.2, bvault := h.1, row0 := 0, tr := x.trCap,
    xctx := q.xctx }

/-! ## Stacks (R178-R181) -/

def State.getQ (s : State) (q : Nat) : Quad := SMap.get Quad.reset s.quad q
def State.modQ (s : State) (q : Nat) (f : Quad → Quad) : State := { s with quad := SMap.mod Quad.reset s.quad q f }

def Stk.rows (k : Stk) : Nat := k.reqs.foldl (fun n r => n + MmsDesc.rows r.desc) 0
def Stk.prio (k : Stk) : Nat := k.reqs.foldl (fun n r => max n r.prio) 0
/-- Two requests have equal keys (R178), as each was made at its issue (R341). -/
def sameKey (r q : MmsReq) : Bool :=
  r.bkey == q.bkey && tdFmt r.tdB == tdFmt q.tdB && MmsDesc.vstamp r.desc == MmsDesc.vstamp q.desc && MmsDesc.k r.desc == MmsDesc.k q.desc &&
  r.xctx == q.xctx && (r.xctx || r.ctx == q.ctx)

/-- The plane of an array is idle: no command of its own has started and not completed, and no stack is dispatched on it. -/
def State.planeIdle (s : State) (o : Nat) : Bool :=
  !((s.getA o).mat.cmds.any fun m => m.started && !isMms m) && !s.stackOn o
/-- An open stack is due (R179). -/
def State.stkDue (s : State) (k : Stk) : Bool :=
  let o := s.getA k.owner
  k.rows == 64 || (k.reqs.any fun r => decide (r.arrival + r.hold ≤ s.now)) ||
  (o.tsk.run && s.planeIdle k.owner && decide (o.csr.prio.toNat < k.prio))
/-- Stacks that satisfy a test are dispatched now, behind those dispatched before (R179). -/
def dispatchStks (now : Nat) (f : Stk → Bool) (l : List Stk) : List Stk :=
  let go (k : Stk) : Bool := k.isOpen && f k
  l.filter (fun k => !go k) ++ (l.filter go).map fun k => { k with isOpen := false, at_ := now }

/-- Entries of a quad's merge buffer that are taken: the requests of its open stacks. Those of dispatched stacks hold none. DESIGN CHOICE
(unsafe; notes/assumptions 66). -/
def Quad.entries (q : Quad) : Nat := (q.stks.filter (·.isOpen)).foldl (fun n k => n + k.reqs.length) 0
/-- Requests on their way to a quad's merge buffer, which hold an entry of it from their issue on. -/
def State.mmsFlying (s : State) (q : Nat) : Nat :=
  ((List.range 4).flatMap fun i => (s.getA (4 * q + i)).mat.cmds.filter fun m => isMms m && !m.started).length
/-- The merge buffer of its quad takes the request, with `n` others on their way: B lies whole in a vault of the quad, an entry is free,
merging is enabled, and the issuer is no chain member (R177, R263). DESIGN CHOICE (unsafe; notes/assumptions 66). -/
def Quad.takes (q : Quad) (n : Nat) (r : MmsReq) (chain : Bool) : Bool :=
  (r.bvault.map fun v => v / 4 == r.arr / 4).getD false && q.men && !chain && decide (q.entries + n < 16)
/-- A request dispatched alone, on its issuer's own plane (R177). -/
def Quad.alone (q : Quad) (r : MmsReq) (now : Nat) : Quad := { q with stks := q.stks ++ [⟨[r], r.arr, false, now, false, false⟩] }
/-- A request joins the open stack of its key, if it fits, or opens a stack (R178). -/
def Quad.join (q : Quad) (r : MmsReq) (now : Nat) : Quad × Bool :=
  let hit (k : Stk) : Bool := k.isOpen && (k.reqs.head?.map fun o => sameKey o r).getD false
  let fits (k : Stk) : Bool := hit k && decide (k.rows + MmsDesc.rows r.desc ≤ 64)
  match q.stks.findIdx? fits with
  | some i => ({ q with stks := q.stks.zipIdx.map fun e => if e.2 = i then { e.1 with reqs := e.1.reqs ++ [{ r with row0 := e.1.rows }] } else e.1 }, true)
  | none => ({ q with stks := ⟨[r], r.bvault.getD r.arr, true, now, false, true⟩ :: dispatchStks now hit q.stks }, false)

/-- The open stacks of a quad that are due are dispatched (R179). -/
def dispatchDue (quad : Nat) (s : State) : State := s.modQ quad fun q => { q with stks := dispatchStks s.now s.stkDue q.stks }

/-- A gated quad begins to wake: 3,200 cycles (R275). -/
def State.wakeQuad (s : State) (q : Nat) : State :=
  let k := s.getQ q
  if k.gated && k.wake.isNone then s.modQ q fun k => { k with wake := some (s.now + 3200) } else s
/-- The quad of the vault that a request reads is woken (R275). -/
def State.wakeFor (s : State) (r : MmsReq) : State := match r.bvault with | some v => s.wakeQuad (v / 4) | none => s

/-- The command of a request has begun. -/
def beginMms (a : Nat) (r : MmsReq) (s : State) : State := s.modMcmd a r.seq fun m => { m with kind := .mms r, started := true, buf := [], zg := 0 }
/-- A request reaches its quad's merge buffer (R178, R179). -/
def joinMms (a : Nat) (r : MmsReq) (s : State) : State :=
  let s := beginMms a r s
  let e := (s.getQ (a / 4)).join r s.now
  let s := dispatchDue (a / 4) ((s.modQ (a / 4) fun _ => e.1).wakeFor r)
  if e.2 then s.countA a 6 1 else s
/-- A request that the merge buffer does not take is dispatched alone (R177). -/
def aloneMms (a : Nat) (r : MmsReq) (s : State) : State :=
  ((beginMms a r s).modQ (a / 4) fun q => q.alone r s.now).wakeFor r
/-- A request at its issue, or as its task resumes: on its way to the merge buffer, or dispatched alone (R177, R183). -/
def enterMms (a : Nat) (r : MmsReq) (n : Nat) (s : State) : State :=
  if (s.getQ (a / 4)).takes n r (s.getA a).tsk.chain then s else aloneMms a r s

/-- A withdrawn request on the array where its task resumes (R183). -/
def MmsReq.afresh (r : MmsReq) (a : Nat) (s : State) : MmsReq :=
  let h := bHomes a r.tr r.tdB r.desc s
  { r with arr := a, bkey := h.2, bvault := h.1, row0 := 0, xctx := (s.getQ (a / 4)).xctx }

/-- The withdrawn requests of an array's task enter afresh in their order, judged once the task is in its place (R183): on their way to the
merge buffer of its quad, or dispatched alone. -/
def State.reenter (s : State) (a : Nat) : State :=
  (s.getA a).mat.cmds.foldl (fun (s : State) m =>
    match m.kind with
    | .mms r =>
      if !m.started then s
      else
        let n := s.mmsFlying (a / 4)
        let r := r.afresh a s
        enterMms a r n (s.modMcmd a m.seq fun m => { m with kind := .mms r, started := false, buf := [], zg := 0 })
    | _ => s) s

/-- Requests in their order with the stack rows they occupy. -/
def restack (n : Nat) (l : List MmsReq) : List MmsReq :=
  match l with
  | [] => []
  | r :: l => { r with row0 := n } :: restack (n + MmsDesc.rows r.desc) l
/-- Requests of an array withdrawn from the stacks that are not dispatched (R183), or from every stack. -/
def Quad.withdraw (q : Quad) (a : Nat) (all : Bool) : Quad :=
  let take (k : Stk) : Stk := if k.isOpen || all then { k with reqs := restack 0 (k.reqs.filter fun r => r.arr != a) } else k
  { q with stks := (q.stks.map take).filter fun k => !k.reqs.isEmpty }
/-- A request of the array is in a dispatched stack. -/
def Quad.holds (q : Quad) (a : Nat) : Bool := q.stks.any fun k => !k.isOpen && k.reqs.any fun r => r.arr == a

/-- `MMS_ARRIVAL` (R177, R178): a waiting request reaches its quad's merge buffer. -/
def execMmsArrival (a : Nat) (seq : BitVec 16) (s : State) : Out :=
  let x := s.getA a
  .next (match x.mcmd seq with
    | none => s
    | some m =>
      match m.kind with
      | .mms r =>
        if m.started || !x.tsk.run || x.killed || x.stopping then s
        else joinMms a { r with arr := a, arrival := s.now } s
      | _ => s)

/-- `HOLD_EXPIRY` (R179): the open stacks of a quad that are due are dispatched. -/
def execHoldExpiry (quad : Nat) (s : State) : Out := .next (dispatchDue quad s)

/-- Stack `i` of the quad, dispatched, not running, and first on its owner. -/
def State.nextStk (s : State) (quad i : Nat) : Option Stk :=
  let l := (s.getQ quad).stks
  match l[i]? with
  | none => none
  | some k =>
    if k.isOpen || k.run || (l.take i).any (fun e => !e.isOpen && e.owner == k.owner) then none
    else some k
/-- Commands of the owner's own that run: only a nest at a tile-step boundary, or others (R181). -/
def ownRuns (x : Arr) : Bool × Bool :=
  let l := x.mat.cmds.filter fun m => m.started && !isMms m
  let nest (m : MCmd) : Bool := match m.kind with | .mgo _ => !m.whole && !m.stepping | _ => false
  (l.any nest, l.any fun m => !nest m)
/-- A stack may take its owner's plane: it is idle, or runs a nest of lower priority, or after 4,096 cycles any nest (R177, R181). -/
def State.canStart (s : State) (quad i : Nat) : Bool :=
  match s.nextStk quad i with
  | none => false
  | some k =>
    let x := s.getA k.owner
    let (nest, other) := ownRuns x
    !other && (!nest || decide (x.csr.prio.toNat < k.prio) || decide (k.at_ + 4096 ≤ s.now))
def runStk (quad i : Nat) (s : State) : State :=
  s.modQ quad fun q => { q with stks := q.stks.zipIdx.map fun e => if e.2 = i then { e.1 with run := true } else e.1 }

/-- `STACK_START` (R180, R181): a dispatched stack takes its owner's plane when it may. -/
def execStackStart (quad stk : Nat) (s : State) : Out := .next (if s.canStart quad stk then runStk quad stk s else s)

/-- `STACK_WAIT_EXPIRY` (R177, R181): 4,096 cycles after its dispatch a stack takes the plane from the nest that runs. -/
def execStackWaitExpiry (quad stk : Nat) (s : State) : Out :=
  .next (match s.nextStk quad stk with
    | none => s
    | some k => if s.now < k.at_ + 4096 then s else if s.canStart quad stk then runStk quad stk s else s)

/-! ## The instruction (R176, R177) -/

/-- `MMS`: a request that the merge buffer does not take is dispatched at its issue (R177). -/
def semMms (g : MG) (a : BitVec 4) : SlotSem :=
  { mSem g [.a a] [.a a] (fun c s =>
      match recTraps c s a 32 32 with
      | [] => mmsTraps a c s
      | l => l)
      (fun c s =>
        match mmsTiles c (s.getA c.a) (img256 c s a) with
        | .error _ => s
        | .ok ts =>
          let r := mmsReq a c s
          enterMms c.a r (s.mmsFlying (c.a / 4)) (recRead c a 32 (matIssue c (.mms r) (MmsDesc.ui (img256 c s a)) ts s))) with
    look := fun c s => match recTraps c s a 32 32 with
      | [] => if mmsOk a c s then lookAll 0 (bPages (mmsB (s.getA c.a) (img256 c s a)) (img256 c s a)) c s else s
      | _ => s
    pf := fun c s =>
      let x := s.getA c.a
      let d := img256 c s a
      match bProbe c.a x.trCap (mmsB x d) d s with
      | .error (some v) => some (parkIssue c v s)
      | _ => none }
/-- `MMS aa` (R176, R177). -/
def execMms (g : MG) (a : BitVec 4) (s : State) : Out := .next (runSlot (mgW g) (semMms g a) s)

/-! ## Bands (R180, R182, R184) -/

/-- A band's values from the units read: C in rows, stickies; nothing when a unit is missing, an error when it met poison. -/
def bandOf (b : UBuf) (r : MmsReq) : Option (Except Unit (List (Nat × EP) × BitVec 9)) :=
  let d := r.desc
  let kk := MmsDesc.k d
  let nn := MmsDesc.n d
  let rows := MmsDesc.rows d
  let int := (comboOf (tdFmt r.tdA) (tdFmt r.tdB)).getD false
  let cIn := if MmsDesc.acc d then engReads b (bandC r) else some (List.replicate (rows * nn) (0, false))
  match opBlock b r.tdA false (bandPosA r), opBlock b r.tdB false (bandPosB r), cIn with
  | some av, some bv, some cv =>
    if av.any (·.2) || bv.any (·.2) then some (.error ())
    else
      let grp (l : List OpV) (i g : Nat) : List OpV := (((l.drop (kk * i)).take kk).drop (16 * g)).take 16
      let el (i j : Nat) : EP × Fl :=
        let c0 := cv.getD (nn * i + j) (0, false)
        (List.range ((kk + 15) / 16)).foldl (fun (e, f) g =>
          let q := accGroup int (grp av i g) (grp bv j g) e
          (q.1, f ||| q.2)) (⟨BitVec.ofNat 32 c0.1, c0.2⟩, 0#7)
      let out := (List.range rows).flatMap fun i => (List.range nn).map fun j => ((i, j), el i j)
      some (.ok (out.map fun e => (MmsDesc.coff d + e.1.1 * MmsDesc.cpitch d + 4 * e.1.2, e.2.1),
        out.foldl (fun f e => f ||| stickOf e.2.2) 0))
  | _, _, _ => none
/-- The k-groups in which a band's A is zero (R160). -/
def zeroGroups (b : UBuf) (r : MmsReq) : Nat :=
  let kk := MmsDesc.k r.desc
  match opBlock b r.tdA false (bandPosA r) with
  | none => 0
  | some l => bitsOf ((kk + 15) / 16) fun g => (List.range (MmsDesc.rows r.desc)).all fun i =>
      !((((l.drop (kk * i)).take kk).drop (16 * g)).take 16).any opLive

/-- A band of a running stack computed, once the accesses of earlier bundles of its array have performed (R194) and its own reads have come:
its rows are then to be written, or it has failed with ASYNCMAT. -/
def runBand (r : MmsReq) (s : State) : State :=
  match (s.getA r.arr).mcmd r.seq with
  | none => s
  | some m =>
    if m.whole || m.park.isSome || !(s.getA r.arr).quiet m.t then s
    else
      match s.ready r.arr m with
      | (.wait, s) => s
      | (.bad va k l, s) => failMat r.arr r.seq va k l s
      | (.ok, s) =>
        let b := s.bufOf r.arr r.seq
        let put (f : MCmd → MCmd) (s : State) : State :=
          s.modMcmd r.arr r.seq fun m => f { m with whole := true, buf := [], zg := zeroGroups b r }
        match bandOf b r with
        | none => s
        | some (.error _) => put (fun m => { m with bad := some .asyncmat, ms := stickPz true }) s
        | some (.ok (l, ms)) =>
          let bytes := l.flatMap fun e => (leBytes 4 e.2.v.toNat).zipIdx.map fun b => (ownAddr (e.1 + b.2), b.1, e.2.p)
          put (fun m => { m with ms := ms, wr := unitsOf bytes }) s

/-- Every word of a band's C poisoned, values unchanged: each of the words an element lies in (R182). -/
def poisonC (r : MmsReq) (s : State) : State :=
  let x := s.getA r.arr
  let d := r.desc
  (List.range (MmsDesc.rows d)).foldl (fun (s : State) i => (List.range (MmsDesc.n d)).foldl (fun (s : State) j =>
    let o := MmsDesc.coff d + i * MmsDesc.cpitch d + 4 * j
    (s.setPois (x.localKey r.arr o) true).setPois (x.localKey r.arr (o + 3)) true) s) s

/-- A band's rows written, as far as its scratchpad takes them now (R235). -/
def flushBand (r : MmsReq) (s : State) : State :=
  match (s.getA r.arr).mcmd r.seq with
  | some m => if m.bad.isSome then s else flushWr r.arr m s
  | none => s
/-- A band ended: its rows are written, or its C is poisoned and ASYNCMAT pending; its tiles return and its `MMS` completes.
DEDUCED (unsafe; notes/assumptions 34). -/
def endBand (r : MmsReq) (s : State) : State :=
  match (s.getA r.arr).mcmd r.seq with
  | none => s
  | some m =>
    let s := if m.bad.isSome then poisonC r s else s
    match (s.getA r.arr).mcmd r.seq with
    | some m => endMat r.arr m s
    | none => s
/-- Every band of a stack is computed. -/
def Stk.whole (k : Stk) (s : State) : Bool := k.reqs.all fun r => (((s.getA r.arr).mcmd r.seq).map (·.whole)).getD true

/-- k-groups of a stack and how many of them every band's A is zero in (R160). -/
def stkGroups (k : Stk) (s : State) : Nat × Nat :=
  match k.reqs with
  | [] => (0, 0)
  | r0 :: _ =>
    let ng := (MmsDesc.k r0.desc + 15) / 16
    (ng, ((List.range ng).filter fun g => k.reqs.all fun r => (((s.getA r.arr).mcmd r.seq).map fun m => m.zg.testBit g).getD false).length)
/-- Nothing of a stack's bands is left to write. -/
def Stk.written (k : Stk) (s : State) : Bool :=
  k.reqs.all fun r => (((s.getA r.arr).mcmd r.seq).map fun m => m.bad.isSome || m.wr.isEmpty).getD true

/-- `STACK_COMPLETE` (R180, R182): the bands of a running stack are computed; once all are, they are written, every band ends, and the owner's
plane is free again. -/
def execStackComplete (quad stk : Nat) (s : State) : Out :=
  .next (match (s.getQ quad).stks[stk]? with
    | none => s
    | some k =>
      if !k.run then s
      else if !k.whole s then k.reqs.foldl (fun s r => runBand r s) s
      else
        let s := k.reqs.foldl (fun s r => flushBand r s) s
        if !k.written s then s
        else
          let g := stkGroups k s
          let s := (s.countA k.owner 3 g.1).countA k.owner 4 g.2
          let s := k.reqs.foldl (fun s r => endBand r s) s
          s.modQ quad fun q => { q with stks := q.stks.eraseIdx stk })

end Sys2Proof.Machine
end

