-- ==== Sys2Proof/Machine/Frame.lean ====
section
/-! DEFINITION. The context frame: its bytes from an array's state and back, and the two commands that write and read it
(spec/12_system_tasks.md R280, spec/07_movement.md R223). Sub-layouts that R280 leaves open: notes/assumptions 17. -/

namespace Sys2Proof.Machine

open Sys2Proof

/-! ## Bits of a frame -/

/-- A value at a bit offset of a frame. -/
abbrev FItem := Nat × Nat

/-- A value joined to the bytes of a frame at a byte offset. -/
def frameOr (n : Nat) (m : SMap Byte) (k v : Nat) : SMap Byte :=
  match n with
  | 0 => m
  | n + 1 => if v = 0 then m else frameOr n (SMap.mod 0#8 m k (fun b => b ||| BitVec.ofNat 8 v)) (k + 1) (v / 256)
/-- The bytes of a frame, those that are not 0. DESIGN CHOICE (unsafe; notes/assumptions 17). -/
def frameOf (l : List FItem) : SMap Byte := l.foldl (fun m e => frameOr 160 m (e.1 / 8) (e.2 * 2 ^ (e.1 % 8))) []
/-- `w` bits at a bit offset. -/
def frameBits (m : SMap Byte) (bit w : Nat) : Nat :=
  ((List.range ((bit % 8 + w + 7) / 8)).foldl (fun v i => v + (SMap.get 0#8 m (bit / 8 + i)).toNat * 256 ^ i) 0) / 2 ^ (bit % 8) % 2 ^ w

/-- A value of bytes at a byte offset. -/
def at8 (k v : Nat) : FItem := (8 * k, v)
def bnat (b : Bool) : Nat := if b then 1 else 0

/-! ## Sizes (R280) -/

def up4k (n : Nat) : Nat := (n + 4095) / 4096 * 4096
def frAcc (v : Nat) : Nat := up4k (0xB0000 + v * 4096 + v * 256)
def frPad (v c : Nat) : Nat := up4k (frAcc v + c * 0x21000)
def frSize (v c sp : Nat) (keep : Bool) : Nat := if keep then frPad v c else frPad v c + sp + sp / 32 + 256
/-! ## Planes -/

/-- Where the codes of a plane's stored elements lie: the bit offset of element `e` and its bits; for shared-exponent formats without
the header, which follows the codes (`plHdr`). -/
def plBits (f : Nat) : Nat := if sxM f = 0 then elBits f else sxM f + 1
/-- The header of the block of stored position `k` of output `i`, as a byte offset. -/
def plHdr (p : Plane) (i k : Nat) : Nat :=
  let d := p.desc
  let n := MwtDesc.kept d
  let r0 := (if MwtDesc.role d then MwtDesc.org0 d else MwtDesc.org1 d) % 16
  (MwtDesc.outs d p.td * n * plBits (tdFmt p.td) + 7) / 8 + 2 * (i * ((r0 + n + 15) / 16) + (r0 + k) / 16)
/-- The place of an element within its block. -/
def plPos (p : Plane) (k : Nat) : Nat :=
  let d := p.desc
  ((if MwtDesc.role d then MwtDesc.org0 d else MwtDesc.org1 d) + k) % 16

/-- The fault recorded with a plane's metadata, as the header holds it: group and word; a poisoned word, for which the frame has no bit of its
own, as group 255. DESIGN CHOICE (unsafe; notes/assumptions 17). -/
def Plane.record (p : Plane) : Option (Nat × Nat) :=
  match p.metaW.find? fun e => e.2.2 with
  | some e => some (255, e.1)
  | none => p.fault.map fun f => (f.2, f.1)
/-- A plane with the fault that a header records. -/
def Plane.recorded (p : Plane) (g w : Nat) : Plane :=
  if g = 255 then { p with metaW := SMap.mod (0, false) p.metaW w fun e => (e.1, true) } else p

def planeItems (base : Nat) (p : Plane) : List FItem :=
  let f := tdFmt p.td
  let w := plBits f
  let n := MwtDesc.kept p.desc
  (p.els.flatMap fun e =>
    let i := e.1 / 4096
    let k := e.1 % 4096
    let bit := (i * n + k) * w
    let c := e.2.1
    let code := if sxM f = 0 then c else c % 2 ^ sxM f + 2 ^ sxM f * (c / 128 % 2)
    (8 * base + bit, code) ::
      (if sxM f = 0 then [] else [(8 * (base + plHdr p i k), c / 512 % 256), (8 * (base + plHdr p i k) + 8 + plPos p k / 2, c / 256 % 2)]) ++
      (if e.2.2 then (List.range ((bit % 8 + w + 7) / 8)).map fun j => (8 * (base + 0x48000) + bit / 8 + j, 1) else [])) ++
  p.metaW.map fun e => at8 (base + 0x40000 + 4 * e.1) e.2.1

def planeRead (m : SMap Byte) (base : Nat) (p : Plane) : Plane :=
  if p.st = .invalid then p
  else
    let f := tdFmt p.td
    let w := plBits f
    let n := MwtDesc.kept p.desc
    let el (i k : Nat) : Nat × Bool :=
      let bit := (i * n + k) * w
      let c := frameBits m (8 * base + bit) w
      let h := base + plHdr p i k
      (if sxM f = 0 then c
       else c % 2 ^ sxM f + 128 * (c / 2 ^ sxM f) + 256 * frameBits m (8 * h + 8 + plPos p k / 2) 1 + 512 * frameBits m (8 * h) 8,
       frameBits m (8 * (base + 0x48000) + bit / 8) ((bit % 8 + w + 7) / 8) != 0)
    let nw := MwtDesc.words p.desc p.td
    { p with
      els := (List.range (MwtDesc.outs p.desc p.td)).foldl (fun t i =>
        (List.range n).foldl (fun t k => SMap.set (0, false) t (i * 4096 + k) (el i k)) t) [],
      metaW := (List.range nw).foldl (fun t i =>
        SMap.set (0, false) t i (frameBits m (8 * (base + 0x40000 + 4 * i)) 32, false)) [],
      nmeta := nw }

def PlSt.code (p : PlSt) : Nat := match p with | .invalid => 0 | .loading => 1 | .loaded => 2

/-! ## Saving -/

def idxItems {α : Type} (l : List α) (f : Nat → α → List FItem) : List FItem := l.zipIdx.flatMap fun e => f e.2 e.1

/-- The header: FLAGS with SPKEEP, PARK and CHAIN, the PC to resume at. -/
def headItems (x : Arr) (keep park : Bool) (pc : BitVec 32) : List FItem :=
  let k := x.tsk
  [at8 0 1, at8 2 (bnat keep + 2 * bnat park + 4 * bnat k.chain), at8 4 (frSize k.vregs k.accs k.spalloc keep), at8 8 x.csr.ctx.toNat,
   at8 10 k.sregs, at8 11 k.vregs, at8 12 k.accs, at8 13 x.cpy.z.toNat, at8 14 k.rank, at8 15 k.nranks,
   at8 16 pc.toNat, at8 20 k.node, at8 24 k.spalloc, at8 28 k.vgrant] ++
  idxItems k.lidx (fun i v => [at8 (32 + 8 * i) v]) ++
  [at8 96 x.mat.act.desc.toNat, at8 128 x.mat.shd.desc.toNat, at8 160 x.mat.act.st.code, at8 161 x.mat.shd.st.code] ++
  (match x.mat.shd.record with | some (g, w) => [at8 162 g, at8 164 w] | none => [])

def scaItems (x : Arr) : List FItem :=
  let c := x.sca
  let hd (l : List RQ) (q : Nat) : List FItem :=
    [at8 (0x782 + q) l.length, at8 (0x790 + q) (bitsOf 8 fun i => ((l[i]?.bind (·.val)).map (·.p)).getD false),
     at8 (0x798 + q) (bitsOf 8 fun i => (l[i]?.map fun e => e.val.isNone).getD false)] ++
    idxItems l fun i e => [at8 (0x600 + 64 * q + 8 * i) ((e.val.map (·.v.toNat)).getD 0), at8 (0x7A0 + 16 * q + 2 * i) e.seq.toNat]
  c.a.map (fun e => at8 (0x100 + 16 * e.1) e.2.v.toNat) ++ c.sh.map (fun e => at8 (0x200 + 8 * e.1) e.2.v.toNat) ++
  [at8 0x240 c.lc.toNat, at8 0x248 c.ec.toNat, at8 0x250 c.rrb.toNat, at8 0x258 c.fpcsr.toNat, at8 0x260 c.uvec.toNat, at8 0x268 c.hRet.toNat] ++
  x.mat.k.map (fun e => at8 (0x280 + 8 * e.1) e.2.toNat) ++
  (c.xsel.filter (fun e => decide (1 ≤ e.1))).map (fun e => at8 (0x300 + 8 * (e.1 - 1)) e.2.toNat) ++
  (c.ysel.filter (fun e => decide (1 ≤ e.1))).map (fun e => at8 (0x318 + 2 * (e.1 - 1)) e.2.toNat) ++
  [at8 0x31E (c.p ||| 1#8).toNat, at8 0x31F c.pp.toNat, at8 0x320 c.pmm.toNat, at8 0x322 c.g.toNat, at8 0x324 (bnat c.hAct),
   at8 0x340 c.sv.toNat, at8 0x348 (bitsOf 64 fun i => (SMap.get PV.zero c.s i).p), at8 0x350 c.smm.toNat, at8 0x358 c.ssplit.toNat,
   at8 0x360 x.cel.vv.toNat, at8 0x368 x.cel.vmm.toNat, at8 0x370 c.av.toNat, at8 0x372 (bitsOf 16 fun i => (SMap.get PA.zero c.a i).p),
   at8 0x374 c.amm.toNat, at8 0x376 x.cel.accv.toNat, at8 0x377 x.cel.mv.toNat] ++
  idxItems c.svq (fun i e => [at8 (0x400 + 8 * i) e.v.toNat]) ++ idxItems c.vsq (fun i e => [at8 (0x500 + 8 * i) e.v.toNat]) ++
  [at8 0x796 c.uirq.length, at8 0x780 c.svq.length, at8 0x781 c.vsq.length, at8 0x788 (bitsOf 32 fun i => (c.svq[i]?.map (·.p)).getD false),
   at8 0x78C (bitsOf 32 fun i => (c.vsq[i]?.map (·.p)).getD false)] ++
  (List.range 6).flatMap (fun q => hd (SMap.get [] c.heads (q + 2)) q) ++
  idxItems c.uirq (fun i e => [at8 (0xE80 + 16 * i) e.1.toNat, at8 (0xE88 + 16 * i) e.2.toNat]) ++
  (c.s.filter fun e => decide (e.1 < x.tsk.sregs)).map fun e => at8 (0xE400 + 8 * e.1) e.2.v.toNat

/-- A nest table with its bindings from a byte offset on. -/
def tabItems (k : Nat) (t : NestTab) : List FItem :=
  [at8 k t.hdr.toNat] ++ t.lev.map (fun e => at8 (k + 32 + 32 * e.1) e.2.toNat) ++ t.bind.map (fun e => at8 (k + 224 + e.1) e.2.toNat)
def Flow.code (f : Flow) : Nat := match f with | .ip => 0 | .op => 1 | .rw => 2
/-- A nest: its active table, k values, idx, zpend, used, form. -/
def nestItems (k : Nat) (g : Nest) : List FItem :=
  tabItems k g.tab ++ g.kval.map (fun e => at8 (k + 0x100 + 8 * e.1) e.2.toNat) ++ idxItems g.idx (fun i v => at8 (k + 0x140 + 4 * i) v :: []) ++
  [at8 (k + 0x158) (bnat g.zpend), at8 (k + 0x159) g.used.toNat, at8 (k + 0x15A) g.flow.code, at8 (k + 0x15B) (bnat g.fin)]
/-- Where the nest of the matrix command at place `i` lies: the first in the area of the stopped nest, another, which an entry of 64 bytes
cannot hold, in the reserved area. DESIGN CHOICE (unsafe; notes/assumptions 17). -/
def nestAt (first : Bool) (i : Nat) : Nat := if first then 0x1100 else 0xE600 + 0x160 * i
/-- The place of an image among the TDT entries, for its base address left out. -/
def tdIndex (t : SMap (BitVec 1024)) (td : BitVec 1024) : Nat :=
  ((t.find? fun e => tdWithBase e.2 0 == tdWithBase td 0).map (·.1)).getD 0
/-- A matrix command in its area of the frame: sequence number and kind, then its operands; a withdrawn `MMS` has its hold and descriptor. -/
def mcmdItems (t : SMap (BitVec 1024)) (first : Bool) (i k : Nat) (m : MCmd) : List FItem :=
  let h (kind : Nat) (l : List FItem) : List FItem := [at8 k m.seq.toNat, at8 (k + 2) kind, at8 (k + 3) (bnat m.ui)] ++ l
  match m.kind with
  | .mgo g => h 1 (at8 (k + 4) (bnat !first) :: nestItems (nestAt first i) g)
  | .mms r => h 7 [at8 (k + 4) r.hold, at8 (k + 32) r.desc.toNat]
  | .mwt d _ => h 2 [at8 (k + 32) d.toNat]
  | .mswp => h 3 []
  | .mz n => h 4 [at8 (k + 4) n]
  | .mst n r ef ea td => h 5 [at8 (k + 4) n, at8 (k + 5) r, at8 (k + 6) (bnat ef), at8 (k + 7) (tdIndex t td), at8 (k + 8) ea.toNat]
  | .mla n ea td => h 6 [at8 (k + 4) n, at8 (k + 7) (tdIndex t td), at8 (k + 8) ea.toNat]
def isMgo (m : MCmd) : Bool := match m.kind with | .mgo _ => true | _ => false
def matItems (x : Arr) : List FItem :=
  let m := x.mat
  let q := m.cmds.filter fun c => !isMms c
  tabItems 0x1000 m.nest ++
  (idxItems q fun i c => mcmdItems x.cpy.tdt (q.findIdx isMgo == i) i (0x1300 + 64 * i) c) ++
  (idxItems (m.cmds.filter isMms) fun i c => mcmdItems x.cpy.tdt false i (0x1500 + 64 * i) c) ++
  [at8 0x1700 m.seq.toNat, at8 0x1702 m.cseq.toNat, at8 0x1704 m.stick.toNat, at8 0x1706 m.pendc.length] ++
  idxItems m.pendc (fun i e => [at8 (0x1708 + 4 * i) e.1.toNat, at8 (0x170A + 4 * i) e.2.code]) ++
  planeItems 0x10000 m.act ++ planeItems 0x60000 m.shd

/-- The kind of a copy-class command as the frame gives it. -/
def CKind.code (k : CKind) : Nat :=
  match k with
  | .cpy => 1 | .cpyg => 2 | .cpys => 3 | .cpym => 4 | .lblk _ => 5 | .nrd _ _ _ => 6 | .nwr _ _ _ => 7 | .nrdx => 8 | .nsadd => 9 | .nbin => 10
  | .natom _ _ _ _ _ _ _ => 11 | .nred _ _ => 12 | .nmcst _ => 13 | .ndrain _ => 14 | .eqx => 15 | .gbar _ => 16 | .ctxsv _ _ => 17 | .ctxld _ => 18
/-- The first unit of a command that has not performed: of its pieces, or of its lists while they are read. -/
def CCmd.firstUnit (m : CCmd) : Nat :=
  match m.plan with
  | some ps => (ps.findIdx? fun p => !p.done).getD ps.length
  | none => m.lbuf.length / 4
/-- The operands of a command that has no descriptor, as one number; for an operation of a descriptor, its op and type. -/
def CKind.args (k : CKind) : Nat :=
  match k with
  | .nrd l r n | .nwr l r n => l.toNat + r.toNat * 2 ^ 128 + n * 2 ^ 256
  | .natom op w sc ea u v q =>
    ea.toNat + op * 2 ^ 80 + bnat w * 2 ^ 88 + sc.toNat * 2 ^ 96 + q.getD 0 * 2 ^ 104 + bnat u.p * 2 ^ 112 + bnat v.p * 2 ^ 113 +
    u.v.toNat * 2 ^ 128 + v.v.toNat * 2 ^ 192
  | .nred op t => op.toNat + 8 * [VT.f32, .bf16, .f16, .i32, .i16, .i8].idxOf t
  | .nmcst ord => bnat ord
  | .lblk tag => tag
  | .ndrain sc => sc.toNat
  | .gbar l => l.toNat
  | _ => 0
/-- A parked command as its area holds it: sequence number, kind, first unperformed unit, generation, operands. -/
structure Parked where
  seq : BitVec 16
  kind : Nat
  unit : Nat
  gen : Nat
  post : Nat
  ui : Bool
  nth : Nat
  slots : Nat × Nat
  args : Nat
  desc : BitVec 1024

def CCmd.parkedAs (y : Cpy) (m : CCmd) (unit gen : Nat) : Parked :=
  let slot (r : Option (Nat × Nat)) : Nat := (r.map fun e => e.2 % max 1 (SMap.get CBuf.none y.cb e.1).slots).getD 0
  ⟨m.seq, m.kind.code, unit, gen, m.post, m.ui, m.nth, (slot m.scb, slot m.dcb), m.kind.args, m.desc⟩
/-- Commands of an array with a parked access. The remote accesses that a command has left outstanding count as its units; those of a
completed command have no kind. A matrix command stands among the queued ones, and here with the units it has read or written. -/
def parkedCmds (x : Arr) : List Parked :=
  let y := x.cpy
  let own := y.cmds.filterMap fun m => m.park.map fun g => m.parkedAs y m.firstUnit g
  let left := (y.ni.filter fun o => o.own.isNone && !own.any fun e => e.seq == o.seq).zipIdx.filterMap fun o =>
    o.1.park.map fun g => match y.cmds.find? fun m => m.seq == o.1.seq with
      | some m => m.parkedAs y o.2 g
      | none => ⟨o.1.seq, 0, o.2, g, 0, false, 0, (0, 0), 0, 0⟩
  let mat := x.mat.cmds.filterMap fun m => m.park.map fun g => ⟨m.seq, 128, m.buf.length, g, 0, false, 0, (0, 0), 0, 0⟩
  own ++ left.foldl (fun l e => if l.any fun f => f.seq == e.seq then l else l ++ [e]) [] ++ mat
/-- An entry of the area: a descriptor up to its bit 895, above which none has a field, or the operands of a command without one. -/
def parkItems (k : Nat) (e : Parked) : List FItem :=
  [at8 k e.seq.toNat, at8 (k + 2) e.kind, at8 (k + 3) (e.args % 256), at8 (k + 4) e.unit, at8 (k + 8) (e.gen % 2 ^ 32),
   at8 (k + 12) (e.post + 8 * bnat e.ui), at8 (k + 13) (e.nth % 256), at8 (k + 14) (e.slots.1 % 256), at8 (k + 15) (e.slots.2 % 256),
   at8 (k + 16) (if e.desc = 0 then e.args else (e.desc.extractLsb' 0 896).toNat)]

def cpyItems (x : Arr) : List FItem :=
  let y := x.cpy
  y.cb.flatMap (fun e =>
    let b := e.2
    let k := 0x800 + 32 * e.1
    if b.on then [at8 k (b.off + b.slots * 2 ^ 32 + b.zt * 2 ^ 40 + bnat b.dir * 2 ^ 48), at8 (k + 16) b.res.toNat, at8 (k + 20) b.ful.toNat,
      at8 (k + 24) b.tk.toNat, at8 (k + 28) b.con.toNat] else []) ++
  y.wd.flatMap (fun e => if e.2.on then [at8 (0xA00 + 8 * e.1) (e.2.count + e.2.cb.toNat * 2 ^ 32 + bnat e.2.kind * 2 ^ 36 + 2 ^ 40)] else []) ++
  y.lb.flatMap (fun e =>
    let k := 0xA80 + 16 * e.1
    if e.2.held then [at8 k e.2.pa, at8 (k + 9) e.2.lines, at8 (k + 13) (1 + 2 * bnat e.2.ready + 4 * bnat e.2.rel), at8 (k + 14) e.2.seq.toNat] else []) ++
  [at8 0x1800 y.seq.toNat, at8 0x1802 y.z.toNat] ++
  (idxItems (parkedCmds x) fun i e => parkItems (0x2000 + 128 * i) e) ++
  y.tdt.map fun e => at8 (0x2800 + 128 * e.1) e.2.toNat

def celItems (x : Arr) : List FItem :=
  let c := x.cel
  let k := x.tsk
  let bank (n : Nat) : Nat := if (n / 64 = 1) = c.shAct then 0 else 1
  c.shp.flatMap (fun e => [at8 (0xA800 + 4096 * bank e.1 + 64 * (e.1 % 64)) e.2.v.toNat, (8 * (0xC800 + 8 * bank e.1) + e.1 % 64, bnat e.2.valid),
    (8 * (0xC810 + 8 * bank e.1) + e.1 % 64, bnat e.2.p)]) ++
  (8 * 0xC900, 2 ^ 1024 - 1) :: c.m.flatMap (fun e => [(8 * 0xC900 + e.1, bnat e.2.b), (8 * 0xCD00 + e.1, bnat e.2.p)]) ++
  c.cf.flatMap (fun e => [(8 * 0xD100 + e.1, bnat e.2.b), (8 * 0xD180 + e.1, bnat e.2.p)]) ++
  c.cr.flatMap (fun e => [at8 (0xD200 + cellOff e.1) e.2.v.toNat, (8 * 0xE200 + e.1, bnat e.2.p)]) ++
  (c.v.filter fun e => decide (e.1 / 1024 < k.vregs)).flatMap (fun e =>
    let n := e.1 / 1024
    let i := e.1 % 1024
    let b := 0xB0000 + 4096 * k.vregs + 256 * n
    [at8 (0xB0000 + 4096 * n + cellOff i) e.2.v.toNat, (8 * b + i, bnat e.2.p), (8 * (b + 128) + i, bnat e.2.split)]) ++
  (c.acc.filter fun e => decide (e.1 / 32768 < k.accs)).flatMap fun e =>
    let b := frAcc k.vregs + 0x21000 * (e.1 / 32768)
    [at8 (b + 4 * (e.1 % 32768)) e.2.v.toNat, (8 * (b + 0x20000) + e.1 % 32768, bnat e.2.p)]

/-- Entries of a table with keys in a range, as offsets. -/
def cutMap {α : Type} (m : SMap α) (k n : Nat) : SMap α :=
  (m.filter fun e => decide (k ≤ e.1) && decide (e.1 < k + n)).map fun e => (e.1 - k, e.2)
/-- Words of a scratchpad that read poisoned without a stored mark: storage errors and lost words (R302, R307). -/
def State.badWords (s : State) (a n : Nat) : List Nat :=
  let g := (s.getA a).itg
  let own : SMap Nat := cutMap s.err (spadKey a 0) n
  let lost : List Nat := g.lost.flatMap fun (e : Nat × Bool) =>
    ((List.range 4).filter fun i => bitAt g.rbank (4 * (e.1 / 4096) + i)).flatMap fun i =>
      (List.range 4).map fun j => 16 * g.holds (64 * (e.1 % 4096) + 4 * (e.1 / 4096) + i) + 4 * j
  ((own.map fun (e : Nat × Nat) => e.1) ++ lost).filter fun o => s.spadPois a o
/-- The offset of the allocation at which the frame has bank offset `o`: the front bank of an exchange window first (R218). -/
def Arr.frameOff (x : Arr) (o : Nat) : Nat :=
  if !(x.tsk.exch && x.cpy.exb) || decide (o < x.tsk.spalloc - 262144) then o
  else if o < x.tsk.spalloc - 131072 then o + 131072 else o - 131072
/-- The scratchpad of an array: bytes, poison, tile bits. -/
def padItems (s : State) (a : Nat) : List FItem :=
  let x := s.getA a
  let k := x.tsk
  let b := frPad k.vregs k.accs
  let bit (o : Nat) (p : Bool) : FItem := (8 * (b + k.spalloc) + x.frameOff o / 4, bnat p)
  let pz : SMap Bool := cutMap s.pois (spadKey a 0) k.spalloc
  (cutMap s.mem (spadKey a 0) k.spalloc).map (fun (e : Nat × Byte) => at8 (b + x.frameOff e.1) e.2.toNat) ++
  pz.map (fun e => bit e.1 e.2) ++ ((s.badWords a k.spalloc).dedup.filter fun o => !SMap.get false pz o).map (fun o => bit o true) ++
  [at8 (b + k.spalloc + k.spalloc / 32) x.cpy.own.toNat, at8 (b + k.spalloc + k.spalloc / 32 + 128) x.cpy.tv.toNat]

/-- The bytes of the frame of the task on an array (R280). DESIGN CHOICE (unsafe; notes/assumptions 17). -/
def frameSave (s : State) (a : Nat) (keep park : Bool) (pc : BitVec 32) : SMap Byte :=
  let x := s.getA a
  frameOf (headItems x keep park pc ++ scaItems x ++ matItems x ++ cpyItems x ++ celItems x ++ if keep then [] else padItems s a)

/-- A task whose scratchpad stays in an array belongs to that array until its frame is loaded there (R280). -/
def State.bindTask (s : State) (id : Nat) (a : Option Nat) : State :=
  { s with task := SMap.mod none s.task id fun t => t.map fun t => { t with bound := a } }

/-! ## Loading -/

/-- A table read from a frame. -/
def frTab {α : Type} [DecidableEq α] (d : α) (n : Nat) (f : Nat → α) : SMap α := (List.range n).foldl (fun m i => SMap.set d m i (f i)) []

/-- A nest as `nestItems` lays it out, its tensors from the TDT. -/
def frNest (t : SMap (BitVec 1024)) (m : SMap Byte) (k : Nat) : Nest :=
  let n (j w : Nat) : Nat := frameBits m (8 * (k + j)) (8 * w)
  let tab : NestTab := ⟨BitVec.ofNat 256 (n 0 32), frTab 0 6 fun i => BitVec.ofNat 256 (n (32 + 32 * i) 32),
    frTab 0 6 fun i => BitVec.ofNat 5 (n (224 + i) 1)⟩
  let td (i : Nat) : BitVec 1024 := SMap.get 0 t i
  { flow := if n 0x15A 1 = 0 then .ip else if n 0x15A 1 = 1 then .op else .rw, tab := tab,
    kval := frTab 0 6 fun i => BitVec.ofNat 64 (n (0x100 + 8 * i) 8),
    tdA := td (NestHdr.atd tab.hdr), tdB := td (NestHdr.btd tab.hdr), tdC := td (NestHdr.ctd tab.hdr),
    idx := (List.range (min 6 (NestHdr.nlev tab.hdr))).map fun i => n (0x140 + 4 * i) 4,
    zpend := n 0x158 1 % 2 = 1, used := BitVec.ofNat 6 (n 0x159 1), fin := n 0x15B 1 % 2 = 1 }
/-- The tiles of the own scratchpad that ranges touch. -/
def Arr.rangeTiles (x : Arr) (l : List (Addr × Nat)) : List Nat :=
  (l.flatMap fun r => match x.tsk.ownOff 0 r.1 with | some off => x.tilesOf off r.2 | none => []).dedup
/-- A matrix command of a frame, its tiles owned: a queued one, and a withdrawn `MMS` to enter afresh. -/
def frMcmd (x : Arr) (a t : Nat) (m : SMap Byte) (mms : Bool) (i : Nat) : Option MCmd :=
  let k := (if mms then 0x1500 else 0x1300) + 64 * i
  let n (j w : Nat) : Nat := frameBits m (8 * (k + j)) (8 * w)
  let td (j : Nat) : BitVec 1024 := SMap.get 0 x.cpy.tdt j
  let ea : Addr := BitVec.ofNat 72 (n 8 9)
  let d : BitVec 256 := BitVec.ofNat 256 (n 32 32)
  let based : BitVec 1024 := tdWithBase (td (n 7 1)) ea
  let full (b : BitVec 1024) : List (Addr × Nat) := tdSpan b false (fullBox b)
  let cmd (kind : MKind) (ranges : List (Addr × Nat)) : Option MCmd :=
    some ⟨BitVec.ofNat 16 (n 0 2), kind, n 3 1 % 2 = 1, x.rangeTiles ranges, t, mms, false, none, 0#7, 0#9, x.trCap, [], [], none, 0⟩
  match mms, n 2 1 with
  | false, 1 =>
    let g := frNest x.cpy.tdt m (nestAt (n 4 1 = 0) i)
    cmd (.mgo g) (full g.tdA ++ full g.tdB ++ if g.tab.levels.any NestLev.se then full g.tdC else [])
  | false, 2 => let b := td (MwtDesc.td d); cmd (.mwt d b) (mwtReads d b)
  | false, 3 => cmd .mswp []
  | false, 4 => cmd (.mz (n 4 1 % 8)) []
  | false, 5 => cmd (.mst (n 4 1 % 8) (n 5 1 % 8) (n 6 1 % 2 = 1) ea based) (tdSpan based false (tileBox based))
  | false, 6 => cmd (.mla (n 4 1 % 8) ea based) (tdSpan based false (tileBox based))
  | true, 7 =>
    let r : MmsReq :=
      { arr := a, seq := BitVec.ofNat 16 (n 0 2), ctx := x.csr.ctx, prio := x.csr.prio.toNat, desc := d, tdA := mmsA x d, tdB := mmsB x d,
        hold := n 4 4, arrival := t, bkey := 0, bvault := none, row0 := 0, tr := x.trCap, xctx := false }
    cmd (.mms r) (freeSpan (mmsA x d) (0, (MmsDesc.k d : Int) - 1) (0, (MmsDesc.rows d : Int) - 1) ++
      [(ownAddr (MmsDesc.coff d), (MmsDesc.rows d - 1) * MmsDesc.cpitch d + 4 * MmsDesc.n d)])
  | _, _ => none
/-- The kind of a parked command. -/
def frKind (code arg args : Nat) : Option CKind :=
  let f (lo w : Nat) : Nat := args / 2 ^ lo % 2 ^ w
  let ad (lo : Nat) : Addr := BitVec.ofNat 72 (f lo 72)
  match code with
  | 1 => some .cpy | 2 => some .cpyg | 3 => some .cpys | 4 => some .cpym | 5 => some (.lblk (arg % 64))
  | 6 => some (.nrd (ad 0) (ad 128) (f 256 16)) | 7 => some (.nwr (ad 0) (ad 128) (f 256 16))
  | 8 => some .nrdx | 9 => some .nsadd | 10 => some .nbin
  | 11 => some (.natom (f 80 8 % 7) (f 88 1 = 1) (BitVec.ofNat 3 (f 96 3)) (ad 0) ⟨BitVec.ofNat 64 (f 128 64), f 112 1 = 1⟩
      ⟨BitVec.ofNat 64 (f 192 64), f 113 1 = 1⟩ (if f 104 3 = 0 then none else some (f 104 3)))
  | 12 => ([VT.f32, .bf16, .f16, .i32, .i16, .i8][arg / 8]?).map fun t => .nred (BitVec.ofNat 3 arg) t
  | 13 => some (.nmcst (arg % 2 = 1)) | 14 => some (.ndrain (BitVec.ofNat 3 arg)) | 15 => some .eqx | 16 => some (.gbar (BitVec.ofNat 3 arg))
  | _ => none
/-- A parked command of a frame, in place `i` of the area: its accesses from its first unperformed unit on are to perform, and it owns the tiles
that they touch. -/
def frCcmd (x : Arr) (t : Nat) (m : SMap Byte) (i : Nat) : Option CCmd :=
  let k := 0x2000 + 128 * i
  let n (j w : Nat) : Nat := frameBits m (8 * (k + j)) (8 * w)
  let d : BitVec 1024 := BitVec.ofNat 1024 (n 16 112)
  let td (j : Nat) : BitVec 1024 := SMap.get 0 x.cpy.tdt j
  (frKind (n 2 1) (n 3 1) (n 16 112)).map fun kind =>
    let own := match kind with | .lblk _ | .nrd _ _ _ | .nwr _ _ _ | .natom _ _ _ _ _ _ _ | .ndrain _ | .eqx | .gbar _ => false | _ => true
    let d := if own then d else 0
    let ring (on : Bool) (q j : Nat) : Option (Nat × Nat) :=
      if own && on then
        let b := SMap.get CBuf.none x.cpy.cb q
        let z := max 1 b.slots
        some (q, b.con.toNat + (n j 1 + z - b.con.toNat % z) % z)
      else none
    let scb := ring (hScb d) (hScbi d) 14
    let dcb := ring (hDcb d) (hDcbi d) 15
    let side (img : BitVec 1024) (r : Option (Nat × Nat)) : BitVec 1024 :=
      match r with | some (q, j) => tdWithBase img (ownAddr ((SMap.get CBuf.none x.cpy.cb q).slotOff x j)) | none => img
    let c : CCmd :=
      { seq := BitVec.ofNat 16 (n 0 2), n := x.cpy.nissue + i, kind := kind, desc := d, tds := side (td (hTds d)) scb, tdd := side (td (hTdd d)) dcb, tr := x.trCap, tiles := [],
        post := n 12 1 % 8, ui := n 12 1 / 8 % 2 = 1,
        scb := scb, dcb := dcb, t := t, nth := n 13 1, lbuf := [], plan := none, count := n 4 4, oob := false, ovf := false, empty := false, fault := false, pz := false,
        arrived := false, whole := false, park := none, inord := true, old := none }
    let own := (planOf x 0 c).ps.flatMap fun p => (p.dst, p.n) :: (p.src.map fun v => (v, p.n)).toList
    let more := match kind with
      | .natom _ w _ ea _ _ _ => [(ea, if w then 8 else 4)]
      | .nmcst _ => (repVas d).map fun v => (v, 16)
      | .nred _ _ => [(ownAddr (redDst d), 4 * redE d)]
      | _ => []
    { c with tiles := x.rangeTiles (own ++ more ++ c.lists.map fun e => (ownAddr e.1, e.2)) }
/-- The commands of a frame on the array that has loaded its registers: the matrix commands in issue order, the withdrawn `MMS` to enter their
quad's buffer afresh, and the parked commands; command `seq`, which loads them, keeps the tiles that they do not own. -/
def frameCmds (s : State) (a : Nat) (seq : BitVec 16) (m : SMap Byte) : State :=
  let x := s.getA a
  let old (c : MCmd) : Nat := (x.mat.seq - 1 - c.seq).toNat
  let mc := ((List.range 8).filterMap (frMcmd x a s.now m false) ++ (List.range 8).filterMap (frMcmd x a s.now m true)).mergeSort
    fun b c => decide (old c ≤ old b)
  let cc := (List.range 16).filterMap (frCcmd x s.now m)
  let ts := (mc.flatMap (·.tiles) ++ cc.flatMap (·.tiles)).dedup
  (s.modA a fun x =>
    (x.modMat fun q => { q with cmds := mc }).modCpy fun y =>
      { y with cmds := (y.cmds.map fun c => if c.seq == seq then { c with tiles := c.tiles.filter fun t => !ts.contains t } else c) ++ cc,
               nissue := y.nissue + 16 }).reenter a

def frameLoad (s : State) (a : Nat) (m : SMap Byte) : State :=
  let n (k w : Nat) : Nat := frameBits m (8 * k) (8 * w)
  let w (k : Nat) : Word := BitVec.ofNat 64 (n k 8)
  let b (k i : Nat) : Bool := frameBits m (8 * k + i) 1 == 1
  let sr := n 10 1
  let vr := n 11 1
  let ac := n 12 1
  let sp := n 24 4
  let keep := b 2 0
  let pad := frPad vr ac
  let heads : SMap (List RQ) := (List.range 6).foldl (fun t q =>
    SMap.set [] t (q + 2) ((List.range (min 8 (n (0x782 + q) 1))).map fun i =>
      (⟨BitVec.ofNat 16 (n (0x7A0 + 16 * q + 2 * i) 2), if b (0x798 + q) i then none else some ⟨w (0x600 + 64 * q + 8 * i), b (0x790 + q) i⟩⟩ : RQ))) []
  let sca (c : Sca) : Sca :=
    { c with
      a := frTab PA.zero 16 fun i => ⟨BitVec.ofNat 72 (n (0x100 + 16 * i) 9), b 0x372 i⟩,
      sh := frTab PV.zero 8 fun i => ⟨w (0x200 + 8 * i), false⟩,
      lc := w 0x240, ec := w 0x248, rrb := BitVec.ofNat 5 (n 0x250 8), fpcsr := w 0x258 &&& fpcsrMask, uvec := w 0x260,
      hRet := BitVec.ofNat 32 (n 0x268 8),
      xsel := (List.range 3).foldl (fun t i => SMap.set 0 t (i + 1) (w (0x300 + 8 * i))) [],
      ysel := (List.range 3).foldl (fun t i => SMap.set 0 t (i + 1) (BitVec.ofNat 16 (n (0x318 + 2 * i) 2))) [],
      p := BitVec.ofNat 8 (n 0x31E 1) &&& 0xFE#8, pp := BitVec.ofNat 8 (n 0x31F 1), pmm := BitVec.ofNat 8 (n 0x320 1),
      g := BitVec.ofNat 16 (n 0x322 2), hAct := b 0x324 0,
      s := frTab PV.zero (min 64 sr) fun i => ⟨w (0xE400 + 8 * i), b 0x348 i⟩,
      sv := w 0x340, smm := w 0x350, ssplit := w 0x358, sfail := 0, asplit := 0, afail := 0,
      av := BitVec.ofNat 16 (n 0x370 2), amm := BitVec.ofNat 16 (n 0x374 2),
      svq := (List.range (min 32 (n 0x780 1))).map fun i => ⟨w (0x400 + 8 * i), b 0x788 i⟩,
      vsq := (List.range (min 32 (n 0x781 1))).map fun i => ⟨w (0x500 + 8 * i), b 0x78C i⟩,
      heads := heads,
      uirq := (List.range (min 24 (n 0x796 1))).map fun i => (w (0xE80 + 16 * i), w (0xE88 + 16 * i)) }
  let cel (c : Cel) : Cel :=
    let mb (k k' : Nat) (i : Nat) : MB := ⟨b k i, b k' i⟩
    { c with
      vv := w 0x360, vmm := w 0x368, accv := BitVec.ofNat 8 (n 0x376 1), mv := BitVec.ofNat 8 (n 0x377 1),
      shAct := false,
      shp := frTab ShE.zero 128 fun i =>
        ⟨BitVec.ofNat 512 (n (0xA800 + 64 * i) 64), b (0xC800 + 8 * (i / 64)) (i % 64), b (0xC810 + 8 * (i / 64)) (i % 64)⟩,
      m := frTab MB.zero 8192 (fun i => if i < 1024 then MB.zero else mb 0xC900 0xCD00 i), cf := frTab MB.zero 1024 (mb 0xD100 0xD180), cfs := frTab MB.zero 1024 (mb 0xD100 0xD180),
      cr := frTab EP.zero 1024 fun i => ⟨BitVec.ofNat 32 (n (0xD200 + cellOff i) 4), b 0xE200 i⟩,
      v := frTab El.zero (1024 * min 64 vr) fun i =>
        let base := 0xB0000 + 4096 * vr + 256 * (i / 1024)
        ⟨BitVec.ofNat 32 (n (0xB0000 + 4096 * (i / 1024) + cellOff (i % 1024)) 4), b base (i % 1024), b (base + 128) (i % 1024), false⟩,
      acc := frTab EP.zero (32768 * min 8 ac) fun i =>
        let base := frAcc vr + 0x21000 * (i / 32768)
        ⟨BitVec.ofNat 32 (n (base + 4 * (i % 32768)) 4), b (base + 0x20000) (i % 32768)⟩ }
  let cause (v : Nat) : Cause := if v = Cause.msdc.code then .msdc else .asyncmat
  let st (v : Nat) : PlSt := if v = 1 then .loading else if v = 2 then .loaded else .invalid
  let tdt : SMap (BitVec 1024) := frTab 0 256 fun i => BitVec.ofNat 1024 (n (0x2800 + 128 * i) 128)
  let plane (d st_ : Nat) (base : Nat) : Plane :=
    let desc := BitVec.ofNat 256 (n d 32)
    planeRead m base { Plane.empty with st := st (n st_ 1), desc := desc, td := SMap.get 0 tdt (MwtDesc.td desc) }
  let mat (t : Mat) : Mat :=
    { t with
      k := frTab 0 16 fun i => w (0x280 + 8 * i),
      nest := ⟨BitVec.ofNat 256 (n 0x1000 32), frTab 0 6 fun i => BitVec.ofNat 256 (n (0x1020 + 32 * i) 32),
               frTab 0 6 fun i => BitVec.ofNat 5 (n (0x10E0 + i) 1)⟩,
      act := plane 96 160 0x10000,
      shd := (let p := plane 128 161 0x60000; ({ p with fault := metaFault p } : Plane)).recorded (n 162 1) (n 164 4),
      seq := BitVec.ofNat 16 (n 0x1700 2), cseq := BitVec.ofNat 16 (n 0x1702 2), stick := BitVec.ofNat 9 (n 0x1704 2),
      pendc := (List.range (min 62 (n 0x1706 2))).map fun i => (BitVec.ofNat 16 (n (0x1708 + 4 * i) 2), cause (n (0x170A + 4 * i) 2)) }
  let cpy (y : Cpy) : Cpy :=
    { y with
      cb := frTab CBuf.none 16 fun i =>
        let k := 0x800 + 32 * i
        let r (j : Nat) : W32 := BitVec.ofNat 32 (n (k + j) 4)
        if n (k + 5) 1 = 0 then CBuf.none else ⟨true, b (k + 6) 0, n (k + 5) 1, n (k + 4) 1, n k 4, r 16, r 20, r 24, r 28, []⟩,
      wd := frTab WDesc.none 16 fun i =>
        let k := 0xA00 + 8 * i
        if b (k + 5) 0 then ⟨true, BitVec.ofNat 4 (n (k + 4) 1), b (k + 4) 4, n k 4⟩ else WDesc.none,
      lb := frTab LBlk.none 64 fun i =>
        let k := 0xA80 + 16 * i
        if b (k + 13) 0 then ⟨true, n k 9, n (k + 9) 4, b (k + 13) 1, b (k + 13) 2, BitVec.ofNat 16 (n (k + 14) 2)⟩ else LBlk.none,
      tdt := tdt, seq := BitVec.ofNat 16 (n 0x1800 2), z := BitVec.ofNat 3 (n 0x1802 1), exb := if keep then y.exb else false,
      tv := if keep then y.tv else BitVec.ofNat 1024 (n (pad + sp + sp / 32 + 128) 128) }
  let s := (s.regsNew a 0 0 (15 * 2 ^ 32)).modA a fun x =>
    { x with
      sca := sca x.sca, cel := cel x.cel, mat := mat x.mat, cpy := cpy x.cpy,
      csr := { x.csr with xpc := BitVec.ofNat 32 (n 16 4) },
      tsk := { x.tsk with sregs := sr, vregs := vr, accs := ac, spalloc := sp, vgrant := n 28 4 } }
  if keep then s.bindTask (s.getA a).tsk.id none
  else
    let s := s.spadWrite a 0 ((List.range sp).map fun i => SMap.get 0#8 m (pad + i)) false
    (List.range (sp / 4)).foldl (fun (s : State) i => s.setPois (spadKey a (4 * i)) (b (pad + sp) i)) s

/-! ## The commands (R223) -/

/-- Pieces of at most a page of `n` bytes at an address. -/
def pagePieces (fuel : Nat) (va : Addr) (n off : Nat) : List (Addr × Nat × Nat) :=
  match fuel with
  | 0 => []
  | f + 1 =>
    if n = 0 then []
    else
      let k := min n (65536 - va.toNat % 65536)
      (va, k, off) :: pagePieces f (va + BitVec.ofNat 72 k) (n - k) (off + k)

/-- The frame written to memory: when a page is not present, or not mapped, as any access of a command (R289, R294). -/
def doSave (a : Nat) (m : CCmd) (ea : Addr) (keep : Bool) (s : State) : State :=
  let k := (s.getA a).tsk
  let ps := pagePieces 2048 ea (frSize k.vregs k.accs k.spalloc keep) 0
  match s.readyAll a m.tr m.seq .cpy 1 (ps.map fun e => (e.1, e.2.1)) with
  | (.wait, s) => s
  | (.bad va k l, s) => s.failRec a m.seq m.tr va 1 k l
  | (.ok, s) =>
    let f := frameSave (s.modA a fun x => x.setOwn m.tiles false) a keep false (s.getA a).csr.xpc
    (ps.foldl (fun (s : State) e =>
      match s.locate a m.tr e.1 e.2.1 1 with
      | (.ok h, s) =>
        let s := (s.touch a h e.2.1).writeHome a h ((List.range e.2.1).map fun i => SMap.get 0#8 f (e.2.2 + i)) false
        if h.away a then s.countA a 19 ((e.2.1 + 15) / 16) else s
      | (_, s) => s) (if keep then s.bindTask k.id (some a) else s)).modCmd a m.seq fun q => { q with whole := true }

/-- Bytes of a frame read from memory, with their poison. -/
def frameFetch (a : Nat) (tr : TrCap) (l : List (Addr × Nat × Nat)) (s : State) : SMap Byte × Bool × State :=
  l.foldl (fun (m, p, s) e =>
    match State.locate s a tr e.1 e.2.1 0 with
    | (.ok h, s) =>
      let r := (s.touch a h e.2.1).readHome h e.2.1
      (frameOr e.2.1 m e.2.2 r.1, p || r.2.1, if h.away a then r.2.2.countA a 7 ((e.2.1 + 15) / 16) else r.2.2)
    | (_, s) => (m, p, s)) (([] : SMap Byte), false, s)

/-- The frame read from memory and loaded: its header first, then the whole of it. -/
def doLoad (a : Nat) (m : CCmd) (ea : Addr) (s : State) : State :=
  let need (ps : List (Addr × Nat × Nat)) (s : State) : Ready × State := s.readyAll a m.tr m.seq .cpy 0 (ps.map fun e => (e.1, e.2.1))
  let head := pagePieces 2 ea 256 0
  match need head s with
  | (.wait, s) => s
  | (.bad va k l, s) => s.failRec a m.seq m.tr va 0 k l
  | (.ok, s) =>
    let size := frameBits (frameFetch a m.tr head s).1 32 32
    let ps := pagePieces 2048 ea size 0
    match need ps s with
    | (.wait, s) => s
    | (.bad va k l, s) => s.failRec a m.seq m.tr va 0 k l
    | (.ok, s) =>
      let r := frameFetch a m.tr ps s
      if r.2.1 || frameBits r.1 0 16 != 1 then r.2.2.modCmd a m.seq fun q => { q with fault := true, whole := true, pz := r.2.1 }
      else (frameCmds (frameLoad r.2.2 a r.1) a m.seq r.1).modCmd a m.seq fun q => { q with whole := true }

/-- The frame command's turn: when every other command of the array is complete. -/
def doFrame (a : Nat) (m : CCmd) (s : State) : State :=
  let x := s.getA a
  if m.whole || m.stuck x || !x.quiet m.t || decide (1 < x.cpy.cmds.length) || !x.cpy.ni.isEmpty || !x.mat.cmds.isEmpty then s
  else match m.kind with
    | .ctxsv ea keep => doSave a m ea keep s
    | .ctxld ea => doLoad a m ea s
    | _ => s

end Sys2Proof.Machine
end

