-- ==== Sys2Proof/Machine/System.lean ====
section
/-! DEFINITION. The system class (spec/07_movement.md R223, spec/12_system_tasks.md R259-R263, R280), the user-level interrupt (R113,
R114), the flush of a fault buffer (R299) and the entry of a remote access. -/

namespace Sys2Proof.Machine

open Sys2Proof

/-- A slot of the system class: M = 0, S level only (R223). -/
def ySem (regs srcs : List RR) (ill : Ctx → State → Bool) (own : Ctx → State → List Trap) (eff : Ctx → State → State) : SlotSem :=
  { cls := .system, priv := true, regs := regs, srcs := srcs, ill := ill, own := own, eff := eff }

/-! ## Control and status registers (R263) -/

/-- CSR numbers that exist. -/
def csrListed (n : Nat) : Bool := decide (n ≤ 11) || (decide (16 ≤ n) && decide (n ≤ 23))
/-- CSRs with a field that is RW or RC at S. -/
def csrWritable (n : Nat) : Bool := n == 1 || (decide (4 ≤ n) && decide (n ≤ 7)) || n == 10 || n == 11 || (decide (16 ≤ n) && decide (n ≤ 23))

/-- The value of a CSR of array `a`. DEDUCED (unsafe; notes/assumptions 19). -/
def csrValue (a n : Nat) (s : State) : Word :=
  let x := s.getA a
  let c := x.csr
  let q := SMap.get Quad.reset s.quad (a / 4)
  match n with
  | 0 => c.xcause.setWidth 64
  | 1 => c.xpc.setWidth 64
  | 2 => c.xinfo
  | 3 => BitVec.ofNat 64 (c.part.toNat * 2 ^ 16 + c.ctx.toNat)
  | 4 => c.hwbase.setWidth 64
  | 5 => c.hwlimit.setWidth 64
  | 6 => c.hwoff.setWidth 64
  | 7 => bitSet (c.tlbRoot.setWidth 64) 63 c.tlbEn
  | 8 => BitVec.ofNat 64 (q.qcap * 2 ^ 16 + (if q.xctx then 2 else 0) + (if q.men then 1 else 0))
  | 9 => (s.getD (a / 32)).fbgen.setWidth 64
  | 10 => BitVec.ofNat 64 (c.disp.toNat * 2 ^ 36 + (if c.preq then 2 ^ 32 else 0) + c.prio.toNat * 2 ^ 28 + c.slice.toNat)
  | 11 => BitVec.ofNat 64 (c.svec.toNat * 2 ^ 32 + (if x.sca.hAct then 16 else 0) + c.pprv.toNat * 4 + c.prv.toNat)
  | n =>
    if 16 ≤ n ∧ n ≤ 19 then SMap.get 0 c.pmc (n - 16)
    else if 20 ≤ n ∧ n ≤ 23 then (SMap.get 0 c.pmsel (n - 20)).setWidth 64 else 0

def semCsrrd (d csr : R6) : SlotSem :=
  ySem [.s d] [] (fun _ _ => !csrListed csr.toNat) (fun _ _ => []) fun c s => wrS c 1 d ⟨csrValue c.a csr.toNat s, false⟩ s
/-- `CSRRD sd, csr` (R223). -/
def execCsrrd (d csr : R6) (s : State) : Out := .next (runSlot 0 (semCsrrd d csr) s)

def semCsrwr (csr a : R6) : SlotSem :=
  ySem [.s a] [.s a] (fun _ _ => !csrWritable csr.toNat) (fun _ _ => [])
    fun c s => wrX c (.csr csr.toNat ((s.getA c.a).sGet a).v) s
/-- `CSRWR csr, sa` (R223). -/
def execCsrwr (csr a : R6) (s : State) : Out := .next (runSlot 0 (semCsrwr csr a) s)

/-! ## Translation and faults -/

/-- The entry is one that `TLBINV` removes: its page holds the address, its context is the array's, or every one (R223, R293). -/
def tlbHit (c : Csr) (kind : Nat) (va : Nat) (e : TlbE) : Bool :=
  let mine := e.part == c.part.toNat && e.ctx == c.ctx
  if kind = 0 then mine && e.vpn == va / pageSize e.size else if kind = 1 then mine else true
/-- `TLBINV` (R223, R293). DEDUCED (safe; notes/assumptions 48). -/
def semTlbinv (a kind : R6) : SlotSem :=
  ySem [.s a] [.s a] (fun _ _ => decide (2 < kind.toNat)) (fun _ _ => [])
    fun c s => s.modA c.a fun x =>
      { x with tlb := x.tlb.filter fun e => !tlbHit x.csr kind.toNat (x.sGet a).v.toNat e }
/-- `TLBINV sa, kind` (R223, R293). -/
def execTlbinv (a kind : R6) (s : State) : Out := .next (runSlot 0 (semTlbinv a kind) s)

/-! ## Frames (R223, R280) -/

/-- A frame command: it holds every tile; its translation is captured at issue. -/
def prepFrame (kind : CKind) (a : BitVec 4) (c : Ctx) (s : State) : Except Trap CPrep :=
  let x := s.getA c.a
  if (x.aGet a).p then .error (trapOf .poisonkill c.slot)
  else .ok { kind := kind, frame := true, spans := [(0, x.tsk.spalloc, false)] }
def frameSem (a : BitVec 4) (kind : Ctx → State → CKind) : SlotSem :=
  { cmdSem ⟨none, 0#3⟩ [.a a] [.a a] (fun _ _ => []) (fun c s => prepFrame (kind c s) a c s) with cls := .system, priv := true, takes := true }

/-- SPKEEP of the frame header at an address, as `CTXSV` reads it at issue. -/
def readKeep (c : Ctx) (ea : Addr) (s : State) : Bool :=
  match s.locatePure c.a (s.getA c.a).trCap (ea + 2) 1 0 with
  | .ok h => (s.readHome h 1).1 % 2 == 1
  | _ => false
/-- That read performed: it counts and corrects as any other of the NI (R281, R302). -/
def keepRead (ea : Addr) (c : Ctx) (s : State) : State :=
  match s.locatePure c.a (s.getA c.a).trCap (ea + 2) 1 0 with
  | .ok h => let s := ((s.touch c.a h 1).readHome h 1).2.2; if h.away c.a then s.countA c.a 7 1 else s
  | _ => s
def semCtxsv (a : BitVec 4) : SlotSem :=
  let va (c : Ctx) (s : State) : Addr := ((s.getA c.a).aGet a).v
  let m := frameSem a fun c s => .ctxsv (va c s) (readKeep c (va c s) s)
  { m with
    look := fun c s => if ((s.getA c.a).aGet a).p then s else lookAll 0 [va c s + 2] c s
    eff := fun c s => keepRead (va c s) c (m.eff c s) }
/-- `CTXSV aa` (R223, R280). -/
def execCtxsv (a : BitVec 4) (s : State) : Out := .next (runSlot 0 (semCtxsv a) s)
def semCtxld (a : BitVec 4) : SlotSem := frameSem a fun c s => .ctxld ((s.getA c.a).aGet a).v
/-- `CTXLD aa` (R223, R280). -/
def execCtxld (a : BitVec 4) (s : State) : Out := .next (runSlot 0 (semCtxld a) s)

/-! ## The end of S code, system calls, the return from S -/

def semHalt : SlotSem := ySem [] [] (fun _ _ => false) (fun _ _ => []) fun c s => s.modA c.a fun x => x.modTsk fun k => { k with stop := .halt }
/-- `HALT` (R223, R261): nothing further issues; what becomes of the task follows `sched`.DISP. -/
def execHalt (s : State) : Out := .next (runSlot 0 semHalt s)

def semEcall (n : BitVec 12) : SlotSem :=
  { cls := .system, own := fun c _ => [⟨.ecall, c.slot, 0, n.toNat⟩], eff := fun _ s => s }
/-- `ECALL n` (R223, R264). -/
def execEcall (n : BitVec 12) (s : State) : Out := .next (runSlot 0 (semEcall n) s)

/-- A frame command is outstanding. -/
def Cpy.framing (y : Cpy) : Bool := y.cmds.any fun m => match m.kind with | .ctxsv _ _ => true | .ctxld _ => true | _ => false
def semXret : SlotSem :=
  ySem [] [] (fun _ _ => false) (fun c s => if (s.getA c.a).cpy.framing then [trapBounds c.slot 0xFF] else [])
    fun c s => s.modA c.a fun x => x.leaveS c.t
/-- `XRET` (R223, R261). -/
def execXret (s : State) : Out := .next (runSlot 0 semXret s)

/-! ## The user-level interrupt (R113, R114) -/

/-- A pending completion can be accepted at this boundary. -/
def Arr.mayAccept (x : Arr) (now : Nat) : Bool :=
  x.tsk.run && x.tsk.stop == .no && !x.sca.hAct && !x.atS && !x.tsk.chain && !x.sca.uirq.isEmpty && !x.sca.hWait &&
  decide (x.sca.readyAt ≤ now)
/-- The acceptance: return offset, handler active, `sh0` and `sh1`, issue at `uvec`. -/
def Arr.accept (x : Arr) (now : Nat) : Arr :=
  match x.sca.uirq with
  | [] => x
  | e :: l =>
    (x.count 16 1).modSca fun c =>
      { c with hRet := c.pc, hAct := true, uirq := l, sh := SMap.set PV.zero (SMap.set PV.zero c.sh 0 ⟨e.1, false⟩) 1 ⟨e.2, false⟩,
               pc := c.uvec.extractLsb' 0 32 &&& 0xFFFF_FFFC#32, far := c.uvec.extractLsb' 32 32 != 0#32, readyAt := now + 1 }
/-- `USER_INTERRUPT_ACCEPT` (R113). -/
def execUserInterruptAccept (a : Nat) (s : State) : Out :=
  .next (s.modA a fun x => if x.mayAccept s.now then x.accept s.now else x)

/-! ## One access of a command -/

/-- `REMOTE_ACCESS_PERFORM` (R228, R240): the access `unit` of a command performs; of a frame command, its whole transfer. -/
def execRemoteAccessPerform (a : Nat) (seq : BitVec 16) (unit : Nat) (s : State) : Out :=
  .next (match (s.getA a).cmdOf seq with
    | some m =>
      (match m.kind with
      | .ctxsv _ _ => doFrame a m s
      | .ctxld _ => doFrame a m s
      | _ => performAccess a seq unit s)
    | none => performAccess a seq unit s)

end Sys2Proof.Machine
end

