-- ==== Sys2Proof/Machine/Graph.lean ====
section
/-! DEFINITION. Launch records and the task graph: fields and checks of a record (spec/12_system_tasks.md R265-R269, spec/01_machine.md
R27), gangs and participants (R35, R214), status entries (R272), the pool's order (R273) and placements (R274). -/

namespace Sys2Proof.Machine

open Sys2Proof

/-! ## Fields of a record (R265-R267) -/

/-- Bytes as a number, least significant first. -/
def ofBytes (l : List Byte) : Nat := l.foldr (fun b v => b.toNat + 256 * v) 0
/-- `k` bytes at an offset of a record. -/
def recN (l : List Byte) (off k : Nat) : Nat := ofBytes ((l.drop off).take k)
def recZero (l : List Byte) (off k : Nat) : Bool := ((l.drop off).take k).all (· == 0#8)

def rNlev (l : List Byte) : Nat := recN l 2 1
def rNodes (l : List Byte) : Nat := recN l 4 4
def rEdges (l : List Byte) : Nat := recN l 8 4
def rKerns (l : List Byte) : Nat := recN l 12 4
def rRlen (l : List Byte) : Nat := recN l 40 4
def rStat (l : List Byte) : Nat := recN l 32 4
def rLevel (l : List Byte) (i : Nat) : Level :=
  let o := recN l 16 4 + 8 * i
  ⟨recN l o 1, recN l (o + 1) 1, recN l (o + 4) 4⟩
def rLevels (l : List Byte) : List Level := (List.range (rNlev l)).map (rLevel l)
/-- A field of a node entry. -/
def nd (l : List Byte) (i off k : Nat) : Nat := recN l (recN l 20 4 + 64 * i + off) k
/-- A field of a kernel header. -/
def kn (l : List Byte) (i off k : Nat) : Nat := recN l (recN l 28 4 + 64 * i + off) k
/-- An edge: from, to, kind. -/
def rEdge (l : List Byte) (i : Nat) : Nat × Nat × Nat :=
  let o := recN l 24 4 + 16 * i
  (recN l o 4, recN l (o + 4) 4, recN l (o + 8) 1)
def rEdgeList (l : List Byte) : List (Nat × Nat × Nat) := (List.range (rEdges l)).map (rEdge l)
def ndKern (l : List Byte) (i : Nat) : Nat := nd l i 0 2
def ndPrio (l : List Byte) (i : Nat) : Nat := nd l i 2 1
def ndRerun (l : List Byte) (i : Nat) : Bool := nd l i 3 1 % 2 == 1
def ndInherit (l : List Byte) (i : Nat) : Bool := nd l i 3 1 / 2 % 2 == 1
def ndExch (l : List Byte) (i : Nat) : Bool := nd l i 3 1 / 4 % 2 == 1
def ndSpalloc (l : List Byte) (i : Nat) : Nat := nd l i 8 4
def ndVgrant (l : List Byte) (i : Nat) : Nat := nd l i 12 4
/-- Declared tiles of a node: address, length. -/
def ndTiles (l : List Byte) (i : Nat) : List (Nat × Nat) :=
  (List.range (nd l i 28 4)).map fun j => let o := nd l i 24 4 + 16 * j; (recN l o 9, recN l (o + 12) 4)
/-- A kernel's record images: index and image, `size` bytes each. -/
def knRecs (l : List Byte) (off n size : Nat) : List (Nat × Nat) :=
  (List.range n).map fun j => let o := off + size * j; (recN l o 1, recN l (o + 16) (size - 16))
def knCb (l : List Byte) (i : Nat) : List (Nat × Nat) := knRecs l (kn l i 16 4) (kn l i 11 1) 32
def knTd (l : List Byte) (i : Nat) : List (Nat × Nat) := knRecs l (kn l i 20 4) (kn l i 12 2) 144

/-! ## Levels (R27, R269) -/

/-- The task level. -/
def taskLevel (l : List Level) : Nat := (l.findIdx? (fun v => v.dom == 3)).getD (arrayLevel l)
/-- Members of a task: the extent of the ARRAY level directly inside a CHAIN level. -/
def memberCount (l : List Level) : Nat := if domAt l (taskLevel l) = 3 then extAt l (taskLevel l - 1) else 1
/-- Tasks of one node. -/
def taskCount (l : List Level) : Nat := (l.drop (taskLevel l)).foldl (fun n v => n * v.ext) 1
/-- Indices of task `t`, task level least significant. -/
def instOf (l : List Level) (t : Nat) : List Nat :=
  (l.zipIdx.foldl (fun (r : List Nat × Nat) e => if e.2 < taskLevel l then (r.1 ++ [0], r.2) else (r.1 ++ [r.2 % e.1.ext], r.2 / e.1.ext)) ([], t)).1
/-- The number of a task of its node (R266). -/
def instNo (l : List Level) (inst : List Nat) : Nat :=
  ((l.zip inst).drop (taskLevel l)).foldr (fun e n => e.2 + e.1.ext * n) 0

/-- Least scope of a domain. -/
def minScope (d : Nat) : Nat := [0, 1, 1, 4, 3, 4, 5, 6].getD d 7
/-- Capacity of one instance of a domain in instances of a smaller one. -/
def domCap (d e : Nat) : Option Nat :=
  match d, e with
  | 1, 0 => some 64 | 2, 1 => some 16 | 2, 0 => some 1024 | 3, 2 => some 16 | 4, 2 => some 4 | 5, 2 => some 32 | 5, 4 => some 8
  | 6, 2 => some 128 | 6, 4 => some 32 | 6, 5 => some 4 | 7, 2 => some 8192 | 7, 4 => some 2048 | 7, 5 => some 256 | 7, 6 => some 64
  | _, _ => none
/-- Product of extents of levels from `i` up to `j − 1`. -/
def extProd (l : List Level) (i j : Nat) : Nat := ((l.take j).drop i).foldl (fun n v => n * v.ext) 1

/-- The levels keep R27. -/
def levelsOk (l : List Level) : Bool :=
  let nc := (l.takeWhile fun v => v.dom == 0).length
  let pc := extProd l 0 nc
  let pr := (l.filter fun v => v.dom == 1).foldl (fun n v => n * v.ext) 1
  let chain := l.findIdx? fun v => v.dom == 3
  (l.head?.map fun v => v.dom == 0 && v.scope == 0).getD false &&
  l.all (fun v => decide (v.dom ≤ 7) && decide (v.scope ≤ 6) && decide (minScope v.dom ≤ v.scope) && decide (1 ≤ v.ext)) &&
  (l.zip (l.drop 1)).all (fun e => decide (e.1.dom ≤ e.2.dom) && decide (e.1.scope ≤ e.2.scope)) &&
  l.any (fun v => v.dom == 2 || v.dom == 3) && decide ((l.filter fun v => v.dom == 3).length ≤ 1) &&
  (match chain with
    | some c => domAt l (c - 1) == 2 && decide (1 ≤ c) && decide (extAt l (c - 1) ≤ 16)
    | none => true) &&
  (if domAt l nc = 1 then decide (pc ≤ 64) else decide (pc ≤ 64) || (pc % 64 == 0 && decide (pc ≤ 1024))) && decide (pr ≤ 16) &&
  (List.range l.length).all (fun p => !isPlacement l p || (List.range 7).all fun e =>
    match domCap (domAt l p) e, l.findIdx? fun v => v.dom == e with
    | some cap, some i => decide (p ≤ i) || decide (extProd l i p ≤ cap)
    | _, _ => true) &&
  decide (taskCount l ≤ 2 ^ 40)

/-! ## Checks at acceptance (R268) -/

/-- A table lies within the record at a multiple of 16. -/
def tabOk (l : List Byte) (off n : Nat) : Bool := off % 16 == 0 && decide (off + n ≤ rRlen l)

/-- Nothing of reason 1: version, counts, offsets, reserved bytes, tables and images within the record. -/
def recOk1 (l : List Byte) : Bool :=
  let nk := rKerns l
  recN l 0 2 == 1 && decide (1 ≤ rNlev l ∧ rNlev l ≤ 8) && recN l 3 1 == 0 && decide (1 ≤ rNodes l ∧ rNodes l ≤ 65536) &&
  decide (rEdges l ≤ 1048576) && decide (1 ≤ nk ∧ nk ≤ 256) && recZero l 44 20 && decide (64 ≤ rRlen l) &&
  tabOk l (recN l 16 4) (8 * rNlev l) && tabOk l (recN l 20 4) (64 * rNodes l) && tabOk l (recN l 24 4) (16 * rEdges l) &&
  tabOk l (recN l 28 4) (64 * nk) && tabOk l (rStat l) (32 * rNodes l) &&
  (List.range (rNlev l)).all (fun i => recZero l (recN l 16 4 + 8 * i + 2) 2) &&
  (List.range (rEdges l)).all (fun i => recZero l (recN l 24 4 + 16 * i + 9) 7) &&
  (List.range (rNodes l)).all (fun i =>
    let imgs := if nd l i 32 4 = 0 then nd l i 20 4 else (taskCount (rLevels l) - 1) * nd l i 32 4 + nd l i 20 4
    recZero l (recN l 20 4 + 64 * i + 36) 28 && tabOk l (nd l i 16 4) imgs && tabOk l (nd l i 24 4) (16 * nd l i 28 4) &&
    (List.range (nd l i 28 4)).all fun j => recZero l (nd l i 24 4 + 16 * j + 9) 3) &&
  (List.range nk).all (fun i =>
    recZero l (recN l 28 4 + 64 * i + 14) 2 && recZero l (recN l 28 4 + 64 * i + 24) 40 && tabOk l (kn l i 0 4) (kn l i 4 4) &&
    decide (kn l i 11 1 ≤ 16) && decide (kn l i 12 2 ≤ 256) && tabOk l (kn l i 16 4) (32 * kn l i 11 1) &&
    tabOk l (kn l i 20 4) (144 * kn l i 12 2) &&
    (List.range (kn l i 11 1)).all (fun j => recZero l (kn l i 16 4 + 32 * j + 1) 15) &&
    (List.range (kn l i 12 2)).all fun j => recZero l (kn l i 20 4 + 144 * j + 1) 15)

/-- A node's fields (reason 3). -/
def nodeOk (l : List Byte) (i : Nat) : Bool :=
  let lv := rLevels l
  let sp := ndSpalloc l i
  let ins := (rEdgeList l).filter fun e => e.2.1 == i
  decide (ndKern l i < rKerns l) && decide (ndPrio l i ≤ 15) && decide (nd l i 3 1 < 8) && decide (nd l i 4 2 ≤ 4096) &&
  sp % 4096 == 0 && decide (4096 ≤ sp ∧ sp ≤ 4194304) && ndVgrant l i % 65536 == 0 && decide (ndVgrant l i ≤ 0xF80000) &&
  nd l i 20 4 % 16 == 0 && decide (nd l i 20 4 ≤ sp) && decide (nd l i 28 4 ≤ 256) &&
  (!ndExch l i || ((List.range lv.length).any (fun p => isPlacement lv p && domAt lv p == 4) && decide (262144 ≤ sp))) &&
  (!ndInherit l i || (ins.length == 1 && ins.all fun e => e.2.2 == 0)) &&
  nd l i 32 4 % 16 == 0 && (nd l i 32 4 == 0 || decide (nd l i 20 4 ≤ nd l i 32 4))

/-- Nodes left when those without an edge in from the rest are taken away. -/
def sifted (es : List (Nat × Nat × Nat)) (n : Nat) (l : List Nat) : List Nat :=
  match n with
  | 0 => l
  | n + 1 => sifted es n (l.filter fun i => es.any fun e => e.2.1 == i && l.contains e.1)
/-- The edges are a graph without a cycle (reason 4). -/
def edgesOk (l : List Byte) : Bool :=
  let es := rEdgeList l
  es.all (fun e => decide (e.1 < rNodes l) && decide (e.2.1 < rNodes l) && decide (e.2.2 ≤ 1)) &&
  (sifted es (rNodes l) (List.range (rNodes l))).isEmpty

def noRepeat (l : List Nat) : Bool := l.dedup.length == l.length
/-- A kernel's counts (reason 5) and records (reason 6). -/
def kernOk (l : List Byte) (i : Nat) : Bool :=
  decide (kn l i 8 1 ≤ 64) && decide (kn l i 9 1 ≤ 64) && decide (kn l i 10 1 ≤ 8) && kn l i 4 4 % 4 == 0 &&
  decide (16 ≤ kn l i 4 4 ∧ kn l i 4 4 ≤ 16777216)
def kernRecsOk (l : List Byte) (i : Nat) : Bool :=
  let cbs := knCb l i
  let tds := knTd l i
  let ring (e : Nat × Nat) : Nat × Nat := let b := cbOf (BitVec.ofNat 128 e.2); (b.off, b.off + b.size 4096)
  let apart (e f : Nat × Nat) : Bool := e.1 == f.1 || decide ((ring e).2 ≤ (ring f).1) || decide ((ring f).2 ≤ (ring e).1)
  let fits (e : Nat × Nat) : Bool := (List.range (rNodes l)).all fun n =>
    ndKern l n != i || decide ((ring e).2 ≤ ndSpalloc l n - (if ndExch l n then 131072 else 0))
  cbs.all (fun e => decide (e.1 < 16) && cbOk 4096 (BitVec.ofNat 128 e.2) && cbs.all (apart e) && fits e) &&
  noRepeat (cbs.map (·.1)) && tds.all (fun e => tdOk (BitVec.ofNat 1024 e.2)) && noRepeat (tds.map (·.1))

/-- Scratchpad in service on an array (R309). -/
def Itg.inService (g : Itg) : Nat := 4194304 - 262144 * ((List.range 16).filter (bitAt g.gret)).length
/-- An array is in service in a partition: its die is, and firmware has not taken it out (R305, R316). -/
def State.serves (s : State) (part a : Nat) : Bool :=
  let d := s.getD (a / 32)
  decide (a < 128) && d.svc && d.part == part && !(s.getA a).itg.out
/-- An array takes dispatch for a partition: it is in service there and no second bank of a group has failed (R308). -/
def State.takes (s : State) (part a : Nat) : Bool := s.serves part a && !(s.getA a).itg.noDisp
/-- Arrays that count as in service at acceptance: in stage 2 those of full service (R354), without those firmware has taken out (R305). -/
def State.willServe (s : State) (part sp : Nat) : List Nat :=
  (List.range 128).filter fun a => let d := s.getD (a / 32)
    (d.svc || s.dev.stage == 2#2) && d.part == part && !(s.getA a).itg.out && decide (sp ≤ (s.getA a).itg.inService)
/-- Arrays of a partition in service with enough scratchpad. -/
def State.capable (s : State) (part sp : Nat) : List Nat :=
  (List.range 128).filter fun a => s.takes part a && decide (sp ≤ (s.getA a).itg.inService)

/-- The reason code of a record; 0 when every check passes (R268). -/
def launchReason (part : Nat) (l : List Byte) (s : State) : Nat :=
  let lv := rLevels l
  let ns := List.range (rNodes l)
  let ks := List.range (rKerns l)
  let sp := ns.foldl (fun m i => max m (ndSpalloc l i)) 0
  if !recOk1 l then 1
  else if !levelsOk lv then 2
  else if !ns.all (nodeOk l) then 3
  else if !edgesOk l then 4
  else if !ks.all (kernOk l) then 5
  else if !ks.all (kernRecsOk l) then 6
  else if (List.range lv.length).any fun p => namesLevel lv p && decide ((s.willServe part sp).length < partCount lv p) then 7
  else 0

/-! ## The record in memory (R272) -/

def State.getL (s : State) (i : Nat) : Option Launch := SMap.get none s.launch i
def State.getT (s : State) (i : Nat) : Option Task := SMap.get none s.task i
def State.setT (s : State) (i : Nat) (t : Task) : State := { s with task := SMap.set none s.task i (some t) }
def State.modT (s : State) (i : Nat) (f : Task → Task) : State :=
  match s.getT i with
  | some t => s.setT i (f t)
  | none => s
def State.modL (s : State) (i : Nat) (f : Launch → Launch) : State :=
  match s.getL i with
  | some l => { s with launch := SMap.set none s.launch i (some (f l)) }
  | none => s

/-- The physical address of an offset of a launch's record. -/
def Launch.at_ (l : Launch) (off : Nat) : Nat :=
  let o := l.rec_.toNat % 65536 + off
  l.pages.getD (o / 65536) 0 * 65536 + o % 65536
/-- Bytes written in a launch's record: a record may cross pages. -/
def State.recWrite (s : State) (l : Launch) (off : Nat) (bs : List Byte) : State :=
  let k := 65536 - (l.rec_.toNat % 65536 + off) % 65536
  let s := s.devWrite (l.at_ off) (bs.take k) false
  if bs.length ≤ k then s else s.devWrite (l.at_ (off + k)) (bs.drop k) false

/-- Tasks of a launch, with their numbers. -/
def State.tasksOf (s : State) (lid : Nat) : List (Nat × Task) :=
  s.task.filterMap fun e => match e.2 with | some t => if t.launch = lid then some (e.1, t) else none | none => none
def TState.code (t : TState) : Nat :=
  match t with
  | .waiting => 0 | .held => 1 | .ready => 2 | .running => 3 | .preempted => 4 | .parked => 5 | .done => 6 | .failed => 7
def TState.final (t : TState) : Bool := t == .done || t == .failed

/-- The status entry of a node rewritten but for its cause, and LSTAT once every node is final (R268, R272). -/
def State.status (s : State) (lid node : Nat) : State :=
  match s.getL lid with
  | none => s
  | some l =>
    let all := s.tasksOf lid
    let ts := (all.filter fun e => e.2.node == node).map (·.2)
    let live := ts.filter fun t => !t.st.final
    let st := if live.isEmpty then (if ts.any fun t => t.st == .failed then 7 else 6)
      else live.foldl (fun n t => min n t.st.code) 7
    let o := rStat l.bytes + 32 * node
    let s := s.recWrite l o ([BitVec.ofNat 8 st, if ts.any (·.lost) || SMap.get false l.lost node then 1#8 else 0#8] ++
      leBytes 2 (SMap.get 0 l.reruns node) ++ leBytes 4 (ts.filter fun t => t.st == .done).length)
    if !l.fin && all.all (fun e => e.2.st.final) then (s.recWrite l 36 (leBytes 4 3)).modL lid fun l => { l with fin := true } else s

/-- A kill or a failure recorded in the node's entry; CAUSE 0 only while it holds no cause (R272). -/
def State.recCause (s : State) (lid node cause rank : Nat) (xinfo : Word) (pc : BitVec 32) : State :=
  match s.getL lid with
  | none => s
  | some l =>
    let o := rStat l.bytes + 32 * node
    if cause = 0 ∧ (s.byte (l.at_ (o + 8))).toNat ≠ 0 then s
    else
      let s := s.recWrite l (o + 8) (leBytes 1 cause ++ leBytes 1 rank)
      (s.recWrite l (o + 16) (leBytes 8 xinfo.toNat)).recWrite l (o + 24) (leBytes 4 pc.toNat)

/-! ## Gangs (R35) -/

/-- The level one of whose instances a gang is. -/
def gangLevel (l : List Level) : Nat := max (topLevel l) (taskLevel l)
/-- Two tasks belong to one gang. -/
def sameGangT (lv : List Level) (t u : Task) : Bool :=
  t.launch == u.launch && t.node == u.node && t.inst.drop (gangLevel lv) == u.inst.drop (gangLevel lv)
def State.levelsOf (s : State) (t : Task) : List Level := ((s.getL t.launch).map fun l => rLevels l.bytes).getD []
/-- The gang of a task with their numbers, participants in order. -/
def State.gang (s : State) (t : Task) : List (Nat × Task) :=
  (s.tasksOf t.launch).filter fun e => sameGangT (s.levelsOf t) t e.2
/-- Arrays that run a task of the gang, with their tasks' numbers. -/
def State.gangArrs (s : State) (t : Task) : List (Nat × Nat) :=
  (s.gang t).flatMap fun e => (e.2.arrs.filter fun a => (s.getA a).tsk.run && (s.getA a).tsk.id == e.1).map fun a => (a, e.1)

/-- A task enters the pool, or its state changes otherwise. -/
def State.enter (s : State) (i : Nat) (st : TState) : State := s.modT i fun t => { t with st := st, order := s.norder }

/-- Predecessors of a task: by instance for KIND 0, every task of the node for KIND 1 (R266). -/
def State.preds (s : State) (l : Launch) (t : Task) : List Task :=
  let ins := (rEdgeList l.bytes).filter fun e => e.2.1 == t.node
  ((s.tasksOf t.launch).filter fun e => ins.any fun q => q.1 == e.2.node && (q.2.2 == 1 || e.2.inst == t.inst)).map (·.2)

/-- One pass over a launch's tasks that wait: failed with a predecessor (its whole gang with it), or released (R272, R273). -/
def settleOnce (lid : Nat) (s : State) : State :=
  match s.getL lid with
  | none => s
  | some l =>
    let s := (s.tasksOf lid).foldl (fun (s : State) e =>
      match s.getT e.1 with
      | none => s
      | some t =>
        if t.st ≠ .waiting ∧ t.st ≠ .held then s
        else
          let ps := s.preds l t
          if ps.any fun p => p.st == .failed then
            (s.gang t).foldl (fun (s : State) g => if g.2.st.final || g.2.st == .running then s else
              ((s.modT g.1 fun t => { t with st := .failed }).recCause lid g.2.node 0 0 0 0)) s
          else if t.st = .waiting ∧ ps.all (fun p => p.st == .done) then s.enter e.1 .ready
          else s) s
    { s with norder := s.norder + 1 }
def settleN (n lid : Nat) (s : State) : State :=
  match n with
  | 0 => s
  | n + 1 => settleN n lid (settleOnce lid s)
/-- The launch after a task of it has ended: failures passed on, released tasks in the pool, status entries and LSTAT written. -/
def State.settleLaunch (s : State) (lid : Nat) : State :=
  match s.getL lid with
  | none => s
  | some l =>
    let n := rNodes l.bytes
    (List.range n).foldl (fun (s : State) i => s.status lid i) (settleN (n + 1) lid s)

/-! ## The pool (R273) -/

/-- A task that was running before: PREEMPTED, or READY with a frame (R299). -/
def Task.hadRun (t : Task) : Bool := t.st == .preempted || !t.saved.isEmpty
/-- The first of two lists of indices, the outermost level most significant. -/
def lexLt (l m : List Nat) : Bool :=
  match l, m with
  | a :: l, b :: m => decide (a < b) || (a == b && lexLt l m)
  | _, _ => false
def State.prioOf (s : State) (t : Task) : Nat := ((s.getL t.launch).map fun l => ndPrio l.bytes t.node).getD 0
/-- Task `t` is taken before task `u`. -/
def State.before (s : State) (t u : Task) : Bool :=
  let k (t : Task) : List Nat := [15 - s.prioOf t, if t.hadRun then 0 else 1, t.order, t.node] ++ t.inst.reverse
  lexLt (k t) (k u)
/-- A task put in its place in the pool's order. -/
def poolIns (s : State) (e : Nat × Task) (l : List (Nat × Task)) : List (Nat × Task) :=
  match l with
  | [] => [e]
  | x :: l => if s.before e.2 x.2 then e :: x :: l else x :: poolIns s e l
/-- A launch whose tasks may run: every one, or those of the pass that a replay of the partition runs (R334). -/
def State.allowed (s : State) (t : Task) : Bool :=
  match s.getL t.launch with
  | none => false
  | some l =>
    match (SMap.get Part.reset s.part l.part).replay with
    | none => true
    | some r => r.launch == some t.launch
/-- The pool of a partition in order. -/
def State.pool (s : State) (part : Nat) : List (Nat × Task) :=
  (s.task.filterMap fun e => match e.2 with
    | some t => if (t.st == .ready || t.st == .preempted) && ((s.getL t.launch).map fun l => l.part == part).getD false && s.allowed t
        then some (e.1, t) else none
    | none => none).foldl (fun l e => poolIns s e l) []

/-! ## Placements (R274) -/

/-- Contexts are kept under their partition and number. -/
def cxtKey (part : Nat) (ctx : BitVec 16) : Nat := part * 65536 + ctx.toNat
/-- What translates for a context. -/
def State.cxtTr (s : State) (part : Nat) (ctx : BitVec 16) : TrCap :=
  let c := SMap.get Cxt.none s.cxt (cxtKey part ctx)
  ⟨part, ctx, c.base, c.limit, c.off, c.tlb⟩

/-- Participants of a gang that need an array: their numbers, with their tasks. -/
def State.wants (s : State) (t : Task) : List (Nat × Task) :=
  let m := memberCount (s.levelsOf t)
  (s.gang t).zipIdx.flatMap fun e => if e.1.2.st.final then [] else (List.range m).map fun r => (e.2 * m + r, e.1.2)

/-- The running task on an array and its launch. -/
def State.runs (s : State) (a : Nat) : Option Task := if (s.getA a).tsk.run then s.getT (s.getA a).tsk.id else none
/-- A gang that runs may be displaced by a task of a priority: each of its tasks has a lower one, or the same and a slice at 0. -/
def State.mayDisplace (s : State) (prio a : Nat) : Bool :=
  match s.runs a with
  | none => !(s.getA a).tsk.run
  | some v => (s.gangArrs v).all fun e =>
      decide (s.prioOf v < prio) || (s.prioOf v == prio && (s.getA e.1).csr.slice == 0)

/-- An array is admissible for a task, placement levels apart. -/
def State.arrayFits (s : State) (part : Nat) (prio sp : Nat) (avoid : Bool) (resv : List Nat) (t : Task) (a : Nat) : Bool :=
  s.takes part a && decide (sp ≤ (s.getA a).itg.inService) && !resv.contains a && s.mayDisplace prio a &&
  !(avoid && t.avoid.contains a) && (t.bound.map (· == a)).getD true &&
  (t.saved.isEmpty || ((s.getL t.launch).map fun l => ndVgrant l.bytes t.node == 0).getD true || t.arrs.contains a)

/-- Two arrays lie within one instance of a domain; a chain of scope DIE stays on one die. -/
def oneDomain (v : Level) (a b : Nat) : Bool :=
  match v.dom with
  | 3 => v.scope != 4 || a / 32 == b / 32
  | 4 => a / 4 == b / 4
  | 5 => a / 32 == b / 32
  | _ => true
/-- Array `a` for participant `i` agrees with a participant already placed. -/
def agrees (lv : List Level) (i a : Nat) (e : Nat × Nat) : Bool :=
  e.2 != a && (List.range lv.length).all fun p =>
    !namesLevel lv p || i / partCount lv p != e.1 / partCount lv p || oneDomain (lv.getD p default) a e.2
/-- Interchangeable participants are placed in ascending order. -/
def ascends (lv : List Level) (i a : Nat) (e : Nat × Nat) : Bool :=
  let n := (List.range lv.length).foldl (fun m p => if m = 1 ∧ namesLevel lv p = true then partCount lv p else m) 1
  i / n != e.1 / n || decide (e.2 < a)

/-- Every placement of participants, in ascending order of the arrays. -/
def placements (lv : List Level) (fits : Task → Nat → Bool) (ws : List (Nat × Task)) (done : List (Nat × Nat)) : List (List (Nat × Nat)) :=
  match ws with
  | [] => [done]
  | w :: ws =>
    ((List.range 128).filter fun a => fits w.2 a && done.all fun e => agrees lv w.1 a e && ascends lv w.1 a e).flatMap fun a =>
      placements lv fits ws (done ++ [(w.1, a)])

/-- The bytes of the node's declared tiles that a placement holds in its vaults. -/
def State.tileBytes (s : State) (l : Launch) (node : Nat) (as : List Nat) : Nat :=
  (ndTiles l.bytes node).foldl (fun n e =>
    let va : Addr := BitVec.ofNat 72 e.1
    let here := if va.extractLsb' 64 8 = 0xFF#8 then va.extractLsb' 24 2 == 1#2 else
      match s.xlatePure (s.cxtTr l.part l.ctx) va 0 with
      | .ok (.vault b _) => as.contains b
      | _ => false
    if here then n + e.2 else n) 0
/-- Arrays of the placement's quads that run tasks of the launch declaring a tile of the node. -/
def State.sharers (s : State) (l : Launch) (lid node : Nat) (as : List Nat) : Nat :=
  let mine := (ndTiles l.bytes node).map (·.1)
  ((List.range 128).filter fun b => (as.map (· / 4)).contains (b / 4) && (match s.runs b with
    | some u => u.launch == lid && (ndTiles l.bytes u.node).any fun e => mine.contains e.1
    | none => false)).length
/-- Running tasks that a placement preempts, whole gangs. -/
def State.victims (s : State) (as : List Nat) : List (Nat × Task) :=
  (as.flatMap fun a => match s.runs a with
    | some v => (s.gang v).filter fun e => e.2.st == .running
    | none => []).dedup
/-- The score of a placement. -/
def State.score (s : State) (l : Launch) (lid node : Nat) (as : List Nat) : Int :=
  let quads := (as.map (· / 4)).dedup
  let gone := 256 * (s.tileBytes l node as / 1048576) + 512 * s.sharers l lid node as
  let cost := 128 * as.foldl (fun n a => n + ((List.range 16).filter (bitAt (s.getA a).itg.gret)).length) 0 +
    3200 * (quads.filter fun q => (s.getQ q).gated).length + (s.victims as).foldl (fun n e => n + 4096 + 256 * s.prioOf e.2) 0
  (cost : Int) - gone

/-- The best placement of a gang: lowest score, then lowest arrays. The arrays it was killed on are used only where nothing else is
admissible (R311). -/
def State.bestPlace (s : State) (l : Launch) (t : Task) (resv : List Nat) : Option (List (Nat × Nat)) :=
  let lv := rLevels l.bytes
  let ws := s.wants t
  let fit (avoid : Bool) := s.arrayFits l.part (ndPrio l.bytes t.node) (ndSpalloc l.bytes t.node) avoid resv
  let ps (avoid : Bool) := placements lv (fit avoid) ws []
  let all := if (ps true).isEmpty then ps false else ps true
  all.foldl (fun (b : Option (List (Nat × Nat))) p =>
    match b with
    | none => some p
    | some q => if s.score l t.launch t.node (p.map (·.2)) < s.score l t.launch t.node (q.map (·.2)) then some p else b) none

/-! ## The flush of a fault buffer (R299, R330) -/

/-- Accesses parked with another generation wait no more (R299). -/
def Arr.redrive (gen : Nat) (x : Arr) : Arr :=
  let go (p : Option Nat) : Option Nat := if p = some gen then p else none
  let x := x.modCpy fun y => { y with cmds := y.cmds.map (fun m => { m with park := go m.park }), ni := y.ni.map fun o => { o with park := go o.park } }
  x.modMat fun t => { t with cmds := t.cmds.map fun m => { m with park := go m.park } }
/-- Some access of the array is parked. -/
def Arr.parked (x : Arr) : Bool :=
  (x.cpy.cmds.any fun m => m.park.isSome) || (x.cpy.ni.any fun o => o.park.isSome && o.own.isNone) || x.mat.cmds.any fun m => m.park.isSome

/-- A parked task after a re-drive on a die: READY, to be restored, once nothing of it is parked any more (R299). A park without an access
waits at its die and generation. -/
def Task.redrive (die gen order : Nat) (t : Task) : Task :=
  if t.st ≠ .parked then t
  else
    let saved := (t.saved.zip t.arrs).map fun e => if e.2 / 32 = die then e.1.redrive gen else e.1
    let pg := t.parkGen.filter fun g => g / 2 ^ 32 != die || g % 2 ^ 32 == gen
    if (saved.any fun x => x.parked) || pg.isSome then { t with saved := saved, parkGen := pg }
    else { t with saved := saved, parkGen := pg, st := .ready, order := order }

/-- The accesses of a die re-driven: of its arrays, of the tasks saved there, which enter the pool, and of its queues, which are ACTIVE
again. A task that was stopping for an issue check stops as a preemption does. -/
def State.redrive (s : State) (die gen : Nat) : State :=
  let arr (e : Nat × Arr) : Nat × Arr := (e.1, if e.1 / 32 = die then
    (e.2.redrive gen).modTsk fun k => { k with stop := if k.stop = .park then .preempt else k.stop } else e.2)
  let woken := s.task.filterMap fun e => e.2.bind fun t =>
    if t.st = .parked ∧ (t.redrive die gen s.norder).st = .ready then some (t.launch, t.node) else none
  let s1 : State := { s with
    arr := s.arr.map arr, task := s.task.map fun e => (e.1, e.2.map (Task.redrive die gen s.norder)), norder := s.norder + 1 }
  let s2 := woken.dedup.foldl (fun (s : State) e => s.status e.1 e.2) s1
  (s2.queue.filter fun e => e.2.on && e.2.die == die && e.2.parked.isSome && e.2.parked != some gen).foldl (fun (s : State) e =>
    ({ s with queue := SMap.mod Queue.none s.queue e.1 fun u => { u with parked := Option.none } } : State).physWrite (e.2.desc + 40) [1#8] false) s2

/-- The flush of a die's fault buffer (R299). -/
def fbFlush (die : Nat) (s : State) : State :=
  let s := s.modD die fun d => { d with fbgen := d.fbgen + 1 }
  let d := s.getD die
  let s := (s.devRead d.fbAddr 64).physWrite (d.fbAddr + 8) (leBytes 4 d.fbgen.toNat) false
  let s := s.physWrite (d.fbAddr + 4) (leBytes 4 (s.readN d.fbAddr 4)) false
  s.redrive die d.fbgen.toNat
def semFbfl : SlotSem := ySem [] [] (fun _ _ => false) (fun _ _ => []) fun c s => fbFlush (c.a / 32) s
/-- `FBFL` (R223, R299). -/
def execFbfl (s : State) : Out := .next (runSlot 0 semFbfl s)

end Sys2Proof.Machine
end

