-- ==== Sys2Proof/Machine/Bundle.lean ====
section
/-! DEFINITION. The bundle: attachment of extension words (R69), the stage-guard word (R71), composition (R73-R75), the
header's own checks (R66), and the issue of a whole bundle. -/

namespace Sys2Proof.Machine

open Sys2Proof

/-- An instruction slot of a bundle as parsed; `ins` is `none` where it raises ILLOP. -/
structure PSlot where
  idx : Nat
  raw : Raw
  ins : Option Instr
  deriving DecidableEq, Repr

def PSlot.cls (p : PSlot) : Cls := (clsOf p.raw.op).getD .nop
/-- CHK of a slot (R65). -/
def PSlot.chk (p : PSlot) : Bool :=
  match p.cls with
  | .scalar => p.raw.m.getLsbD 3
  | .vector => p.raw.m.getLsbD 1
  | _ => false
/-- The raw slot with CHK cleared: what R75 compares. -/
def PSlot.bare (p : PSlot) : Raw :=
  match p.cls with
  | .scalar => { p.raw with m := p.raw.m &&& 7#4 }
  | .vector => { p.raw with m := p.raw.m &&& 13#4 }
  | _ => p.raw
/-- The limit of R74 that a slot counts toward, and that limit. -/
def PSlot.limit (p : PSlot) : Option (Nat × Nat) :=
  match p.cls with
  | .scalar => if p.chk then some (4, 1) else some (0, 1)
  | .system => some (0, 1)
  | .vector => some (1, 2)
  | .matrix => some (2, 1)
  | .copy => some (3, 2)
  | .guard => some (4, 1)
  | _ => none

/-- The slots after the header, with the indexes that raise BUNDLE and ILLOP by their words alone. -/
structure Parse where
  slots : List PSlot := []
  bundle : List Nat := []
  ill : List Nat := []
  deriving DecidableEq, Repr

/-- Words from slot `i` on, taken apart under R69; a header is BUNDLE (R73), a loose EXT is BUNDLE, an unassigned opcode is
ILLOP and takes the EXT slots behind it. -/
def parseSlots (n i : Nat) (ws : List W32) : Parse :=
  match n, ws with
  | 0, _ => {}
  | _, [] => {}
  | n + 1, w :: l =>
    if wOp w = 0#9 || isExt w then
      let q := parseSlots n (i + 1) l
      { q with bundle := i :: q.bundle }
    else if (clsOf (wOp w)).isNone then
      let k := (l.takeWhile isExt).length
      let q := parseSlots n (i + 1 + k) (l.drop k)
      { q with ill := i :: q.ill }
    else
      match takeRaw w l with
      | .error _ =>
        let q := parseSlots n (i + 1) l
        { q with bundle := i :: q.bundle }
      | .ok (r, rest) =>
        let q := parseSlots n (i + 1 + (l.length - rest.length)) rest
        { q with slots := ⟨i, r, ofRaw r⟩ :: q.slots, ill := if (ofRaw r).isNone then i :: q.ill else q.ill }

/-- Code Cj of the stage-guard word (R71). -/
def sgCode (p : BitVec 22) (j : Nat) : Nat := (p.toNat / 2 ^ (3 * (7 - j))) % 8
/-- The stage predicate of slot j by the stage-guard word, if any. -/
def sgStage (p : BitVec 22) (j : Nat) : Option Nat :=
  if 2 ≤ j ∧ j ≤ 7 ∧ sgCode p j ≠ 0 then some (p.toNat / 2 ^ 18 + sgCode p j - 1) else none
/-- The guard extension of a slot names a stage predicate. -/
def PSlot.ge (p : PSlot) : Bool := (p.raw.gx.map (fun e => e.getLsbD 13)).getD false
/-- The stage-guard word raises ILLOP (R71). -/
def sgBad (p : BitVec 22) (q : Parse) : Bool :=
  (List.range 8).any fun j =>
    match sgStage p j with
    | none => false
    | some g =>
      decide (15 < g) ||
        (match q.slots.find? (fun e => e.idx == j) with
        | some e => e.cls == .nop || e.cls == .system || e.ge
        | none => !q.ill.contains j && !q.bundle.contains j)

/-- Slots beyond a limit of R74. -/
def overLimit (l : List PSlot) : List Nat :=
  (l.filter fun p =>
    match p.limit with
    | none => false
    | some (k, n) => decide (n ≤ (l.filter fun q => decide (q.idx < p.idx) && (q.limit.map (·.1)) == some k).length)).map (·.idx)

/-- The primary of a check copy (R75). -/
def primaryOf (l : List PSlot) (p : PSlot) : Option PSlot :=
  l.find? fun q => decide (q.idx < p.idx) && !q.chk && q.cls == p.cls && q.bare == p.bare
/-- Check copies without a primary. -/
def loneCopies (l : List PSlot) : List Nat := (l.filter fun p => p.chk && (primaryOf l p).isNone).map (·.idx)

/-- The instruction's destination is a predicate or a mask (R222). -/
def writesPM (i : Instr) : Bool :=
  match i with
  | .cmp _ _ _ _ _ => true
  | .cmpImm _ _ _ _ _ => true
  | .fcmp _ _ _ _ _ _ => true
  | .mov _ (.ps _ _) => true
  | .vcmp _ _ _ _ _ _ => true
  | .vmov _ (.mv _ _) => true
  | .vmov _ (.mm _ _) => true
  | _ => false

/-- Kind of a check copy by VCK and SCK: 1 `.dup`, 2 `.shd` (R66). -/
def dupKind (h : Hdr) (p : PSlot) : Nat :=
  if !p.chk then 0 else if (if p.cls == .vector then h.vck else h.sck) then 2 else 1

/-- The static checks of R66 and R69-R75 on the slots after the header, with the stage-guard word. -/
def staticTraps (h : Hdr) (len : Nat) (sg : Option (BitVec 22)) (q : Parse) : List Trap :=
  let b := (if len < 4 then [len - 1] else []) ++ q.bundle ++ overLimit q.slots ++ loneCopies q.slots
  let vc := q.slots.any fun p => p.chk && p.cls == .vector
  let sc := q.slots.any fun p => p.chk && p.cls == .scalar
  let i := (if (h.vck && !vc) || (h.sck && !sc) then [0] else []) ++
    (match sg with | some p => if sgBad p q then [1] else [] | none => []) ++ q.ill ++
    ((q.slots.filter fun p => dupKind h p == 2 && (p.ins.map writesPM).getD false).map (·.idx))
  b.map (trapOf .bundle) ++ i.map (trapOf .illop)

/-- The meaning of a slot instruction in a bundle; the rows that are no slot have none. -/
def semOf (i : Instr) : Option SlotSem :=
  match i with
  | .add g d a b => some (semAdd g d a b)
  | .sub g d a b => some (semSub g d a b)
  | .mul g d a b => some (semMul g d a b)
  | .mulh g d a b => some (semMulh g d a b)
  | .div g d a b => some (semDiv g d a b)
  | .rem g d a b => some (semRem g d a b)
  | .and g d a b => some (semAnd g d a b)
  | .or g d a b => some (semOr g d a b)
  | .xor g d a b => some (semXor g d a b)
  | .andn g d a b => some (semAndn g d a b)
  | .shl g d a b => some (semShl g d a b)
  | .shr g d a b => some (semShr g d a b)
  | .sar g d a b => some (semSar g d a b)
  | .rol g d a b => some (semRol g d a b)
  | .min g d a b => some (semMin g d a b)
  | .max g d a b => some (semMax g d a b)
  | .clz g d a => some (semClz g d a)
  | .popc g d a => some (semPopc g d a)
  | .addImm g d a i => some (semAddImm g d a i)
  | .subImm g d a i => some (semSubImm g d a i)
  | .mulImm g d a i => some (semMulImm g d a i)
  | .mulhImm g d a i => some (semMulhImm g d a i)
  | .divImm g d a i => some (semDivImm g d a i)
  | .remImm g d a i => some (semRemImm g d a i)
  | .andImm g d a i => some (semAndImm g d a i)
  | .orImm g d a i => some (semOrImm g d a i)
  | .xorImm g d a i => some (semXorImm g d a i)
  | .andnImm g d a i => some (semAndnImm g d a i)
  | .shlImm g d a i => some (semShlImm g d a i)
  | .shrImm g d a i => some (semShrImm g d a i)
  | .sarImm g d a i => some (semSarImm g d a i)
  | .rolImm g d a i => some (semRolImm g d a i)
  | .minImm g d a i => some (semMinImm g d a i)
  | .maxImm g d a i => some (semMaxImm g d a i)
  | .li g d i => some (semLi g d i)
  | .liQ1 g d i => some (semLiQ1 g d i)
  | .liQ2 g d i => some (semLiQ2 g d i)
  | .mov g k => some (semMov g k)
  | .sel g d a b => some (semSel g d a b)
  | .cmp g c d a b => some (semCmp g c d a b)
  | .cmpImm g c d a i => some (semCmpImm g c d a i)
  | .fadd g dbl d a b => some (semFadd g dbl d a b)
  | .fsub g dbl d a b => some (semFsub g dbl d a b)
  | .fmul g dbl d a b => some (semFmul g dbl d a b)
  | .ffma g dbl d a b => some (semFfma g dbl d a b)
  | .fdiv g dbl d a b => some (semFdiv g dbl d a b)
  | .fsqrt g dbl d a => some (semFsqrt g dbl d a)
  | .fcvt g code d a => some (semFcvt g code d a)
  | .fcmp g dbl cond d a b => some (semFcmp g dbl cond d a b)
  | .adda g d a b => some (semAdda g d a b)
  | .lea g d a b sh disp => some (semLea g d a b sh disp)
  | .ld g w d a off => some (semLd g w d a off)
  | .st g w d a off => some (semSt g w d a off)
  | .br g disp => some (semBr g disp)
  | .brp g n p disp => some (semBrp g n p disp)
  | .brf g bit n reg disp => some (semBrf g bit n reg disp)
  | .call g d disp => some (semCall g d disp)
  | .ret g a => some (semRet g a)
  | .jmpi g a disp => some (semJmpi g a disp)
  | .loop g disp => some (semLoop g disp)
  | .rds g d n => some (semRds g d n)
  | .wrs g n a => some (semWrs g n a)
  | .enq g a => some (semEnq g a)
  | .deq g d q => some (semDeq g d q)
  | .exit g succ => some (semExit g succ)
  | .uret g => some (semUret g)
  | .twaitTile g a => some (semTwaitTile g a)
  | .twaitLb g a => some (semTwaitLb g a)
  | .twaitAll g => some (semTwaitAll g)
  | .xselSet g p a => some (semXselSet g p a)
  | .xselAndnf g p src => some (semXselAndnf g p src)
  | .yselSet g p a => some (semYselSet g p a)
  | .yselAndnf g p src => some (semYselAndnf g p src)
  | .vadd g t d a b => some (semVadd g t d a b)
  | .vsub g t d a b => some (semVsub g t d a b)
  | .vmul g t d a b => some (semVmul g t d a b)
  | .vmin g t d a b => some (semVmin g t d a b)
  | .vmax g t d a b => some (semVmax g t d a b)
  | .vabs g t d a => some (semVabs g t d a)
  | .vneg g t d a => some (semVneg g t d a)
  | .vfma g t d a b => some (semVfma g t d a b)
  | .vfms g t d a b => some (semVfms g t d a b)
  | .vshl g t d a b => some (semVshl g t d a b)
  | .vshr g t d a b => some (semVshr g t d a b)
  | .vsar g t d a b => some (semVsar g t d a b)
  | .vand g d a b => some (semVand g d a b)
  | .vor g d a b => some (semVor g d a b)
  | .vxor g d a b => some (semVxor g d a b)
  | .vnot g d a => some (semVnot g d a)
  | .vcmp g t cond d a b => some (semVcmp g t cond d a b)
  | .vsel g d a b m => some (semVsel g d a b m)
  | .vmov g k => some (semVmov g k)
  | .vbc g d k => some (semVbc g d k)
  | .vcvt g code d a => some (semVcvt g code d a)
  | .vnrw g d vs ve z nf lane fmt => some (semVnrw g d vs ve z nf lane fmt)
  | .vwid g code lane d a => some (semVwid g code lane d a)
  | .vrcp g d a => some (semVrcp g d a)
  | .vrsq g d a => some (semVrsq g d a)
  | .vexp2 g d a => some (semVexp2 g d a)
  | .vlog2 g d a => some (semVlog2 g d a)
  | .vsin g d a => some (semVsin g d a)
  | .vcos g d a => some (semVcos g d a)
  | .vtanh g d a => some (semVtanh g d a)
  | .vrotx g d a x => some (semVrotx g d a x)
  | .vbcx g d a x => some (semVbcx g d a x)
  | .vredx g op t d a push => some (semVredx g op t d a push)
  | .vscanx g op t d a => some (semVscanx g op t d a)
  | .vroty g d a x => some (semVroty g d a x)
  | .vbcy g d a x => some (semVbcy g d a x)
  | .vredy g op t d a push => some (semVredy g op t d a push)
  | .vscany g op t d a => some (semVscany g op t d a)
  | .vcrw g a => some (semVcrw g a)
  | .vcrn g d wrap => some (semVcrn g d wrap)
  | .vcrs g d wrap => some (semVcrs g d wrap)
  | .vcre g d wrap => some (semVcre g d wrap)
  | .vcrwN g d wrap => some (semVcrwN g d wrap)
  | .vshuf g d a b e => some (semVshuf g d a b e)
  | .shpld g e a n => some (semShpld g e a n)
  | .shpsw g => some (semShpsw g)
  | .vflag g k => some (semVflag g k)
  | .vld g d a off => some (semVld g d a off)
  | .vst g s a off => some (semVst g s a off)
  | .vldv g d a off => some (semVldv g d a off)
  | .vrdacc g d acc j => some (semVrdacc g d acc j)
  | .vwracc g acc s j => some (semVwracc g acc s j)
  | .mln g r a => some (semMln g r a)
  | .mlnK g k a => some (semMlnK g k a)
  | .mgoIp g ui => some (semMgoIp g ui)
  | .mgoOp g ui => some (semMgoOp g ui)
  | .mgoRw g ui => some (semMgoRw g ui)
  | .mms g a => some (semMms g a)
  | .mwt g a => some (semMwt g a)
  | .mswp g => some (semMswp g)
  | .mz g acc => some (semMz g acc)
  | .mst g acc res a ui ef td => some (semMst g acc res a ui ef td)
  | .mla g acc a td => some (semMla g acc a td)
  | .mwait g => some (semMwait g)
  | .mwaitWt g => some (semMwaitWt g)
  | .mstat g d => some (semMstat g d)
  | .mstatClr g d => some (semMstatClr g d)
  | .cpy g a => some (semCpy g a)
  | .cpyg g a => some (semCpyg g a)
  | .cpys g a => some (semCpys g a)
  | .cpym g a => some (semCpym g a)
  | .lblk g d a n => some (semLblk g d a n)
  | .lblkRel g b => some (semLblkRel g b)
  | .cbcfg g cb a => some (semCbcfg g cb a)
  | .cbw g wd kind cb n => some (semCbw g wd kind cb n)
  | .cbadvP g cb n => some (semCbadvP g cb n)
  | .cbadvC g cb n => some (semCbadvC g cb n)
  | .tdset g td a => some (semTdset g td a)
  | .tdget g td a => some (semTdget g td a)
  | .townRel g a => some (semTownRel g a)
  | .townClm g a => some (semTownClm g a)
  | .tcfg g a => some (semTcfg g a)
  | .ldwWf g d a off => some (semLdwWf g d a off)
  | .nrd g l r n => some (semNrd g l r n)
  | .nwr g l r n => some (semNwr g l r n)
  | .nrdx g a => some (semNrdx g a)
  | .nsadd g a => some (semNsadd g a)
  | .nbin g a => some (semNbin g a)
  | .natomAdd g w scope r head a b => some (semNatomAdd g w scope r head a b)
  | .natomMin g w scope r head a b => some (semNatomMin g w scope r head a b)
  | .natomMax g w scope r head a b => some (semNatomMax g w scope r head a b)
  | .natomCas g w scope r head a b => some (semNatomCas g w scope r head a b)
  | .natomXchg g w scope r head a b => some (semNatomXchg g w scope r head a b)
  | .natomAnd g w scope r head a b => some (semNatomAnd g w scope r head a b)
  | .natomOr g w scope r head a b => some (semNatomOr g w scope r head a b)
  | .nred g op t a => some (semNred g op t a)
  | .nmcst g ord a => some (semNmcst g ord a)
  | .ndrain g scope post => some (semNdrain g scope post)
  | .eqx g => some (semEqx g)
  | .gbar g level post => some (semGbar g level post)
  | .vgl g a => some (semVgl g a)
  | .sgl g a => some (semSgl g a)
  | .gla g a => some (semGla g a)
  | .glb g p => some (semGlb g p)
  | .csrrd d csr => some (semCsrrd d csr)
  | .csrwr csr a => some (semCsrwr csr a)
  | .tlbinv a kind => some (semTlbinv a kind)
  | .fbfl => some (semFbfl)
  | .ctxsv a => some (semCtxsv a)
  | .ctxld a => some (semCtxld a)
  | .halt => some (semHalt)
  | .ecall n => some (semEcall n)
  | .xret => some (semXret)
  | _ => none

/-- The slots of a parsed bundle with their meanings; `NOP` and slots that raise ILLOP have none. -/
def bundleSlots (h : Hdr) (sg : Option (BitVec 22)) (q : Parse) : List Slot :=
  q.slots.filterMap fun p =>
    (p.ins.bind semOf).map fun m =>
      { idx := p.idx, sem := m, stage := sg.bind fun w => sgStage w p.idx, dup := dupKind h p,
        prim := if p.chk then (primaryOf q.slots p).map (·.idx) else none }

/-- The words a bundle at the issue point of an array may span: at most 8, within the image in use (R73). -/
def State.fetchWords (s : State) (x : Arr) : List W32 := if x.sca.far then [] else ((s.imageOf x).drop (x.sca.pc.toNat / 4)).take 8

/-- Slots of a bundle counted to its first S = 1; 0 when there is none (R263 LEN). -/
def lenOf (ws : List W32) : Nat :=
  match ws.findIdx? wS with
  | some n => n + 1
  | none => 0

/-- The bundle at the issue point of array `cur`, with header `h` and what its first word raises by itself. SLOT of a bundle without a stop
is the last slot read, and nothing else of it is judged; a bundle that is too short, where an earlier slot raises BUNDLE as well, reports the
earliest (R76, R263). DESIGN CHOICE (unsafe; notes/assumptions 51). -/
def issueAt (h : Hdr) (first : List Trap) (s : State) : State :=
  let ws := s.fetchWords (s.getA s.cur)
  let len := lenOf ws
  if len = 0 then trapAt 0 (trapOf .bundle (ws.length - 1)) s
  else
    let body := (ws.take len).drop 1
    let sg := match body with
      | w :: _ => if isExt w then some (wPl w) else none
      | [] => none
    let q := if sg.isSome then parseSlots 8 2 (body.drop 1) else parseSlots 8 1 body
    let sl := bundleSlots h sg q
    match first ++ staticTraps h len sg q with
    | [] => issueSlots h len sl s
    | st =>
      let x := s.getA s.cur
      let c : Ctx := ⟨s.cur, s.now, x.sca.pc, len, 0, h.pop, 0, false⟩
      match pickTrap (st ++ allTraps c x sl sl s s) with
      | some t => trapAt len t (trapFx c sl t s)
      | none => s

/-- `BUNDLE_ISSUE`: the bundle at the issue point of array `cur` is checked, held or issued whole (R9, R66-R81). -/
def execBundleIssue (h : Hdr) (s : State) : Out := .next (issueAt h [] s)

/-- The bundle at the issue point of array `cur`, whatever its first word: a word that is no header is BUNDLE, a header with
a nonzero reserved field is ILLOP (R73, R79). -/
def issueNext (s : State) : State :=
  match s.fetchWords (s.getA s.cur) with
  | [] => issueAt Hdr.plain [] s
  | w :: _ =>
    match decodeHdr w with
    | some h => issueAt h [] s
    | none => issueAt Hdr.plain [trapOf (if wOp w = 0#9 then .illop else .bundle) 0] s

end Sys2Proof.Machine
end

