-- ==== Sys2Proof/Machine/Tasks.lean ====
section
/-! DEFINITION. The Task Graph Machine: dispatch, slices, preemption and resumption, exits and inheritance, kills and re-runs, parks,
power gates (spec/01_machine.md R26-R35, spec/12_system_tasks.md R270-R279, spec/13_system_faults.md R295, R296, R310-R312). -/

namespace Sys2Proof.Machine

open Sys2Proof

/-! ## Scratchpads placed, saved and restored -/

/-- Offsets `lo` to `hi` of a scratchpad set to given bytes and poison, zero and clean elsewhere, with the parity of the words that change. -/
def State.padSet (s : State) (a lo hi : Nat) (bytes : SMap Byte) (pz : SMap Bool) : State :=
  let inR (k : Nat) : Bool := decide (spadKey a lo ≤ k) && decide (k < spadKey a hi)
  let g := (s.getA a).itg
  let mine : SMap Byte := s.mem.filter fun (e : Nat × Byte) => inR e.1
  let lost : List Nat := ((g.lost.flatMap fun (e : Nat × Bool) =>
    ((List.range 4).filter fun i => bitAt g.rbank (4 * (e.1 / 4096) + i)).map fun i => g.holds (64 * (e.1 % 4096) + 4 * (e.1 / 4096) + i))).filter
      fun w => decide (lo ≤ 16 * w) && decide (16 * w < hi)
  let ws := (lost ++ mine.map (fun (e : Nat × Byte) => (e.1 - spadKey a 0) / 16) ++ bytes.map fun (e : Nat × Byte) => e.1 / 16).dedup
  let old := ws.map fun w => s.readN (spadKey a (16 * w)) 16
  let s1 : State := { s with mem := s.mem.filter (fun e => !inR e.1), pois := s.pois.filter (fun e => !inR e.1),
                             err := s.err.filter (fun e => !inR e.1) }
  let s1 := bytes.foldl (fun (s : State) e => s.setByte (spadKey a e.1) e.2) s1
  (pz.foldl (fun (s : State) e => s.setPois (spadKey a e.1) e.2) s1).reparity a ws old

/-- The scratchpad of a saved task put in an array from its frame (R279, R280): the front bank of an exchange window first. -/
def State.padLoad (s : State) (a : Nat) (k : Tsk) (f : SMap Byte) : State :=
  let b := frPad k.vregs k.accs
  let pz : SMap Bool := (cutMap f (b + k.spalloc) (k.spalloc / 32)).flatMap fun (e : Nat × Byte) =>
    ((List.range 8).filter fun j => bitAt e.2 j).map fun j => (4 * (8 * e.1 + j), true)
  s.padSet a 0 k.spalloc (cutMap f b k.spalloc) pz

/-! ## The start of a task (R270) -/

/-- CSRs of an array without a task. -/
def Csr.idle (c : Csr) : Csr := { c with disp := 0, preq := false, prio := 0, slice := 0, sliceCnt := 0, prv := 1 }
/-- Remote accesses of tasks that have left the array, still on their way (R30). -/
def Cpy.others (y : Cpy) : List NIOp := y.ni.filter fun o => o.own.isSome
/-- An array without a task: its registers keep the values that the task ended with, and nothing of the task is in progress. -/
def idleArr (x : Arr) : Arr :=
  { x with
    csr := x.csr.idle, tsk := Tsk.reset, sca := { x.sca with pend := [], uirq := [] },
    cel := { x.cel with waves := [], stq := [], old := [] }, mat := { x.mat with cmds := [] },
    cpy := { x.cpy with cmds := [], ni := x.cpy.others, lb := [], coll := [], unmet := [], own := 0, swapDue := false } }
/-- An array as a task finds it: what belongs to the array stays (R263, R281). -/
def blankArr (x : Arr) : Arr :=
  { Arr.reset with csr := x.csr.idle, tlb := x.tlb, itg := x.itg, cpy := { Cpy.reset with ni := x.cpy.others } }
/-- An array released: its task is gone. -/
def State.release (s : State) (a : Nat) : State := (s.modA a idleArr).modQ (a / 4) fun q => { q with idle := s.now }

/-- CSRs as dispatch sets them (R263, R276). -/
def dispatchCsr (s : State) (l : Launch) (node : Nat) (c : Csr) : Csr :=
  let x := SMap.get Cxt.none s.cxt (cxtKey l.part l.ctx)
  let p := SMap.get Part.reset s.part l.part
  let sl := nd l.bytes node 6 2
  { c with part := BitVec.ofNat 2 l.part, ctx := l.ctx, hwbase := x.base, hwlimit := x.limit, hwoff := x.off,
           tlbEn := bitAt x.tlb 63, tlbRoot := x.tlb.extractLsb' 0 56, disp := 0, preq := false,
           prio := BitVec.ofNat 4 (ndPrio l.bytes node), slice := BitVec.ofNat 24 (if sl = 0 then p.slice else 16 * sl), sliceCnt := 0,
           svec := p.svec, prv := 0 }

/-- Where a task runs: its members' arrays, its rank among them, the participants of its gang. -/
structure Seat where
  id : Nat
  rank : Nat
  members : List Nat
  peers : List Nat
  deriving DecidableEq, Repr

/-- `dhop` of R20. -/
def dhopOf (ms : List Nat) : Nat := if ms.all fun a => a / 32 == ms.headD 0 / 32 then 8 else 24

/-- The instance rectangle: columns and rows (R15, R28). -/
def instRect (lv : List Level) : Word × BitVec 16 :=
  let pc := (lv.filter fun v => v.dom == 0).foldl (fun n v => n * v.ext) 1
  let pr := (lv.filter fun v => v.dom == 1).foldl (fun n v => n * v.ext) 1
  let rows := lv.any fun v => v.dom == 1
  let w := min pc 64
  let h := if rows then pr else (pc + 63) / 64
  (BitVec.ofNat 64 (2 ^ w - 1), BitVec.ofNat 16 (2 ^ h - 1))

/-- Words of a code image. -/
def codeWords (l : List Byte) : List W32 := (List.range (l.length / 4)).map fun i => BitVec.ofNat 32 (recN l (4 * i) 4)

/-- A task's registers and declarations at its start; an heir keeps the accumulators, the tile size and the valid bits (R31). -/
def freshArr (s : State) (l : Launch) (t : Task) (k : Seat) (x : Arr) (heir : Bool) : Arr :=
  let b := l.bytes
  let n := t.node
  let kr := ndKern b n
  let lv := rLevels b
  let r := instRect lv
  let up8 (v : Nat) : Nat := (v + 7) / 8 * 8
  let sp := ndSpalloc b n
  let old := min x.tsk.spalloc sp
  let hold := nd b n 4 2
  let y := blankArr x
  { y with
    csr := dispatchCsr s l n x.csr,
    sca := { Sca.reset with
      a := SMap.set PA.zero [] 0 ⟨ownAddr 0, false⟩, av := 1, xsel := [(1, r.1), (2, r.1), (3, r.1)], ysel := [(1, r.2), (2, r.2), (3, r.2)],
      readyAt := s.now + 1 },
    cel := if heir then { Cel.reset with acc := x.cel.acc, accv := x.cel.accv } else Cel.reset,
    cpy := { y.cpy with
      cb := (knCb b kr).foldl (fun m e => SMap.set CBuf.none m e.1 (cbOf (BitVec.ofNat 128 e.2))) [],
      tdt := (knTd b kr).foldl (fun m e => SMap.set 0 m e.1 (bitSet (BitVec.ofNat 1024 e.2) 86 false)) [],
      z := if heir then x.cpy.z else 0,
      exb := heir && ndExch b n && x.cpy.exb,
      tv := if heir then (List.range 1024).foldl (fun v i => if old ≤ i * x.tileSize then bitSet v i true else v) x.cpy.tv
            else BitVec.allOnes 1024 },
    tsk := { Tsk.reset with
      run := true, id := k.id, node := n, code := codeWords ((b.drop (kn b kr 0 4)).take (kn b kr 4 4)), sregs := up8 (kn b kr 8 1),
      vregs := up8 (kn b kr 9 1), accs := kn b kr 10 1, spalloc := sp, vgrant := ndVgrant b n, exch := ndExch b n,
      hold := if hold = 0 then 4096 else hold, nnodes := rNodes b, rank := k.rank, nranks := k.members.length, dhop := dhopOf k.members,
      members := k.members, peers := k.peers,
      lidx := if domAt lv (taskLevel lv) = 3 then t.inst.set (taskLevel lv - 1) k.rank else t.inst,
      levels := lv } }

/-- The image of a task (R266, R270). -/
def taskImage (l : Launch) (t : Task) : SMap Byte :=
  let b := l.bytes
  let off := nd b t.node 16 4 + instNo (rLevels b) t.inst * nd b t.node 32 4
  ((b.drop off).take (nd b t.node 20 4)).zipIdx.foldl (fun m e => SMap.set 0#8 m e.2 e.1) []

/-- A saved array on the array where its task resumes (R279): the aggregate flags reduce the restored `cf`. -/
def resumeArr (s : State) (l : Launch) (t : Task) (k : Seat) (x saved : Arr) : Arr :=
  { saved with
    csr := dispatchCsr s l t.node x.csr, itg := x.itg, tlb := x.tlb,
    sca := { saved.sca with readyAt := s.now + 1, issuedAt := none },
    cel := { saved.cel with cfs := saved.cel.cf, cfBase := saved.cel.cf, cfLog := [], cfTimes := [], vflagAt := none },
    cpy := { saved.cpy with ni := saved.cpy.ni ++ x.cpy.others, exb := false },
    tsk := { saved.tsk with run := true, stop := (match saved.tsk.stop with | .exit n => .exit n | _ => .no), id := k.id, members := k.members, peers := k.peers, dhop := dhopOf k.members } }

/-- The registers of an array are rewritten for a task: errors of their storage are gone, but for the accumulators that an heir takes over. -/
def State.newRegs (s : State) (a : Nat) (heir : Bool) : State :=
  if s.err.isEmpty then s
  else if heir then (s.regsNew a 0 0 (6 * 2 ^ 32)).regsNew a 7 0 (8 * 2 ^ 32) else s.regsNew a 0 0 (15 * 2 ^ 32)
/-- One member of a task placed on an array. -/
def State.seat (s : State) (l : Launch) (t : Task) (k : Seat) (a : Nat) : State :=
  let s := s.newRegs a false
  match t.saved[k.rank]? with
  | some x => ((s.modA a fun y => resumeArr s l t k y x).padLoad a x.tsk (t.frames.getD k.rank [])).modQ (a / 4) fun q => { q with idle := s.now }
  | none => (s.padSet a 0 (ndSpalloc l.bytes t.node) (taskImage l t) []).modA a fun x => freshArr s l t k x false

/-- A gang placed (R273, R279): participants' arrays give members and peers. -/
def State.startGang (s : State) (l : Launch) (t : Task) (p : List (Nat × Nat)) : State :=
  let g := s.gang t
  let m := memberCount (rLevels l.bytes)
  let arrOf (i : Nat) : Nat := ((p.find? fun e => e.1 == i).map (·.2)).getD 128
  let peers := (List.range (g.length * m)).map arrOf
  let s := g.zipIdx.foldl (fun (s : State) e =>
    if e.1.2.st.final then s
    else
      let ms := (List.range m).map fun r => arrOf (e.2 * m + r)
      let s := ms.zipIdx.foldl (fun (s : State) q => s.seat l e.1.2 ⟨e.1.1, q.2, ms, peers⟩ q.1) s
      s.modT e.1.1 fun t => { t with st := .running, arrs := ms, saved := [], frames := [], parkGen := none }) s
  (p.foldl (fun (s : State) e => s.reenter e.2) s).status t.launch t.node

/-! ## Stops asked for (R277, R278) -/

/-- A member of a chain that is fed by its lead (R20, R21). -/
def Arr.fed (x : Arr) : Bool := decide (x.tsk.rank ≠ 0) && !x.atS
/-- A task asked to stop: PREQ is set, and its sequencer stops at the next boundary outside S code (R277, R278). A member of a chain stops
with its lead. -/
def Arr.askStop (x : Arr) : Arr :=
  if !x.tsk.run || x.tsk.stop != .no then x
  else if x.fed then (x.modTsk fun k => { k with stop := .preempt }).modCsr fun c => { c with preq := false }
  else x.modCsr fun c => { c with preq := true }
/-- Every array of a task's gang asked to stop. -/
def State.askGang (s : State) (t : Task) : State := (s.gangArrs t).foldl (fun (s : State) e => s.modA e.1 Arr.askStop) s

/-! ## Kills (R310, R311) -/

/-- Remote accesses go on after the task that issued them has left (R30). -/
def Arr.disown (x : Arr) : Arr :=
  x.modCpy fun y => { y with ni := y.ni.map fun o => if o.own.isNone then { o with own := some x.tsk, n := 0 } else o }

/-- The outstanding remote accesses of a killed task that the NI had sent, which perform; which of them it had sent is a free value
(R310, notes/assumptions/4). DEDUCED (safe; notes/assumptions 38). -/
def Arr.keepSent (w : Word) (x : Arr) : Arr :=
  x.modCpy fun y => { y with ni := (y.ni.zipIdx.filter fun e => e.1.own.isSome || (e.1.park.isNone && w.getLsbD (e.2 % 64))).map (·.1) }

/-- The path signature of a task (R335): the branches of its lead, and the old values of its atomics in issue order; those that the members of
a chain issue in one cycle go by rank. DESIGN CHOICE (safe; notes/assumptions 71). -/
def taskSig (l : List Arr) : Word :=
  let olds : SMap Word := l.foldl (fun m x =>
    x.tsk.sig.foldl (fun m e => SMap.put m ((e.1 / 2 ^ 32 * 128 + x.tsk.rank) * 2 ^ 32 + e.1 % 2 ^ 32) e.2) m) []
  ((l.head?.map fun x => x.tsk.c1).getD 0) ^^^ crc64 0 (olds.flatMap fun (e : Nat × Word) => leBytes 8 e.2.toNat)
/-- A signature joins the pass of a replay whose launch is the task's (R335). -/
def State.signed (s : State) (lid : Nat) (part : Nat) (v : Word) : State :=
  { s with part := SMap.mod Part.reset s.part part fun p =>
      { p with replay := p.replay.map fun r =>
          if r.launch = some lid ∧ r.pass ≠ 0 then { r with sigs := r.sigs.set (r.pass - 1) (r.sigs.getD (r.pass - 1) 0 ^^^ v) } else r } }
/-- The signature of a task that ends in failure, as far as it has run. DEDUCED (unsafe; notes/assumptions 39). -/
def State.signFailed (s : State) (l : Launch) (e : Nat × Task) : State :=
  s.signed e.2.launch l.part (taskSig (if e.2.saved.isEmpty then e.2.arrs.map s.getA else e.2.saved))

/-- A task's gang ended by a kill with a cause: it returns to READY as a fresh start, or fails (R310, R311). -/
def State.killGang (s : State) (id cause rank : Nat) (xinfo : Word) (pc : BitVec 32) (mayRerun : Bool) : State :=
  match s.getT id with
  | none => s
  | some t =>
    match s.getL t.launch with
    | none => s
    | some l =>
      let g := (s.gang t).filter fun e => !e.2.st.final
      let as := s.gangArrs t
      let n := SMap.get 0 l.reruns t.node
      let again := mayRerun && ndRerun l.bytes t.node && decide (n < (SMap.get Part.reset s.part l.part).limit)
      let s := if again then s else g.foldl (fun (s : State) e => s.signFailed l e) s
      -- where each stopped, for the entries of the rest of the gang
      let s := (g.filter fun e => e.1 != id).foldl (fun (s : State) e =>
        s.recCause t.launch t.node 0 0 0 ((e.2.arrs.head?.map fun a => (s.getA a).sca.pc).getD 0)) s
      let s := s.recCause t.launch t.node cause rank xinfo pc
      let s := as.foldl (fun (s : State) e =>
        let tags := (s.getA e.1).cpy.lb.map (·.1)
        let s := tags.foldl (fun (s : State) k => releaseTag e.1 k s) s
        let s := (s.getA e.1).cpy.cmds.foldl (fun (s : State) m => s.leaveGroup e.1 m.seq) s
        let s := s.modQ (e.1 / 4) fun q => q.withdraw e.1 true
        if (s.getA e.1).cpy.ni.all fun o => o.own.isSome then s.release e.1
        else
          let (w, s) := s.draw
          (s.modA e.1 fun x => (x.keepSent w).disown).release e.1) s
      -- a saved task held the quads of the arrays that it was bound to (R275)
      let s := (g.filter fun e => !e.2.saved.isEmpty && (e.2.bound.isSome || ndVgrant l.bytes e.2.node != 0)).foldl (fun (s : State) e =>
        e.2.arrs.foldl (fun (s : State) a => s.modQ (a / 4) fun q => { q with idle := s.now }) s) s
      let s := if again then
          let s := s.modL t.launch fun l => { l with reruns := SMap.set 0 l.reruns t.node (n + 1) }
          let s := { s with part := SMap.mod Part.reset s.part l.part fun p => { p with reruns := SMap.mod 0 p.reruns cause (· + 1) } }
          let s := g.foldl (fun (s : State) e => s.modT e.1 fun t =>
            { t with st := .ready, order := s.norder, saved := [], frames := [], arrs := [], bound := none, parkGen := none,
                     avoid := (t.avoid ++ as.map (·.1)).dedup }) s
          { s with norder := s.norder + 1 }
        else g.foldl (fun (s : State) e => s.modT e.1 fun t => { t with st := .failed, saved := [], frames := [], arrs := [], bound := none }) s
      s.settleLaunch t.launch

/-! ## Dispatch (R273, R274) -/

/-- Every live task of the gang is in the pool. -/
def State.gangReady (s : State) (t : Task) : Bool := (s.gang t).all fun e => e.2.st.final || e.2.st == .ready || e.2.st == .preempted
/-- Arrays of a placement wait for a wake of their quads. -/
def State.asleep (s : State) (as : List Nat) : Bool := as.any fun a => (s.getQ (a / 4)).gated

/-- A saved task of the gang belongs to an array that has left service (R279, R305, R308, R316). -/
def State.strandedGang (s : State) (part : Nat) (l : Launch) (t : Task) : Bool :=
  (s.gang t).any fun e => !e.2.saved.isEmpty &&
    ((ndVgrant l.bytes e.2.node != 0 && e.2.arrs.any fun a => !s.serves part a) || e.2.bound.any fun a => !s.serves part a)

/-- The pool taken in order: the first task or gang that can start does; one whose placement preempts or wakes asks for that and holds
its arrays; a PREEMPTED one that waits holds back READY ones of its priority and below (R34). -/
def dispatchLoop (part : Nat) (l : List (Nat × Task)) (block : Nat) (resv seen : List Nat) (s : State) : State :=
  match l with
  | [] => s
  | (id, t) :: rest =>
    let p := s.prioOf t
    let seen' := seen ++ (s.gang t).map (·.1)
    let block' := if t.hadRun then max block (p + 1) else block
    match s.getL t.launch with
    | none => dispatchLoop part rest block resv seen s
    | some ln =>
      if seen.contains id || (!t.hadRun && decide (p < block)) then dispatchLoop part rest block resv seen s
      else if !s.gangReady t then dispatchLoop part rest block' resv seen s
      else if (s.capable part (ndSpalloc ln.bytes t.node)).isEmpty && (List.range 128).any (s.takes part) then s.killGang id 5 0 0xFF00 0 false
      else if s.strandedGang part ln t then s.killGang id 5 0 0xFF00 0 true
      else
        match s.bestPlace ln t resv with
        | none => dispatchLoop part rest block' resv seen' s
        | some q =>
          let as := q.map (·.2)
          let vs := s.victims as
          if !vs.isEmpty then dispatchLoop part rest block' (resv ++ as) seen' (vs.foldl (fun (s : State) e => s.askGang e.2) s)
          else if as.any fun a => (s.getA a).tsk.run then dispatchLoop part rest block' (resv ++ as) seen' s
          else if s.asleep as then dispatchLoop part rest block' (resv ++ as) seen' (as.foldl (fun (s : State) a => s.wakeQuad (a / 4)) s)
          else s.startGang ln t q

/-- `TASK_DISPATCH` (R273, R274, R279). -/
def execTaskDispatch (part : Nat) (s : State) : Out := .next (dispatchLoop part (s.pool part) 0 [] [] s)

/-- `SLICE_EXPIRY` (R276): a slice at 0 ends the run if the pool needs the place, and is reloaded otherwise. -/
def execSliceExpiry (a : Nat) (s : State) : Out :=
  let x := s.getA a
  .next (match s.runs a with
    | none => s
    | some t =>
      if x.csr.slice ≠ 0 ∨ x.tsk.stop ≠ .no ∨ x.csr.preq = true then s
      else match s.getL t.launch with
        | none => s
        | some l =>
          let busy := (List.range 128).filter fun b => (s.getA b).tsk.run
          let needs (e : Nat × Task) : Bool := decide (s.prioOf t ≤ s.prioOf e.2) && s.gangReady e.2 &&
            ((s.getL e.2.launch).map fun k => (s.bestPlace k e.2 busy).isNone).getD false
          if (s.pool l.part).any needs then s.askGang t
          else s.modA a fun x => x.modCsr fun c => { c with slice := (dispatchCsr s l t.node c).slice, sliceCnt := 0 })

/-! ## Preemption and parks (R277-R279, R295, R296) -/

/-- Every access that a command has still to make is one that the NI holds back (R217-R219). -/
def State.heldWhole (s : State) (a : Nat) (m : CCmd) : Bool :=
  let x := s.getA a
  let ps := m.plan.getD (if m.listsRead then (planOf x s.free m).ps else [])
  let rd (net : Bool) : Bool := ps.all fun q => q.got.isSome || (q.src.map fun v => s.heldAt a m net v 0).getD true
  let wr : Bool := ps.all fun q => q.done || (q.got.isNone && q.src.isSome) || s.heldAt a m false q.dst 1
  match m.kind with
  | .nrd _ _ _ => rd true && wr
  | .nrdx => m.listsRead && rd true && wr
  | .cpy | .cpyg | .cpys => m.listsRead && rd false && wr
  | .cpym => if m.arrived then wr && ps.all (fun q => q.got.isSome) else
      ((mcSpan m.desc m.tds).map fun e => s.heldAt a m true (BitVec.ofNat 72 e.1) 0).getD false
  | .natom _ _ _ ea _ _ _ => s.heldAt a m true ea 2
  | .nmcst true => m.listsRead && (List.range (mcNrep m.desc)).all fun i =>
      m.nth.testBit i || (pagesOf (mcRep m.desc i) (mcSize m.desc)).any fun v => s.heldAt a m true v 1
  | .nred _ _ => m.plan.isSome && wr
  | _ => false
/-- A copy-class command that a save takes as it stands (R278): one that waits for participants of its gang or on a drain, has a parked
access, or has only accesses that are held back. Any other completes before the save. -/
def State.cmdStays (s : State) (a : Nat) (m : CCmd) : Bool :=
  !s.cmdDone a m && (m.park.isSome || (match m.kind with
  | .eqx => true
  | .gbar _ => true
  | .ndrain _ => true
  | .nred _ _ => (m.listsRead && m.plan.isNone) || (m.plan.map fun p => p.all (·.done)).getD false || s.heldWhole a m
  | _ => s.heldWhole a m))
/-- A matrix command that a save takes as it stands (R158, R183, R277): parked, a nest between tile steps, a request in no dispatched
stack, or one that has not started. -/
def MCmd.stays (q : Quad) (a : Nat) (m : MCmd) : Bool :=
  m.park.isSome || (match m.kind with
  | .mgo _ => !m.whole && !m.stepping
  | .mms _ => !q.stks.any fun k => !k.isOpen && k.reqs.any fun r => r.arr == a && r.seq == m.seq
  | _ => !m.started && !m.whole)
/-- The array's issued bundles are complete, and so is each of its commands and remote accesses but for those that a save takes as they
stand (R245, R277, R278). -/
def State.saveable (s : State) (a : Nat) : Bool :=
  let x := s.getA a
  let y := x.cpy
  let home (o : NIOp) : Option Home := match s.locatePure a o.tr o.kind.addr 1 1 with | .ok h => some h | _ => none
  x.cel.waves.isEmpty && x.cel.stq.isEmpty && x.sca.pend.isEmpty && (x.tsk.stream.isEmpty || x.tsk.stop == .park) && !y.swapDue &&
  y.cmds.all (s.cmdStays a) && y.ni.all (fun o => o.own.isSome || o.park.isSome || s.heldBack a o.n (home o)) &&
  x.mat.cmds.all (MCmd.stays (s.getQ (a / 4)) a)

/-- The array has stopped so that its task can be saved, or its task ends there by itself (R278). -/
def Arr.stopped (x : Arr) : Bool :=
  match x.tsk.stop with
  | .preempt | .park | .exit _ => true
  | .halt => x.csr.disp == 0#4 || x.csr.disp == 3#4
  | _ => false
/-- The stop is a park (R295, R296, and DISP 3 of R263). -/
def Arr.parks (x : Arr) : Bool :=
  match x.tsk.stop with
  | .park => true
  | .halt => x.csr.disp == 3#4
  | _ => x.parked
/-- The task ends by itself on this array; one that waits on a parked access parks (R278, R301). -/
def Arr.exits (x : Arr) : Bool :=
  !x.parked && match x.tsk.stop with
  | .exit _ => true
  | .halt => x.csr.disp == 0#4
  | _ => false

/-- An array as its frame keeps it: the requests of its task are withdrawn (R183); a park by S code resumes at `xpc` (R296). -/
def frameArr (x : Arr) : Arr :=
  let x : Arr := { x with cpy := { x.cpy with ni := x.cpy.ni.filter fun o => o.own.isNone } }
  let x := x.modMat fun t => { t with cmds := t.cmds.map fun m => if isMms m then { m with started := true } else m }
  match x.tsk.stop with
  | .halt => if x.csr.disp = 0#4 then x.modTsk fun k => { k with stop := .exit none } else x.modSca fun c => { c with pc := x.csr.xpc }
  | _ => x

/-- The gang of a task saved, PARKED when some stop is a park and PREEMPTED otherwise, with a frame for each array (R277, R280, R295).
DEDUCED (unsafe; notes/assumptions 37). -/
def State.saveGang (s : State) (t : Task) : State :=
  let as := s.gangArrs t
  let park := as.any fun e => (s.getA e.1).parks
  let s := (s.gang t).foldl (fun (s : State) e =>
    if e.2.st ≠ .running ∨ e.2.arrs.any (fun a => (s.getA a).exits) = true then s
    else
      let pg := e.2.arrs.find? fun a => match (s.getA a).tsk.stop with | .park | .halt => true | _ => false
      let gen := pg.map fun a => a / 32 * 2 ^ 32 + (s.getD (a / 32)).fbgen.toNat
      let kept := e.2.arrs.map fun a => frameArr (s.getA a)
      let fr := e.2.arrs.map fun a => frameSave s a false park (frameArr (s.getA a)).sca.pc
      let s := e.2.arrs.foldl (fun (s : State) a => (s.modQ (a / 4) fun k => k.withdraw a true).release a) s
      s.modT e.1 fun t => { t with st := if park then .parked else .preempted, saved := kept, frames := fr, order := s.norder, parkGen := gen }) s
  ({ s with norder := s.norder + 1 } : State).status t.launch t.node

/-- One step of stopping the gang of the task on an array: the rest asked to stop, and all saved together once each can be. -/
def stopStep (a : Nat) (park : Bool) (s : State) : State :=
  match s.runs a with
  | none => s
  | some t =>
    let x := s.getA a
    if !(x.stopped || x.csr.preq) || x.exits then s
    else
      let s := s.askGang t
      let as := s.gangArrs t
      if as.all (fun e => (s.getA e.1).stopped && (s.saveable e.1 || (s.getA e.1).exits)) &&
          (as.any fun e => (s.getA e.1).parks) == park then s.saveGang t else s

/-- `PREEMPTION` (R277, R278). -/
def execPreemption (a : Nat) (s : State) : Out := .next (stopStep a false s)
/-- `TASK_PARK` (R295, R296). -/
def execTaskPark (a : Nat) (s : State) : Out := .next (stopStep a true s)

/-- `TASK_KILL` (R261, R310, R311): the task whose array has stopped with a kill, or whose S code halted with DISP 1 or 2. A trap at S
leaves an error record (R261). MSDC, VIGIL and PIPECHK are uncorrectable events at their places of the integrity map (R313, R315, R343). -/
def execTaskKill (a : Nat) (s : State) : Out :=
  let x := s.getA a
  .next (if !x.tsk.run then s
    else match x.tsk.stop with
      | .kill cause xinfo pc fail =>
        let place : Option Nat := if cause = 0x12 then some 9 else if cause = 0x0C then some 10 else if cause = 0x0D then some 1 else none
        let s := match place with
          | some p => s.uncorrectable (a / 32) p a 0
          | none => s
        let s := if fail then s.errRecord 6 0 (a / 32) x.csr.part.toNat a 0 cause 0 0 else s
        s.killGang x.tsk.id cause x.tsk.rank xinfo pc (!fail)
      | .halt =>
        if x.csr.disp = 0#4 ∨ x.csr.disp = 3#4 then s
        else s.killGang x.tsk.id x.csr.xcause.toNat x.tsk.rank x.csr.xinfo x.csr.xpc (x.csr.disp == 2#4)
      | _ => s)

/-! ## Exits (R30-R33) -/

/-- The commands of an array are complete, its owner bits returned and its bundles' results in place (R30). -/
def Arr.exitReady (x : Arr) : Bool :=
  x.exits && x.cpy.cmds.isEmpty && x.mat.cmds.isEmpty && x.cpy.own == 0 && x.cel.waves.isEmpty && x.cel.stq.isEmpty && x.sca.pend.isEmpty

/-- The heir of an exiting task: the HELD task of the named node with the same instance, if it may start in place (R31, R32). -/
def State.heir (s : State) (t : Task) (succ : Option Nat) (a : Nat) : Option (Nat × Task) :=
  match succ, s.getL t.launch with
  | some n, some l =>
    if (s.getA a).tsk.chain then none
    else ((s.tasksOf t.launch).find? fun e => e.2.node == n && e.2.inst == t.inst && e.2.st == .held &&
      (s.preds l e.2).all (fun p => p.node == t.node) && decide (ndSpalloc l.bytes n ≤ (s.getA a).itg.inService))
  | _, _ => none

/-- A successor started in place (R31): bytes beyond both allocations are zero and clean. DESIGN CHOICE (unsafe; notes/assumptions 64). -/
def State.inherit (s : State) (l : Launch) (e : Nat × Task) (a : Nat) : State :=
  let x := s.getA a
  let sp := ndSpalloc l.bytes e.2.node
  let lo := min x.tsk.spalloc sp
  let s := s.padSet a lo (max x.tsk.spalloc sp) [] []
  let s := (s.newRegs a true).modA a fun x => freshArr s l e.2 ⟨e.1, 0, [a], x.tsk.peers⟩ x true
  s.modT e.1 fun t => { t with st := .running, arrs := [a] }

/-- `EXIT_COMPLETE` (R24, R30-R32): the task is done, its arrays released or given to its heir. -/
def execExitComplete (a : Nat) (s : State) : Out :=
  .next (match s.runs a with
    | none => s
    | some t =>
      let x := s.getA a
      if !t.arrs.all fun b => (s.getA b).exitReady then s
      else match s.getL t.launch with
        | none => s
        | some l =>
          let succ := ((t.arrs.head?).bind fun b => match (s.getA b).tsk.stop with | .exit n => some n | _ => none).getD none
          let h := s.heir t succ a
          let s := s.modT x.tsk.id fun t => { t with st := .done, arrs := [] }
          let s := t.arrs.foldl (fun (s : State) b =>
            let tags := (s.getA b).cpy.lb.map (·.1)
            (tags.foldl (fun (s : State) k => releaseTag b k s) s).modA b Arr.disown) s
          let s := s.signed t.launch l.part (taskSig (t.arrs.map s.getA))
          let s := match h with
            | some e => s.inherit l e a
            | none => t.arrs.foldl (fun (s : State) b => s.release b) s
          -- HELD tasks bound to it that did not start in place, and the named task that was not HELD (R32)
          let s := (s.tasksOf t.launch).foldl (fun (s : State) e =>
            if (h.map (·.1)) = some e.1 then s
            else if e.2.st = .held ∧ (s.preds l e.2).all (fun p => p.st == .done) = true ∧ e.2.inst = t.inst ∧
                (s.preds l e.2).any (fun p => p.node == t.node) = true then
              (s.enter e.1 .ready).modT e.1 fun t => { t with lost := true }
            else if succ = some e.2.node ∧ e.2.inst = t.inst ∧ (e.2.st = .waiting ∨ e.2.st = .ready) then
              s.modT e.1 fun t => { t with lost := true }
            else s) s
          s.settleLaunch t.launch)

/-! ## Power gates (R275) -/

/-- `QUAD_POWER_GATE` (R275): 65,536 cycles without a running or bound task or an open stack, where the partition's policy allows. -/
def execQuadPowerGate (quad : Nat) (s : State) : Out :=
  let q := s.getQ quad
  let idle := (List.range 4).all fun i => !(s.getA (4 * quad + i)).tsk.run
  let bound := s.task.any fun e => match e.2 with
    | some t => !t.saved.isEmpty && (t.bound.isSome || ((s.getL t.launch).map fun l => ndVgrant l.bytes t.node != 0).getD false) &&
        t.arrs.any fun a => a / 4 == quad
    | none => false
  .next (if 32 ≤ quad ∨ q.gated = true ∨ idle = false ∨ bound = true ∨ (q.stks.any (·.isOpen)) = true ∨ s.now < q.idle + 65536 ∨
      (SMap.get Part.reset s.part (s.getD (quad / 8)).part).gate = false then s
    else s.modQ quad fun q => { q with gated := true, wake := none })
/-- `QUAD_WAKE_COMPLETE` (R275). DESIGN CHOICE (unsafe; notes/assumptions 69). -/
def execQuadWakeComplete (quad : Nat) (s : State) : Out :=
  .next (match (s.getQ quad).wake with
    | some t => if t ≤ s.now then s.modQ quad fun q => { q with gated := false, wake := none, idle := s.now } else s
    | none => s)

end Sys2Proof.Machine
end

