-- ==== Sys2Proof/Machine/Faults.lean ====
section
/-! DEFINITION. Walks, shoot-downs and storage integrity: spec/08_memory.md R229-R235, spec/13_system_faults.md R289-R309, R313-R315. -/

namespace Sys2Proof.Machine

open Sys2Proof

/-! ## Walks (R289, R292, R294, R295) -/

/-- The outstanding remote access that waits with a sequence number and an address: its place. -/
def Cpy.niAt (y : Cpy) (seq : BitVec 16) (va : Addr) : Option Nat :=
  match y.ni.findIdx? fun o => o.seq == seq && o.park.isNone && o.kind.addr == va with
  | some i => some i
  | none => y.ni.findIdx? fun o => o.seq == seq && o.park.isNone

/-- A waiting access meets a page fault: it parks, with a record of kind 1 (R294, R295). -/
def parkAccess (w : Waiter) (level : Nat) (s : State) : State :=
  let x := s.getA w.arr
  let gen := (s.getD (w.arr / 32)).fbgen.toNat
  match w.unit with
  | .ni =>
    match x.cpy.niAt w.seq w.va with
    | none => s
    | some i =>
      match x.cpy.ni[i]? with
      | none => s
      | some o =>
        (s.taskFault (o.own.getD x.tsk) w.arr o.tr w.va 1 w.acc level 0 w.seq.toNat).modA w.arr fun x =>
          let wait (e : NIOp × Nat) : NIOp :=
            if i ≤ e.2 ∧ e.1.n = o.n ∧ e.1.own = o.own then { e.1 with park := some gen, inord := true } else e.1
          let x := x.modCpy fun y => { y with ni := y.ni.zipIdx.map wait }
          if o.own.isNone then x.faultWait else x
  | .cpy =>
    match x.cmdOf w.seq with
    | none => s
    | some m =>
      if m.fault || m.whole || m.park.isSome then s
      else ((s.taskFault x.tsk w.arr m.tr w.va 1 w.acc level 0 w.seq.toNat).modCmd w.arr w.seq fun m =>
        { m with park := some gen, inord := true }).modA w.arr Arr.faultWait
  | .mat =>
    match x.mcmd w.seq with
    | none => s
    | some m =>
      if m.whole || m.park.isSome then s
      else ((s.taskFault x.tsk w.arr m.tr w.va 1 w.acc level 1 w.seq.toNat).modMcmd w.arr w.seq fun m => { m with park := some gen }).modA w.arr Arr.faultWait

/-- A waiting access meets another fault: its command fails (R174, R182, R190, R294). -/
def failAccess (w : Waiter) (kind level : Nat) (s : State) : State :=
  let x := s.getA w.arr
  match w.unit with
  | .ni =>
    match (x.cpy.niAt w.seq w.va).bind fun i => x.cpy.ni[i]? with
    | none => s
    | some o => s.failNi w.arr (o.own.getD x.tsk) o w.va w.acc kind level
  | .cpy =>
    match x.cmdOf w.seq with
    | none => s
    | some m => if m.fault || m.whole then s else s.failRec w.arr w.seq m.tr w.va w.acc kind level
  | .mat => failMat w.arr w.seq w.va kind level s

/-- A leaf found by a walk, which passes R288 for some waiting access: entered in the die's TLB and in the micro-TLBs of the arrays it
passes for; the accesses it does not pass for fail (R288, R289). -/
def fillTlb (die : Nat) (k : Walk) (size pfn : Nat) (r w a : Bool) (s : State) : State :=
  let va := k.vpn * 65536
  let e : TlbE := ⟨k.part, k.ctx, size, va / pageSize size, pfn, r, w, a⟩
  let res (q : Waiter) : XRes := s.leafRes k.part q.va.toNat size pfn r w a q.acc
  let good := k.waiters.filter fun q => match res q with | .bad _ _ => false | _ => true
  let s1 := if good.isEmpty then s else s.modD die fun d => { d with tlb := dieTlbAdd d.tlb e }
  let s2 := ((good.map (·.arr)).dedup).foldl (fun (s : State) b => s.modA b fun x => { x with tlb := tlbAdd 64 x.tlb e }) s1
  k.waiters.foldl (fun s q => match res q with | .bad kind level => failAccess q kind level s | _ => s) s2

/-- `WALK_END` (R289, R292): walk `k` of a die. With `reread` it has read the tables as they are now, otherwise as they were at its
start. A changed TGEN discards the outcome, and the accesses walk again. -/
def execWalkEnd (die k : Nat) (reread : Bool) (s : State) : Out :=
  .next (match (s.getD die).walks[k]? with
    | none => s
    | some w =>
      let now := s.walk w.part (w.vpn * 65536) 4 w.root
      if w.tgen ≠ (s.getD die).tgen then
        s.modD die fun d => { d with walks := d.walks.set k { w with tgen := d.tgen, res := now } }
      else
        let s := s.modD die fun d => { d with walks := d.walks.eraseIdx k }
        match (if reread then now else w.res) with
        | .leaf size pfn r wr a => fillTlb die w size pfn r wr a s
        | .fault 1 level => w.waiters.foldl (fun s q => parkAccess q level s) s
        | .fault kind level => w.waiters.foldl (fun s q => failAccess q kind level s) s)

/-! ## Shoot-downs (R290-R292) -/

/-- The entry is one that a shoot-down removes. -/
def shot (kind : BitVec 2) (ctx : BitVec 16) (vpn : BitVec 56) (e : TlbE) : Bool :=
  match kind.toNat with
  | 0 => e.ctx == ctx && e.vpn == at16 vpn / pageSize e.size
  | 1 => e.ctx == ctx
  | 2 => e.part == (ctx.extractLsb' 0 2).toNat
  | _ => true
/-- A shoot-down started by the registers of a die. -/
def startShoot (die : Nat) (dies : BitVec 4) (kind : BitVec 2) (ctx : BitVec 16) (vpn : BitVec 56) (s : State) : State :=
  let named := (List.range 4).filter fun d => bitAt dies d
  let s := named.foldl (fun (s : State) d =>
    let s := s.modD d fun x => { x with tgen := x.tgen + 1, tlb := x.tlb.filter fun e => !shot kind ctx vpn e }
    (List.range 32).foldl (fun (s : State) i => s.modA (32 * d + i) fun x => { x with tlb := x.tlb.filter fun e => !shot kind ctx vpn e }) s) s
  s.modD die fun d => { d with sdDies := dies, sdKind := kind, sdCtx := ctx, sdva := vpn, sdDone := named.isEmpty,
                               owed := named.flatMap fun d => (List.range 32).map fun i => 32 * d + i }
/-- `SHOOTDOWN_START` (R290, R291): GO reads 0 again once the named dies have removed their entries. -/
def execShootdownStart (die : Nat) (dies : BitVec 4) (kind : BitVec 2) (ctx : BitVec 16) (vpn : BitVec 56) (s : State) : Out :=
  .next (if 4 ≤ die then s else (startShoot die dies kind ctx vpn s).modD die fun d => { d with sdGo := false })
/-- An access of the array was translated and has not performed: its place in a multicast group, or a block being filled (R291). Any other
is translated in the step in which it performs. -/
def State.owes (s : State) (a : Nat) : Bool :=
  (s.die.any fun e => e.2.grps.any fun g => g.members.any (·.1 == a) && decide (g.pos < g.units)) ||
  (s.getA a).cpy.cmds.any fun m => match m.kind with
    | .lblk t => let b := SMap.get LBlk.none (s.getA a).cpy.lb t; b.held && !b.ready && b.seq == m.seq
    | _ => false
/-- `SHOOTDOWN_ACK` (R291): the array acknowledges once every access of it that was translated has performed. DEDUCED (safe; notes/assumptions 40). -/
def execShootdownAck (die a : Nat) (s : State) : Out :=
  .next (if s.owes a then s else s.modD die fun d =>
    let l := d.owed.erase a
    { d with owed := l, sdDone := d.sdDone || l.isEmpty })

/-! ## Corrections written back, retirement (R302, R306-R309) -/

/-- `ECC_WRITEBACK` (R302): the corrected word is stored. -/
def execEccWriteback (key : Nat) (s : State) : Out :=
  .next (if SMap.get 0 s.err key = 1 then { s with err := SMap.set 0 s.err key 0 } else s)

/-- The words of a parity group's banks poisoned. -/
def poisonGroup (a grp : Nat) (s : State) : State :=
  let g := (s.getA a).itg
  (List.range 4096).foldl (fun (s : State) i => (List.range 16).foldl (fun (s : State) w =>
    s.setPois (spadKey a (16 * g.holds (64 * i + 4 * grp + w / 4) + 4 * (w % 4))) true) s) s

/-- A data bank retired: the first of its group drains the queue and marks stale indices lost (R307); a second loses every word of the
group and takes the array from dispatch (R308). -/
def retireBank (a : Nat) (bank : BitVec 6) (s : State) : State :=
  let b := bank.toNat
  let grp := b / 4
  let g := (s.getA a).itg
  let done (g : Itg) : Itg := { g with rbank := bitSet g.rbank b true, go := false, bank := bank }
  if bitAt g.rbank b then s.modA a fun x => x.modItg fun g => { g with go := false, bank := bank }
  else if g.degraded grp then
    (poisonGroup a grp s).modA a fun x => x.modItg fun g => done { g with noDisp := true, lost := g.lost.filter fun e => e.1 / 4096 != grp }
  else
    s.modA a fun x => x.modItg fun g =>
      let par := (SMap.get [] g.puq grp).foldl (fun m e => SMap.mod 0 m (grp * 4096 + e.1) (· ^^^ e.2)) g.par
      let lost := (g.stales grp).foldl (fun m i => SMap.set false m (grp * 4096 + i) true) g.lost
      let k := (SMap.get [] g.puq grp).length
      done { g with par := par, puq := SMap.set [] g.puq grp [], use := SMap.mod GUse.none g.use grp (fun u => { u with excl := max u.excl (s.now + k) }), lost := lost, stale := g.stale.filter fun e => e.1 / 4096 != grp }
/-- `BANK_RETIRE` (R306, R307). DEDUCED (unsafe; notes/assumptions 41). -/
def execBankRetire (a : Nat) (bank : BitVec 6) (s : State) : Out := .next (if 128 ≤ a then s else retireBank a bank s)

/-- A task that waits with its scratchpad kept in array `a` is killed: the frame cannot be restored (R308). -/
def killKept (a : Nat) (s : State) : State :=
  (s.task.filterMap fun e => match e.2 with
    | some t => if t.bound = some a ∧ t.st.final = false ∧ t.st ≠ .running then some e.1 else none
    | none => none).foldl (fun (s : State) id => s.killGang id 5 0 0xFF00 0 true) s
/-- `GROUP_RETIRE` (R308): with no task on the array its dead groups are retired, the scratchpad is zeroed and dispatch returns. -/
def execGroupRetire (a : Nat) (s : State) : Out :=
  let x := s.getA a
  .next (if 128 ≤ a ∨ x.tsk.run = true ∨ x.itg.dead.isEmpty = true then s
    else
      let l := x.itg.dead
      killKept a ((s.padSet a 0 4194304 [] []).modA a fun x => x.modItg fun g =>
        { g with gret := l.foldl (fun v i => bitSet v i true) g.gret, noDisp := false, par := [], puq := [], lost := [], stale := [] }))

end Sys2Proof.Machine
end

