-- ==== Sys2Proof/Machine/Queues.lean ====
section
/-! DEFINITION. Command queues: descriptors, packets and their checks, service slots, the packet types, counter replay and completion
(spec/14_system_device.md R318-R335). -/

namespace Sys2Proof.Machine

open Sys2Proof

/-! ## Descriptors (R318) -/

def State.getU (s : State) (q : Nat) : Queue := SMap.get Queue.none s.queue q
def State.modU (s : State) (q : Nat) (f : Queue → Queue) : State := { s with queue := SMap.mod Queue.none s.queue q f }
/-- A field of a queue's descriptor in memory. -/
def State.qd (s : State) (q off n : Nat) : Nat := s.readN ((s.getU q).desc + off) n
/-- A field of the descriptor written by the device itself, which R319 does not limit. -/
def State.qdSet (s : State) (q off n v : Nat) : State :=
  let pa := (s.getU q).desc + off
  ((if s.err.isEmpty then s else s.physFix pa n).poisWrite pa n false).writeN pa n v
def State.qTail (s : State) (q : Nat) : Nat := s.qd q 24 8
def State.qRix (s : State) (q : Nat) : Nat := s.qd q 32 8
def State.qState (s : State) (q : Nat) : Nat := s.qd q 40 1
def State.qCseq (s : State) (q : Nat) : Nat := s.qd q 48 8
/-- The physical address of the slot that holds an index. -/
def State.qSlot (s : State) (q j : Nat) : Nat := (s.getU q).ring + 64 * (j % 2 ^ (s.getU q).log)
/-- The context that translates for a queue's packets. RING, LOG2SIZE, QFLAGS, CTX and VEC are as they were at registration, whatever
software writes over them (R319). DEDUCED (unsafe; notes/assumptions 39). -/
def State.qCtx (s : State) (q : Nat) : BitVec 16 := BitVec.ofNat 16 (s.getU q).ctx
def State.qTr (s : State) (q : Nat) : TrCap := s.cxtTr (s.getU q).part (s.qCtx q)

/-- TAIL takes the larger of its value and a written one (R319). -/
def State.tailMax (s : State) (q v : Nat) : State := if (s.getU q).on then s.qdSet q 24 8 (max (s.qTail q) v) else s
/-- `TAIL_WRITE` (R319). -/
def execTailWrite (q : Nat) (value : Word) (s : State) : Out := .next (s.tailMax q value.toNat)
/-- `DOORBELL` (R340): in the block of the queue's own partition. -/
def execDoorbell (f q : Nat) (value : Word) (s : State) : Out :=
  .next (if (s.getU q).part = f then s.tailMax q value.toNat else s)

/-! ## Packets (R322-R324, R331) -/

/-- Packet bytes with a use, by type (R323). -/
def pkUsed (ty n : Nat) : List (Nat × Nat) :=
  match ty with
  | 1 => [(8, 9)]
  | 2 => [(8, 9), (17, 1), (24, 8 * min n 4)]
  | 3 => [(8, 9), (17, 1), (24, 8)]
  | 4 => [(8, 9), (24, 8), (32, 9), (41, 1), (48, 8)]
  | 5 => [(8, 9), (17, 1), (24, 8), (32, 8)]
  | 8 => [(8, 9), (24, 9), (40, 4)]
  | 9 => [(8, 9)]
  | 10 => [(8, 9), (17, 1), (24, 9)]
  | _ => []

/-- One step of CRC-32C by a byte. -/
def crc32cByte (c : W32) (b : Byte) : W32 :=
  (List.range 8).foldl (fun (c : W32) _ => if bitAt c 0 then (c >>> 1) ^^^ 0x82F6_3B78#32 else c >>> 1) (c ^^^ b.setWidth 32)
def crc32c (l : List Byte) : W32 := ~~~(l.foldl crc32cByte 0xFFFF_FFFF#32)

def pkType (l : List Byte) : Nat := recN l 0 1
def pkTag (l : List Byte) : Nat := recN l 4 4
def pkSer (l : List Byte) : Bool := recN l 1 1 / 4 % 2 == 1
def pkIrq (l : List Byte) : Bool := recN l 1 1 / 8 % 2 == 1
def pkValid (l : List Byte) : Bool := recN l 1 1 % 2 == 1
def pkAddr (l : List Byte) (off : Nat) : Addr := BitVec.ofNat 72 (recN l off 9)
def pkWord (l : List Byte) (off : Nat) : Word := BitVec.ofNat 64 (recN l off 8)
/-- The packet starts only after every earlier one has completed (R322, R323). -/
def pkWaits (l : List Byte) : Bool := pkSer l || pkType l == 7 || pkType l == 9

/-- The row that a packet is. -/
def pkInstr (q : Nat) (l : List Byte) : Option Instr :=
  let a := pkAddr l
  let b (off : Nat) : Byte := l.getD off 0
  match pkType l with
  | 0 => some (.nopPacket q)
  | 1 => some (.launch q (a 8))
  | 2 => some (.write q (a 8) ((List.range (recN l 17 1)).map fun i => pkWord l (24 + 8 * i)))
  | 3 => some (.signal q (a 8) (b 17) (pkWord l 24))
  | 4 => some (.writesig q (a 8) (pkWord l 24) (a 32) (b 41) (pkWord l 48))
  | 5 => some (.wait q (a 8) (b 17) (pkWord l 24) (pkWord l 32))
  | 6 => some (.ffence q)
  | 7 => some (.barrier q)
  | 8 => some (.copy q (a 8) (a 24) (BitVec.ofNat 32 (recN l 40 4)))
  | 9 => some (.timestamp q (a 8) (BitVec.ofNat 32 (pkTag l)))
  | 10 => some (.replay q (a 8) (b 17) (a 24))
  | _ => none

/-- Conditions 2 to 4 of R331 on the bytes. -/
def pkSpare (l : List Byte) : Bool :=
  let n := recN l 17 1
  let used := pkUsed (pkType l) n
  recN l 0 4 / 4096 != 0 || recN l 1 1 / 2 % 2 != 0 ||
  (List.range 52).any fun i => l.getD (8 + i) 0 != 0#8 && !used.any fun u => decide (u.1 ≤ 8 + i) && decide (8 + i < u.1 + u.2)
def pkCrcBad (crc : Bool) (l : List Byte) : Bool := recN l 60 4 != (if crc then (crc32c (l.take 60)).toNat else 0)
def pkRange (l : List Byte) : Bool :=
  let al (off n : Nat) : Bool := recN l off 9 % n == 0
  let op (off : Nat) : Bool := recN l off 1 == 1 || recN l off 1 == 2
  match pkType l with
  | 1 => al 8 16
  | 2 => al 8 8 && decide (1 ≤ recN l 17 1 ∧ recN l 17 1 ≤ 4)
  | 3 => al 8 8 && op 17
  | 4 => al 8 8 && al 32 8 && op 41
  | 5 => al 8 8 && decide (recN l 17 1 ≤ 3)
  | 8 => al 8 16 && al 24 16 && recN l 40 4 % 16 == 0 && decide (16 ≤ recN l 40 4 ∧ recN l 40 4 ≤ 2 ^ 31)
  | 9 => al 8 16
  | 10 => al 8 16 && decide (1 ≤ recN l 17 1 ∧ recN l 17 1 ≤ 8)
  | _ => true

/-- A byte range translated page by page for a command processor: physical pieces, or the first page that is not mapped. -/
def State.cpXlate (s : State) (tr : TrCap) (va : Addr) (n acc : Nat) : Except (Addr × Nat × Nat) (List (Nat × Nat)) :=
  (pagePieces 70000 va n 0).foldl (fun r e =>
    match r with
    | .error b => .error b
    | .ok l =>
      if e.1.extractLsb' 64 8 = 0xFF#8 then .error (e.1, 4, 0xFF)
      else match s.xlatePure tr e.1 acc with
        | .ok (.phys pa) => .ok (l ++ [(pa, e.2.1)])
        | .ok (.vault b off) => .ok (l ++ [(vaultKey b off, e.2.1)])
        | .bad k lv => .error (e.1, k, lv)
        | _ => .error (e.1, 4, 0xFF)) (.ok [])
/-- Bytes at physical pieces. -/
def State.bytesAt (s : State) (l : List (Nat × Nat)) : List Byte := l.flatMap fun e => s.bytes e.1 e.2

/-- The words at physical pieces read by a device unit, checked (R302, R313). -/
def State.seenAt (s : State) (l : List (Nat × Nat)) : State := if s.err.isEmpty then s else l.foldl (fun (s : State) e => s.devRead e.1 e.2) s
/-- The table entries that a command processor reads for a byte range, checked (R288, R313). -/
def State.cpWalks (s : State) (tr : TrCap) (va : Addr) (n : Nat) : State :=
  if s.err.isEmpty || !bitAt tr.tlb 63 then s
  else (pagePieces 70000 va n 0).foldl (fun (s : State) e =>
    if e.1.extractLsb' 64 8 = 0xFF#8 ∨ (s.window tr e.1.toNat).isSome = true then s
    else (s.walkKeys tr.part e.1.toNat 4 (at16 (tr.tlb.extractLsb' 0 56))).foldl (fun (s : State) k => s.walked k) s) s

/-- A record's bytes, its length read from its header (R324). -/
def State.recRange (s : State) (tr : TrCap) (va : Addr) : Except (Addr × Nat × Nat) Nat :=
  match s.cpXlate tr va 64 0 with
  | .error b => .error b
  | .ok l => .ok (max 64 (recN (s.bytesAt l) 40 4))

/-- The accesses a packet will make: address, bytes, kind (R324). -/
def pkAccess (l : List Byte) (rlen : Nat) : List (Addr × Nat × Nat) :=
  let a := pkAddr l
  let sig (off o : Nat) : Addr × Nat × Nat := (a off, 8, if recN l o 1 = 2 then 2 else 1)
  match pkType l with
  | 1 => [(a 8, rlen, 0)]
  | 2 => [(a 8, 8 * recN l 17 1, 1)]
  | 3 => [sig 8 17]
  | 4 => [(a 8, 8, 1), sig 32 41]
  | 5 => [(a 8, 8, 0)]
  | 8 => [(a 8, recN l 40 4, 0), (a 24, recN l 40 4, 1)]
  | 9 => [(a 8, 16, 1)]
  | 10 => [(a 8, rlen, 0), (a 24, 512, 0), (a 24, 512, 1)]
  | _ => []

/-- What the checks of a packet find. -/
inductive PkCheck where
  | ok | malformed (reason : Nat) (va : Addr) | absent (va : Addr) (acc level : Nat)
  deriving DecidableEq, Repr

/-- The first access that does not translate, forbidden ones first. -/
def State.pkFault (s : State) (tr : TrCap) (l : List Byte) : Option (Addr × Nat × Nat × Nat) :=
  let rlen := if pkType l = 1 ∨ pkType l = 10 then s.recRange tr (pkAddr l 8) else .ok 0
  match rlen with
  | .error b => some (b.1, 0, b.2)
  | .ok n =>
    let bad := (pkAccess l n).filterMap fun e => match s.cpXlate tr e.1 e.2.1 e.2.2 with
      | .error b => some (b.1, e.2.2, b.2)
      | .ok _ => none
    match bad.find? fun b => b.2.2.1 != 1 with
    | some b => some b
    | none => bad.head?

/-- What the checks of a packet read: the table entries of its accesses, and the records (R302, R313, R324). -/
def State.pkReads (s : State) (tr : TrCap) (l : List Byte) : State :=
  if s.err.isEmpty then s
  else
    let rec_ (va : Addr) (n : Nat) (s : State) : State := match s.cpXlate tr va n 0 with | .ok ps => s.seenAt ps | .error _ => s
    let launch := pkType l == 1 || pkType l == 10
    let s := if launch then rec_ (pkAddr l 8) 64 (s.cpWalks tr (pkAddr l 8) 64) else s
    let n := if launch then (match s.recRange tr (pkAddr l 8) with | .ok n => n | .error _ => 0) else 0
    let s := (pkAccess l n).foldl (fun (s : State) e => s.cpWalks tr e.1 e.2.1) s
    if pkType l = 10 then rec_ (pkAddr l 24) 512 s else s

/-- The replay record breaks R333: its place, the Harvest area's, which the partition must have mapped (R346), or NEXCL. -/
def State.badReplay (s : State) (part : Nat) (tr : TrCap) (l : List Byte) : Bool :=
  pkType l == 10 && (recN l 24 9 % 64 != 0 || (match s.cpXlate tr (pkAddr l 24) 512 0 with
    | .ok ps =>
      let b := s.bytesAt ps
      let area := recN b 64 9
      let n := recN b 76 4
      ps.any (fun p => spaceOf p.1 != 0) || decide (4 < recN b 80 1) || area % 65536 != 0 || spaceOf area != 0 ||
        (n != 0 && !(s.mapped part area && s.mapped part (area + 65536 * n - 1)))
    | .error _ => false))

/-- Every check of a fetched packet (R324, R330, R331). DEDUCED (unsafe; notes/assumptions 39). -/
def State.pkCheck (s : State) (q : Nat) (f : Fetched) : PkCheck :=
  let l := f.bytes
  if 10 < pkType l then .malformed 1 0
  else if pkSpare l then .malformed 2 0
  else if pkCrcBad ((s.getU q).flags % 2 == 1) l then .malformed 3 0
  else if !pkRange l then .malformed 4 0
  else match s.pkFault (s.qTr q) l with
    | some (va, acc, kind, lv) =>
      if kind ≠ 1 then .malformed 5 va
      else if f.pz then .malformed 6 0
      else .absent va acc lv
    | none => if f.pz then .malformed 6 0 else if s.badReplay (s.getU q).part (s.qTr q) l then .malformed 7 0 else .ok

/-! ## Service (R325-R331, R354) -/

/-- Packets of a partition are processed at this stage; a partition that was reset waits for PARTCFG (R341). -/
def State.servesPart (s : State) (part : Nat) : Bool :=
  !(SMap.get Part.reset s.part part).stage1 && (s.dev.stage == 3#2 || (s.dev.stage == 2#2 && (s.dev.first.map fun d => (s.getD d).part == part).getD false))

/-- The slots ahead fetched: those not kept yet whose VALID is 1 are kept (R326). -/
def fetchSlots (q : Nat) (s : State) : State :=
  let r := s.qRix q
  let n := min (s.qTail q) (r + 16) - r
  (List.range n).foldl (fun (s : State) i =>
    let j := r + i
    if (s.getU q).kept.any fun f => f.idx == j then s
    else
      let x := s.readHome (homeOf (s.qSlot q j)) 64
      let l := leBytes 64 x.1
      if pkValid l then x.2.2.modU q fun u => { u with kept := u.kept ++ [⟨j, l, x.2.1⟩] } else x.2.2) s

/-- The packet at RIX that may be processed now. -/
def State.current (s : State) (q : Nat) : Option Fetched :=
  let u := s.getU q
  if !u.on || s.qState q != 1 || !s.servesPart u.part || decide (s.qTail q ≤ s.qRix q) then none
  else match u.kept.find? fun f => f.idx == s.qRix q with
    | none => none
    | some f => if pkWaits f.bytes && s.qCseq q != f.idx then none else some f
/-- The packet that queue `q` may process now is this row. -/
def State.isCurrent (s : State) (q : Nat) (i : Instr) : Option Fetched :=
  match s.current q with
  | none => none
  | some f => if pkInstr q f.bytes = some i ∧ s.pkCheck q f = .ok then some f else none

/-- The queue served by a position of a core. -/
def State.queueAt (s : State) (die core pos : Nat) : Option Nat :=
  (s.queue.find? fun e => e.2.on && e.2.die == die && e.2.core == core && e.2.pos == pos).map (·.1)

/-- A malformed packet (R331). -/
def malform (q : Nat) (f : Fetched) (reason : Nat) (va : Addr) (s : State) : State :=
  let u := s.getU q
  ((s.qdSet q 40 1 2).modU q fun u => { u with kept := [] }).errRecord 1 reason u.die u.part q f.idx (pkTag f.bytes) 0 va.toNat

/-- A packet whose page is not present (R330). -/
def faultWait (q : Nat) (f : Fetched) (va : Addr) (acc level : Nat) (s : State) : State :=
  let u := s.getU q
  let gen := (s.getD u.die).fbgen.toNat
  ((s.qdSet q 40 1 3).modU q fun u => { u with parked := some gen }).putFault u.die
    (faultBytes va.toNat 1 acc level u.ctx u.part 0xFF (f.idx % 2 ^ 32) gen q 2 1 0 [])

/-- `QUEUE_SERVICE_SLOT` (R326, R328-R331, R337): the slots ahead are fetched and the packet at RIX checked; one that passes is
processed in the next step. -/
def execQueueServiceSlot (die core pos : Nat) (s : State) : Out :=
  .next (match s.queueAt die core pos with
    | none => s
    | some q =>
      let u := s.getU q
      let gen := (s.getD u.die).fbgen.toNat
      let s := s.seenAt [(u.desc, 128)]
      let s := if s.qState q = 3 ∧ u.parked ≠ some gen then (s.qdSet q 40 1 1).modU q fun u => { u with parked := none } else s
      if s.qState q ≠ 1 ∨ s.servesPart u.part = false then s
      else
        let s := fetchSlots q s
        match s.current q with
        | none => s
        | some f =>
          let s := s.pkReads (s.qTr q) f.bytes
          match s.pkCheck q f with
          | .malformed r va => malform q f r va s
          | .absent va acc lv => faultWait q f va acc lv s
          | .ok =>
            match pkInstr q f.bytes with
            | some i => { s with agenda := i :: s.agenda }
            | none => s)

/-! ## Consumption and completion (R321, R325) -/

/-- CSEQ advanced past the packets completed in order, each with its message if it asks for one. -/
def advanceCseq (n q : Nat) (s : State) : State :=
  match n with
  | 0 => s
  | n + 1 =>
    let u := s.getU q
    let c := s.qCseq q
    match u.fin.find? fun e => e.1 == c with
    | none => s
    | some e =>
      let s := (s.qdSet q 48 8 (c + 1)).modU q fun u => { u with fin := u.fin.filter fun x => x.1 != c }
      advanceCseq n q (if e.2 && u.flags / 2 % 2 == 1 then s.msg u.part u.vec else s)
/-- A packet has completed. -/
def State.completePk (s : State) (q j : Nat) (irq : Bool) : State :=
  let s := s.modU q fun u => { u with fin := u.fin ++ [(j, irq)], pend := u.pend.filter fun e => e.1 != j }
  advanceCseq (s.getU q).fin.length q s
/-- A packet is consumed: VALID cleared in its slot, then RIX advanced. -/
def State.consume (s : State) (q : Nat) (f : Fetched) : State :=
  let h := recN f.bytes 0 8
  let s := s.devWrite (s.qSlot q f.idx) (leBytes 8 (h - h / 256 % 2 * 256)) false
  (s.qdSet q 32 8 (f.idx + 1)).modU q fun u => { u with kept := u.kept.filter fun x => x.idx != f.idx }
/-- A packet that completes with its processing. -/
def State.finishPk (s : State) (q : Nat) (f : Fetched) : State := (s.consume q f).completePk q f.idx (pkIrq f.bytes)
/-- A packet handed over, that waits. -/
def State.handOver (s : State) (q : Nat) (f : Fetched) (w : PkWait) : State :=
  (s.consume q f).modU q fun u => { u with pend := u.pend ++ [(f.idx, pkIrq f.bytes, w)] }

/-- The packet `i` of queue `q` processed, when it is the one to process. -/
def onPacket (q : Nat) (i : Instr) (s : State) (act : Fetched → State → State) : Out :=
  .next (match s.isCurrent q i with
    | none => s
    | some f => act f s)

/-- Bytes written at a virtual address of the queue's context. -/
def State.cpWrite (s : State) (q : Nat) (va : Addr) (l : List Byte) (acc : Nat) : State :=
  match s.cpXlate (s.qTr q) va l.length acc with
  | .ok ps => (ps.foldl (fun (s, l) e => (State.devWrite s e.1 (l.take e.2) false, l.drop e.2)) (s, l)).1
  | .error _ => s
/-- The signal step: a store, or an atomic add (R323). -/
def State.cpSignal (s : State) (q : Nat) (va : Addr) (op : Byte) (value : Word) : State :=
  if op = 2#8 then
    match s.cpXlate (s.qTr q) va 8 2 with
    | .ok ((pa, _) :: _) =>
      let r := s.readHome (homeOf pa) 8
      r.2.2.devWrite pa (leBytes 8 (r.1 + value.toNat)) r.2.1
    | _ => s
  else s.cpWrite q va (leBytes 8 value.toNat) 1

/-- `NOP` (R323). -/
def execNopPacket (q : Nat) (s : State) : Out := onPacket q (.nopPacket q) s fun f s => s.finishPk q f
/-- `WRITE` (R323). -/
def execWrite (q : Nat) (addr : Addr) (words : List Word) (s : State) : Out :=
  onPacket q (.write q addr words) s fun f s =>
    ((words.zipIdx).foldl (fun (s : State) e => s.cpWrite q (addr + BitVec.ofNat 72 (8 * e.2)) (leBytes 8 e.1.toNat) 1) s).finishPk q f
/-- `SIGNAL` (R323). -/
def execSignal (q : Nat) (addr : Addr) (op : Byte) (value : Word) (s : State) : Out :=
  onPacket q (.signal q addr op value) s fun f s => (s.cpSignal q addr op value).finishPk q f
/-- `WRITESIG` (R323). -/
def execWritesig (q : Nat) (addr : Addr) (word : Word) (sig : Addr) (op : Byte) (value : Word) (s : State) : Out :=
  onPacket q (.writesig q addr word sig op value) s fun f s =>
    ((s.cpWrite q addr (leBytes 8 word.toNat) 1).cpSignal q sig op value).finishPk q f
/-- The comparison of `WAIT` (R323). -/
def waitCond (cond : Byte) (x v : Word) : Bool :=
  match cond.toNat with
  | 0 => decide (v.toNat ≤ x.toNat)
  | 1 => x == v
  | 2 => x != v
  | _ => decide (x.toNat < v.toNat)
/-- `WAIT` (R323, R328): the word is read afresh; until the comparison holds nothing happens. -/
def execWait (q : Nat) (addr : Addr) (cond : Byte) (value mask : Word) (s : State) : Out :=
  onPacket q (.wait q addr cond value mask) s fun f s =>
    match s.cpXlate (s.qTr q) addr 8 0 with
    | .ok ((pa, _) :: _) =>
      let r := s.readHome (homeOf pa) 8
      if waitCond cond (BitVec.ofNat 64 r.1 &&& mask) value then r.2.2.finishPk q f else r.2.2
    | _ => s
/-- `FFENCE` (R327): every kept slot beyond its index is discarded. -/
def execFfence (q : Nat) (s : State) : Out :=
  onPacket q (.ffence q) s fun f s => (s.modU q fun u => { u with kept := u.kept.filter fun x => x.idx ≤ f.idx }).finishPk q f
/-- `BARRIER` (R323): its start has waited for every earlier packet. -/
def execBarrier (q : Nat) (s : State) : Out := onPacket q (.barrier q) s fun f s => s.finishPk q f
/-- `TIMESTAMP` (R323). -/
def execTimestamp (q : Nat) (addr : Addr) (tag : W32) (s : State) : Out :=
  onPacket q (.timestamp q addr tag) s fun f s =>
    (s.cpWrite q addr (leBytes 8 (s.getD (s.getU q).die).cyc ++ leBytes 8 tag.toNat) 1).finishPk q f

/-- Equal lists of pieces cut against each other. -/
def zipPieces (n : Nat) (l m : List (Nat × Nat)) : List (Nat × Nat × Nat) :=
  match n with
  | 0 => []
  | n + 1 =>
    match l, m with
    | a :: l, b :: m =>
      let k := min a.2 b.2
      (a.1, b.1, k) :: zipPieces n (if a.2 = k then l else (a.1 + k, a.2 - k) :: l) (if b.2 = k then m else (b.1 + k, b.2 - k) :: m)
    | _, _ => []
/-- `COPY` (R323): handed to the die's firmware copy engine. -/
def execCopy (q : Nat) (src dst : Addr) (len : W32) (s : State) : Out :=
  onPacket q (.copy q src dst len) s fun f s =>
    match s.cpXlate (s.qTr q) src len.toNat 0, s.cpXlate (s.qTr q) dst len.toNat 1 with
    | .ok l, .ok m => s.handOver q f (.copy (zipPieces (l.length + m.length) l m))
    | _, _ => s
/-- `n` bytes of whole 16-byte units read at a physical address, with the poison of each unit. -/
def State.copyRead (s : State) (pa n : Nat) : List (Byte × Bool) × State :=
  (List.range (n / 16)).foldl (fun (l, s) i =>
    let r := State.readHome s (homeOf (pa + 16 * i)) 16
    (l ++ (leBytes 16 r.1).map (·, r.2.1), r.2.2)) ([], s)
/-- Bytes of one write with poison by byte: the granules written whole take the poison of their bytes (R247). -/
def State.devWriteP (s : State) (pa : Nat) (l : List (Byte × Bool)) : State :=
  let s := s.devWrite pa (l.map (·.1)) false
  if (homeOf pa).outside then s
  else l.zipIdx.foldl (fun (s : State) e => if e.1.2 then s.setPois (s.keyOf (homeOf pa) + e.2) true else s) s
/-- The firmware copy's work: each piece whole, with its poison, which goes nowhere it may not: of a piece for such a place the poisoned
16-byte units are dropped (R190, R247, R249). DEDUCED (unsafe; notes/assumptions 14). -/
def doCopy (l : List (Nat × Nat × Nat)) (s : State) : State :=
  l.foldl (fun (s : State) e =>
    let r := s.copyRead e.1 e.2.2
    if r.2.guarded (homeOf e.2.1) e.2.2 && r.1.any (·.2) then
      (List.range (e.2.2 / 16)).foldl (fun (s : State) i =>
        let u := (r.1.drop (16 * i)).take 16
        if u.any (·.2) && s.guarded (homeOf (e.2.1 + 16 * i)) 16 then s else s.devWriteP (e.2.1 + 16 * i) u) r.2
    else r.2.devWriteP e.2.1 r.1) s

/-! ## Launches (R265, R268, R272) -/

/-- A record handed to the TGM: LAUNCHERR with its reason, or accepted with every task in its first state; the number of the launch. -/
def acceptLaunch (q idx part : Nat) (ctx : BitVec 16) (rec_ : Addr) (s : State) : Option Nat × State :=
  match s.recRange (s.cxtTr part ctx) rec_ with
  | .error _ => (none, s)
  | .ok n =>
    match s.cpXlate (s.cxtTr part ctx) rec_ n 0 with
    | .error _ => (none, s)
    | .ok ps =>
      let s := s.seenAt ps
      let b := s.bytesAt ps
      let l : Launch := ⟨q, idx, part, ctx, rec_, b, ps.map fun e => e.1 / 65536, false, [], []⟩
      match launchReason part b s with
      | 0 =>
        let lid := s.nlaunch
        let lv := rLevels b
        let s : State := { s with nlaunch := lid + 1, launch := SMap.set none s.launch lid (some l) }
        let s := s.recWrite l 36 (leBytes 4 1)
        -- an entry holds 0 but for what R272 writes in it
        let s := (List.range (rNodes b)).foldl (fun (s : State) i => s.recWrite l (rStat b + 32 * i + 8) (List.replicate 24 0#8)) s
        let insts := (List.range (taskCount lv)).map (instOf lv)
        let s := (List.range (rNodes b)).foldl (fun (s : State) i =>
          let st : TState := if ndInherit b i then .held else .waiting
          insts.foldl (fun (s : State) v =>
            { (s.setT s.ntask ⟨lid, i, v, st, s.norder, [], [], [], none, [], false, none⟩) with ntask := s.ntask + 1 }) s) s
        (some lid, s.settleLaunch lid)
      | r => (none, s.recWrite l 36 (leBytes 4 (2 + 256 * r)))

/-- `LAUNCH` (R323): a launch that fails its checks is final at once. -/
def execLaunch (q : Nat) (record : Addr) (s : State) : Out :=
  onPacket q (.launch q record) s fun f s =>
    let u := s.getU q
    match acceptLaunch q f.idx u.part (s.qCtx q) record s with
    | (some lid, s) => s.handOver q f (.launch lid)
    | (none, s) => s.finishPk q f

/-- LSTAT is final and every remote access of the launch's tasks has performed (R323). -/
def State.launchOver (s : State) (lid : Nat) : Bool :=
  ((s.getL lid).map (·.fin)).getD true && !s.arr.any fun e => e.2.cpy.ni.any fun o =>
    (o.own.map fun k => ((s.getT k.id).map fun t => t.launch == lid).getD false).getD false

/-! ## Counter replay (R333-R335) -/

/-- `REPLAY` (R333): handed to core 3, one replay of a partition at a time. -/
def execReplay (q : Nat) (record : Addr) (npass : Byte) (rrec : Addr) (s : State) : Out :=
  onPacket q (.replay q record npass rrec) s fun f s =>
    let u := s.getU q
    match s.cpXlate (s.qTr q) rrec 512 0, (SMap.get Part.reset s.part u.part).replay with
    | .ok ps, none =>
      ({ s with part := SMap.mod Part.reset s.part u.part fun p =>
          { p with replay := some ⟨q, f.idx, s.qCtx q, record, ps, npass.toNat, 0, none, [], false, List.replicate npass.toNat 0, 0, false⟩ } } : State).handOver
        q f .replay
    | _, _ => s

def State.modReplay (s : State) (part : Nat) (f : Replay → Option Replay) : State :=
  { s with part := SMap.mod Part.reset s.part part fun p => { p with replay := p.replay.bind f } }
/-- Arrays and dies of a partition. -/
def State.partArrs (s : State) (part : Nat) : List Nat := (List.range 128).filter fun a => (s.getD (a / 32)).part == part
def State.partDies (s : State) (part : Nat) : List Nat := (List.range 4).filter fun d => (s.getD d).part == part
/-- Bytes of a field of the replay record written. -/
def State.rrWrite (s : State) (r : Replay) (off : Nat) (l : List Byte) : State := s.devWrite (r.at off) l false

/-- The counts, the signature and, after pass 1, the capture table of a pass that has ended. -/
def endPass (part : Nat) (r : Replay) (s : State) : State :=
  let p := r.pass - 1
  let cnt (n : Nat) : Nat := (s.partArrs part).foldl (fun t a => t + (SMap.get 0 (s.getA a).csr.pmc n).toNat % 2 ^ 48) 0
  let s := (List.range 4).foldl (fun (s : State) n => s.rrWrite r (256 + 32 * p + 8 * n) (leBytes 8 (cnt n))) s
  let s := s.rrWrite r (168 + 8 * p) (leBytes 8 (r.sigs.getD p 0).toNat)
  if r.pass = 1 then
    let table := s.rrField r 64 9 + 65536 * r.pages.length
    let s := s.rrWrite r 164 (leBytes 4 r.pages.length)
    r.pages.zipIdx.foldl (fun (s : State) e =>
      if s.pageOk part (table + 16 * e.2 - (table + 16 * e.2) % 65536) then
        s.devWrite (table + 16 * e.2) (leBytes 9 (e.1 * 65536) ++ leBytes 7 0) false else s) s
  else s
/-- The replay is over: RFLAGS written (R333, R335). -/
def endReplay (part : Nat) (r : Replay) (flags : Nat) (s : State) : State :=
  let miss := (r.sigs.take r.pass).any fun v => v != r.sigs.headD 0
  (s.rrWrite r 160 (leBytes 4 (flags + if miss then 1 else 0))).modReplay part fun _ => none
/-- Before a later pass (R334): captured pages restored, lines of no load-block written back and dropped, scratchpads zeroed, and a
shoot-down of the record's context begun by the partition's first die. -/
def preparePass (part : Nat) (r : Replay) (s : State) : State :=
  let area := s.rrField r 64 9
  let s := r.pages.zipIdx.foldl (fun (s : State) e =>
    if s.pageOk part (area + 65536 * e.2) && s.pageOk part (e.1 * 65536) then s.copyRange (area + 65536 * e.2) (e.1 * 65536) 65536 else s) s
  let dies := s.partDies part
  let s := (s.line.filter fun e => decide (3 ≤ e.2) && dies.contains (dieOf (e.1 * 128))).foldl (fun (s : State) e => s.evict e.1) s
  let s := (s.partArrs part).foldl (fun (s : State) a => s.padSet a 0 4194304 [] []) s
  (startShoot (dies.headD 0) (dies.foldl (fun v d => bitSet v d true) 0) 1 r.ctx 0 s).modReplay part fun r => some { r with prep := true }
/-- A pass begins (R334): counters prepared, its signature 0, and the launch. -/
def beginPass (part : Nat) (r : Replay) (s : State) : State :=
  let sel (n : Nat) : BitVec 10 := (BitVec.ofNat 10 (s.rrField r (8 * r.pass + 2 * n) 2) &&& 0x01F#10) ||| 0x180#10
  let s := (s.partArrs part).foldl (fun (s : State) a => s.modA a fun x => x.modCsr fun c =>
    { c with pmc := [], pmsel := (List.range 4).foldl (fun m n => SMap.set 0 m n (sel n)) [] }) s
  -- the launch may run only once the replay names it
  let s := s.modReplay part fun r => some { r with pass := r.pass + 1, launch := some s.nlaunch, prep := false, sigs := r.sigs.set r.pass 0 }
  match acceptLaunch r.q r.idx part r.ctx r.rec_ s with
  | (some _, s) => s
  | (none, s) =>
    let r' := ((SMap.get Part.reset s.part part).replay).getD { r with pass := r.pass + 1 }
    endReplay part r' 4 (endPass part r' s)
/-- `REPLAY_PASS_START` (R334): once the partition's tasks have finished, the pass that ended is recorded; then the replay ends, or the
next pass is prepared and, once its shoot-down is done, begins. A shoot-down that the mailbox has asked for goes first. -/
def execReplayPassStart (part : Nat) (s : State) : Out :=
  .next (match (SMap.get Part.reset s.part part).replay with
    | none => s
    | some r =>
      let s := s.seenAt r.rrec
      let lead := (s.partDies part).headD 0
      if (s.partArrs part).any (fun a => (s.getA a).tsk.run) || !(r.launch.map s.launchOver).getD true then s
      else if r.prep then (if (s.getD lead).sdDone then beginPass part r s else s)
      else if r.pass = 0 then beginPass part r s
      else if (s.getD lead).sdDone = false then s
      else
        let s := endPass part r s
        if r.full = true then endReplay part r 2 s
        else if r.npass ≤ r.pass then endReplay part r 0 s
        else preparePass part r s)

/-- A copy that a destroyed queue has left is made, without a completion. -/
def doLeft (q j : Nat) (s : State) : State :=
  match (s.getU q).left.find? fun e => e.1 == j with
  | some (_, .copy l) => (doCopy l s).modU q fun u => { u with left := u.left.eraseP fun e => e.1 == j }
  | _ => s
/-- `PACKET_COMPLETE` (R323, R325): a packet that was handed over and has nothing left to wait for; a copy that a destroyed queue has left
goes first (R341). -/
def execPacketComplete (q : Nat) (index : Word) (s : State) : Out :=
  .next (if (s.getU q).left.any fun e => e.1 == index.toNat then doLeft q index.toNat s else
    match (s.getU q).pend.find? fun e => e.1 == index.toNat with
    | none => s
    | some (j, irq, w) =>
      match w with
      | .launch lid => if s.launchOver lid then s.completePk q j irq else s
      | .copy l => (doCopy l s).completePk q j irq
      | .replay =>
        let on := (SMap.get Part.reset s.part (s.getU q).part).replay.map fun r => r.q == q && r.idx == j
        if on.getD false then s else s.completePk q j irq)

end Sys2Proof.Machine
end

