-- ==== Sys2Proof/Machine/Device.lean ====
section
/-! DEFINITION. The management core, the mailbox, the host interface, links and bring-up: spec/13_system_faults.md R290, R297, R306, R315-R317,
spec/14_system_device.md R336-R354. -/

namespace Sys2Proof.Machine

open Sys2Proof

/-! ## Partitions and shared helpers -/

def State.getP (s : State) (p : Nat) : Part := SMap.get Part.reset s.part p
def State.modP (s : State) (p : Nat) (f : Part → Part) : State := { s with part := SMap.mod Part.reset s.part p f }
/-- The die whose core 3 serves a partition's mailbox: its lowest. -/
def State.lead (s : State) (p : Nat) : Nat := (s.partDies p).headD 0
def State.hasPart (s : State) (p : Nat) : Bool := !(s.partDies p).isEmpty
def State.modDev (s : State) (f : Dev → Dev) : State := { s with dev := f s.dev }
/-- Every byte of a range is mapped for a partition, in SPACE 0 or, with `host`, in host memory. -/
def State.rangeOk (s : State) (p pa n : Nat) (host : Bool) : Bool :=
  (spaceOf pa == 0 || (host && spaceOf pa == 4)) && spaceOf (pa + n - 1) == spaceOf pa && s.mapped p pa && s.mapped p (pa + n - 1)

/-- The mailbox's reply, its bit of MBDEV and its message (R339-R341): STATUS 0 done, 1 refused, 2 bad request. -/
def State.reply (s : State) (p status : Nat) : State :=
  ((s.modP p fun x => { x with mbRep := SMap.set 0#8 [] 0 (BitVec.ofNat 8 status), mbDoor := false, shoot := false }).modDev fun d =>
    { d with mbdev := bitSet d.mbdev d.self true }).msg p 1
/-- A request of a mailbox served: its status and its effect. Requests are allowed from stage 1 on (R354). -/
def onMailbox (p : Nat) (s : State) (act : State → Nat × State) : Out :=
  .next (if s.dev.stage = 0#2 ∨ s.hasPart p = false then s else let r := act s; r.2.reply p r.1)

/-! ## Queues (R318, R338, R341, R342) -/

/-- The Almanac of a core, and whether core 3 of a die has slots of a kind (R337). -/
def State.almanac (s : State) (die core : Nat) : Almanac := SMap.get Almanac.none s.dev.alm (4 * die + core)
def State.hasKind (s : State) (die kind : Nat) : Bool := (s.almanac die 3).slots.any fun e => e.toNat / 4096 == kind
/-- Slots of a core's major frame that serve a position, and the largest cyclic distance between them (R337, R338). -/
def State.posSlots (s : State) (die core pos : Nat) : List Nat :=
  (((s.almanac die core).slots.zipIdx.filter fun e => e.1 == BitVec.ofNat 16 (0x1000 + pos)).map (·.2))
def posGap (l : List Nat) : Nat := (l.zip (l.drop 1 ++ [l.headD 0 + 512])).foldl (fun m e => max m (e.2 - e.1)) 0

/-- The descriptor at a physical address keeps R318, and its vector R339. -/
def State.descOk (s : State) (p pa : Nat) : Bool :=
  let f (off n : Nat) : Nat := s.readN (pa + off) n
  let ring := f 0 9
  let log := f 12 1
  s.rangeOk p pa 128 false && ring % 64 == 0 && decide (3 ≤ log ∧ log ≤ 16) && s.rangeOk p ring (64 * 2 ^ log) true &&
  decide (f 13 1 < 4) && decide (8 ≤ f 16 2 ∧ f 16 2 ≤ 2047) &&
  f 9 3 == 0 && f 18 6 == 0 && f 41 7 == 0 && f 56 72 == 0

/-- `REGQ` (R318, R338, R339, R341). -/
def execRegq (p q : Nat) (desc : Addr) (die core pos : Nat) (s : State) : Out :=
  onMailbox p s fun s =>
    let pa := desc.toNat
    let sl := s.posSlots die core pos
    if 256 ≤ q ∨ 4 ≤ die ∨ 3 ≤ core ∨ 64 ≤ pos ∨ pa % 128 ≠ 0 then (2, s)
    else
    let s := s.seenAt [(pa, 128)]
    if (s.getU q).on || (s.getD die).part != p || !s.descOk p pa || decide (sl.length < 8) || decide (64 < posGap sl) ||
        (s.queueAt die core pos).isSome then (1, s)
    else
      let f (off n : Nat) : Nat := s.readN (pa + off) n
      let s := s.modU q fun u => { Queue.none with left := u.left, on := true, part := p, desc := pa, die := die, core := core, pos := pos, ring := f 0 9,
                                                   log := f 12 1, flags := f 13 1, ctx := f 14 2, vec := f 16 2 }
      (0, (((s.qdSet q 40 1 1).qdSet q 32 8 0).qdSet q 24 8 0).qdSet q 48 8 0)

/-- The copies a queue has handed over, which go on without it. -/
def Queue.leaves (u : Queue) : List (Nat × PkWait) :=
  u.left ++ u.pend.filterMap fun e => match e.2.2 with | .copy l => some (e.1, .copy l) | _ => Option.none
/-- A queue disabled: launches and copies it handed over go on. -/
def State.dropQueue (s : State) (q : Nat) : State := (s.qdSet q 40 1 0).modU q fun u => { Queue.none with left := u.leaves }
/-- `DESTROYQ` (R341): no packet is being processed here, since the processing of one is a step and ends at its hand-over (R325). -/
def execDestroyq (p q : Nat) (s : State) : Out :=
  onMailbox p s fun s => if (s.getU q).on = true ∧ (s.getU q).part = p then (0, s.dropQueue q) else (1, s)

/-- VALID cleared in the slot of an index. -/
def State.clearValid (s : State) (q j : Nat) : State :=
  let h := s.readN (s.qSlot q j) 8
  s.devWrite (s.qSlot q j) (leBytes 8 (h - h / 256 % 2 * 256)) false
/-- `RECOVERQ` (R325, R341, R342). -/
def execRecoverq (p q mode : Nat) (s : State) : Out :=
  onMailbox p s fun s =>
    if 2 < mode then (2, s)
    else if (s.getU q).on = false ∨ (s.getU q).part ≠ p ∨ s.qState q ≠ 2 then (1, s)
    else
      let r := s.qRix q
      let n := if mode = 0 then 0 else if mode = 1 then 1 else s.qTail q - r
      let s := (List.range (min n (2 ^ (s.getU q).log))).foldl (fun (s : State) i => s.clearValid q (r + i)) s
      let s := (s.qdSet q 32 8 (r + n)).modU q fun u => { u with kept := [], fin := u.fin ++ (List.range n).map fun i => (r + i, false) }
      (0, (advanceCseq (s.getU q).fin.length q s).qdSet q 40 1 1)

/-! ## Attestation (R351, R352) -/

/-- DSTAT (R353). -/
def State.dstat (s : State) : Word :=
  let d := s.dev
  let f (n sh : Nat) (g : Die → Nat) : Nat := (List.range 4).foldl (fun v i => v + g (s.getD i) * 2 ^ (sh + n * i)) 0
  BitVec.ofNat 64 (d.stage.toNat + (if d.bootErr then 8 else 0) + f 1 4 (fun x => if x.svc then 1 else 0) + f 2 8 (·.part) +
    f 3 20 (·.thr) + if d.ringWix != d.ringRix then 2 ^ 32 else 0)

/-- Bytes padded with zeros, or cut, to a length. -/
def padTo (n : Nat) (l : List Byte) : List Byte := (l ++ List.replicate n 0#8).take n
/-- A SHAKE256 digest of 64 bytes. -/
def digest (l : List Byte) : List Byte := padTo 64 (Config.shake256 l)
/-- A quote: the digests measured at boot, then the system images' (R352). -/
def State.quoteBytes (s : State) (nonce : List Byte) : List Byte :=
  let sys : List (List Byte) := ((List.range 4).filter s.hasPart).map fun p => digest ((s.getP p).image.flatMap fun w => leBytes 4 w.toNat)
  let meas := s.dev.meas ++ sys
  let body := leBytes 2 1 ++ leBytes 2 meas.length ++ leBytes 4 ((List.range 4).foldl (fun v d => v + (s.getD d).part * 4 ^ d) 0) ++
    padTo 32 nonce ++ leBytes 8 s.dstat.toNat ++ meas.flatten
  let sig := Config.falconSign s.dev.attKey body
  body ++ leBytes 2 (min sig.length 1536) ++ padTo 1536 sig
/-- The two certificates: the identity key's, from flash, and the attestation key's, made with the identity key (R352). -/
def State.certBytes (s : State) : List Byte :=
  padTo 1536 Config.identityCert ++ padTo 1536 (Config.falconSign Config.identityKey (Config.falconPublic s.dev.attKey))
/-- `QUOTE` (R352): a zero nonce asks for the certificates. -/
def execQuote (p : Nat) (nonce : List Byte) (dest : Addr) (s : State) : Out :=
  onMailbox p s fun s =>
    let l := if nonce.all (· == 0#8) then s.certBytes else s.quoteBytes nonce
    if s.rangeOk p dest.toNat l.length true then (0, s.devWrite dest.toNat l false) else (2, s)

/-! ## Partitions (R341, R346, R347) -/

/-- `PARTCFG` (R341): in stage 1, or when the partition was reset. SVEC reaches the arrays of each partition. DEDUCED (unsafe; notes/assumptions 43). -/
def execPartcfg (p : Nat) (dies : BitVec 8) (bar2 : List Nat) (images : List (List W32)) (svecs shares : List Nat) (s : State) : Out :=
  onMailbox p s fun s =>
    if s.dev.stage ≠ 1#2 ∧ (s.getP p).stage1 = false then (1, s)
    else
      let s := (List.range 4).foldl (fun (s : State) d => s.modD d fun x => { x with part := (dies.extractLsb' (2 * d) 2).toNat }) s
      let s := (List.range 4).foldl (fun (s : State) i => s.modP i fun x =>
        { x with bar2 := bar2.getD i 0, image := images.getD i [], svec := BitVec.ofNat 32 (svecs.getD i 0), share := shares.getD i 0,
                 stage1 := false }) s
      (0, (List.range 128).foldl (fun (s : State) a =>
        s.modA a fun x => x.modCsr fun c => { c with svec := (s.getP (s.getD (a / 32)).part).svec }) s)

/-- `PARTRESET` (R341). -/
def execPartreset (p : Nat) (s : State) : Out :=
  onMailbox p s fun s =>
    let mine (t : Task) : Bool := ((s.getL t.launch).map fun l => l.part == p).getD false
    let ids := s.task.filterMap fun e => match e.2 with | some t => if mine t then some e.1 else none | none => none
    let s := ids.foldl (fun (s : State) i => match s.getT i with
      | some t => if t.st.final then s else s.killGang i 0 0 0 0 false
      | none => s) s
    let qs := (s.queue.filter fun e => e.2.on && e.2.part == p).map (·.1)
    (0, (qs.foldl (fun (s : State) q => s.dropQueue q) s).modP p fun x => { x with stage1 := true, replay := none })

/-- The header of a die's fault buffer at its setting up (R297). -/
def State.setBuf (s : State) (die addr nrec : Nat) : State :=
  let gen := (s.getD die).fbgen.toNat
  let s := s.modD die fun d => { d with fbAddr := addr, fbNrec := nrec, fpend := false }
  s.wholeUnit addr (leBytes 8 0 ++ leBytes 4 gen ++ leBytes 4 nrec ++ leBytes 4 0 ++ List.replicate 44 0#8)
/-- `PARTPARAM` (R341): refused while a task of the partition is PARKED. -/
def execPartparam (p : Nat) (addr : Addr) (s : State) : Out :=
  onMailbox p s fun s =>
    let pa := addr.toNat
    let s := s.seenAt [(pa, 128)]
    let f (off n : Nat) : Nat := s.readN (pa + off) n
    let buf (d : Nat) : Nat × Nat := (f (16 + 16 * d) 9, f (28 + 16 * d) 2)
    let bufOk (d : Nat) : Bool :=
      let b := buf d
      b.1 % 64 == 0 && spaceOf b.1 == 0 && dieOf b.1 == d && s.rangeOk p b.1 (64 + 64 * b.2) false && dieOf (b.1 + 63 + 64 * b.2) == d &&
        decide (16 ≤ b.2)
    if s.rangeOk p pa 128 false = false then (2, s)
    else if decide (1 ≤ f 0 4 ∧ f 0 4 < 2 ^ 24 ∧ f 4 1 ≤ 15 ∧ 1 ≤ f 5 1 ∧ f 6 1 ≤ 1) = false ∨ (s.partDies p).all bufOk = false then (2, s)
    else if s.task.any fun e => match e.2 with
        | some t => t.st == .parked && ((s.getL t.launch).map fun l => l.part == p).getD false
        | none => false then (1, s)
    else
      let s' := s.modP p fun x => { x with slice := f 0 4, limit := f 4 1, thresh := f 5 1, gate := f 6 1 == 1 }
      (0, (s.partDies p).foldl (fun (s : State) d =>
        let b := buf d
        if (s.getD d).fbAddr = b.1 ∧ (s.getD d).fbNrec = b.2 then s else s.setBuf d b.1 b.2) s')

/-- `QUADPOL` (R263, R341): open stacks keep their keys. -/
def execQuadpol (p die quad : Nat) (xctx men : Bool) (qcap : Nat) (s : State) : Out :=
  onMailbox p s fun s =>
    if 4 ≤ die ∨ 8 ≤ quad ∨ 4096 < qcap then (2, s)
    else if (s.getD die).part ≠ p then (1, s)
    else (0, s.modQ (8 * die + quad) fun q => { q with qcap := qcap, xctx := xctx, men := men })

/-- A queue, launch or task of a context exists. -/
def State.ctxUsed (s : State) (p : Nat) (ctx : BitVec 16) : Bool :=
  s.queue.any (fun e => e.2.on && e.2.part == p && e.2.ctx == ctx.toNat) ||
  s.launch.any fun e => match e.2 with | some l => !l.fin && l.part == p && l.ctx == ctx | none => false
/-- `CTXSET` (R341). -/
def execCtxset (p : Nat) (ctx : BitVec 16) (valid : Bool) (base limit off : BitVec 56) (tlbcfg : Word) (s : State) : Out :=
  onMailbox p s fun s =>
    if !valid && s.ctxUsed p ctx then (1, s)
    else (0, { s with cxt := SMap.set Cxt.none s.cxt (cxtKey p ctx) (if valid then ⟨true, base, limit, off, tlbcfg⟩ else Cxt.none) })

/-- The counter block (R343). -/
def State.counterBytes (s : State) (p : Nat) : List Byte :=
  let mine (d : Nat) : Bool := (s.getD d).part == p
  leBytes 2 1 ++ leBytes 1 p ++ leBytes 5 0 ++ leBytes 8 (s.getD (s.lead p)).cyc ++
  ((List.range 32).flatMap fun c => leBytes 8 (SMap.get 0 (s.getP p).reruns c)) ++
  ((List.range 4).flatMap fun d => (List.range 16).flatMap fun i =>
    if mine d then leBytes 8 (SMap.get 0 (s.getD d).corr i) ++ leBytes 8 (SMap.get 0 (s.getD d).unc i) else leBytes 16 0) ++
  ((List.range 128).flatMap fun a => (List.range 64).flatMap fun b =>
    leBytes 1 (if mine (a / 32) then SMap.get 0 (s.getA a).itg.ucnt b else 0)) ++
  ((List.range 128).flatMap fun a => leBytes 2 (if mine (a / 32) then (s.getA a).itg.gret.toNat else 0))
/-- `COUNTERS` (R341, R343). -/
def execCounters (p : Nat) (dest : Addr) (s : State) : Out :=
  onMailbox p s fun s =>
    if dest.toNat % 64 = 0 ∧ s.rangeOk p dest.toNat 9744 true = true then (0, s.devWrite dest.toNat (s.counterBytes p) false) else (2, s)

/-- `SHOOT` (R290, R291, R341): the reply waits for DONE. -/
def execShoot (p : Nat) (dies : BitVec 4) (kind : BitVec 2) (ctx : BitVec 16) (vpn : BitVec 56) (s : State) : Out :=
  if (List.range 4).any fun d => bitAt dies d && (s.getD d).part != p then onMailbox p s fun s => (1, s)
  else .next (if s.dev.stage = 0#2 ∨ s.hasPart p = false ∨ (s.getP p).shoot = true then s
    else (startShoot (s.lead p) dies kind ctx vpn s).modP p fun x => { x with shoot := true })

/-! ## Slots of core 3 (R297, R306, R316, R317, R337, R341, R347) -/

/-- `FAULT_POLL_SLOT` (R297, R337, R341): a KIND 2 slot. -/
def execFaultPollSlot (die : Nat) (s : State) : Out :=
  if s.hasKind die 2 = false then .next s else
  let d := s.getD die
  let s1 := if d.fpend then ((s.modD die fun d => { d with fpend := false }).modDev fun v => { v with fbdev := bitSet v.fbdev v.self true }).msg d.part 2
    else s
  .next (if (s1.getP d.part).shoot = true ∧ s1.lead d.part = die ∧ d.sdDone = true then s1.reply d.part 0 else s1)

/-- The die's clock is to change; the step shown changes with it (R317). -/
def Die.setClock (d : Die) (n : Nat) : Die := { d with thrReq := if d.thr = n then none else some n }
/-- The throttle policy of a sample, in stage 3 (R316, R347): temperatures in °C, voltages in thousandths of nominal, the partition's
power in watts. DESIGN CHOICE (unsafe; notes/assumptions 42). -/
def throttle (die : Nat) (temps volts : List Nat) (power : Nat) (s : State) : State :=
  let sh := (s.getP (s.getD die).part).share
  let cap := if sh = 0 then 2400 else sh
  s.modD die fun d =>
    let step := d.thrReq.getD d.thr
    if temps.any (95 ≤ ·) || volts.any (· < 970) || decide (cap < power) then { d.setClock (min 4 (step + 1)) with good := 0 }
    else if temps.all (· ≤ 90) && volts.all (1000 ≤ ·) then
      if 15 ≤ d.good ∧ 100 * power < 95 * cap then { d.setClock (step - 1) with good := 0 } else { d with good := d.good + 1 }
    else { d with good := 0 }
/-- Tasks asked to stop, those on the arrays of a list. -/
def State.askArrs (s : State) (l : List Nat) : State :=
  l.foldl (fun (s : State) a => match s.runs a with
    | some t => s.askGang t
    | none => s) s
/-- A die too hot: its tasks are preempted and it leaves service (R316). -/
def overheat (die : Nat) (s : State) : State :=
  ((s.modD die fun d => { d with svc := false }).askArrs ((List.range 32).map (32 * die + ·))).errRecord 5 0 die (s.getD die).part 0 0 0 0 0
/-- Arrays of a die whose vault firmware judges to be failing leave service, and their tasks are preempted; after an uncorrectable vault
event, which ones is a free value (R305). DESIGN CHOICE (safe; notes/assumptions 60). -/
def judgeVaults (die : Nat) (s : State) : State :=
  if SMap.get 0 (s.getD die).unc 3 = 0 then s
  else
    let (w, s) := s.draw
    let l := ((List.range 32).filter fun i => bitAt w i).map (32 * die + ·)
    (l.foldl (fun (s : State) a => s.modA a fun x => x.modItg fun g => { g with out := true }) s).askArrs l
/-- `MONITOR_SLOT` (R305, R316, R317, R337, R347): a KIND 3 slot. Every row of R316 whose condition holds takes effect. -/
def execMonitorSlot (die : Nat) (temps volts : List Nat) (power : Nat) (s : State) : Out :=
  .next (if 4 ≤ die ∨ s.dev.stage = 0#2 ∨ s.hasKind die 3 = false then s
    else
      let s := judgeVaults die s
      let s := if s.dev.stage = 3#2 then throttle die temps volts power s else s
      if temps.any (110 ≤ ·) && (s.getD die).svc then overheat die s else s)

/-- A field of a mailbox request. -/
def State.mbField (s : State) (p off n : Nat) : Nat := ofBytes ((List.range n).map fun i => SMap.get 0#8 (s.getP p).mbReq (off + i))
/-- The request in a mailbox served (R341); where the arguments stand from byte 8 on is the model's choice (notes/assumptions 18).
DESIGN CHOICE (unsafe; notes/assumptions 18). -/
def serveMbox (p : Nat) (s : State) : Out :=
  let f := s.mbField p
  let va (off : Nat) : Addr := BitVec.ofNat 72 (f off 9)
  let bad : Out := onMailbox p s fun s => (2, s)
  match f 0 1 with
  | 1 => execRegq p (f 8 1) (va 16) (f 9 1) (f 10 1) (f 11 1) s
  | 2 => execDestroyq p (f 8 1) s
  | 3 => execRecoverq p (f 8 1) (f 9 1) s
  | 4 => execQuote p (leBytes 32 (f 8 32)) (va 40) s
  | 5 =>
    let b := f 16 9
    if s.rangeOk p b 112 false then
      let g (off n : Nat) : Nat := s.readN (b + off) n
      let img (i : Nat) : List W32 := (List.range (g (96 + 4 * i) 4 / 4)).map fun j => BitVec.ofNat 32 (s.readN (g (64 + 8 * i) 8 + 4 * j) 4)
      let images := (List.range 4).map fun i => (g (64 + 8 * i) 8, g (96 + 4 * i) 4 / 4 * 4)
      execPartcfg p (BitVec.ofNat 8 (f 8 1)) ((List.range 4).map fun i => g (8 * i) 8) ((List.range 4).map img)
        ((List.range 4).map fun i => g (32 + 4 * i) 4) ((List.range 4).map fun i => g (48 + 2 * i) 2)
        (s.seenAt ((b, 112) :: images.filter fun e => decide (0 < e.2)))
    else bad
  | 6 => if f 8 1 = p then execPartreset p s else bad
  | 7 => execPartparam p (va 8) s
  | 8 => execQuadpol p (f 8 1) (f 9 1) (f 10 1 % 2 == 1) (f 10 1 / 2 % 2 == 1) (f 12 2) s
  | 9 => execCtxset p (BitVec.ofNat 16 (f 8 2)) (f 10 1 % 2 == 1) (BitVec.ofNat 56 (f 16 8)) (BitVec.ofNat 56 (f 24 8))
      (BitVec.ofNat 56 (f 32 8)) (BitVec.ofNat 64 (f 40 8)) s
  | 10 => execCounters p (va 8) s
  | 11 => execShoot p (BitVec.ofNat 4 (f 8 1)) (BitVec.ofNat 2 (f 9 1)) (BitVec.ofNat 16 (f 10 2)) (BitVec.ofNat 56 (f 16 8)) s
  | _ => bad
/-- BRETST and BRETCTL as firmware reads them (R306). -/
def Itg.bretst (g : Itg) : Word := g.rbank
def Itg.bretctl (g : Itg) : Word := g.gret ++ 0#31 ++ (if g.go then 1#1 else 0#1) ++ 0#10 ++ g.bank
/-- A bank whose uncorrectable events have reached the partition's threshold (R306). -/
def State.worn (s : State) (p : Nat) : Option (Nat × Nat) :=
  ((s.partArrs p).flatMap fun a =>
    let g := (s.getA a).itg
    ((List.range 64).filter fun b => decide ((s.getP p).thresh ≤ SMap.get 0 g.ucnt b) && !bitAt g.bretst b && !bitAt g.bretctl 16).map fun b => (a, b)).head?
/-- A write of BRETCTL (R306); one while GO reads 1 is ignored. -/
def bretctl (a : Nat) (bank : BitVec 6) (go : Bool) (s : State) : State :=
  if bitAt (s.getA a).itg.bretctl 16 then s
  else
    let s := s.modA a fun x => x.modItg fun g => { g with bank := bank, go := go }
    if go then { s with agenda := .bankRetire a bank :: s.agenda } else s
/-- `MAILBOX_SLOT` (R306, R337, R341): a KIND 4 slot. The request waiting is served; without one a worn bank is retired. -/
def execMailboxSlot (p : Nat) (s : State) : Out :=
  if s.dev.stage = 0#2 ∨ s.hasPart p = false ∨ s.hasKind (s.lead p) 4 = false then .next s
  else if (s.getP p).mbDoor = true ∧ (s.getP p).shoot = false then serveMbox p s
  else .next (match s.worn p with
    | some (a, b) => bretctl a (BitVec.ofNat 6 b) true s
    | none => s)

/-! ## Registers (R6, R290, R306, R332, R340) -/

/-- Word bytes put in the mailbox request. -/
def mboxPut (m : SMap Byte) (off : Nat) (v : Word) : SMap Byte :=
  (leBytes 8 v.toNat).zipIdx.foldl (fun m e => SMap.set 0#8 m (off + e.2) e.1) m
/-- SDCTL and SDVA as firmware reads them (R290). -/
def Die.sdctlR (d : Die) : Word :=
  d.tgen ++ 0#6 ++ (if d.sdDone then 1#1 else 0#1) ++ (if d.sdGo then 1#1 else 0#1) ++ d.sdDies ++ d.sdKind ++ 0#2 ++ d.sdCtx
def Die.sdvaR (d : Die) : Word := d.sdva.setWidth 64
/-- A register that only firmware reads (R290, R306). -/
def State.readM (s : State) (r : DevReg) : Word :=
  match r with
  | .sdctl d => (s.getD d).sdctlR
  | .sdva d => (s.getD d).sdvaR
  | .bretctl a => (s.getA a).itg.bretctl
  | _ => 0
/-- A write of a device register, field by field under its access codes. The error ring's RIX is held in 32 bits, as WIX is; R340 gives them
no width. DESIGN CHOICE (unsafe; notes/assumptions 57). -/
def writeReg (r : DevReg) (v : Word) (s : State) : State :=
  match r with
  | .errdev => s.modDev fun d => { d with errdev := d.errdev &&& ~~~v }
  | .mbdev => s.modDev fun d => { d with mbdev := d.mbdev &&& ~~~v }
  | .fbdev => s.modDev fun d => { d with fbdev := d.fbdev &&& ~~~v }
  | .errRix => s.modDev fun d => { d with ringRix := v.setWidth 32 }
  | .sdctl d =>
    if bitAt (s.readM (.sdctl d)) 24 = true ∨ 4 ≤ d then s
    else
      let dies : BitVec 4 := v.extractLsb' 20 4
      let kind : BitVec 2 := v.extractLsb' 18 2
      let ctx : BitVec 16 := v.extractLsb' 0 16
      let s := s.modD d fun x => { x with sdDies := dies, sdKind := kind, sdCtx := ctx, sdGo := bitAt v 24 }
      if bitAt v 24 then { s with agenda := .shootdownStart d dies kind ctx (s.getD d).sdva :: s.agenda } else s
  | .sdva d => if 4 ≤ d then s else s.modD d fun x => { x with sdva := v.extractLsb' 0 56 }
  | .bretctl a => if 128 ≤ a then s else bretctl a (v.extractLsb' 0 6) (bitAt v 16) s
  | .mboxReq f off => if 56 < off then s else s.modP f fun x => { x with mbReq := mboxPut x.mbReq off v }
  | .mbdoor f => if v = 1#64 then s.modP f fun x => { x with mbDoor := true } else s
/-- `REGISTER_WRITE`. -/
def execRegisterWrite (r : DevReg) (value : Word) (s : State) : Out := .next (writeReg r value s)

/-- Eight bytes read at an offset of this device's register block of function `f` (R340). -/
def State.readReg (s : State) (f off : Nat) : Word :=
  let d := s.dev
  if off = 0 then s.dstat
  else if off = 0x08 then (if d.self = 0 then d.errdev else 0)
  else if off = 0x10 then (if d.self = 0 then d.mbdev else 0)
  else if off = 0x18 then (if d.self = 0 then d.fbdev else 0)
  else if off = 0x20 then BitVec.ofNat 64 ((List.range 4).foldl (fun v i => v + (s.getD i).instcap * 2 ^ (16 * i)) 0)
  else if off = 0x100 then BitVec.ofNat 64 d.ring
  else if off = 0x108 then BitVec.ofNat 64 (d.ring / 2 ^ 64 % 256 + d.ringK * 2 ^ 32)
  else if off = 0x110 then d.ringWix.setWidth 64
  else if off = 0x118 then d.ringRix.setWidth 64
  else if 0x1000 ≤ off ∧ off < 0x1040 then BitVec.ofNat 64 (ofBytes ((List.range 8).map fun i => SMap.get 0#8 (s.getP f).mbReq (off - 0x1000 + i)))
  else if 0x1040 ≤ off ∧ off < 0x1080 then BitVec.ofNat 64 (ofBytes ((List.range 8).map fun i => SMap.get 0#8 (s.getP f).mbRep (off - 0x1040 + i)))
  else if off = 0x1080 then (if (s.getP f).mbDoor then 1 else 0)
  else if 0x100000 ≤ off ∧ off < 0x100800 then
    (let q := (off - 0x100000) / 8
     if (s.getU q).on = true ∧ (s.getU q).part = f then BitVec.ofNat 64 (s.qTail q) else 0)
  else 0
/-- An 8-byte write at an offset of this device's register block (R340). The error ring's base and k ignore host writes: R340 gives them no
access code. DESIGN CHOICE (unsafe; notes/assumptions 57). -/
def State.writeBlock (s : State) (f off : Nat) (v : Word) : State :=
  let g0 := s.dev.self == 0
  if off = 0x08 then (if g0 then writeReg .errdev v s else s)
  else if off = 0x10 then (if g0 then writeReg .mbdev v s else s)
  else if off = 0x18 then (if g0 then writeReg .fbdev v s else s)
  else if off = 0x118 then writeReg .errRix v s
  else if 0x1000 ≤ off ∧ off < 0x1040 then writeReg (.mboxReq f (off - 0x1000)) v s
  else if off = 0x1080 then writeReg (.mbdoor f) v s
  else if 0x100000 ≤ off ∧ off < 0x100800 then (let q := (off - 0x100000) / 8; if (s.getU q).part = f then s.tailMax q v.toNat else s)
  else s
/-- `REGISTER_BLOCK_ACCESS` (R340): block `dev` of function `f`. In this device's own block it takes effect; a block of no device of the
group or of no partition reads 0; what another device answers is a free value. -/
def execRegisterBlockAccess (dev f : Nat) (isWrite : Bool) (off : Nat) (value : Word) (s : State) : Out :=
  .next (if dev ≠ s.dev.self ∧ dev < s.dev.group then
      (if isWrite then s else let r := s.draw; r.2.modDev fun d => { d with hostVal := r.1 })
    else if s.dev.group ≤ dev ∨ s.hasPart f = false ∨ off % 8 ≠ 0 then (if isWrite then s else s.modDev fun d => { d with hostVal := 0 })
    else if isWrite then s.writeBlock f off value
    else s.modDev fun d => { d with hostVal := s.readReg f off })

/-! ## BAR2 (R339) -/

/-- The physical address of an offset of a function's BAR2 window, where `n` bytes of it are mapped. -/
def State.bar2 (s : State) (f off n : Nat) : Option Nat :=
  let pa := (s.getP f).bar2 + off
  if off + n ≤ 64 * giB ∧ 1 ≤ n ∧ s.rangeOk f pa n false = true then some pa else none
/-- `n` bytes read by the host through the window: the value it is answered with. -/
def State.hostRead (s : State) (pa n : Nat) : Nat × Bool × State :=
  let r := s.readHome (.phys pa) n
  -- behind another bridge device the answer goes to it over a port
  let s := if s.dev.self = 0 then r.2.2 else r.2.2.sendOn .response (4 * 2 ^ 68) ((n + 63) / 64)
  (r.1, r.2.1, s.modDev fun d => { d with hostVal := BitVec.ofNat 64 r.1 })
/-- `HOST_ATOMICOP`: 0 adds, 1 swaps, 2 compares with `x` and swaps in `y`. -/
def execHostAtomicop (f off : Nat) (op : Byte) (x y : Word) (s : State) : Out :=
  .next (match s.bar2 f off 8 with
    | none => s
    | some pa =>
      if off % 8 ≠ 0 ∨ 2 < op.toNat then s
      else
        let r := s.hostRead pa 8
        let old : Word := BitVec.ofNat 64 r.1
        let new : Word := if op = 0#8 then old + x else if op = 1#8 then x else if old = x then y else old
        r.2.2.physWrite pa (leBytes 8 new.toNat) r.2.1)
/-- `HOST_BAR2_WRITE`. -/
def execHostBar2Write (f off : Nat) (bytes : List Byte) (s : State) : Out :=
  .next (match s.bar2 f off bytes.length with
    | some pa => s.physWrite pa bytes false
    | none => s)

/-! ## Links (R315, R344, R345, R350) -/

/-- `FLIT_REPLAY` (R344): a replay from the buffer of channel `ch`, delivered or failed; after 16 failures in a row the port retrains. -/
def execFlitReplay (port ch : Nat) (good : Bool) (s : State) : Out :=
  let p := s.getPort port
  .next (if 16 ≤ port ∨ 4 ≤ ch ∨ p.down = true ∨ p.training = true then s
    else if good then (s.modPort port fun p => { p with fails := 0 }).corrected (port / 4) 8
    else if 15 ≤ p.fails then s.modPort port fun p => { p with fails := 0, training := true }
    else s.modPort port fun p => { p with fails := p.fails + 1 })
/-- The physical place of an access to a peer device or the host that is routed over a port. -/
def State.overPort (s : State) (port : Nat) (k : Tsk) (a : Nat) (tr : TrCap) (va : Addr) (acc : Nat) : Option Nat :=
  match s.locatePureK k a tr va 1 acc with
  | .ok (.phys pa) => if s.portOf pa = some port then some pa else none
  | _ => none
/-- Flits of a command that a port owes, delivered poisoned: data that it reads, the old value of an atomic. -/
def CCmd.owedFlits (s : State) (port a : Nat) (m : CCmd) : CCmd :=
  let routed (v : Addr) (acc : Nat) : Bool := (s.overPort port (s.getA a).tsk a m.tr v acc).isSome
  let w := Config.freeWord s.free
  match m.kind with
  | .natom _ _ _ ea _ _ _ => if !m.whole && routed ea 2 then { m with whole := true, count := 1, old := some ⟨w, true⟩ } else m
  | _ => { m with plan := m.plan.map fun ps => ps.map fun q =>
      if q.got.isNone && (q.src.map fun v => routed v 0).getD false then { q with got := some (w, true) } else q }
/-- Bytes delivered poisoned at an address that is routed over a port (R344). -/
def State.deliver (s : State) (port : Nat) (k : Tsk) (a : Nat) (tr : TrCap) (va : Addr) (bytes : List Byte) : State :=
  match s.overPort port k a tr va 1 with
  | some pa => (s.setBytes pa bytes).setPois pa true
  | none => s
/-- The write flits of a command that a port owes, delivered poisoned: pieces read and not yet written; replicas of an ordered multicast
write, each whole once every unit of it goes over the port. -/
def CCmd.owedWrites (port a : Nat) (m : CCmd) (s : State) : State :=
  let k := (s.getA a).tsk
  let via (v : Addr) : Bool := (s.overPort port k a m.tr v 1).isSome
  match m.kind with
  | .nwr _ _ _ => s
  | .nmcst true =>
    let n := mcSize m.desc
    let units (i : Nat) : List Addr := (List.range (n / 16)).map fun j => mcRep m.desc i + BitVec.ofNat 72 (16 * j)
    let rs := if m.listsRead && !m.whole then (List.range (mcNrep m.desc)).filter fun i => !m.nth.testBit i && (units i).all via else []
    let l := m.listBytes (mcSrc m.desc) n
    (rs.foldl (fun (s : State) i => (units i).zipIdx.foldl
      (fun (s : State) u => s.deliver port k a m.tr u.1 (((l.drop (16 * u.2)).take 16).map (·.1))) s) s).modCmd a m.seq fun m =>
        let w := rs.foldl (fun w i => w + 2 ^ i) m.nth
        { m with nth := w, whole := m.whole || decide (!rs.isEmpty ∧ w = 2 ^ mcNrep m.desc - 1), count := n / 16 }
  | _ =>
    let ps := m.plan.getD []
    let out (p : XPiece) : Bool := p.got.isSome && !p.done && via p.dst
    ((ps.filter out).foldl (fun (s : State) p => s.deliver port k a m.tr p.dst ((p.out ps).map fun e => e.2.1)) s).modCmd a m.seq fun m =>
      { m with plan := m.plan.map fun ps => ps.map fun p => { p with done := p.done || out p } }
/-- The flits that a port owes to the accesses of an array when it goes down, delivered poisoned (R344, R246): which of the accesses not
performed had been sent is a free value. DESIGN CHOICE (unsafe; notes/assumptions 59). -/
def State.owedFlits (s : State) (port a : Nat) : State :=
  let x := s.getA a
  let (w, s) := s.draw
  let s := x.cpy.cmds.zipIdx.foldl (fun (s : State) e =>
    if bitAt w (e.2 % 32) && e.1.park.isNone then (e.1.owedWrites port a s).modCmd a e.1.seq fun m => m.owedFlits s port a else s) s
  (x.cpy.ni.zipIdx.reverse).foldl (fun (s : State) e =>
    match e.1.kind with
    | .wr va bytes _ =>
      if bitAt w (32 + e.2 % 32) && e.1.park.isNone && (s.overPort port (e.1.own.getD x.tsk) a e.1.tr va 1).isSome then
        dropNi a e.2 (s.deliver port (e.1.own.getD x.tsk) a e.1.tr va bytes)
      else s
    | _ => s) { s with free := s.free + 1 }
/-- A port out of every mask; what it owes is delivered poisoned, and a device that becomes unreachable has its record (R344, R345). -/
def portDown (port : Nat) (s : State) : State :=
  let s := (s.arr.filter fun e => !(e.2.cpy.cmds.isEmpty && e.2.cpy.ni.isEmpty)).foldl (fun (s : State) e => s.owedFlits port e.1) s
  let s := (s.modPort port fun p => { p with down := true, training := false, fails := 0, buf := [] }).errRecord 4 0 (port / 4) (s.getD (port / 4)).part 0 0 0 port 0
  (List.range 64).foldl (fun (s : State) g =>
    let m := SMap.get 0 s.dev.routes g
    if bitAt m port = false then s
    else
      let m' := bitSet m port false
      let s := s.modDev fun d => { d with routes := SMap.set 0 d.routes g m' }
      if m' = 0#16 then s.errRecord 4 0 (port / 4) (s.getD (port / 4)).part g 0 0 g 0 else s) s
/-- `LINK_RETRAIN` (R344): after replays that failed, or on loss of lock; the third retraining that fails takes the port down. -/
def execLinkRetrain (port : Nat) (good : Bool) (s : State) : Out :=
  .next (if 16 ≤ port ∨ (s.getPort port).down = true then s
    else if good then s.modPort port fun p => { p with training := false, retrains := 0, fails := 0 }
    else if 2 ≤ (s.getPort port).retrains then (portDown port s).modD (port / 4) fun d => { d with unc := SMap.mod 0 d.unc 8 (· + 1) }
    else s.modPort port fun p => { p with training := true, retrains := p.retrains + 1 })
/-- The die that a stored byte belongs to. -/
def dieOfKey (key : Nat) : Nat := if spaceOf key = 15 then key % 2 ^ 68 / 2 ^ 24 / 32 else dieOf key
/-- `CLOS_RETRANSMIT` (R315): a flit whose payload goes to the 16-byte unit at `key`. -/
def execClosRetransmit (key attempts : Nat) (s : State) : Out :=
  let die := dieOfKey key
  .next (if 4 ≤ die ∨ 16 ≤ spaceOf key then s
    else if attempts < 8 then s.corrected die 4
    else
      let k := key - key % 16
      let s := (List.range 16).foldl (fun (s : State) i => s.setPois (k + i) true) s
      (s.modD die fun d => { d with unc := SMap.mod 0 d.unc 4 (· + 1) }).errRecord 3 0 die (s.getD die).part 0 0 0 0 (if spaceOf key < 15 then k else 0))
/-- `EXPANDER_FAILURE` (R350). -/
def execExpanderFailure (die : Nat) (s : State) : Out :=
  .next (if 4 ≤ die ∨ (s.getD die).expOk = false then s
    else (s.modD die fun d => { d with expOk := false }).errRecord 4 0 die (s.getD die).part 0 0 0 die 0)

/-! ## Bring-up (R351-R354) -/

/-- Where stage 1 reserves a die's fault buffer, and the error ring (notes/assumptions 5). DESIGN CHOICE (unsafe; notes/assumptions 5). -/
def stage1Buf (die : Nat) : Nat := (die + 1) * 192 * giB - 64 * 4097
def stage1Ring : Nat := 192 * giB - 64 * 4097 - 64 * 64
/-- The boot ROM finds the digest of the stage-1 image in the OTP (R351). -/
def stage1Good : Bool := digest Config.stage1Image == Config.otpStage1
/-- Stage 1 accepts image `i`: signed by the release key, whose digest the OTP holds, and not below the anti-rollback counter (R351). -/
def imageGood (i : Nat) : Bool :=
  digest Config.releaseKey == Config.otpKey && Config.falconVerify Config.releaseKey (digest (Config.imageBytes i)) (Config.imageSig i) &&
  decide (Config.otpVersion ≤ Config.imageVer i)

/-- What the Almanacs shipped keep (R337): kinds and arguments in range, kinds 2 to 4 in core 3 alone and positions only in the others; 8
slots for each position; KIND 2 and KIND 3 in every run of 64 slots; a slot for the mailbox. -/
def Almanac.ok (m : Almanac) : Bool :=
  let kind (e : BitVec 16) : Nat := e.toNat / 4096
  m.slots.length == 512 && (m.slots.all fun e => decide (kind e ≤ 4) && (if kind e = 1 then decide (e.toNat % 4096 < 64) else e.toNat % 4096 == 0)) &&
  (if m.core = 3 then
    (m.slots.all fun e => kind e != 1) && (m.slots.any fun e => kind e == 4) &&
    ([2, 3].all fun k => (List.range 512).all fun i => ((m.slots ++ m.slots).drop i |>.take 64).any fun e => kind e == k)
   else (m.slots.all fun e => decide (kind e ≤ 1)) && m.slots.all fun e => kind e == 0 || decide (8 ≤ (m.slots.filter (· == e)).length))
/-- An Almanac that keeps this, for an image whose own does not. -/
def Almanac.plain (core : Nat) : Almanac :=
  ⟨1, core, 32768, 512, (List.range 512).map fun i =>
    if core = 3 then [0x2000#16, 0x3000#16, 0x4000#16].getD (i % 64) 0#16 else BitVec.ofNat 16 (0x1000 + i % 64)⟩
/-- The Almanac of a core image. DESIGN CHOICE (safe; notes/assumptions 9). -/
def Almanac.load (die core : Nat) : Almanac :=
  let m : Almanac := ⟨1, core, 32768, 512, (List.range 512).map (Config.almanac die core)⟩
  if m.ok then m else Almanac.plain core

/-- Stage 1 has loaded the images that it accepts, in load order, and measured them; it has made the attestation key. An image refused has
an error record of TYPE 7 (R332, R351, R352). -/
def loadImages (s : State) : State :=
  let good := (List.range 18).filter imageGood
  let (w, s) := s.draw
  let s := s.modDev fun d => { d with
    alm := (good.filter (· < 16)).map fun i => (i, Almanac.load (i / 4) (i % 4)),
    meas := digest Config.stage1Image :: good.map fun i => digest (Config.imageBytes i), attKey := w }
  ((List.range 18).filter fun i => !imageGood i).foldl (fun (s : State) i => s.errRecord 7 0 (min 3 (i / 4)) 0 0 0 0 i 0) s
/-- `DEVICE_RESET` (R351): everything is reset but stored memory, what wires fix, and the routing of the links; the boot ROM starts stage 1
or stops with BOOTERR. `intact`: the flash gives the stage-1 image as it is stored; if not, its digest is another. DESIGN CHOICE (unsafe; notes/assumptions 6). -/
def execDeviceReset (intact : Bool) (s : State) : Out :=
  let d := s.dev
  let r : State := { State.reset with
    now := s.now, agenda := s.agenda, free := s.free, mem := s.mem, pois := s.pois, err := s.err,
    dev := { Dev.reset with group := d.group, self := d.self, bridge := d.bridge, routes := d.routes, msix := d.msix, hostVal := d.hostVal,
                            ring := stage1Ring } }
  .next (if (intact && stage1Good) = false then { r with dev := { r.dev with bootErr := true } }
    else loadImages ((List.range 4).foldl (fun (r : State) i =>
      (r.modD i fun x => { x with instcap := (s.getD i).instcap }).setBuf i (stage1Buf i) 4096) { r with dev := { r.dev with stage := 1 } }))

/-- The die that serves in stage 2: CD0 if it passes, otherwise the first that passed. -/
def firstDie (l : List Nat) : Option Nat :=
  if l.contains 0 then some 0 else if l.contains 4 then l.find? fun d => decide (d < 4) else none
/-- The stage that the checks done so far allow (R354). -/
def bringUp (s : State) : State :=
  let l := s.dev.checked
  match firstDie l with
  | none => s
  | some f =>
    let s := if s.dev.stage = 1#2 then
        (s.modDev fun d => { d with stage := 2, first := some f }).modD f fun x => { x with svc := true, thr := 4 }
      else s
    if l.length = 4 ∧ s.dev.stage = 2#2 then
      (l.filter fun d => decide (d < 4)).foldl (fun (s : State) d => s.modD d fun x => { x.setClock 0 with svc := true })
        (s.modDev fun d => { d with stage := 3 })
    else s
/-- `DIE_CHECKS_COMPLETE` (R354). -/
def execDieChecksComplete (die : Nat) (good : Bool) (s : State) : Out :=
  .next (if 4 ≤ die ∨ s.dev.stage = 0#2 ∨ s.dev.checked.any (· % 4 == die) = true then s
    else
      let s := s.modDev fun d => { d with checked := d.checked ++ [if good then die else 4 + die] }
      bringUp (if good then s else s.errRecord 7 0 die (s.getD die).part 0 0 0 0 0))

end Sys2Proof.Machine
end

