-- ==== Sys2Proof/Machine/Dispatch.lean ====
section
/-! DEFINITION. The meaning of every instruction, one arm per constructor. -/

namespace Sys2Proof.Machine

open Sys2Proof

def exec (i : Instr) (s : State) : Host.Outcome State Fault Refusal :=
  match i with
  | .bundleIssue h => Sys2Proof.Machine.execBundleIssue h s
  | .nop => Sys2Proof.Machine.execNop s
  | .add g d a b => Sys2Proof.Machine.execAdd g d a b s
  | .sub g d a b => Sys2Proof.Machine.execSub g d a b s
  | .mul g d a b => Sys2Proof.Machine.execMul g d a b s
  | .mulh g d a b => Sys2Proof.Machine.execMulh g d a b s
  | .div g d a b => Sys2Proof.Machine.execDiv g d a b s
  | .rem g d a b => Sys2Proof.Machine.execRem g d a b s
  | .and g d a b => Sys2Proof.Machine.execAnd g d a b s
  | .or g d a b => Sys2Proof.Machine.execOr g d a b s
  | .xor g d a b => Sys2Proof.Machine.execXor g d a b s
  | .andn g d a b => Sys2Proof.Machine.execAndn g d a b s
  | .shl g d a b => Sys2Proof.Machine.execShl g d a b s
  | .shr g d a b => Sys2Proof.Machine.execShr g d a b s
  | .sar g d a b => Sys2Proof.Machine.execSar g d a b s
  | .rol g d a b => Sys2Proof.Machine.execRol g d a b s
  | .min g d a b => Sys2Proof.Machine.execMin g d a b s
  | .max g d a b => Sys2Proof.Machine.execMax g d a b s
  | .clz g d a => Sys2Proof.Machine.execClz g d a s
  | .popc g d a => Sys2Proof.Machine.execPopc g d a s
  | .addImm g d a imm => Sys2Proof.Machine.execAddImm g d a imm s
  | .subImm g d a imm => Sys2Proof.Machine.execSubImm g d a imm s
  | .mulImm g d a imm => Sys2Proof.Machine.execMulImm g d a imm s
  | .mulhImm g d a imm => Sys2Proof.Machine.execMulhImm g d a imm s
  | .divImm g d a imm => Sys2Proof.Machine.execDivImm g d a imm s
  | .remImm g d a imm => Sys2Proof.Machine.execRemImm g d a imm s
  | .andImm g d a imm => Sys2Proof.Machine.execAndImm g d a imm s
  | .orImm g d a imm => Sys2Proof.Machine.execOrImm g d a imm s
  | .xorImm g d a imm => Sys2Proof.Machine.execXorImm g d a imm s
  | .andnImm g d a imm => Sys2Proof.Machine.execAndnImm g d a imm s
  | .shlImm g d a imm => Sys2Proof.Machine.execShlImm g d a imm s
  | .shrImm g d a imm => Sys2Proof.Machine.execShrImm g d a imm s
  | .sarImm g d a imm => Sys2Proof.Machine.execSarImm g d a imm s
  | .rolImm g d a imm => Sys2Proof.Machine.execRolImm g d a imm s
  | .minImm g d a imm => Sys2Proof.Machine.execMinImm g d a imm s
  | .maxImm g d a imm => Sys2Proof.Machine.execMaxImm g d a imm s
  | .li g d imm => Sys2Proof.Machine.execLi g d imm s
  | .liQ1 g d imm => Sys2Proof.Machine.execLiQ1 g d imm s
  | .liQ2 g d imm => Sys2Proof.Machine.execLiQ2 g d imm s
  | .mov g k => Sys2Proof.Machine.execMov g k s
  | .sel g d a b => Sys2Proof.Machine.execSel g d a b s
  | .cmp g c d a b => Sys2Proof.Machine.execCmp g c d a b s
  | .cmpImm g c d a imm => Sys2Proof.Machine.execCmpImm g c d a imm s
  | .fadd g dbl d a b => Sys2Proof.Machine.execFadd g dbl d a b s
  | .fsub g dbl d a b => Sys2Proof.Machine.execFsub g dbl d a b s
  | .fmul g dbl d a b => Sys2Proof.Machine.execFmul g dbl d a b s
  | .ffma g dbl d a b => Sys2Proof.Machine.execFfma g dbl d a b s
  | .fdiv g dbl d a b => Sys2Proof.Machine.execFdiv g dbl d a b s
  | .fsqrt g dbl d a => Sys2Proof.Machine.execFsqrt g dbl d a s
  | .fcvt g code d a => Sys2Proof.Machine.execFcvt g code d a s
  | .fcmp g dbl cond d a b => Sys2Proof.Machine.execFcmp g dbl cond d a b s
  | .adda g d a b => Sys2Proof.Machine.execAdda g d a b s
  | .lea g d a b sh disp => Sys2Proof.Machine.execLea g d a b sh disp s
  | .ld g w d a off => Sys2Proof.Machine.execLd g w d a off s
  | .st g w d a off => Sys2Proof.Machine.execSt g w d a off s
  | .br g disp => Sys2Proof.Machine.execBr g disp s
  | .brp g n p disp => Sys2Proof.Machine.execBrp g n p disp s
  | .brf g bit n reg disp => Sys2Proof.Machine.execBrf g bit n reg disp s
  | .call g d disp => Sys2Proof.Machine.execCall g d disp s
  | .ret g a => Sys2Proof.Machine.execRet g a s
  | .jmpi g a disp => Sys2Proof.Machine.execJmpi g a disp s
  | .loop g disp => Sys2Proof.Machine.execLoop g disp s
  | .rds g d n => Sys2Proof.Machine.execRds g d n s
  | .wrs g n a => Sys2Proof.Machine.execWrs g n a s
  | .enq g a => Sys2Proof.Machine.execEnq g a s
  | .deq g d q => Sys2Proof.Machine.execDeq g d q s
  | .exit g succ => Sys2Proof.Machine.execExit g succ s
  | .uret g => Sys2Proof.Machine.execUret g s
  | .twaitTile g a => Sys2Proof.Machine.execTwaitTile g a s
  | .twaitLb g a => Sys2Proof.Machine.execTwaitLb g a s
  | .twaitAll g => Sys2Proof.Machine.execTwaitAll g s
  | .xselSet g p a => Sys2Proof.Machine.execXselSet g p a s
  | .xselAndnf g p src => Sys2Proof.Machine.execXselAndnf g p src s
  | .yselSet g p a => Sys2Proof.Machine.execYselSet g p a s
  | .yselAndnf g p src => Sys2Proof.Machine.execYselAndnf g p src s
  | .vadd g t d a b => Sys2Proof.Machine.execVadd g t d a b s
  | .vsub g t d a b => Sys2Proof.Machine.execVsub g t d a b s
  | .vmul g t d a b => Sys2Proof.Machine.execVmul g t d a b s
  | .vmin g t d a b => Sys2Proof.Machine.execVmin g t d a b s
  | .vmax g t d a b => Sys2Proof.Machine.execVmax g t d a b s
  | .vabs g t d a => Sys2Proof.Machine.execVabs g t d a s
  | .vneg g t d a => Sys2Proof.Machine.execVneg g t d a s
  | .vfma g t d a b => Sys2Proof.Machine.execVfma g t d a b s
  | .vfms g t d a b => Sys2Proof.Machine.execVfms g t d a b s
  | .vshl g t d a b => Sys2Proof.Machine.execVshl g t d a b s
  | .vshr g t d a b => Sys2Proof.Machine.execVshr g t d a b s
  | .vsar g t d a b => Sys2Proof.Machine.execVsar g t d a b s
  | .vand g d a b => Sys2Proof.Machine.execVand g d a b s
  | .vor g d a b => Sys2Proof.Machine.execVor g d a b s
  | .vxor g d a b => Sys2Proof.Machine.execVxor g d a b s
  | .vnot g d a => Sys2Proof.Machine.execVnot g d a s
  | .vcmp g t cond d a b => Sys2Proof.Machine.execVcmp g t cond d a b s
  | .vsel g d a b m => Sys2Proof.Machine.execVsel g d a b m s
  | .vmov g k => Sys2Proof.Machine.execVmov g k s
  | .vbc g d k => Sys2Proof.Machine.execVbc g d k s
  | .vcvt g code d a => Sys2Proof.Machine.execVcvt g code d a s
  | .vnrw g d vs ve z nf lane fmt => Sys2Proof.Machine.execVnrw g d vs ve z nf lane fmt s
  | .vwid g code lane d a => Sys2Proof.Machine.execVwid g code lane d a s
  | .vrcp g d a => Sys2Proof.Machine.execVrcp g d a s
  | .vrsq g d a => Sys2Proof.Machine.execVrsq g d a s
  | .vexp2 g d a => Sys2Proof.Machine.execVexp2 g d a s
  | .vlog2 g d a => Sys2Proof.Machine.execVlog2 g d a s
  | .vsin g d a => Sys2Proof.Machine.execVsin g d a s
  | .vcos g d a => Sys2Proof.Machine.execVcos g d a s
  | .vtanh g d a => Sys2Proof.Machine.execVtanh g d a s
  | .vrotx g d a x => Sys2Proof.Machine.execVrotx g d a x s
  | .vbcx g d a x => Sys2Proof.Machine.execVbcx g d a x s
  | .vredx g op t d a push => Sys2Proof.Machine.execVredx g op t d a push s
  | .vscanx g op t d a => Sys2Proof.Machine.execVscanx g op t d a s
  | .vroty g d a x => Sys2Proof.Machine.execVroty g d a x s
  | .vbcy g d a x => Sys2Proof.Machine.execVbcy g d a x s
  | .vredy g op t d a push => Sys2Proof.Machine.execVredy g op t d a push s
  | .vscany g op t d a => Sys2Proof.Machine.execVscany g op t d a s
  | .vcrw g a => Sys2Proof.Machine.execVcrw g a s
  | .vcrn g d wrap => Sys2Proof.Machine.execVcrn g d wrap s
  | .vcrs g d wrap => Sys2Proof.Machine.execVcrs g d wrap s
  | .vcre g d wrap => Sys2Proof.Machine.execVcre g d wrap s
  | .vcrwN g d wrap => Sys2Proof.Machine.execVcrwN g d wrap s
  | .vshuf g d a b e => Sys2Proof.Machine.execVshuf g d a b e s
  | .shpld g e a n => Sys2Proof.Machine.execShpld g e a n s
  | .shpsw g => Sys2Proof.Machine.execShpsw g s
  | .vflag g k => Sys2Proof.Machine.execVflag g k s
  | .vld g d a off => Sys2Proof.Machine.execVld g d a off s
  | .vst g s1 a off => Sys2Proof.Machine.execVst g s1 a off s
  | .vldv g d a off => Sys2Proof.Machine.execVldv g d a off s
  | .vrdacc g d acc j => Sys2Proof.Machine.execVrdacc g d acc j s
  | .vwracc g acc s1 j => Sys2Proof.Machine.execVwracc g acc s1 j s
  | .mln g r a => Sys2Proof.Machine.execMln g r a s
  | .mlnK g k a => Sys2Proof.Machine.execMlnK g k a s
  | .mgoIp g ui => Sys2Proof.Machine.execMgoIp g ui s
  | .mgoOp g ui => Sys2Proof.Machine.execMgoOp g ui s
  | .mgoRw g ui => Sys2Proof.Machine.execMgoRw g ui s
  | .mms g a => Sys2Proof.Machine.execMms g a s
  | .mwt g a => Sys2Proof.Machine.execMwt g a s
  | .mswp g => Sys2Proof.Machine.execMswp g s
  | .mz g acc => Sys2Proof.Machine.execMz g acc s
  | .mst g acc res a ui ef td => Sys2Proof.Machine.execMst g acc res a ui ef td s
  | .mla g acc a td => Sys2Proof.Machine.execMla g acc a td s
  | .mwait g => Sys2Proof.Machine.execMwait g s
  | .mwaitWt g => Sys2Proof.Machine.execMwaitWt g s
  | .mstat g d => Sys2Proof.Machine.execMstat g d s
  | .mstatClr g d => Sys2Proof.Machine.execMstatClr g d s
  | .matrixCommandStart a seq => Sys2Proof.Machine.execMatrixCommandStart a seq s
  | .tileStep a => Sys2Proof.Machine.execTileStep a s
  | .matrixCommandComplete a seq => Sys2Proof.Machine.execMatrixCommandComplete a seq s
  | .mmsArrival a seq => Sys2Proof.Machine.execMmsArrival a seq s
  | .holdExpiry quad => Sys2Proof.Machine.execHoldExpiry quad s
  | .stackStart quad stk => Sys2Proof.Machine.execStackStart quad stk s
  | .stackWaitExpiry quad stk => Sys2Proof.Machine.execStackWaitExpiry quad stk s
  | .stackComplete quad stk => Sys2Proof.Machine.execStackComplete quad stk s
  | .cpy g a => Sys2Proof.Machine.execCpy g a s
  | .cpyg g a => Sys2Proof.Machine.execCpyg g a s
  | .cpys g a => Sys2Proof.Machine.execCpys g a s
  | .cpym g a => Sys2Proof.Machine.execCpym g a s
  | .lblk g d a n => Sys2Proof.Machine.execLblk g d a n s
  | .lblkRel g b => Sys2Proof.Machine.execLblkRel g b s
  | .cbcfg g cb a => Sys2Proof.Machine.execCbcfg g cb a s
  | .cbw g wd kind cb n => Sys2Proof.Machine.execCbw g wd kind cb n s
  | .cbadvP g cb n => Sys2Proof.Machine.execCbadvP g cb n s
  | .cbadvC g cb n => Sys2Proof.Machine.execCbadvC g cb n s
  | .tdset g td a => Sys2Proof.Machine.execTdset g td a s
  | .tdget g td a => Sys2Proof.Machine.execTdget g td a s
  | .townRel g a => Sys2Proof.Machine.execTownRel g a s
  | .townClm g a => Sys2Proof.Machine.execTownClm g a s
  | .tcfg g a => Sys2Proof.Machine.execTcfg g a s
  | .ldwWf g d a off => Sys2Proof.Machine.execLdwWf g d a off s
  | .nrd g l r n => Sys2Proof.Machine.execNrd g l r n s
  | .nwr g l r n => Sys2Proof.Machine.execNwr g l r n s
  | .nrdx g a => Sys2Proof.Machine.execNrdx g a s
  | .nsadd g a => Sys2Proof.Machine.execNsadd g a s
  | .nbin g a => Sys2Proof.Machine.execNbin g a s
  | .natomAdd g w scope r head a b => Sys2Proof.Machine.execNatomAdd g w scope r head a b s
  | .natomMin g w scope r head a b => Sys2Proof.Machine.execNatomMin g w scope r head a b s
  | .natomMax g w scope r head a b => Sys2Proof.Machine.execNatomMax g w scope r head a b s
  | .natomCas g w scope r head a b => Sys2Proof.Machine.execNatomCas g w scope r head a b s
  | .natomXchg g w scope r head a b => Sys2Proof.Machine.execNatomXchg g w scope r head a b s
  | .natomAnd g w scope r head a b => Sys2Proof.Machine.execNatomAnd g w scope r head a b s
  | .natomOr g w scope r head a b => Sys2Proof.Machine.execNatomOr g w scope r head a b s
  | .nred g op t a => Sys2Proof.Machine.execNred g op t a s
  | .nmcst g ord a => Sys2Proof.Machine.execNmcst g ord a s
  | .ndrain g scope post => Sys2Proof.Machine.execNdrain g scope post s
  | .eqx g => Sys2Proof.Machine.execEqx g s
  | .gbar g level post => Sys2Proof.Machine.execGbar g level post s
  | .copyCommandComplete a seq => Sys2Proof.Machine.execCopyCommandComplete a seq s
  | .remoteAccessPerform a seq unit => Sys2Proof.Machine.execRemoteAccessPerform a seq unit s
  | .eqxArrival a seq => Sys2Proof.Machine.execEqxArrival a seq s
  | .gbarArrival a seq => Sys2Proof.Machine.execGbarArrival a seq s
  | .multicastRequestArrival a seq => Sys2Proof.Machine.execMulticastRequestArrival a seq s
  | .multicastWindowExpiry die grp => Sys2Proof.Machine.execMulticastWindowExpiry die grp s
  | .cacheFillComplete line => Sys2Proof.Machine.execCacheFillComplete line s
  | .vgl g a => Sys2Proof.Machine.execVgl g a s
  | .sgl g a => Sys2Proof.Machine.execSgl g a s
  | .gla g a => Sys2Proof.Machine.execGla g a s
  | .glb g p => Sys2Proof.Machine.execGlb g p s
  | .csrrd d csr => Sys2Proof.Machine.execCsrrd d csr s
  | .csrwr csr a => Sys2Proof.Machine.execCsrwr csr a s
  | .tlbinv a kind => Sys2Proof.Machine.execTlbinv a kind s
  | .fbfl => Sys2Proof.Machine.execFbfl s
  | .ctxsv a => Sys2Proof.Machine.execCtxsv a s
  | .ctxld a => Sys2Proof.Machine.execCtxld a s
  | .halt => Sys2Proof.Machine.execHalt s
  | .ecall n => Sys2Proof.Machine.execEcall n s
  | .xret => Sys2Proof.Machine.execXret s
  | .userInterruptAccept a => Sys2Proof.Machine.execUserInterruptAccept a s
  | .taskDispatch part => Sys2Proof.Machine.execTaskDispatch part s
  | .sliceExpiry a => Sys2Proof.Machine.execSliceExpiry a s
  | .preemption a => Sys2Proof.Machine.execPreemption a s
  | .exitComplete a => Sys2Proof.Machine.execExitComplete a s
  | .taskKill a => Sys2Proof.Machine.execTaskKill a s
  | .taskPark a => Sys2Proof.Machine.execTaskPark a s
  | .quadPowerGate quad => Sys2Proof.Machine.execQuadPowerGate quad s
  | .quadWakeComplete quad => Sys2Proof.Machine.execQuadWakeComplete quad s
  | .walkEnd die k reread => Sys2Proof.Machine.execWalkEnd die k reread s
  | .shootdownStart die dies kind ctx vpn => Sys2Proof.Machine.execShootdownStart die dies kind ctx vpn s
  | .shootdownAck die a => Sys2Proof.Machine.execShootdownAck die a s
  | .asyncReadGrant a grp reqs => Sys2Proof.Machine.execAsyncReadGrant a grp reqs s
  | .puqRetirement a grp => Sys2Proof.Machine.execPuqRetirement a grp s
  | .staleRebuild a grp => Sys2Proof.Machine.execStaleRebuild a grp s
  | .patrolScrub a grp => Sys2Proof.Machine.execPatrolScrub a grp s
  | .scrubTimeout a grp => Sys2Proof.Machine.execScrubTimeout a grp s
  | .eccWriteback key => Sys2Proof.Machine.execEccWriteback key s
  | .bankRetire a bank => Sys2Proof.Machine.execBankRetire a bank s
  | .groupRetire a => Sys2Proof.Machine.execGroupRetire a s
  | .queueServiceSlot die core pos => Sys2Proof.Machine.execQueueServiceSlot die core pos s
  | .nopPacket q => Sys2Proof.Machine.execNopPacket q s
  | .launch q record => Sys2Proof.Machine.execLaunch q record s
  | .write q addr words => Sys2Proof.Machine.execWrite q addr words s
  | .signal q addr op value => Sys2Proof.Machine.execSignal q addr op value s
  | .writesig q addr word sig op value => Sys2Proof.Machine.execWritesig q addr word sig op value s
  | .wait q addr cond value mask => Sys2Proof.Machine.execWait q addr cond value mask s
  | .ffence q => Sys2Proof.Machine.execFfence q s
  | .barrier q => Sys2Proof.Machine.execBarrier q s
  | .copy q src dst len => Sys2Proof.Machine.execCopy q src dst len s
  | .timestamp q addr tag => Sys2Proof.Machine.execTimestamp q addr tag s
  | .replay q record npass rrec => Sys2Proof.Machine.execReplay q record npass rrec s
  | .replayPassStart part => Sys2Proof.Machine.execReplayPassStart part s
  | .packetComplete q index => Sys2Proof.Machine.execPacketComplete q index s
  | .tailWrite q value => Sys2Proof.Machine.execTailWrite q value s
  | .doorbell f q value => Sys2Proof.Machine.execDoorbell f q value s
  | .faultPollSlot die => Sys2Proof.Machine.execFaultPollSlot die s
  | .monitorSlot die temps volts power => Sys2Proof.Machine.execMonitorSlot die temps volts power s
  | .mailboxSlot part => Sys2Proof.Machine.execMailboxSlot part s
  | .regq part q desc die core pos => Sys2Proof.Machine.execRegq part q desc die core pos s
  | .destroyq part q => Sys2Proof.Machine.execDestroyq part q s
  | .recoverq part q mode => Sys2Proof.Machine.execRecoverq part q mode s
  | .quote part nonce dest => Sys2Proof.Machine.execQuote part nonce dest s
  | .partcfg part dies bar2 images svecs shares => Sys2Proof.Machine.execPartcfg part dies bar2 images svecs shares s
  | .partreset part => Sys2Proof.Machine.execPartreset part s
  | .partparam part addr => Sys2Proof.Machine.execPartparam part addr s
  | .quadpol part die quad xctx men qcap => Sys2Proof.Machine.execQuadpol part die quad xctx men qcap s
  | .ctxset part ctx valid base limit off tlbcfg => Sys2Proof.Machine.execCtxset part ctx valid base limit off tlbcfg s
  | .counters part dest => Sys2Proof.Machine.execCounters part dest s
  | .shoot part dies kind ctx vpn => Sys2Proof.Machine.execShoot part dies kind ctx vpn s
  | .registerBlockAccess dev f isWrite off value => Sys2Proof.Machine.execRegisterBlockAccess dev f isWrite off value s
  | .hostAtomicop f off op x y => Sys2Proof.Machine.execHostAtomicop f off op x y s
  | .registerWrite r value => Sys2Proof.Machine.execRegisterWrite r value s
  | .flitReplay port ch good => Sys2Proof.Machine.execFlitReplay port ch good s
  | .linkRetrain port good => Sys2Proof.Machine.execLinkRetrain port good s
  | .closRetransmit key attempts => Sys2Proof.Machine.execClosRetransmit key attempts s
  | .expanderFailure die => Sys2Proof.Machine.execExpanderFailure die s
  | .deviceReset intact => Sys2Proof.Machine.execDeviceReset intact s
  | .dieChecksComplete die good => Sys2Proof.Machine.execDieChecksComplete die good s
  | .hostBar2Write f off bytes => Sys2Proof.Machine.execHostBar2Write f off bytes s

end Sys2Proof.Machine
end

