-- ==== Sys2Proof/Machine/Turn.lean ====
section
/-! DEFINITION. What one step of the machine does when no device step waits. A cycle has four parts (R230, R231, R239): the sequencers issue
(R8, R9, R20-R24, R113, R277); the arbiters grant; then reads, and then writes, perform; at its end what is due shows (R8, R146, R276, R281,
R317), and the timers that fall due join the agenda with the device steps that free values choose. -/

namespace Sys2Proof.Machine

open Sys2Proof

/-- The answers of a meaning. -/
abbrev Outcome := Host.Outcome State Fault Refusal

/-! ## Which sequencer moves -/

/-- The first bundle that has reached a member, if it has arrived (R20, R22). -/
def Arr.arrived (x : Arr) (now : Nat) : Option (BitVec 32) :=
  match x.tsk.stream with
  | e :: _ => if e.1 ≤ now then some e.2.1 else none
  | [] => none
/-- The lead of a chain may issue: no member is at S or stopped, and none has 16 bundles waiting (R22, R24). DEDUCED (unsafe; notes/assumptions 24). -/
def State.chainFree (s : State) (x : Arr) : Bool :=
  decide (x.tsk.nranks ≤ 1) || x.atS || (x.tsk.members.drop 1).all fun b =>
    let y := s.getA b
    !y.atS && y.tsk.stop == .no && decide ((y.tsk.stream.filter fun e => decide (e.1 ≤ s.now)).length < 16)
/-- The task is asked to stop, and the sequencer is at a boundary at which it does: it issues outside S code for itself (R277, R278). -/
def Arr.asked (x : Arr) : Bool := x.csr.preq && !x.atS && !x.fed && x.tsk.stop == .no
/-- The sequencer of array `a` has a bundle to issue, or a completion to accept, in this cycle, or a boundary at which it stops. Bundles in
flight reach a member also while the chain is stopping (R24); one whose check has parked it issues no more (R296). A change of the die's clock holds issue (R317). -/
def State.moves (s : State) (a : Nat) : Bool :=
  let x := s.getA a
  x.tsk.run && x.sca.issuedAt != some s.now && decide (x.sca.readyAt ≤ s.now) && (s.getD (a / 32)).thrReq.isNone &&
  if x.fed then (x.arrived s.now).isSome && (match x.tsk.stop with | .no | .preempt => true | _ => false)
  else x.tsk.stop == .no && (x.asked || s.chainFree x)
/-- The next array, from `cur` on, whose sequencer moves. -/
def State.mover (s : State) : Option Nat := (s.arr.find? fun e => decide (s.cur ≤ e.1) && s.moves e.1).map (·.1)

/-! ## The turn of a sequencer -/

/-- The bundle at the issue point of array `cur`. -/
def issueTurn (s : State) : Outcome :=
  match s.fetchWords (s.getA s.cur) with
  | w :: _ =>
    match decodeHdr w with
    | some h => exec (.bundleIssue h) s
    | none => .next (issueNext s)
  | [] => .next (issueNext s)

/-- A member's bundle, once issued, leaves its stream buffer; the one that ends the chain ends the member (R24). -/
def Arr.unstream (pc : BitVec 32) (x : Arr) : Arr :=
  if x.sca.pc = pc then x
  else x.modTsk fun k =>
    { k with stream := k.stream.drop 1,
             stop := if x.ending then (match k.stop with | .kill a b c d => .kill a b c d | _ => .exit none) else k.stop }

/-- The bundle at the boundary met a trap, or a page fault: S code runs, or the task has stopped by itself. -/
def Arr.caught (x : Arr) : Bool := x.atS || (match x.tsk.stop with | .kill _ _ _ _ | .park => true | _ => false)
/-- A task that is asked to stop stops before the bundle at the boundary, unless that bundle traps, which is taken first (R277, R278). -/
def stopTurn (s : State) : Outcome :=
  match issueTurn s with
  | .next t =>
    if (t.getA s.cur).caught then .next t
    else .next (s.modA s.cur fun x => (x.modTsk fun k => { k with stop := .preempt }).modCsr fun c => { c with preq := false })
  | o => o

/-- The turn of array `cur`: a stop that is asked for; a user-level completion accepted before the bundle (R113); a member issues what
its lead sent (R20). -/
def turnArr (s : State) : Outcome :=
  let x := s.getA s.cur
  if x.asked then stopTurn s
  else if x.mayAccept s.now then exec (.userInterruptAccept s.cur) s
  else if x.fed then
    match x.arrived s.now with
    | none => .next s
    | some pc =>
      match issueTurn (s.modA s.cur fun y => y.modSca fun c => { c with pc := pc }) with
      | .next t => .next (t.modA s.cur (Arr.unstream pc))
      | o => o
  else issueTurn s

/-! ## The device steps that may happen -/

/-- Arrays that run a task. -/
def State.running (s : State) : List Nat := (s.arr.filter fun e => e.2.tsk.run).map (·.1)

/-- Requests of arrays that have stopped leave the stacks that are not dispatched (R183, R257). -/
def withdrawStopped (s : State) : State :=
  (s.arr.filter fun e => e.2.stopping || e.2.killed || (e.2.tsk.stop == .halt && e.2.csr.disp == 3#4)).foldl (fun (s : State) e =>
    if s.quad.isEmpty then s else s.modQ (e.1 / 4) fun q => q.withdraw e.1 false) s
/-- Device steps that a time, or a condition, makes due. Stacks are named as they stand once those that are due are dispatched (R179, R181). -/
def dueSteps (s : State) : List Instr :=
  let qs := (s.quad.filter fun e => e.2.stks.any (·.isOpen)).map (·.1)
  let d := qs.foldl (fun (s : State) q => dispatchDue q s) s
  qs.map Instr.holdExpiry ++
  (d.quad.flatMap fun e => (e.2.stks.zipIdx.filter fun k => !k.1.isOpen && !k.1.run && decide (k.1.at_ + 4096 ≤ s.now)).map fun k =>
    Instr.stackWaitExpiry e.1 k.2) ++
  (d.quad.flatMap fun e => ((List.range e.2.stks.length).filter (d.canStart e.1)).map (Instr.stackStart e.1)) ++
  (s.running.filter fun a => let x := s.getA a; x.csr.slice == 0 && x.tsk.stop == .no && (s.runs a).isSome).map Instr.sliceExpiry ++
  ((List.range 32).filter fun q => let k := s.getQ q; !k.gated && decide (k.idle + 65536 ≤ s.now) && s.dev.stage != 0#2 &&
    (List.range 4).all fun i => !(s.getA (4 * q + i)).tsk.run).map Instr.quadPowerGate ++
  (s.quad.filter fun e => match e.2.wake with | some t => decide (t ≤ s.now) | none => false).map (fun e => Instr.quadWakeComplete e.1) ++
  (s.die.flatMap fun e => (e.2.grps.filter fun g => !g.shut && decide (g.at_ + g.win ≤ s.now)).map fun g =>
    Instr.multicastWindowExpiry e.1 g.num) ++
  (s.running.flatMap fun a => ((List.range 16).filter fun g => decide (SMap.get 0 (s.getA a).itg.scrubWait g + 1024 ≤ s.now)).map fun g =>
    Instr.scrubTimeout a g)

/-- The arbiters that have requests waiting, with them (R231). -/
def grantSteps (s : State) : List Instr :=
  s.arr.flatMap fun e => ((List.range 16).filter fun g => e.2.itg.waits.any fun r => r.bank / 4 == g).map fun g =>
    Instr.asyncReadGrant e.1 g (e.2.itg.waits.filter fun r => r.bank / 4 == g)

/-- The home of an access as translation stands is outside the array (R226). -/
def State.awayAt (s : State) (a : Nat) (tr : TrCap) (va : Addr) (acc : Nat) : Bool :=
  match s.locatePure a tr va 1 acc with
  | .ok h => h.away a
  | _ => false
/-- The reads of a command's list units and pieces, each with the port by which it asks: the command's own, or 4, a remote arrival's, at another
array (R231). The bound covers its pieces, the units of its lists and its replicas. -/
def State.portReads (s : State) (a : Nat) (m : CCmd) : List (Nat × Instr) :=
  (List.range (max (max (m.plan.getD []).length m.units.length) 8)).flatMap fun i =>
    let p := match ((m.plan.getD [])[i]?).bind (·.src) with
      | some v => if s.awayAt a m.tr v 0 then 4 else m.port
      | none => m.port
    [(m.port, Instr.remoteAccessPerform a m.seq (4 * i)), (p, Instr.remoteAccessPerform a m.seq (4 * i + 1))]
/-- A command's writes: of its pieces, or of its replicas; `far` those that arrive at another array, a slice or beyond (R239). -/
def State.writesOf (s : State) (far : Bool) (a : Nat) (m : CCmd) : List Instr :=
  ((List.range (max (m.plan.getD []).length 8)).filter fun i =>
    (match (m.plan.getD [])[i]? with | some p => s.awayAt a m.tr p.dst 1 | none => true) == far).map fun i =>
      Instr.remoteAccessPerform a m.seq (4 * i + 2)
/-- The engines' reads, and what completes without a write: the matrix engine first, then each port (R231). -/
def readSteps (s : State) : List Instr :=
  let cp : List (Nat × Instr) := s.arr.flatMap fun e => e.2.cpy.cmds.flatMap fun m => match m.kind with
    | .eqx => [(3, Instr.eqxArrival e.1 m.seq)]
    | .gbar _ => [(3, Instr.gbarArrival e.1 m.seq)]
    | .cpym => (m.port, Instr.multicastRequestArrival e.1 m.seq) :: s.portReads e.1 m
    | .ndrain _ | .lblk _ | .natom _ _ _ _ _ _ _ => []
    | _ => s.portReads e.1 m
  (s.arr.flatMap fun e => e.2.mat.cmds.flatMap fun m => match m.kind with
    | .mms _ => if m.started then [] else [Instr.mmsArrival e.1 m.seq]
    | .mgo _ => if m.whole then [] else if !m.started then [Instr.matrixCommandStart e.1 m.seq] else if m.wr.isEmpty then [Instr.tileStep e.1] else []
    | _ => if m.whole then [] else [Instr.matrixCommandStart e.1 m.seq]) ++
  (s.quad.flatMap fun e => (e.2.stks.zipIdx.filter fun k => k.1.run && !k.1.whole s).map fun k => Instr.stackComplete e.1 k.2) ++
  ([1, 2, 3, 4].flatMap fun p => (cp.filter fun e => e.1 == p).map (·.2)) ++
  (s.arr.flatMap fun e => e.2.cpy.cmds.map fun m => Instr.copyCommandComplete e.1 m.seq) ++
  (s.die.flatMap fun e => e.2.owed.map fun a => Instr.shootdownAck e.1 a) ++
  ((s.line.filter fun e => e.2 == 1 || e.2 == 4).map fun e => Instr.cacheFillComplete e.1)
/-- The engines' writes to their own array. -/
def ownWriteSteps (s : State) : List Instr :=
  (s.arr.flatMap fun e => e.2.mat.cmds.flatMap fun m =>
    if isMms m then [] else if m.whole then [Instr.matrixCommandComplete e.1 m.seq] else if !m.wr.isEmpty then [Instr.tileStep e.1] else []) ++
  (s.quad.flatMap fun e => (e.2.stks.zipIdx.filter fun k => k.1.run && k.1.whole s).map fun k => Instr.stackComplete e.1 k.2) ++
  (s.arr.flatMap fun e => e.2.cpy.cmds.flatMap (s.writesOf false e.1))
/-- The arrivals of remote accesses, and the atomics. -/
def remoteWriteSteps (s : State) : List Instr :=
  s.arr.flatMap fun e =>
    e.2.cpy.cmds.flatMap (s.writesOf true e.1) ++
    (e.2.cpy.cmds.flatMap fun m => match m.kind with | .natom _ _ _ _ _ _ _ => [Instr.remoteAccessPerform e.1 m.seq 0] | _ => []) ++
    e.2.cpy.ni.zipIdx.map fun o => Instr.remoteAccessPerform e.1 o.1.seq (4 * o.2 + 3)
/-- The upkeep of parity words (R232, R304). -/
def upkeepSteps (s : State) : List Instr :=
  s.arr.flatMap fun e =>
    ((e.2.itg.puq.filter fun q => !q.2.isEmpty).map fun q => Instr.puqRetirement e.1 q.1) ++
    (((e.2.itg.stale.filter (·.2)).map fun q => q.1 / 4096).dedup.map fun g => Instr.staleRebuild e.1 g) ++
    ((List.range 16).filter fun g => (e.2.itg.stales g).isEmpty).map fun g => Instr.patrolScrub e.1 g
/-- The steps of the task managers, the command processors and the other units of the device; what comes from outside (the host, links,
monitors, upsets) is no part of it (notes/assumptions 1). -/
def deviceSteps (s : State) : List Instr :=
  (s.arr.flatMap fun e =>
    (match e.2.tsk.stop with
    | .no => if e.2.csr.preq then [Instr.preemption e.1, Instr.taskPark e.1] else []
    | .preempt | .park => [Instr.preemption e.1, Instr.taskPark e.1]
    | .exit _ => [Instr.exitComplete e.1, Instr.preemption e.1, Instr.taskPark e.1]
    | .kill _ _ _ _ => [Instr.taskKill e.1]
    | .halt => [Instr.taskKill e.1, Instr.taskPark e.1, Instr.preemption e.1, Instr.exitComplete e.1]) ++
    (if e.2.itg.noDisp then [Instr.groupRetire e.1] else [])) ++
  (s.die.flatMap fun e =>
    (List.range e.2.walks.length).flatMap (fun k => [Instr.walkEnd e.1 k false, Instr.walkEnd e.1 k true]) ++
    (if e.2.fpend || s.part.any (·.2.shoot) then [Instr.faultPollSlot e.1] else [])) ++
  ((s.err.filter fun e => e.2 == 1).map fun e => Instr.eccWriteback e.1) ++
  (if s.task.isEmpty then [] else (List.range 4).map Instr.taskDispatch) ++
  (s.queue.flatMap fun e => if e.2.on then
    Instr.queueServiceSlot e.2.die e.2.core e.2.pos :: e.2.pend.map fun w => Instr.packetComplete e.1 (BitVec.ofNat 64 w.1) else []) ++
  (s.queue.flatMap fun e => e.2.left.map fun w => Instr.packetComplete e.1 (BitVec.ofNat 64 w.1)) ++
  (s.part.flatMap fun e => (if e.2.replay.isSome then [Instr.replayPassStart e.1] else []) ++ [Instr.mailboxSlot e.1])

/-! ## What free values choose -/

/-- The steps that free values choose of a list; those of `must` happen. -/
def chooseSteps (n : Nat) (must : Instr → Bool) (l : List Instr) : List Instr :=
  (l.zipIdx.filter fun e => must e.1 || bitAt (Config.freeWord (n + e.2 / 64)) (e.2 % 64)).map (·.1)
/-- The free words that a choice takes. -/
def choiceWords (l : List Instr) : Nat := (l.length + 63) / 64
/-- At most one of a list, chosen by a free word. -/
def chooseOne (w : Word) (l : List Instr) : List Instr := (l[w.toNat % (2 * l.length + 1)]?).toList

/-! ## The reads -/

/-- The request for an access of array `a` by a port is one that its arbiter has granted (R231). -/
def State.grantedTo (s : State) (a : Nat) (tr : TrCap) (va : Addr) (port : Nat) : Bool :=
  match s.locatePure a tr va 1 0 with
  | .ok h =>
    (match h with
    | .spad b off far =>
      let p := (s.getA b).itg.place (s.bankOff b off far / 16)
      (s.getA b).itg.granted.any fun r => r.port == (if h.away a then 4 else port) && r.bank == p % 64 && r.index == p / 64
    | _ => false)
  | _ => false
/-- A read, or an atomic, that has been granted: it performs in this cycle. -/
def State.mustRead (s : State) (i : Instr) : Bool :=
  match i with
  | .remoteAccessPerform a seq unit =>
    let x := s.getA a
    if unit % 4 = 3 then
      match x.cpy.ni[unit / 4]? with
      | some o => s.grantedTo a o.tr (match o.kind with | .bin h _ key _ _ => h + BitVec.ofNat 72 (32 + 4 * key) | k => k.addr) 4
      | none => false
    else
      match x.cmdOf seq with
      | none => false
      | some m =>
        match m.kind with
        | .natom _ _ _ ea _ _ _ => s.grantedTo a m.tr ea 4
        | _ =>
          if unit % 4 = 0 then ((m.units[unit / 4]?).map fun u => s.grantedTo a m.tr (ownAddr (16 * u)) m.port).getD false
          else (((m.plan.getD [])[unit / 4]?).bind (·.src)).any fun v => s.grantedTo a m.tr v m.port
  | _ => false

/-- A command of the matrix engine that reads for its current step. -/
def State.stepReads (s : State) (a : Nat) (m : MCmd) : Bool :=
  let x := s.getA a
  m.started && !m.whole && m.wr.isEmpty && m.park.isNone && x.tsk.run && !x.killed && (match m.kind with
    | .mgo _ => !s.stackRuns a && !(x.stopping && !m.stepping)
    | .mms r => (s.getQ (a / 4)).stks.any fun k => k.run && k.reqs.any fun q => q.arr == a && q.seq == r.seq
    | _ => true)
/-- Units that the matrix engines read ahead of the step that needs them: those granted, and up to four that free words choose of each
command. -/
def readsAhead (s : State) : State :=
  (s.arr.flatMap fun e => (e.2.mat.cmds.filter (s.stepReads e.1)).map fun m => (e.1, m)).foldl (fun (s : State) e =>
    let l := e.2.missing
    let s := (l.filter fun u => s.grantedTo e.1 e.2.tr (unitVa u) 0).foldl (fun (s : State) u => fetchUnit e.1 e.2.seq u s) s
    (List.range 4).foldl (fun (s : State) _ =>
      let (w, s) := s.draw
      match l[w.toNat % max 1 l.length]? with
      | some u => fetchUnit e.1 e.2.seq u s
      | none => s) s) s
/-- Units that the matrix engines write in this cycle, up to four of each command. -/
def writesAhead (s : State) : State :=
  (s.arr.flatMap fun e => (e.2.mat.cmds.filter fun m => !m.wr.isEmpty && m.park.isNone && e.2.tsk.run && !e.2.killed).map fun m => (e.1, m)).foldl
    (fun (s : State) e =>
      (List.range 4).foldl (fun (s : State) _ => let (w, s) := s.draw; writeAhead e.1 e.2.seq (w.toNat % 2 ^ 16) s) s) s

/-! ## The parts of a cycle -/

/-- Every array's wavefront executes its rows of this cycle (R8). -/
def rowsAll (s : State) : State :=
  s.running.foldl (fun (s : State) a =>
    let x := s.getA a
    if x.cel.waves.isEmpty then s
    else
      let r := rowsStep a s.now x x.cel.waves s
      r.1.modA a fun y => y.modCel fun c => { c with waves := r.2 }) s
/-- The stores of this cycle perform (R146, R239). -/
def storesAll (s : State) : State :=
  s.running.foldl (fun (s : State) a =>
    let q := (s.getA a).cel.stq
    let s := if q.isEmpty then s else (s.modA a fun y => y.modCel fun c => { c with stq := [] }).performStores a q
    if (s.getA a).cel.old.isEmpty then s else s.modA a fun y => y.modCel fun c =>
      { c with old := c.old.filter fun e => decide (s.now < e.t + 16) }) s
/-- Exchange windows swap at the end of the cycle of the last arrival (R218). -/
def swapsAll (s : State) : State :=
  { s with arr := s.arr.map fun e =>
    (e.1, if e.2.cpy.swapDue then e.2.modCpy fun c => { c with exb := !c.exb, swapDue := false } else e.2) }
/-- The slice counter of a running task (R276). -/
def Csr.slicing (c : Csr) : Csr :=
  if c.sliceCnt < 255 then { c with sliceCnt := c.sliceCnt + 1 } else { c with sliceCnt := 0, slice := if c.slice = 0 then 0 else c.slice - 1 }
/-- An array at the start of cycle `t`: what becomes visible (R8), its slice, counter event 0 (R281), and its arbiters free again. -/
def Arr.tick (t : Nat) (x : Arr) : Arr :=
  let x := x.modItg (Itg.newCycle t)
  if x.tsk.run then ((x.count 0 1).modCsr Csr.slicing).commit t else x
/-- Hundred-and-fifths of a 1.6 GHz cycle in one cycle of a throttled clock (R61, R317). DEDUCED (unsafe; notes/assumptions 16). -/
def throttleRatio (thr : Nat) : Nat := [105, 120, 140, 168, 210].getD thr 105
def Die.tick (d : Die) : Die :=
  let u := d.sub + throttleRatio d.thr
  { d with cyc := d.cyc + u / 105, sub := u % 105 }
/-- An array is at a bundle boundary with the results of its bundles in place; a pattern load goes on (R277). -/
def Arr.drainedOut (x : Arr) (now : Nat) : Bool :=
  decide (x.sca.readyAt ≤ now) && x.cel.waves.isEmpty && x.cel.stq.isEmpty &&
  x.sca.pend.all fun w => match w.w with | .shLoad _ _ => true | _ => false
/-- A change of the clock takes effect once every running array of the die is at a boundary (R317). -/
def State.newClock (s : State) (d : Nat) : State :=
  if s.running.all fun a => a / 32 != d || (s.getA a).drainedOut s.now then
    s.modD d fun d => match d.thrReq with | some n => { d with thr := n, thrReq := none } | none => d
  else s
def diesTick (s : State) : State := (List.range 4).foldl (fun (s : State) d => (s.modD d Die.tick).newClock d) s
/-- The flits sent have been acknowledged, but for those of a port that trains (R344). -/
def portsTick (d : Dev) : Dev := { d with ports := (d.ports.map fun e => (e.1, if e.2.training then e.2 else { e.2 with buf := [] })).filter fun e => e.2 != Port.reset }

/-- The sequencers have issued: the wavefronts execute, and the arbiters turn to the reads that wait. -/
def afterIssue (s : State) : State :=
  let s := rowsAll s
  { s with phase := .grant, agenda := grantSteps s }
/-- The arbiters have granted: reads perform. -/
def afterGrant (s : State) : State :=
  let s := readsAhead s
  let l := readSteps s
  { s with phase := .read, agenda := chooseSteps s.free s.mustRead l, free := s.free + choiceWords l }
/-- Reads have performed: the synchronous writes, the engines' own, then remote arrivals; parity is kept up. One step of the device's units
happens at most, in a cycle without engine writes. DESIGN CHOICE (unsafe; notes/assumptions 1). -/
def afterReads (s : State) : State :=
  let s := writesAhead (storesAll s)
  let l := ownWriteSteps s ++ remoteWriteSteps s
  let w := chooseSteps s.free s.mustRead l
  let n := s.free + choiceWords l
  let d := if w.isEmpty then chooseOne (Config.freeWord n) (deviceSteps s) else []
  { s with phase := .write, agenda := w ++ upkeepSteps s ++ d, free := n + 1 }
/-- The errors of register storage once the writes due at the next cycle have rewritten its words (R302, R313). -/
def writesErrs (s : State) : State :=
  if s.err.isEmpty then s
  else { s with err := s.running.foldl (fun m a => let x := s.getA a; errsAfter a (s.now + 1) x x.sca.pend m) s.err }
/-- The end of a cycle. DESIGN CHOICE (safe; notes/assumptions 15). -/
def endCycle (s : State) : State :=
  let s := withdrawStopped (writesErrs (sendLeft (swapsAll s)))
  let s : State := { s with now := s.now + 1, cur := 0, phase := .issue }
  let s := diesTick { s with arr := s.arr.map fun e => (e.1, e.2.tick s.now), dev := portsTick s.dev }
  { s with agenda := dueSteps s }

/-- A step with no device step waiting. -/
def turn (s : State) : Outcome :=
  match s.phase with
  | .issue => (match s.mover with | some a => turnArr { s with cur := a } | none => .next (afterIssue s))
  | .grant => .next (afterGrant s)
  | .read => .next (afterReads s)
  | .write => .next (endCycle s)

/-! ## Placing an instruction -/

/-- The bundle that holds an instruction: its own header, or a plain one with the slot, then `NOP`s; S in the last word. -/
def bundleFor (ws : List W32) : List W32 :=
  let nop : W32 := mkWord 1#9 0#6 0#6 0#6 0#4
  let l := match ws with
    | [] => [hdrWord Hdr.plain]
    | w :: _ => if wOp w = 0#9 then [w] else hdrWord Hdr.plain :: ws
  let l := l ++ List.replicate (4 - l.length) nop
  l.dropLast ++ (l.drop (l.length - 1)).map setStop
/-- The slot's own words among three: the slot with the extensions it takes. -/
def ownWords (ws : List W32) : List W32 :=
  match ws with
  | [] => []
  | w :: rest => if wOp w = 0#9 then [w] else match takeRaw w rest with
    | .ok (_, l) => w :: rest.take (rest.length - l.length)
    | .error _ => [w]
/-- An array that runs `code` from its first word in the next turn. -/
def Arr.loaded (x : Arr) (now : Nat) (code : List W32) : Arr :=
  { x with tsk := { x.tsk with run := true, rank := 0, nranks := 1, stop := .no, code := code },
           sca := { x.sca with pc := 0, far := false, readyAt := min x.sca.readyAt now, issuedAt := none, uirq := [] } }
/-- The words placed as the image in use of array 0: the system image of its partition at S, the kernel's code at U (R259). -/
def placeWords (ws : List W32) (s : State) : State :=
  let b := bundleFor ws
  let x := s.getA 0
  let s : State := if x.atS then
      { s with part := SMap.mod Part.reset s.part x.csr.part.toNat fun p => { p with image := b } }
    else s
  let s : State := { s with agenda := [], cur := 0, phase := .issue, die := SMap.mod Die.reset s.die 0 fun d => { d with thrReq := none } }
  s.modA 0 fun x => x.loaded s.now b

end Sys2Proof.Machine
end

