-- ==== Sys2Proof/Machine/Step.lean ====
section
/-! DEFINITION. One step of the machine: the device step that waits first, or the turn of a sequencer, or the end of a cycle. -/

namespace Sys2Proof.Machine

open Sys2Proof

/-- One step. -/
def step (s : State) : Host.Outcome State Fault Refusal :=
  match s.agenda with
  | i :: l => exec i { s with agenda := l }
  | [] => turn s

/-- The state with an instruction, its bits numbered from the first word, at the issue point of array 0. DEDUCED (safe; notes/assumptions 12). -/
def State.withFetchWord (s : State) (nbits w : Nat) : State :=
  placeWords (ownWords (wordsOf 3 (w % 2 ^ nbits))) s

end Sys2Proof.Machine
end

