-- ==== Sys2Proof/WellFormed.lean ====
section
/-! DEFINITION. Well-formed instructions: what the formats of R59, R65, R66, R69-R71, R79, R88, R120, R151, R187 and R221 allow in the
fields of a slot, and units that exist in a device step. -/

namespace Sys2Proof

/-- No guard by mask in a guard extension (R70). -/
def noMask (o : Option GExt) : Bool := !(o.map (·.me)).getD false
/-- A matrix-class guard extension names no mask (R70). -/
def mgOk (g : MG) : Bool := noMask g.gx
/-- A copy or guard-class guard extension names neither mask nor predicate (R70). -/
def cgOk (g : CG) : Bool := noMask g.gx && !(g.gx.map (·.pe)).getD false
/-- An immediate without its extension is sign-extended from the slot's own bits (R88). -/
def immOk28 (i : Imm 28) : Bool := i.ext || i.v == (i.v.extractLsb' 0 6).signExtend 28
def immOk34 (i : Imm 34) : Bool := i.ext || i.v == (i.v.extractLsb' 0 12).signExtend 34
def immOk40 (i : Imm 40) : Bool := i.ext || i.v == (i.v.extractLsb' 0 18).signExtend 40

/-- The instruction is one that a word encodes, or a step of units that exist. -/
def Instr.wf (i : Instr) : Bool :=
  match i with
  | .bundleIssue h => h.we || h.wd == 0#4
  | .nop => true
  | .add _ _ _ _ => true
  | .sub _ _ _ _ => true
  | .mul _ _ _ _ => true
  | .mulh _ _ _ _ => true
  | .div _ _ _ _ => true
  | .rem _ _ _ _ => true
  | .and _ _ _ _ => true
  | .or _ _ _ _ => true
  | .xor _ _ _ _ => true
  | .andn _ _ _ _ => true
  | .shl _ _ _ _ => true
  | .shr _ _ _ _ => true
  | .sar _ _ _ _ => true
  | .rol _ _ _ _ => true
  | .min _ _ _ _ => true
  | .max _ _ _ _ => true
  | .clz _ _ _ => true
  | .popc _ _ _ => true
  | .addImm _ _ _ i => immOk28 i
  | .subImm _ _ _ i => immOk28 i
  | .mulImm _ _ _ i => immOk28 i
  | .mulhImm _ _ _ i => immOk28 i
  | .divImm _ _ _ i => immOk28 i
  | .remImm _ _ _ i => immOk28 i
  | .andImm _ _ _ i => immOk28 i
  | .orImm _ _ _ i => immOk28 i
  | .xorImm _ _ _ i => immOk28 i
  | .andnImm _ _ _ i => immOk28 i
  | .shlImm _ _ _ i => immOk28 i
  | .shrImm _ _ _ i => immOk28 i
  | .sarImm _ _ _ i => immOk28 i
  | .rolImm _ _ _ i => immOk28 i
  | .minImm _ _ _ i => immOk28 i
  | .maxImm _ _ _ i => immOk28 i
  | .li _ _ i => immOk28 i
  | .liQ1 _ _ i => immOk28 i
  | .liQ2 _ _ i => immOk28 i && (i.v.extractLsb' 8 20 == 0#20)
  | .mov g k => !g.chk || (match k with | .gs _ => false | _ => true)
  | .sel _ _ _ _ => true
  | .cmp _ _ _ _ _ => true
  | .cmpImm _ _ _ _ i => immOk28 i
  | .fadd _ _ _ _ _ => true
  | .fsub _ _ _ _ _ => true
  | .fmul _ _ _ _ _ => true
  | .ffma _ _ _ _ _ => true
  | .fdiv _ _ _ _ _ => true
  | .fsqrt _ _ _ _ => true
  | .fcvt _ _ _ _ => true
  | .fcmp _ _ _ _ _ _ => true
  | .adda _ _ _ _ => true
  | .lea _ _ _ _ _ _ => true
  | .ld _ _ _ _ off => immOk28 off
  | .st g _ _ _ off => !g.chk && immOk28 off
  | .br g disp => !g.chk && immOk40 disp
  | .brp g _ _ disp => !g.chk && immOk34 disp
  | .brf g bit _ reg disp => !g.chk && immOk28 disp && (reg != 3#2) && (reg != 0#2 || decide (bit.toNat ≤ 33))
  | .call g _ disp => !g.chk && immOk34 disp
  | .ret g _ => !g.chk
  | .jmpi g _ disp => !g.chk && immOk28 disp
  | .loop g disp => !g.chk && immOk40 disp
  | .rds _ _ n => spListed n
  | .wrs g n _ => !g.chk && spWritable n
  | .enq g _ => !g.chk
  | .deq _ _ q => q != 0#3
  | .exit g _ => !g.chk
  | .uret g => !g.chk
  | .twaitTile g _ => !g.chk
  | .twaitLb g _ => !g.chk
  | .twaitAll g => !g.chk
  | .xselSet g p _ => !g.chk && p != 0#2
  | .xselAndnf g p _ => !g.chk && p != 0#2
  | .yselSet g p _ => !g.chk && p != 0#2
  | .yselAndnf g p _ => !g.chk && p != 0#2
  | .vadd _ _ _ _ _ => true
  | .vsub _ _ _ _ _ => true
  | .vmul _ _ _ _ _ => true
  | .vmin _ _ _ _ _ => true
  | .vmax _ _ _ _ _ => true
  | .vabs _ _ _ _ => true
  | .vneg _ _ _ _ => true
  | .vfma _ t _ _ _ => t.isFloat
  | .vfms _ t _ _ _ => t.isFloat
  | .vshl _ t _ _ _ => !t.isFloat
  | .vshr _ t _ _ _ => !t.isFloat
  | .vsar _ t _ _ _ => !t.isFloat
  | .vand _ _ _ _ => true
  | .vor _ _ _ _ => true
  | .vxor _ _ _ _ => true
  | .vnot _ _ _ => true
  | .vcmp _ _ _ _ _ _ => true
  | .vsel _ _ _ _ _ => true
  | .vmov _ _ => true
  | .vbc _ _ k => k != .head 1#3
  | .vcvt _ code _ _ => decide (code.toNat ≤ 12)
  | .vnrw _ d _ ve _ nf lane fmt => (fmt.getLsbD 1 || !lane.getLsbD 1) && (if nf then ve == 0#6 else d != ve)
  | .vwid _ code lane _ _ => decide (code.toNat ≤ 5) && (decide (code.toNat ≠ 0 ∧ code.toNat ≠ 1 ∧ code.toNat ≠ 4) || !lane.getLsbD 1)
  | .vrcp _ _ _ => true
  | .vrsq _ _ _ => true
  | .vexp2 _ _ _ => true
  | .vlog2 _ _ _ => true
  | .vsin _ _ _ => true
  | .vcos _ _ _ => true
  | .vtanh _ _ _ => true
  | .vrotx _ _ _ _ => true
  | .vbcx _ _ _ _ => true
  | .vredx _ op t _ _ push => redOk op t && (push.map fun x => decide (x.toNat < 16)).getD true
  | .vscanx _ op t _ _ => redOk op t
  | .vroty _ _ _ _ => true
  | .vbcy _ _ _ _ => true
  | .vredy _ op t _ _ _ => redOk op t
  | .vscany _ op t _ _ => redOk op t
  | .vcrw g _ => noMask g.gx
  | .vcrn _ _ _ => true
  | .vcrs _ _ _ => true
  | .vcre _ _ _ => true
  | .vcrwN _ _ _ => true
  | .vshuf _ _ _ _ _ => true
  | .shpld g e _ n => decide (e.toNat + n.toNat + 1 ≤ 64) && g.sp == 0#2 && !g.chk && noMask g.gx
  | .shpsw g => g.sp == 0#2 && !g.chk && noMask g.gx
  | .vflag _ _ => true
  | .vld _ _ _ off => immOk28 off
  | .vst _ _ _ off => immOk28 off
  | .vldv _ _ _ off => immOk28 off
  | .vrdacc _ _ _ _ => true
  | .vwracc _ _ _ _ => true
  | .mln g r _ => mgOk g && (match r with | .level l ke k => decide (l.toNat ≤ 5) && (ke || k == 0#4) | .header => true)
  | .mlnK g _ _ => mgOk g
  | .mgoIp g _ => mgOk g
  | .mgoOp g _ => mgOk g
  | .mgoRw g _ => mgOk g
  | .mms g _ => mgOk g
  | .mwt g _ => mgOk g
  | .mswp g => mgOk g
  | .mz g _ => mgOk g
  | .mst g _ res _ _ ef _ => mgOk g && (ef || res == 0#3)
  | .mla g _ _ _ => mgOk g
  | .mwait g => mgOk g
  | .mwaitWt g => mgOk g
  | .mstat g _ => mgOk g
  | .mstatClr g _ => mgOk g
  | .matrixCommandStart a _ => decide (a < 128)
  | .tileStep a => decide (a < 128)
  | .matrixCommandComplete a _ => decide (a < 128)
  | .mmsArrival a _ => decide (a < 128)
  | .holdExpiry quad => decide (quad < 32)
  | .stackStart quad _ => decide (quad < 32)
  | .stackWaitExpiry quad _ => decide (quad < 32)
  | .stackComplete quad _ => decide (quad < 32)
  | .cpy g _ => cgOk g
  | .cpyg g _ => cgOk g
  | .cpys g _ => cgOk g
  | .cpym g _ => cgOk g
  | .lblk g _ _ _ => cgOk g
  | .lblkRel g _ => cgOk g
  | .cbcfg g _ _ => cgOk g
  | .cbw g _ _ _ _ => cgOk g
  | .cbadvP g _ _ => cgOk g
  | .cbadvC g _ _ => cgOk g
  | .tdset g _ _ => cgOk g
  | .tdget g _ _ => cgOk g
  | .townRel g _ => cgOk g
  | .townClm g _ => cgOk g
  | .tcfg g _ => cgOk g
  | .ldwWf g _ _ off => cgOk g && immOk28 off
  | .nrd g _ _ _ => cgOk g
  | .nwr g _ _ _ => cgOk g
  | .nrdx g _ => cgOk g
  | .nsadd g _ => cgOk g
  | .nbin g _ => cgOk g
  | .natomAdd g _ scope r head _ _ => cgOk g && scopeOk scope && (r || head == 0#2)
  | .natomMin g _ scope r head _ _ => cgOk g && scopeOk scope && (r || head == 0#2)
  | .natomMax g _ scope r head _ _ => cgOk g && scopeOk scope && (r || head == 0#2)
  | .natomCas g _ scope r head _ b => cgOk g && scopeOk scope && (r || head == 0#2) && decide (b.toNat ≤ 62)
  | .natomXchg g _ scope r head _ _ => cgOk g && scopeOk scope && (r || head == 0#2)
  | .natomAnd g _ scope r head _ _ => cgOk g && scopeOk scope && (r || head == 0#2)
  | .natomOr g _ scope r head _ _ => cgOk g && scopeOk scope && (r || head == 0#2)
  | .nred g op t _ => cgOk g && redOk op t
  | .nmcst g _ _ => cgOk g
  | .ndrain g scope post => cgOk g && scopeOk scope && postOk post
  | .eqx g => cgOk g
  | .gbar g _ post => cgOk g && postOk post
  | .copyCommandComplete a _ => decide (a < 128)
  | .remoteAccessPerform a _ _ => decide (a < 128)
  | .eqxArrival a _ => decide (a < 128)
  | .gbarArrival a _ => decide (a < 128)
  | .multicastRequestArrival a _ => decide (a < 128)
  | .multicastWindowExpiry die _ => decide (die < 4)
  | .cacheFillComplete _ => true
  | .vgl g _ => cgOk g
  | .sgl g _ => cgOk g
  | .gla g _ => cgOk g
  | .glb g _ => cgOk g
  | .csrrd _ _ => true
  | .csrwr _ _ => true
  | .tlbinv _ _ => true
  | .fbfl => true
  | .ctxsv _ => true
  | .ctxld _ => true
  | .halt => true
  | .ecall _ => true
  | .xret => true
  | .userInterruptAccept a => decide (a < 128)
  | .taskDispatch part => decide (part < 4)
  | .sliceExpiry a => decide (a < 128)
  | .preemption a => decide (a < 128)
  | .exitComplete a => decide (a < 128)
  | .taskKill a => decide (a < 128)
  | .taskPark a => decide (a < 128)
  | .quadPowerGate quad => decide (quad < 32)
  | .quadWakeComplete quad => decide (quad < 32)
  | .walkEnd die _ _ => decide (die < 4)
  | .shootdownStart die _ _ _ _ => decide (die < 4)
  | .shootdownAck die a => decide (die < 4) && decide (a < 128)
  | .asyncReadGrant a grp _ => decide (a < 128) && decide (grp < 16)
  | .puqRetirement a grp => decide (a < 128) && decide (grp < 16)
  | .staleRebuild a grp => decide (a < 128) && decide (grp < 16)
  | .patrolScrub a grp => decide (a < 128) && decide (grp < 16)
  | .scrubTimeout a grp => decide (a < 128) && decide (grp < 16)
  | .eccWriteback _ => true
  | .bankRetire a _ => decide (a < 128)
  | .groupRetire a => decide (a < 128)
  | .queueServiceSlot die core pos => decide (die < 4) && decide (core < 4) && decide (pos < 64)
  | .nopPacket q => decide (q < 256)
  | .launch q _ => decide (q < 256)
  | .write q _ _ => decide (q < 256)
  | .signal q _ _ _ => decide (q < 256)
  | .writesig q _ _ _ _ _ => decide (q < 256)
  | .wait q _ _ _ _ => decide (q < 256)
  | .ffence q => decide (q < 256)
  | .barrier q => decide (q < 256)
  | .copy q _ _ _ => decide (q < 256)
  | .timestamp q _ _ => decide (q < 256)
  | .replay q _ _ _ => decide (q < 256)
  | .replayPassStart part => decide (part < 4)
  | .packetComplete q _ => decide (q < 256)
  | .tailWrite q _ => decide (q < 256)
  | .doorbell f q _ => decide (f < 4) && decide (q < 256)
  | .faultPollSlot die => decide (die < 4)
  | .monitorSlot die _ _ _ => decide (die < 4)
  | .mailboxSlot part => decide (part < 4)
  | .regq part q _ die core pos => decide (part < 4) && decide (q < 256) && decide (die < 4) && decide (core < 4) && decide (pos < 64)
  | .destroyq part q => decide (part < 4) && decide (q < 256)
  | .recoverq part q _ => decide (part < 4) && decide (q < 256)
  | .quote part _ _ => decide (part < 4)
  | .partcfg part _ _ _ _ _ => decide (part < 4)
  | .partreset part => decide (part < 4)
  | .partparam part _ => decide (part < 4)
  | .quadpol part die quad _ _ _ => decide (part < 4) && decide (die < 4) && decide (quad < 32)
  | .ctxset part _ _ _ _ _ _ => decide (part < 4)
  | .counters part _ => decide (part < 4)
  | .shoot part _ _ _ _ => decide (part < 4)
  | .registerBlockAccess dev f _ _ _ => decide (dev < 64) && decide (f < 4)
  | .hostAtomicop f _ _ _ _ => decide (f < 4)
  | .registerWrite _ _ => true
  | .flitReplay port ch _ => decide (port < 16) && decide (ch < 4)
  | .linkRetrain port _ => decide (port < 16)
  | .closRetransmit _ _ => true
  | .expanderFailure die => decide (die < 4)
  | .deviceReset _ => true
  | .dieChecksComplete die _ => decide (die < 4)
  | .hostBar2Write f _ _ => decide (f < 4)

end Sys2Proof
end

