-- ==== Sys2Proof/Safety.lean ====
section
/-! DEFINITION. The terms the statements use: the canonical form of memory, when a slot may execute (R59, R60, R72, R76, R222), what the
issue of a bundle does to the machine beside the effect of its slot (R8, R9, R20-R22, R281), and where results become visible (R82, R86). -/

namespace Sys2Proof.Machine

open Sys2Proof

/-- Memory is in its canonical form: addresses strictly rising, no entry equal to what an unlisted address reads as. -/
def Memory.wf (m : List Host.Cell) : Bool := SMap.wf 0#8 m

/-! ## When a slot may execute -/

/-- The array at the issue point. -/
def State.here (s : State) : Arr := s.getA s.cur

/-- A predicate that guards is 1 and clean (R72, R76). -/
def Arr.open_ (x : Arr) (p : BitVec 3) : Bool := x.pGet p && !x.pPois p
/-- The guards by predicate and stage of a guard extension are 1 and clean (R70, R72). -/
def Arr.openGx (x : Arr) (o : Option GExt) : Bool :=
  match o with
  | none => true
  | some e => (!e.pe || x.open_ e.pi) && (!e.ge || bitAt x.sca.g e.gi.toNat)
/-- Registers named lie within the allocation; sources are valid and no split source fails (R59, R60, R222). -/
def Arr.operands (x : Arr) (named srcs : List RR) : Bool :=
  (named.all fun r => !r.unalloc x) && srcs.all fun r => !r.invalid x && !r.splitBad x

/-- A scalar slot, no check copy, executes: its guard is 1 and its operands can be read. -/
def Arr.readyS (x : Arr) (g : SG) (named srcs : List RR) : Bool := !g.chk && x.open_ g.p && x.operands named srcs
/-- The same of a vector slot; the mask of its guard extension is a source. -/
def Arr.readyV (x : Arr) (g : VG) (named srcs : List RR) : Bool :=
  !g.chk && x.openGx g.gx && x.operands (named ++ (srcs ++ (VG_mask g).toList.map .m)) (srcs ++ (VG_mask g).toList.map .m)
/-- The same of a matrix slot. -/
def Arr.readyM (x : Arr) (g : MG) (named srcs : List RR) : Bool := x.openGx g.gx && x.operands named srcs
/-- The same of a copy or guard slot. -/
def Arr.readyC (x : Arr) (g : CG) (named srcs : List RR) : Bool := x.open_ g.p && x.openGx g.gx && x.operands named srcs

/-- No word of the register storage of the array at the issue point holds a storage error, so that reading it corrects nothing (R302, R313). -/
def State.regsSound (s : State) : Bool := s.err.all fun e => decide (e.1 < regKey s.cur 0 0) || decide (regKey (s.cur + 1) 0 0 ≤ e.1)
/-- A scalar slot executes at the issue point, where the registers it reads await no correction. -/
def State.readyS (s : State) (g : SG) (named srcs : List RR) : Bool := s.regsSound && s.here.readyS g named srcs
/-- The same of a vector slot. -/
def State.readyV (s : State) (g : VG) (named srcs : List RR) : Bool := s.regsSound && s.here.readyV g named srcs
/-- The same of a matrix slot. -/
def State.readyM (s : State) (g : MG) (named srcs : List RR) : Bool := s.regsSound && s.here.readyM g named srcs
/-- The same of a copy or guard slot. -/
def State.readyC (s : State) (g : CG) (named srcs : List RR) : Bool := s.regsSound && s.here.readyC g named srcs

/-- The slot of a bundle that holds the plain header, one slot with `ext` extension words, and `NOP`s. -/
def State.slot (s : State) (ext : Nat) : Ctx := ⟨s.cur, s.now, s.here.sca.pc, max 4 (2 + ext), 1, 0#8, 0, false⟩

/-! ## What the issue of a bundle does -/

/-- A bundle of `len` words with `nv` executing vector slots and `nsq` squashed slots begins to issue: the next in sequence follows at T + 1
(R82, R105), events 1, 2, 9 and 15 count it (R281), and a chain marks the cycle (R23). -/
def Arr.began (x : Arr) (now len nv nsq : Nat) (executes : Bool) : Arr :=
  let after := match x.cel.vflagAt with
    | some v => decide (v < now) && decide (now ≤ v + 18)
    | none => false
  let y := x.modSca fun r => 
    { r with pc := r.pc + BitVec.ofNat 32 (4 * len), far := false, readyAt := now + 1, issuedAt := some now, hWait := x.atS && r.hWait }
  let y := ((y.count 1 1).count 2 nv).count 15 nsq
  let y := if !executes && after then y.count 9 1 else y
  if 1 < x.tsk.nranks then y.modCel fun e => { e with cfTimes := e.cfTimes ++ [now] } else y

/-- Array `b` after the issue of the bundle at `cur`, whose array is then `z`: the next member of a chain gets its code offset 16 + `dhop` cycles
later, marked where the bundle ends the chain (R20, R22, R24). -/
def State.fed (s : State) (z : Arr) (b : Nat) (y : Arr) : Arr :=
  let x := s.here
  if !x.atS && x.tsk.members[x.tsk.rank + 1]? == some b then
    y.modTsk fun k => { k with stream := k.stream ++ [(s.now + 16 + x.tsk.dhop, x.sca.pc, z.ending)] }
  else y

/-- `t` follows `s` by the issue of one bundle: its array is now `x`, the next member of a chain has been sent the bundle, and every other array
and every other part of the machine (memory, queues, tasks, devices) is unchanged. -/
structure Issued (s t : State) (x : Arr) : Prop where
  arr : ∀ b, t.getA b = s.fed x b (if b = s.cur then x else s.getA b)
  rest : t = { s with arr := t.arr }

/-- The instruction executes at the issue point, in a bundle with `ext` extension words: the next state has the array that `f` makes of the one
that has begun to issue. -/
def Executes (i : Instr) (s : State) (ext nv : Nat) (f : Arr → Arr) : Prop :=
  ∃ t, exec i s = .next t ∧ Issued s t (f (s.here.began s.now (max 4 (2 + ext)) nv 0 true))

/-- The same of a slot whose checks look up translations, which leaves the state `u` before anything issues (R281, R289). -/
def ExecutesFrom (i : Instr) (s u : State) (ext nv : Nat) (f : Arr → Arr) : Prop :=
  ∃ t, exec i s = .next t ∧ Issued u t (f (u.here.began s.now (max 4 (2 + ext)) nv 0 true))

/-! ## Results -/

/-- A write of slot 1 that becomes visible `l` cycles after `now` (R8, R10, R86). -/
def Arr.later (x : Arr) (now l : Nat) (w : Wr) : Arr := x.push (now + l) (ordOf now 1) w
/-- A scalar result of latency `l`: `s0` to `s63` with its valid bit, `sh0` to `sh7` while the handler is active (R58, R60, R86, R114, R259). -/
def Arr.putS (x : Arr) (now l : Nat) (d : R6) (v : PV) : Arr :=
  if x.inHandler && decide (56 ≤ d.toNat) then x.later now l (.sh (d.toNat - 56) v)
  else
    let y := x.later now l (.s d.toNat v)
    if x.atS then y else y.modSca fun r => { r with sv := bitSet r.sv d.toNat true }
/-- An address result of latency 1 (R98). -/
def Arr.putA (x : Arr) (now : Nat) (d : BitVec 4) (v : PA) : Arr :=
  let y := x.later now 1 (.a d.toNat v)
  if x.atS then y else y.modSca fun r => { r with av := bitSet r.av d.toNat true }
/-- A predicate result (R94). -/
def Arr.putP (x : Arr) (now l : Nat) (d : BitVec 3) (b pz : Bool) : Arr := x.later now l (.p d.toNat b pz)
/-- Status flags, or nothing when none is raised (R49). -/
def Arr.putF (x : Arr) (now l : Nat) (f : Fl) : Arr :=
  if f = 0#7 then x else x.push (now + l) (flagOrd (now + l)) (.fflags f)

/-- A scalar result: instruction, extension words, latency, destination, value, flags. -/
def ResultS (i : Instr) (s : State) (ext l : Nat) (d : R6) (v : PV) (f : Fl) : Prop :=
  Executes i s ext 0 fun x => (x.putS s.now l d v).putF s.now l f
/-- An address result. -/
def ResultA (i : Instr) (s : State) (ext : Nat) (d : BitVec 4) (v : PA) : Prop := Executes i s ext 0 fun x => x.putA s.now d v
/-- A predicate result. -/
def ResultP (i : Instr) (s : State) (ext l : Nat) (d : BitVec 3) (b pz : Bool) (f : Fl) : Prop :=
  Executes i s ext 0 fun x => (x.putP s.now l d b pz).putF s.now l f
/-- A write of a special register or selector, seen by bundles of T + 1 and later (R82). -/
def WritesX (i : Instr) (s : State) (w : Wr) : Prop := Executes i s 0 0 fun x => x.later s.now 1 w

/-! ## Rounding (R40, R46, R50) -/

/-- `n` is the integer that a mode rounds a number to. -/
def RoundsTo (rm : Rm) (x : ℝ) (n : Int) : Prop :=
  match rm with
  | .rne => |x - n| ≤ 1 / 2 ∧ (|x - n| = 1 / 2 → n % 2 = 0)
  | .rz => |(n : ℝ)| ≤ |x| ∧ |x| < |(n : ℝ)| + 1 ∧ 0 ≤ n * x
  | .ru => x ≤ n ∧ (n : ℝ) < x + 1
  | .rd => (n : ℝ) ≤ x ∧ x < n + 1
/-- The real number that a finite value is. -/
def FV.Is (x : FV) (r : ℝ) : Prop :=
  match x with
  | .fin s m e => r = (if s then -1 else 1) * m * (2 : ℝ) ^ e
  | _ => False
/-- `o` is the number `r` rounded once into a format, with its flags: to the format's precision with an unbounded exponent it exceeds the largest finite
value (overflow), falls below the least normal one (tiny), or neither. A zero has the sign `neg` (R40, R47, R50). -/
def Rounded (f : Fmt) (c : RCtl) (r : ℝ) (neg : Bool) (o : Nat × Fl) : Prop :=
  (r = 0 → o = (f.zeroBits neg, 0#7)) ∧
  (r ≠ 0 → ∃ (k m n : Int) (s : Bool), (s = true ↔ r < 0) ∧ (2 : ℝ) ^ k ≤ |r| ∧ |r| < (2 : ℝ) ^ (k + 1) ∧
    let least : Int := 1 - f.bias
    let p := max (k - f.fw) (least - f.fw)
    let u : ℝ := m * (2 : ℝ) ^ (k - f.fw)
    let v : ℝ := n * (2 : ℝ) ^ p
    RoundsTo c.rm (r / (2 : ℝ) ^ (k - f.fw)) m ∧ RoundsTo c.rm (r / (2 : ℝ) ^ p) n ∧
    let big : Prop := f.maxM * (2 : ℝ) ^ f.maxE < |u|
    let tiny : Prop := |u| < (2 : ℝ) ^ least
    let most : Prop := f.val false o.1 = .fin s f.maxM f.maxE
    let inf : Prop := f.val false o.1 = .inf s
    (big → o.2 = Fl.ovf ||| Fl.nx ∧ o.1 < 2 ^ f.width ∧
      if f.e4m3 ∨ (f.e5m2 ∧ c.f8sat) then most
      else match c.rm with
        | .rne => inf
        | .rz => most
        | .ru => if s then most else inf
        | .rd => if s then inf else most) ∧
    (¬big → tiny → c.ftz = true → o = (f.zeroBits s, Fl.unf ||| Fl.nx)) ∧
    (¬big → ¬(tiny ∧ c.ftz = true) → o.1 < 2 ^ f.width ∧ (∃ h e, f.val false o.1 = .fin s h e ∧ (FV.fin s h e).Is v) ∧
      (v = r → o.2 = 0#7) ∧ (v ≠ r → tiny → o.2 = Fl.nx ||| Fl.unf) ∧ (v ≠ r → ¬tiny → o.2 = Fl.nx)))

/-! ## Reductions (R133) -/

/-- Two elements combined lane by lane by an op of R133 in a type. -/
def combine (op : BitVec 3) (t : VT) (c : RCtl) (x y : W32) : W32 × Fl :=
  let w := match t with | .i32 => 32 | .f32 => 32 | .i8 => 8 | _ => 16
  let F := match t with | .f32 => fmt32 | .bf16 => fmtBf16 | _ => fmtF16
  let A (j : Nat) : Nat := x.toNat / 2 ^ (w * j) % 2 ^ w
  let B (j : Nat) : Nat := y.toNat / 2 ^ (w * j) % 2 ^ w
  let sg (n : Nat) : Int := if 2 ^ (w - 1) ≤ n then (n : Int) - 2 ^ w else n
  let h (j : Nat) : Nat × Fl :=
    match op.toNat, t.isFloat with
    | 0, true => F.add c (A j) (B j)
    | 1, true => (F.minmax c.ftz true (A j) (B j), 0#7)
    | 2, true => (F.minmax c.ftz false (A j) (B j), 0#7)
    | 0, false => ((A j + B j) % 2 ^ w, 0#7)
    | 1, false => (if sg (A j) ≤ sg (B j) then B j else A j, 0#7)
    | 2, false => (if sg (A j) ≤ sg (B j) then A j else B j, 0#7)
    | 3, _ => (A j &&& B j, 0#7)
    | 4, _ => (A j ||| B j, 0#7)
    | _, _ => (A j ^^^ B j, 0#7)
  (BitVec.ofNat 32 (((List.range (32 / w)).map fun j => (h j).1 % 2 ^ w * 2 ^ (w * j)).sum),
    (List.range (32 / w)).foldl (fun m j => m ||| (h j).2) 0#7)
/-- The identity of an op in every lane. -/
def identity (op : BitVec 3) (t : VT) : W32 :=
  let w := match t with | .i32 => 32 | .f32 => 32 | .i8 => 8 | _ => 16
  let F := match t with | .f32 => fmt32 | .bf16 => fmtBf16 | _ => fmtF16
  let e : Nat := match op.toNat, t.isFloat with
    | 0, true => F.zeroBits true
    | 1, true => F.infBits true
    | 2, true => F.infBits false
    | 1, false => 2 ^ (w - 1)
    | 2, false => 2 ^ (w - 1) - 1
    | 3, _ => 2 ^ w - 1
    | _, _ => 0
  BitVec.ofNat 32 (((List.range (32 / w)).map fun j => e * 2 ^ (w * j)).sum)
/-- A balanced binary tree of 2^n elements, the `i`th such group of them. -/
def balanced (f : W32 → W32 → W32 × Fl) (n : Nat) (x : Nat → W32) (i : Nat) : W32 × Fl :=
  match n with
  | 0 => (x i, 0#7)
  | n + 1 =>
    let l := balanced f n x (2 * i)
    let r := balanced f n x (2 * i + 1)
    ((f l.1 r.1).1, l.2 ||| r.2 ||| (f l.1 r.1).2)
/-- The sequential combination of elements 0 to n, the first one taken as `x0`. -/
def sequential (f : W32 → W32 → W32 × Fl) (x0 : W32) (x : Nat → W32) (n : Nat) : W32 × Fl :=
  match n with
  | 0 => (x0, 0#7)
  | n + 1 =>
    let l := sequential f x0 x n
    ((f l.1 (x (n + 1))).1, l.2 ||| (f l.1 (x (n + 1))).2)
/-- A single element as a scan gives it: a floating lane flushed, its NaN canonical. -/
def alone (t : VT) (c : RCtl) (x : W32) : W32 :=
  let w := match t with | .f32 => 32 | _ => 16
  let F := match t with | .f32 => fmt32 | .bf16 => fmtBf16 | _ => fmtF16
  if t.isFloat then
    BitVec.ofNat 32 (((List.range (32 / w)).map fun j =>
      (F.round c (F.val c.ftz (x.toNat / 2 ^ (w * j) % 2 ^ w))).1 % 2 ^ w * 2 ^ (w * j)).sum)
  else x

/-! ## Checks of memory operands -/

/-- An own-scratchpad access of `n` bytes at `ea` through an address register meets none of POISONKILL, ALIGN, BOUNDS, TBUSY and, when it reads,
INVTILE (R100, R145, R155, R191). -/
def Arr.spadOk (x : Arr) (aa : PA) (ea : Addr) (align n : Nat) (load : Bool) : Bool :=
  !aa.p && ea.toNat % align == 0 && (match x.tsk.ownOff 0 ea with
  | none => false
  | some off => x.tsk.inAlloc off n && !x.anyEngine (x.tilesOf off n) && !(load && x.anyInvalid (x.tilesOf off n)))
/-- A record of `n` bytes can be read through an address register: the access meets no check and no word of it is poisoned (R155, R188). -/
def State.recOk (s : State) (a : BitVec 4) (align n : Nat) : Bool :=
  let x := s.here
  x.spadOk (x.aGet a) (x.aGet a).v align n true && !s.spadPoisN s.cur (x.localOff (x.spOff (x.aGet a).v)) n
/-- The words that a local read of `n` bytes at an offset touches hold no storage error and no bank of the array is retired, so that the read corrects and
reconstructs nothing (R234, R302, R303). -/
def State.soundAt (s : State) (off n : Nat) : Bool :=
  let o := s.here.localOff off
  s.here.itg.rbank == 0#64 && (List.range ((o + n - 1) / 4 + 1 - o / 4)).all fun i => SMap.get 0 s.err (granule (spadKey s.cur (4 * (i + o / 4)))) == 0
/-- The bytes a record holds, as a number. -/
def State.record (s : State) (a : BitVec 4) (n : Nat) : Nat :=
  s.readN (spadKey s.cur (s.here.localOff (s.here.spOff (s.here.aGet a).v))) n
/-- The target of a taken transfer is a code offset of the image in use, a multiple of 4 (R73, R105). -/
def State.targetOk (s : State) (t : Int) : Bool :=
  t % 4 == 0 && decide (0 ≤ t) && decide (t < 4 * ((s.imageOf s.here).length : Int))
/-- A taken transfer: the next bundle is the target's, at T + 2 (R82, R105). -/
def Arr.jump (x : Arr) (now : Nat) (t : Int) : Arr := x.modSca fun r => { r with pc := BitVec.ofInt 32 t, readyAt := now + 2 }
/-- The outcome of a conditional branch enters the task's signature (R335). -/
def Arr.outcome (x : Arr) (taken : Bool) : Arr := x.modTsk fun k => { k with c1 := crc64Byte k.c1 (if taken then 1#8 else 0#8) }
/-- The target of a displacement in words from the bundle at the issue point (R105). -/
def State.target {n : Nat} (s : State) (d : BitVec n) : Int := (s.here.sca.pc.toNat : Int) + 4 * d.toInt

/-- A store of this cycle at an offset, in its place among the cycle's stores (R102, R146). -/
def Arr.store (x : Arr) (now off : Nat) (l : List Byte) (p : Bool) : Arr :=
  x.modCel fun e => { e with stq := stIns e.stq ⟨ordOf now 1, off, l, p, false⟩ }

/-! ## Vector slots -/

/-- The slot enters the wavefront with what it captured, and its destinations become valid (R8, R11, R13, R60). -/
def Arr.wave (x : Arr) (i : Instr) (cap : Cap) (dst : List RR) : Arr :=
  setValid (x.modCel fun e => { e with waves := e.waves ++ [⟨i, cap, [], 0#7, false⟩] }) dst
/-- What a vector slot captures at T: its selector pair's bits, its mask, the rotation and number modes as they stand, a scalar operand, an
effective address and a shuffle entry (R13, R14, R48, R62, R117). -/
def State.cap (s : State) (g : VG) (nb : Nat) (sc : PV) (ea : Addr) (sh : ShE) : Cap :=
  let x := s.here
  { t := s.now, slot := 1
    xs := if g.sp = 0#2 then BitVec.allOnes 64 else SMap.get 0#64 x.sca.xsel g.sp.toNat
    ys := if g.sp = 0#2 then BitVec.allOnes 16 else SMap.get 0#16 x.sca.ysel g.sp.toNat
    gm := VG_mask g
    rrb := x.sca.rrb, rm := x.sca.fpcsr.extractLsb' 0 2, ftz := bitAt x.sca.fpcsr 3, f8sat := bitAt x.sca.fpcsr 4
    sc := sc, ea := ea, sh := sh, dup := 0, bn := nb }
/-- Bundles a chain member has marked, the one at the issue point included (R23). -/
def State.marks (s : State) : Nat :=
  if 1 < s.here.tsk.nranks then s.here.cel.cfTimes.length + 1 else s.here.cel.cfTimes.length
/-- The slot is issued to the wavefront: extension words, guards, destinations, captured scalar, address and shuffle entry. -/
def Waves (i : Instr) (s : State) (ext : Nat) (g : VG) (dst : List RR) (sc : PV) (ea : Addr) (sh : ShE) : Prop :=
  Executes i s ext 1 fun x => x.wave i (s.cap g s.marks sc ea sh) dst

/-! ## Commands -/

/-- The bytes a record holds, as a bit string. -/
def State.recBits (s : State) (a : BitVec 4) (n : Nat) : BitVec (8 * n) := BitVec.ofNat (8 * n) (s.record a n)
/-- A record that can be read and awaits no correction. -/
def State.recClean (s : State) (a : BitVec 4) (align n : Nat) : Bool :=
  s.recOk a align n && s.soundAt (s.here.spOff (s.here.aGet a).v) n
/-- A matrix command takes its number, its tiles and its place in the queue; event 18 counts it (R150, R281). -/
def Arr.matCommand (x : Arr) (now : Nat) (k : MKind) (ui : Bool) (tiles : List Nat) : Arr :=
  ((x.setOwn tiles true).modMat fun m =>
    { m with seq := m.seq + 1, cmds := m.cmds ++ [⟨m.seq, k, ui, tiles, now, false, false, none, 0#7, 0#9, x.trCap, [], [], none, 0⟩] }).count 18 1
/-- The valid bits of accumulator tiles set at issue, outside S (R60). -/
def Arr.accValid (x : Arr) (l : List Nat) : Arr :=
  if x.atS then x else x.modCel fun c => { c with accv := l.foldl (fun v n => bitSet v n true) c.accv }
/-- The copy-class command that a preparation makes of an array (R186, R189, R194, R204). -/
def CPrep.command (p : CPrep) (x : Arr) (now : Nat) : CCmd :=
  let slot (src : Bool) (k : Nat) : Nat × Nat :=
    (k, (if src then (SMap.get CBuf.none x.cpy.cb k).tk else (SMap.get CBuf.none x.cpy.cb k).res).toNat)
  { seq := x.cpy.seq, n := x.cpy.nissue, kind := p.kind, desc := p.desc, tds := p.tds, tdd := p.tdd, tr := x.trCap,
    tiles := (p.spans.flatMap fun e => x.tilesOf e.1 e.2.1).dedup, post := p.post, ui := p.ui, scb := p.scb.map (slot true),
    dcb := p.dcb.map (slot false), t := now, nth := (p.coll.map fun k => SMap.get 0 x.cpy.coll k).getD 0, lbuf := [], plan := none,
    count := 0, oob := false, ovf := false, empty := false, fault := false, pz := false, arrived := false, whole := false, park := none,
    inord := false, old := none }
/-- The array after the issue of a copy-class command: number, place in the queue, tiles engine-owned, ring slots taken, collective
counted, reply entry reserved, event 17 (R186, R189, R194, R204, R214, R281). -/
def Arr.command (x : Arr) (now : Nat) (p : CPrep) : Arr :=
  let m := p.command x now
  let ring (k : Option Nat) (src : Bool) (y : Cpy) : Cpy := (k.map fun n => takeSlot src n y).getD y
  let y := (x.setOwn m.tiles true).modCpy fun y =>
    let y := ring p.dcb false (ring p.scb true { y with seq := y.seq + 1, nissue := y.nissue + 1, cmds := y.cmds ++ [m] })
    (p.coll.map fun k => { y with coll := SMap.mod 0 y.coll k (· + 1) }).getD y
  (match postHead p.post with
    | some q => y.modSca fun r => { r with heads := SMap.mod [] r.heads q fun l => l ++ [(⟨m.seq, none⟩ : RQ)] }
    | none => y).count 17 1
/-- The storage of the reply entry that a command reserves holds no error any more (R302). -/
def State.reserved (s : State) (p : CPrep) : State :=
  match postHead p.post with
  | some q => let k := q + 8 * (SMap.get [] s.here.sca.heads q).length; s.regsNew s.cur 10 k (k + 1)
  | none => s
/-- A command whose preparation is known issues, from the state `u` that the look-ups of its checks leave. -/
def CommandsFrom (i : Instr) (s u : State) (ext : Nat) (p : CPrep) : Prop :=
  ∃ t, exec i s = .next t ∧ Issued (u.reserved p) t ((u.here.began s.now (max 4 (2 + ext)) 0 0 true).command s.now p)
/-- A command whose preparation is known issues: extension words and preparation. -/
def Commands (i : Instr) (s : State) (ext : Nat) (p : CPrep) : Prop := CommandsFrom i s s ext p
/-- A descriptor copy that passes every check of R188 with a preparation: its record clean, its fields and operands in order, room for it. -/
def State.prepared (s : State) (ext : Nat) (a : BitVec 4) (r : Except Trap CPrep) (p : CPrep) : Prop :=
  s.recClean a 128 128 = true ∧ r = .ok p ∧ p.traps (s.slot ext) s.here = []

/-! ## Traps -/

/-- The instruction takes a precise trap at the issue point, in a bundle of `len` words: its array is the one that `Arr.trap` gives, every
other array and every other part of the machine is unchanged (R24, R260, R261). -/
def Traps (i : Instr) (s : State) (len : Nat) (t : Trap) : Prop :=
  ∃ u, exec i s = .next u ∧
    (∀ b, u.getA b = if b = s.cur then (s.here.trap s.now len s.here.sca.pc t).modSca fun r => { r with issuedAt := some s.now } else s.getA b) ∧
    u = { s with arr := u.arr }

/-! ## Packets -/

/-- No unit of 64 bytes that a range of SPACE 0 or 1 touches holds a storage error, in memory or in its cache slice, so that an access to it corrects nothing
(R302, R313). -/
def State.memSound (s : State) (pa n : Nat) : Bool :=
  (units64 pa n).all fun u => [u, cacheKey u].all fun k => s.err.all fun e => !(decide (k ≤ e.1) && decide (e.1 < k + 64))

/-- A packet is where a command processor may consume it: its slot lies in SPACE 0, away from every registered queue's descriptor, neither holds a storage
error, and no packet of the queue that has completed waits for an earlier one. -/
structure Tidy (s : State) (q : Nat) (f : Fetched) : Prop where
  on : (s.getU q).on = true
  space : spaceOf (s.qSlot q f.idx) = 0
  apart : ∀ e ∈ s.queue, e.2.on = true → s.qSlot q f.idx + 64 ≤ e.2.desc ∨ e.2.desc + 128 ≤ s.qSlot q f.idx
  sound : s.memSound (s.qSlot q f.idx) 8 = true
  desc : s.memSound ((s.getU q).desc + 32) 24 = true
  fin : (s.getU q).fin = []

/-- Processing ends: VALID is cleared in the slot, RIX advances, the kept slot goes; nothing else changes in memory (R321). -/
structure Consumed (s t : State) (q : Nat) (f : Fetched) : Prop where
  rix : t.readN ((s.getU q).desc + 32) 8 = (f.idx + 1) % 2 ^ 64
  slot : t.readN (s.qSlot q f.idx) 8 = recN f.bytes 0 8 - recN f.bytes 0 8 / 256 % 2 * 256
  kept : (t.getU q).kept = (s.getU q).kept.filter fun x => x.idx != f.idx
  arr : t.arr = s.arr
  tasks : t.task = s.task

/-- A packet completes with its processing: consumed, and CSEQ passes it once every earlier one has completed (R325). -/
structure Completed (s t : State) (q : Nat) (f : Fetched) : Prop where
  consumed : Consumed s t q f
  seq : t.readN ((s.getU q).desc + 48) 8 = if s.qCseq q = f.idx then (f.idx + 1) % 2 ^ 64 else s.qCseq q
  other : ∀ k, (k < (s.getU q).desc + 32 ∨ (s.getU q).desc + 40 ≤ k) → (k < (s.getU q).desc + 48 ∨ (s.getU q).desc + 56 ≤ k) →
    (k < s.qSlot q f.idx ∨ s.qSlot q f.idx + 8 ≤ k) → t.byte k = s.byte k
  rest : t = { s with mem := t.mem, pois := t.pois, queue := t.queue, dev := t.dev }

/-- The physical address of an address of the queue's heap window (R284). -/
def State.winPa (s : State) (q : Nat) (va : Addr) : Nat := (va.toNat + at16 (s.qTr q).off) % 2 ^ 72
/-- `n` bytes of the queue's heap window, in mapped memory of SPACE 0 or 1 without a storage error, away from every registered queue's descriptor and from a
slot. -/
def State.winOk (s : State) (q : Nat) (va : Addr) (n slot : Nat) : Prop :=
  let pa := s.winPa q va
  at16 (s.qTr q).base ≤ va.toNat ∧ va.toNat + n ≤ at16 (s.qTr q).limit ∧ va.toNat + n ≤ 0xFF * 2 ^ 64 ∧ pa + n ≤ 2 ^ 69 ∧
  spaceOf pa = spaceOf (pa + n - 1) ∧ (∀ i < n, s.mapped (s.qTr q).part (pa + i) = true) ∧ (pa + n ≤ slot ∨ slot + 64 ≤ pa) ∧
  s.memSound pa n = true ∧ ∀ e ∈ s.queue, e.2.on = true → pa + n ≤ e.2.desc ∨ e.2.desc + 128 ≤ pa
/-- Bytes of memory alone are written: those given, at an address. -/
structure WritesAt (s m : State) (pa : Nat) (l : List Byte) : Prop where
  bytes : ∀ i < l.length, m.byte (pa + i) = l.getD i 0#8
  other : ∀ k, (k < pa ∨ pa + l.length ≤ k) → m.byte k = s.byte k
  rest : m = { s with mem := m.mem, pois := m.pois }

/-! ## The mailbox -/

/-- The request is answered with a status, in the state `u` that its effect leaves (R341). -/
def Answers (i : Instr) (s u : State) (p status : Nat) : Prop := exec i s = .next (u.reply p status)

end Sys2Proof.Machine
end

