-- ==== Sys2Proof/Certificates/Slice0/Obligations.lean ====
section
/-! DEFINITION. The statements for the provers: what each instruction and device step does, what taking a trap and returning from one do, what the
machine's step, decoding and memory keep. -/

open Sys2Proof Sys2Proof.Machine

/-! ## Words and instructions (R64-R79) -/

/-- R64, R66, R69-R71, R88, R120, R151, R187, R221, R223: words written out from the encodings decode to the instructions they stand for. -/
def Obligations.DecodeWords : Prop :=
  let Reads (l : List W32) (i : Instr) : Prop := decode l = .ok (i, [])
  Reads [0x0083_0422] (.add ⟨false, 2⟩ 3 1 2) ∧
  Reads [0x2028_A6A4] (.vadd ⟨1, false, none⟩ .f32 40 41 42) ∧
  Reads [0x0C04_0840] (.ld ⟨false, 0⟩ 2 4 2 ⟨4, false⟩) ∧
  Reads [0x0040_0000] .nop ∧
  Reads [0x3B85_0C00, 0x7FC0_0005] (.vredy ⟨0, false, none⟩ 0 .f32 5 3 (some 5)) ∧
  Reads [0x4106_08D0] (.vrdacc ⟨0, false, none⟩ 6 2 13) ∧
  Reads [0x5000_0C00] (.mln ⟨none⟩ (.level 0 false 0) 3) ∧
  Reads [0x5280_0000] (.mwait ⟨none⟩) ∧
  Reads [0x6000_0C00] (.cpy ⟨none, 0⟩ 3) ∧
  Reads [0x62C0_1400] (.townRel ⟨none, 0⟩ 5) ∧
  Reads [0x6782_0C00] (.gbar ⟨none, 0⟩ 2 3) ∧
  Reads [0x1040_0000] (.exit ⟨false, 0⟩ none) ∧
  Reads [0x0000_0100] (.bundleIssue ⟨0, 0, false, true, false, false⟩) ∧
  Reads [0x0010_0000] (.bundleIssue ⟨0x40, 0, false, false, false, false⟩)

/-- R64, R66, R69-R71: decoding and encoding agree. A well-formed slot instruction or header decodes from its words to itself and leaves the words that
follow, where no extension slot follows; every operand has every value its encoding admits. -/
def Obligations.EncodingRoundTrip : Prop :=
  ∀ (i : Instr) (rest : List W32), i.wf = true → encode i ≠ [] → (∀ w l, rest = w :: l → isExt w = false) →
    decode (encode i ++ rest) = .ok (i, rest)

/-- R64-R79: what decodes is well-formed, and the words it was read from, S apart, are those that encode it: each word has one meaning. -/
def Obligations.DecodingIsCanonical : Prop :=
  ∀ (ws rest : List W32) (i : Instr), decode ws = .ok (i, rest) →
    i.wf = true ∧ ∃ l, ws = l ++ rest ∧ l.map (fun w => w &&& 0x7FFF_FFFF#32) = encode i

/-- R69, R77, R79: an opcode that no row has is illegal, whatever follows; so is a header with a reserved bit, or with WD and no WE. A vector, matrix, copy or
guard slot whose GX is 1 is refused by name where no extension slot follows, every slot that requires an immediate extension likewise, and one that
needs both where only one follows. -/
def Obligations.DecodingRefuses : Prop :=
  ∀ (w : W32) (rest : List W32),
    let op := (w.extractLsb' 22 9).toNat
    let bare (l : List W32) : Prop := ∀ e m, l = e :: m → e.extractLsb' 22 9 ≠ 0x1FF#9
    let assigned : Prop := op ≤ 0x05D ∨ (0x080 ≤ op ∧ op ≤ 0x0B5 ∧ op % 8 ≤ 5) ∨ (0x0B8 ≤ op ∧ op ≤ 0x0BD) ∨ (0x0C0 ≤ op ∧ op ≤ 0x0CC) ∨
      (0x0D0 ≤ op ∧ op ≤ 0x0D5) ∨ (0x0D8 ≤ op ∧ op ≤ 0x0DD) ∨ (0x0E0 ≤ op ∧ op ≤ 0x0E6) ∨ (0x0E8 ≤ op ∧ op ≤ 0x0F4) ∨
      (0x0F8 ≤ op ∧ op ≤ 0x0FB) ∨ (0x100 ≤ op ∧ op ≤ 0x102) ∨ op = 0x104 ∨ op = 0x105 ∨ (0x140 ≤ op ∧ op ≤ 0x14B) ∨
      (0x180 ≤ op ∧ op ≤ 0x19E) ∨ (0x1C0 ≤ op ∧ op ≤ 0x1C3) ∨ (0x1E0 ≤ op ∧ op ≤ 0x1E8) ∨ op = 0x1FF
    let gx : Prop := assigned ∧ (((0x080 ≤ op ∧ op ≤ 0x105) ∨ (0x140 ≤ op ∧ op ≤ 0x14B)) ∧ w.getLsbD 0 = true ∨
      ((0x180 ≤ op ∧ op ≤ 0x19E) ∨ (0x1C0 ≤ op ∧ op ≤ 0x1C3)) ∧ w.getLsbD 3 = true)
    let needs : Prop := op = 0x02D ∨ op = 0x0D8 ∨ (op = 0x0DA ∧ w.getLsbD 9 = true) ∨ op = 0x0DC ∨ op = 0x0F8 ∨ op = 0x148 ∨ op = 0x149 ∨
      op = 0x189 ∨ op = 0x18A
    (¬assigned → decode (w :: rest) = .error .illop) ∧
    (op = 0 → w.extractLsb' 0 6 ≠ 0#6 ∨ (w.getLsbD 9 = false ∧ w.extractLsb' 10 4 ≠ 0#4) → decode (w :: rest) = .error .illop) ∧
    (gx ∨ needs → bare rest → decode (w :: rest) = .error .bundle) ∧
    (gx → needs → ∀ e l, rest = e :: l → e.extractLsb' 22 9 = 0x1FF#9 → bare l → decode (w :: rest) = .error .bundle)

/-! ## The step (R8-R11, R20-R24, R73, R113, R317) -/

/-- R8, R9, R73, R113, R277, R278: one step. A device step that waits goes first. Otherwise the first array whose sequencer moves takes its turn: it accepts a
pending completion, or issues the bundle whose header stands at its code offset; a single slot's bundle is that slot's instruction. An array that is asked to stop
does so before that bundle, unless the bundle traps. That a device step on the agenda goes before every array, and that the first array of `mover` goes first,
is the model's own order: log 1 (notes/assumptions/1). -/
def Obligations.StepRuns : Prop :=
  (∀ (s : State) (i : Instr) (l : List Instr), s.agenda = i :: l → step s = exec i { s with agenda := l }) ∧
  (∀ (s : State) (a : Nat), s.agenda = [] → s.phase = .issue → s.mover = some a →
    let u := { s with cur := a }
    let x := s.getA a
    (x.asked = true → ∀ w l h t, s.fetchWords x = w :: l → decodeHdr w = some h → exec (.bundleIssue h) u = .next t →
      step s = .next (if (t.getA a).caught then t
        else u.modA a fun y => { y with tsk := { y.tsk with stop := .preempt }, csr := { y.csr with preq := false } })) ∧
    (x.asked = false → x.mayAccept s.now = true → step s = exec (.userInterruptAccept a) u) ∧
    (x.asked = false → x.mayAccept s.now = false → x.fed = false →
      (∀ w l h, s.fetchWords x = w :: l → decodeHdr w = some h → step s = exec (.bundleIssue h) u) ∧
      (∀ i : Instr, i.wf = true → encode i ≠ [] → (∀ h, i ≠ .bundleIssue h) → bundleFor (encode i) <+: s.fetchWords x → step s = exec i u)) ∧
    (x.asked = false → x.mayAccept s.now = false → x.fed = true → ∀ pc w l h t, x.arrived s.now = some pc →
      let v := u.modA a fun y => y.modSca fun c => { c with pc := pc }
      v.fetchWords (v.getA a) = w :: l → decodeHdr w = some h → exec (.bundleIssue h) v = .next t →
        step s = .next (t.modA a (Arr.unstream pc))))

/-- R64, R69, R73, R84: a bundle of the plain header, one slot with its extensions and `NOP`s issues as that slot's instruction: what is stated of an instruction
holds of the machine that fetches its words. -/
def Obligations.BundleRunsSlot : Prop :=
  ∀ (s : State) (i : Instr), i.wf = true → encode i ≠ [] → (∀ h, i ≠ .bundleIssue h) → bundleFor (encode i) <+: s.fetchWords s.here →
    exec (.bundleIssue Hdr.plain) s = exec i s

/-- R63, R66, R67, R73, R80, R81: a bundle of a header and `NOP`s. ROT rotates and POP advances a queue head at bundle end, seen by the next bundle; a header that
waits for a descriptor not met, or pops an empty head, holds the bundle: nothing issues. Fewer than four slots, and none that stops among eight, are
BUNDLE. The rotation advances `rrb` and shifts the stage predicates; the name that follows then stands for the register that a rotating name stood for. -/
def Obligations.HeadersIssue : Prop :=
  ∀ (s : State) (q : Nat) (rot : Bool) (wd : BitVec 4) (h : Hdr),
    let x := s.here
    let nop : W32 := 0x0040_0000#32
    let Holds (h : Hdr) : Prop := [hdrWord h, nop, nop, setStop nop] <+: s.fetchWords x
    let lcb := decide (x.sca.lc ≠ 0#64)
    let y := x.began s.now 4 0 0 false
    let done (z : Arr) : Arr := if rot then z.push (s.now + 1) (ordOf s.now 33) (.rot lcb) else z
    let Done (i : Instr) (z : Arr) : Prop := ∃ t, exec i s = .next t ∧ Issued s t z
    let Held (i : Instr) (ev : Nat) : Prop := ∃ t, exec i s = .next t ∧ t = { s with arr := t.arr } ∧ (∀ b, b ≠ s.cur → t.getA b = s.getA b) ∧
      t.here = (x.count ev 1).modSca fun c => { c with hWait := x.atS && c.hWait, issuedAt := some s.now }
    (Holds ⟨0, 0, false, rot, false, false⟩ → Done (.bundleIssue ⟨0, 0, false, rot, false, false⟩) (done y)) ∧
    (let i : Instr := .bundleIssue ⟨BitVec.ofNat 8 (2 ^ q), 0, false, rot, false, false⟩
     q < 8 → Holds ⟨BitVec.ofNat 8 (2 ^ q), 0, false, rot, false, false⟩ →
      ((x.headAt q).isSome = true → Done i (done (y.push (s.now + 1) (ordOf s.now 32) (.pop q)))) ∧ (x.headAt q = none → Held i 11)) ∧
    (let i : Instr := .bundleIssue ⟨0, wd, true, rot, false, false⟩
     let w := SMap.get WDesc.none x.cpy.wd wd.toNat
     Holds ⟨0, wd, true, rot, false, false⟩ → (w.on = true → x.cpy.waitMet w = true → Done i (done y)) ∧
      (w.on = true → x.cpy.waitMet w = false → Held i 10) ∧ (w.on = false → Traps i s 4 ⟨.cbcfg, 0, 0, 0⟩)) ∧
    ([setStop (hdrWord h)] <+: s.fetchWords x → Traps (.bundleIssue h) s 1 ⟨.bundle, 0, 0, 0⟩) ∧
    ([hdrWord h, setStop nop] <+: s.fetchWords x → Traps (.bundleIssue h) s 2 ⟨.bundle, 1, 0, 0⟩) ∧
    ([hdrWord h, nop, setStop nop] <+: s.fetchWords x → Traps (.bundleIssue h) s 3 ⟨.bundle, 2, 0, 0⟩) ∧
    (hdrWord h :: List.replicate 7 nop = s.fetchWords x → Traps (.bundleIssue h) s 0 ⟨.bundle, 7, 0, 0⟩) ∧
    (let z := x.apply (.rot lcb)
     z = { x with sca := { x.sca with rrb := z.sca.rrb, g := z.sca.g } } ∧ z.sca.rrb.toNat = (x.sca.rrb.toNat + 1) % 32 ∧ z.sca.g.getLsbD 0 = lcb ∧
      (∀ i < 15, z.sca.g.getLsbD (i + 1) = x.sca.g.getLsbD i) ∧
      ∀ n : R6, (n.toNat < 32 → vphys z.sca.rrb n = n.toNat) ∧
        (32 ≤ n.toNat → n.toNat < 63 → vphys z.sca.rrb (n + 1) = vphys x.sca.rrb n) ∧ vphys z.sca.rrb 32 = vphys x.sca.rrb 63)

/-- R8, R61, R230, R239, R317: with no device step waiting and no sequencer to move, the parts of the cycle follow each other: grants, reads, writes, the
end. The next cycle begins at the first array; each die's `cycle` advances at its throttled rate; memory, queues, launches, contexts and tasks stay. A clock
that is to change does so where no array of the die runs. The order of the parts within a cycle is the model's reading: log 47 (notes/assumptions/47); that
`cycle` advances in hundred-and-fifths by the throttle step, and where a clock changes, is log 16 (notes/assumptions/16).
R8-R10: what is due becomes visible in order, older bundles and earlier slots first, and nothing that is not due; of two writes of one register in one
cycle that of the later place is kept, whichever was entered first. -/
def Obligations.CyclesEndAndWritesShow : Prop :=
  (∀ s : State, s.agenda = [] →
     (let Next (p : Phase) : Prop := ∃ t, step s = .next t ∧ t.phase = p ∧ t.now = s.now
      (s.phase = .issue → s.mover = none → Next .grant) ∧ (s.phase = .grant → Next .read) ∧ (s.phase = .read → Next .write)) ∧
     (s.phase = .write → ∃ t, step s = .next t ∧ t.phase = .issue ∧ t.now = s.now + 1 ∧ t.cur = 0 ∧ t.mem = s.mem ∧ t.queue = s.queue ∧
       t.launch = s.launch ∧ t.cxt = s.cxt ∧ t.task = s.task ∧
       ∀ d, d < 4 → 105 * (t.getD d).cyc + (t.getD d).sub = 105 * (s.getD d).cyc + (s.getD d).sub +
           (match (s.getD d).thr with | 1 => 120 | 2 => 140 | 3 => 168 | 4 => 210 | _ => 105) ∧
         ((s.getD d).thrReq = none → (t.getD d).thr = (s.getD d).thr ∧ (t.getD d).thrReq = none) ∧
         ∀ n, (s.getD d).thrReq = some n → (∀ e ∈ s.arr, e.1 / 32 = d → e.2.tsk.run = false) → (t.getD d).thr = n ∧ (t.getD d).thrReq = none)) ∧
  (∀ (x : Arr) (t : Nat),
     (∀ w l, x.sca.pend = w :: l → w.due ≤ t → x.commit t = (({ x with sca := { x.sca with pend := l } } : Arr).apply w.w).commit t) ∧
     ((∀ w ∈ x.sca.pend, t < w.due) → x.commit t = x) ∧
     (∀ (n o p : Nat) (v w : PV), x.sca.pend = [] → o < p →
       let Kept (y : Arr) : Prop := SMap.get PV.zero (y.commit t).sca.s n = w ∧ (y.commit t).sca.pend = [] ∧ (y.commit t).cel = x.cel ∧
         ∀ m, m ≠ n → SMap.get PV.zero (y.commit t).sca.s m = SMap.get PV.zero x.sca.s m
       Kept ((x.push t o (.s n v)).push t p (.s n w)) ∧ Kept ((x.push t p (.s n w)).push t o (.s n v))))

/-! ## Memory and reset (R5, R83, R102, R228) -/

/-- From every state whose memory is in canonical form a step gives one whose memory is: equal memories are equal data, whatever the step. -/
def Obligations.StepKeepsMemoryCanonical : Prop :=
  ∀ s t : State, Memory.wf s.mem = true → step s = .next t → Memory.wf t.mem = true

/-- No step of the machine faults or is refused: every instruction of the table has a meaning that goes on in every state. -/
def Obligations.EveryStepGoesOn : Prop :=
  ∀ s : State, ∃ t, step s = .next t

/-- R5, R102, R228, R239: the stores of a cycle perform in their order. One store outside the exchange window leaves its bytes, least significant first, at its
offset of the array's own scratchpad, marks the tiles it touches valid, and changes no other byte. -/
def Obligations.StoresPerform : Prop :=
  ∀ (s : State) (a : Nat) (e : StQ) (l : List StQ), s.performStores a [] = s ∧
    (s.performStores a (e :: l) = (s.performStores a [e]).performStores a l) ∧
    (e.only = false → e.bytes ≠ [] → (s.getA a).tsk.exch = false →
      let t := s.performStores a [e]
      (∀ i < e.bytes.length, t.byte (spadKey a (e.off + i)) = e.bytes.getD i 0#8) ∧
      (∀ k, (k < spadKey a e.off ∨ spadKey a e.off + e.bytes.length ≤ k) → t.byte k = s.byte k) ∧
      t = { s with mem := t.mem, pois := t.pois, err := t.err, arr := t.arr } ∧ (∀ b, b ≠ a → t.getA b = s.getA b) ∧
      (t.getA a).sca = (s.getA a).sca ∧ (t.getA a).cel = (s.getA a).cel ∧ (t.getA a).csr = (s.getA a).csr ∧
      ∀ n, (t.getA a).cpy.tv.getLsbD n = ((s.getA a).cpy.tv.getLsbD n ||
        decide (n < 1024 ∧ e.off / (s.getA a).tileSize ≤ n ∧ n ≤ (e.off + e.bytes.length - 1) / (s.getA a).tileSize)))

/-- R6, R48, R61, R191, R263, R353: the machine right after reset. The values the spec gives: stage 0, no boot error, no throttle, no error pending; an array at
privilege S, every tile owned by software and no command outstanding. Register contents the spec leaves open are the model's (notes/assumptions 3).
The bytes of memory are in canonical form at reset, nothing listed. What an unlisted byte reads as, zero, is the model's choice (notes/assumptions 2). -/
def Obligations.ResetState : Prop :=
  (let s := State.reset
   s.now = 0 ∧ s.agenda = [] ∧ s.queue = [] ∧ s.task = [] ∧ s.launch = [] ∧ s.dev.stage = 0#2 ∧ s.dev.bootErr = false ∧
   s.dev.errdev = 0 ∧ s.dev.mbdev = 0 ∧ s.dev.fbdev = 0 ∧ s.dev.ringWix = s.dev.ringRix ∧ s.dstat = 0#64 ∧
   (∀ d, s.getD d = Die.reset) ∧ (∀ a, s.getA a = Arr.reset) ∧ Arr.reset.csr.prv = 1#2 ∧ Arr.reset.tsk.run = false ∧
   Arr.reset.cpy.own = 0#1024 ∧ Arr.reset.cpy.cmds = [] ∧ Arr.reset.mat.cmds = [] ∧ Arr.reset.sca.pend = [] ∧ Arr.reset.sca.fpcsr = 0#64) ∧
  (Memory.wf State.reset.mem = true ∧ State.reset.mem = [] ∧ ∀ k, State.reset.byte k = 0#8)

/-! ## The scalar class (R58, R60, R86-R116) -/

/-- R89: the integer instructions of two registers. Each executes when its guard is 1 and its operands can be read, writes sd with the table's
result, wrapping modulo 2^64, visible at T + 1, T + 3 for `MUL` and `MULH`, T + 20 for `DIV` and `REM` (R82), with the poison of both sources
(R87); it sets no flag and changes nothing else.
R89: `CLZ` and `POPC`. The count of leading zero bits is the n for which the value lies in [2^(63-n), 2^(64-n)), 64 for 0; the count of one
bits is the number of bit positions that hold 1.
R90: the immediate forms of `ADD` to `MAX` use the 28-bit immediate, sign-extended to 64 bits, in place of sb, and are otherwise identical:
an immediate with an extension word makes the bundle's slot one word longer. -/
def Obligations.IntegerArithmetic : Prop :=
  (∀ (s : State) (g : SG) (d a b : R6), s.readyS g [.s d, .s a, .s b] [.s a, .s b] = true →
     let x := (s.here.sGet a).v
     let y := (s.here.sGet b).v
     let sh := y.toNat % 64
     let Yields (i : Instr) (l : Nat) (v : Word) : Prop := ResultS i s 0 l d ⟨v, (s.here.sGet a).p || (s.here.sGet b).p⟩ 0#7
     Yields (.add g d a b) 1 (x + y) ∧
     Yields (.sub g d a b) 1 (x - y) ∧
     Yields (.mul g d a b) 3 (BitVec.ofNat 64 (x.toNat * y.toNat)) ∧
     Yields (.mulh g d a b) 3 (BitVec.ofInt 64 (x.toInt * y.toInt / 2 ^ 64)) ∧
     Yields (.div g d a b) 20 (if y = 0#64 then 0xFFFF_FFFF_FFFF_FFFF#64 else BitVec.ofInt 64 (x.toInt.tdiv y.toInt)) ∧
     Yields (.rem g d a b) 20 (if y = 0#64 then x else BitVec.ofInt 64 (x.toInt - x.toInt.tdiv y.toInt * y.toInt)) ∧
     Yields (.and g d a b) 1 (x &&& y) ∧
     Yields (.or g d a b) 1 (x ||| y) ∧
     Yields (.xor g d a b) 1 (x ^^^ y) ∧
     Yields (.andn g d a b) 1 (x &&& ~~~y) ∧
     Yields (.shl g d a b) 1 (x <<< sh) ∧
     Yields (.shr g d a b) 1 (x >>> sh) ∧
     Yields (.sar g d a b) 1 (BitVec.ofInt 64 (x.toInt / 2 ^ sh)) ∧
     Yields (.rol g d a b) 1 ((x <<< sh) ||| (x >>> (64 - sh))) ∧
     Yields (.min g d a b) 1 (if x.toInt < y.toInt then x else y) ∧
     Yields (.max g d a b) 1 (if x.toInt < y.toInt then y else x)) ∧
  (∀ (s : State) (g : SG) (d a : R6), s.readyS g [.s d, .s a] [.s a] = true →
     let x := s.here.sGet a
     (∃ n : Nat, (if x.v = 0#64 then n = 64 else n < 64 ∧ 2 ^ (63 - n) ≤ x.v.toNat ∧ x.v.toNat < 2 ^ (64 - n)) ∧
       ResultS (.clz g d a) s 0 1 d ⟨BitVec.ofNat 64 n, x.p⟩ 0#7) ∧
     ResultS (.popc g d a) s 0 1 d ⟨BitVec.ofNat 64 ((List.range 64).filter fun i => x.v.getLsbD i).length, x.p⟩ 0#7) ∧
  (∀ (s : State) (g : SG) (d a : R6) (i : Imm 28), s.readyS g [.s d, .s a] [.s a] = true →
     let x := (s.here.sGet a).v
     let y := i.v.signExtend 64
     let sh := y.toNat % 64
     let Yields (ins : Instr) (l : Nat) (v : Word) : Prop := ResultS ins s (if i.ext then 1 else 0) l d ⟨v, (s.here.sGet a).p⟩ 0#7
     Yields (.addImm g d a i) 1 (x + y) ∧
     Yields (.subImm g d a i) 1 (x - y) ∧
     Yields (.mulImm g d a i) 3 (BitVec.ofNat 64 (x.toNat * y.toNat)) ∧
     Yields (.mulhImm g d a i) 3 (BitVec.ofInt 64 (x.toInt * y.toInt / 2 ^ 64)) ∧
     Yields (.divImm g d a i) 20 (if y = 0#64 then 0xFFFF_FFFF_FFFF_FFFF#64 else BitVec.ofInt 64 (x.toInt.tdiv y.toInt)) ∧
     Yields (.remImm g d a i) 20 (if y = 0#64 then x else BitVec.ofInt 64 (x.toInt - x.toInt.tdiv y.toInt * y.toInt)) ∧
     Yields (.andImm g d a i) 1 (x &&& y) ∧
     Yields (.orImm g d a i) 1 (x ||| y) ∧
     Yields (.xorImm g d a i) 1 (x ^^^ y) ∧
     Yields (.andnImm g d a i) 1 (x &&& ~~~y) ∧
     Yields (.shlImm g d a i) 1 (x <<< sh) ∧
     Yields (.shrImm g d a i) 1 (x >>> sh) ∧
     Yields (.sarImm g d a i) 1 (BitVec.ofInt 64 (x.toInt / 2 ^ sh)) ∧
     Yields (.rolImm g d a i) 1 ((x <<< sh) ||| (x >>> (64 - sh))) ∧
     Yields (.minImm g d a i) 1 (if x.toInt < y.toInt then x else y) ∧
     Yields (.maxImm g d a i) 1 (if x.toInt < y.toInt then y else x))

/-- R91-R93: `LI` with its parts, `SEL`, and the ten forms of `MOV`. `SEL` is guarded by no predicate, and its result carries the poison of the
chosen source and of the predicate. A poisoned source of `MOV g` kills, so that form is stated for a clean one.
R94, R95: the compares write pd, at T + 1 for `CMP` and T + 2 for `FCMP`; `p0` is written by none (R58), which the write itself discards. -/
def Obligations.ConstantsMovesCompares : Prop :=
  ((∀ (s : State) (g : SG) (d : R6) (i : Imm 28),
     let e := if i.ext then 1 else 0
     let v := s.here.sGet d
     (s.readyS g [.s d] [] = true → ResultS (.li g d i) s e 1 d ⟨i.v.signExtend 64, false⟩ 0#7) ∧
     (s.readyS g [.s d] [.s d] = true →
       ResultS (.liQ1 g d i) s e 1 d ⟨v.v.extractLsb' 56 8 ++ (i.v ++ v.v.extractLsb' 0 28), v.p⟩ 0#7 ∧
       ResultS (.liQ2 g d i) s e 1 d ⟨i.v.extractLsb' 0 8 ++ v.v.extractLsb' 0 56, v.p⟩ 0#7)) ∧
   (∀ (s : State) (g : SG) (d a b : R6), s.regsSound = true → g.chk = false → s.here.operands [.s d, .s a, .s b] [.s a, .s b] = true →
     (s.here.pGet g.p = true → ResultS (.sel g d a b) s 0 1 d ⟨(s.here.sGet a).v, (s.here.sGet a).p || s.here.pPois g.p⟩ 0#7) ∧
     (s.here.pGet g.p = false → ResultS (.sel g d a b) s 0 1 d ⟨(s.here.sGet b).v, (s.here.sGet b).p || s.here.pPois g.p⟩ 0#7)) ∧
   (∀ (s : State) (g : SG) (d a : R6) (e h : BitVec 4) (p : BitVec 3),
     let x := s.here
     (s.readyS g [.s d, .s a] [.s a] = true → ResultS (.mov g (.ss d a)) s 0 1 d (x.sGet a) 0#7) ∧
     (s.readyS g [.a e, .s a] [.s a] = true → ResultA (.mov g (.as e a)) s 0 e ⟨(x.sGet a).v.setWidth 72, (x.sGet a).p⟩) ∧
     (s.readyS g [.s d, .a h] [.a h] = true →
       ResultS (.mov g (.sa d h)) s 0 1 d ⟨(x.aGet h).v.extractLsb' 0 64, (x.aGet h).p⟩ 0#7 ∧
       ResultS (.mov g (.hiSA d h)) s 0 1 d ⟨((x.aGet h).v.extractLsb' 64 8).setWidth 64, (x.aGet h).p⟩ 0#7) ∧
     (s.readyS g [.a e, .a h] [.a h] = true → ResultA (.mov g (.aa e h)) s 0 e (x.aGet h)) ∧
     (s.readyS g [.a e, .s a] [.a e, .s a] = true →
       ResultA (.mov g (.hiAS e a)) s 0 e
         ⟨(x.sGet a).v.extractLsb' 0 8 ++ (x.aGet e).v.extractLsb' 0 64, (x.sGet a).p || (x.aGet e).p⟩) ∧
     (s.readyS g [.p p, .s a] [.s a] = true → ResultP (.mov g (.ps p a)) s 0 1 p ((x.sGet a).v.getLsbD 0) (x.sGet a).p 0#7) ∧
     (s.readyS g [.s d, .p p] [] = true →
       ResultS (.mov g (.sp d p)) s 0 1 d ⟨if x.pGet p then 1#64 else 0#64, x.pPois p⟩ 0#7) ∧
     (s.readyS g [.s a] [.s a] = true → (x.sGet a).p = false → WritesX (.mov g (.gs a)) s (.g ((x.sGet a).v.extractLsb' 0 16))) ∧
     (s.readyS g [.s d] [] = true → ResultS (.mov g (.sg d)) s 0 1 d ⟨x.sca.g.setWidth 64, false⟩ 0#7))) ∧
  ((∀ (s : State) (g : SG) (d : BitVec 3) (a b : R6), s.readyS g [.p d, .s a, .s b] [.s a, .s b] = true →
     let x := (s.here.sGet a).v
     let y := (s.here.sGet b).v
     let pz := (s.here.sGet a).p || (s.here.sGet b).p
     ResultP (.cmp g .eq d a b) s 0 1 d (decide (x = y)) pz 0#7 ∧ ResultP (.cmp g .ne d a b) s 0 1 d (decide (x ≠ y)) pz 0#7 ∧
     ResultP (.cmp g .lt d a b) s 0 1 d (decide (x.toInt < y.toInt)) pz 0#7 ∧
     ResultP (.cmp g .le d a b) s 0 1 d (decide (x.toInt ≤ y.toInt)) pz 0#7 ∧
     ResultP (.cmp g .ltu d a b) s 0 1 d (decide (x.toNat < y.toNat)) pz 0#7 ∧
     ResultP (.cmp g .leu d a b) s 0 1 d (decide (x.toNat ≤ y.toNat)) pz 0#7 ∧
     (∀ (dbl : Bool) (cond : BitVec 3),
       let f := if dbl then fmt64 else fmt32
       let op (v : Word) : FV := f.val (s.here.sca.fpcsr.getLsbD 2) (if dbl then v.toNat else v.toNat % 2 ^ 32)
       ResultP (.fcmp g dbl cond d a b) s 0 2 d (FV.cmp cond (op x) (op y)).1 pz (FV.cmp cond (op x) (op y)).2)) ∧
   (∀ (s : State) (g : SG) (d : BitVec 3) (a : R6) (i : Imm 28), s.readyS g [.p d, .s a] [.s a] = true →
     let x := (s.here.sGet a).v
     let y := i.v.signExtend 64
     let Yields (c : CmpC) (b : Bool) : Prop := ResultP (.cmpImm g c d a i) s (if i.ext then 1 else 0) 1 d b (s.here.sGet a).p 0#7
     Yields .eq (decide (x = y)) ∧ Yields .ne (decide (x ≠ y)) ∧ Yields .lt (decide (x.toInt < y.toInt)) ∧
     Yields .le (decide (x.toInt ≤ y.toInt)) ∧ Yields .ltu (decide (x.toNat < y.toNat)) ∧ Yields .leu (decide (x.toNat ≤ y.toNat))))

/-- R96, R97: scalar floating point. The `.s` forms read bits [31:0] and write the rest as zero; flags enter `fpcsr` with the result (R49). -/
def Obligations.FloatingPoint : Prop :=
  ∀ (s : State) (g : SG) (dbl : Bool) (d a b : R6),
    let f := if dbl then fmt64 else fmt32
    let k : RCtl := ⟨Rm.of (s.here.sca.fpcsr.extractLsb' 0 2), s.here.sca.fpcsr.getLsbD 2, s.here.sca.fpcsr.getLsbD 4⟩
    let op (r : R6) : Nat := if dbl then (s.here.sGet r).v.toNat else (s.here.sGet r).v.toNat % 2 ^ 32
    let pz := (s.here.sGet a).p || (s.here.sGet b).p
    let Yields (i : Instr) (l : Nat) (p : Bool) (r : Nat × Fl) : Prop := ResultS i s 0 l d ⟨BitVec.ofNat 64 r.1, p⟩ r.2
    (s.readyS g [.s d, .s a, .s b] [.s a, .s b] = true →
      Yields (.fadd g dbl d a b) 4 pz (f.add k (op a) (op b)) ∧
      Yields (.fsub g dbl d a b) 4 pz (f.sub k (op a) (op b)) ∧
      Yields (.fmul g dbl d a b) 4 pz (f.mul k (op a) (op b)) ∧
      Yields (.fdiv g dbl d a b) (if dbl then 20 else 12) pz (f.div k (op a) (op b))) ∧
    (s.readyS g [.s d, .s a, .s b] [.s d, .s a, .s b] = true →
      Yields (.ffma g dbl d a b) 4 (pz || (s.here.sGet d).p) (f.fma k (op a) (op b) (op d))) ∧
    (s.readyS g [.s d, .s a] [.s a] = true →
      Yields (.fsqrt g dbl d a) (if dbl then 24 else 14) (s.here.sGet a).p (f.sqrt k (op a)) ∧
      ∀ code : BitVec 4,
        ResultS (.fcvt g code d a) s 0 3 d ⟨(fcvtOp code k (s.here.sGet a).v).1, (s.here.sGet a).p⟩ (fcvtOp code k (s.here.sGet a).v).2)

/-- R39, R40, R46-R48, R50: what the floating operations of the statements above and below compute, in FP64, FP32, BF16 and FP16. On finite operands the exact sum,
difference, product, fused result, quotient or root is rounded once, with the flags that go with it; a NaN gives the canonical NaN, an infinity its
infinity, and an invalid operation the canonical NaN with NV; a division by zero an infinity with DZ. A conversion rounds once to its format, or to an integer. -/
def Obligations.FloatingPointRounds : Prop :=
  (∀ (f : Fmt) (c : RCtl) (x y z : Nat), f ∈ [fmt64, fmt32, fmtBf16, fmtF16] →
    let a := f.val c.ftz x
    let b := f.val c.ftz y
    let d := f.val c.ftz z
    let nan : Nat × Fl := (f.canon, 0#7)
    let invalid : Nat × Fl := (f.canon, Fl.nv)
    let zeroSum (s t : Bool) : Bool := if s = t then s else decide (c.rm = .rd)
    let sumSign (u v : FV) : Bool := if u.isZero && v.isZero then zeroSum u.sign v.sign else decide (c.rm = .rd)
    let zeroInf : Prop := (a.isZero = true ∧ b.isInf = true) ∨ (a.isInf = true ∧ b.isZero = true)
    (a.isNan = true ∨ b.isNan = true → f.add c x y = nan ∧ f.sub c x y = nan ∧ f.mul c x y = nan ∧ f.div c x y = nan) ∧
    (a.isNan = true → f.sqrt c x = nan) ∧
    (zeroInf → f.mul c x y = invalid ∧ f.fma c x y z = invalid ∧ f.fms c x y z = invalid) ∧
    (¬zeroInf → a.isNan = true ∨ b.isNan = true ∨ d.isNan = true → f.fma c x y z = nan ∧ f.fms c x y z = nan) ∧
    (∀ s t, a = .inf s → b = .inf t → f.add c x y = (if s = t then (f.infBits s, 0#7) else invalid) ∧
      f.sub c x y = (if s = t then invalid else (f.infBits s, 0#7)) ∧ f.mul c x y = (f.infBits (s != t), 0#7) ∧ f.div c x y = invalid) ∧
    (∀ s t m e, a = .inf s → b = .fin t m e → f.add c x y = (f.infBits s, 0#7) ∧ f.sub c x y = (f.infBits s, 0#7) ∧
      (m ≠ 0 → f.mul c x y = (f.infBits (s != t), 0#7)) ∧ f.div c x y = (f.infBits (s != t), 0#7)) ∧
    (∀ s t m e, a = .fin t m e → b = .inf s → f.add c x y = (f.infBits s, 0#7) ∧ f.sub c x y = (f.infBits (!s), 0#7) ∧
      (m ≠ 0 → f.mul c x y = (f.infBits (s != t), 0#7)) ∧ f.div c x y = (f.zeroBits (s != t), 0#7)) ∧
    (∀ s, a = .inf s → f.sqrt c x = if s then invalid else (f.infBits false, 0#7)) ∧
    (∀ s m e (u : ℝ), a = .fin s m e → a.Is u →
      (m = 0 → f.sqrt c x = (f.zeroBits s, 0#7)) ∧ (m ≠ 0 → s = true → f.sqrt c x = invalid) ∧
      (m ≠ 0 → s = false → Rounded f c (Real.sqrt u) false (f.sqrt c x)) ∧
      ∀ t n g (v : ℝ), b = .fin t n g → b.Is v →
        Rounded f c (u + v) (sumSign a b) (f.add c x y) ∧ Rounded f c (u - v) (sumSign a b.neg) (f.sub c x y) ∧
        Rounded f c (u * v) (s != t) (f.mul c x y) ∧ (n ≠ 0 → Rounded f c (u / v) (s != t) (f.div c x y)) ∧
        (n = 0 → f.div c x y = if m = 0 then invalid else (f.infBits (s != t), Fl.dz)) ∧
        let p : FV := .fin (s != t) (m * n) (e + g)
        (∀ w h i (r : ℝ), d = .fin w h i → d.Is r →
          Rounded f c (u * v + r) (sumSign p d) (f.fma c x y z) ∧ Rounded f c (u * v - r) (sumSign p d.neg) (f.fms c x y z)) ∧
        ∀ w, d = .inf w → f.fma c x y z = (f.infBits w, 0#7) ∧ f.fms c x y z = (f.infBits (!w), 0#7)) ∧
    (¬zeroInf → a.isNan = false → b.isNan = false → a.isInf = true ∨ b.isInf = true → d.isNan = false →
      f.fma c x y z = (if d.isInf = true ∧ d.sign ≠ (a.sign != b.sign) then invalid else (f.infBits (a.sign != b.sign), 0#7)) ∧
      f.fms c x y z = (if d.isInf = true ∧ d.sign = (a.sign != b.sign) then invalid else (f.infBits (a.sign != b.sign), 0#7)))) ∧
  (∀ (f h : Fmt) (c : RCtl) (x : Nat), f ∈ [fmt64, fmt32, fmtBf16, fmtF16, fmtE5m2, fmtE4m3] → h ∈ [fmt64, fmt32, fmtBf16, fmtF16, fmtE5m2, fmtE4m3] →
    let a := f.val c.ftz x
    (a = .nan → cvtFF f h c x = (h.canon, 0#7)) ∧
    (∀ s, a = .inf s → cvtFF f h c x = if h.e4m3 then (h.canon, Fl.nv) else (h.infBits s, 0#7)) ∧
    (∀ s m e (u : ℝ), a = .fin s m e → a.Is u → Rounded h c u s (cvtFF f h c x) ∧
      ∀ lo hi : Int, lo ≤ 0 → 0 ≤ hi → ∃ n : Int, RoundsTo c.rm u n ∧
        a.toInt c.rm lo hi = (if n < lo then (lo, Fl.nv) else if hi < n then (hi, Fl.nv) else (n, (a.toInt c.rm lo hi).2)) ∧
        (lo ≤ n → n ≤ hi → ((a.toInt c.rm lo hi).2 = 0#7 ↔ u = n) ∧ (u ≠ n → (a.toInt c.rm lo hi).2 = Fl.nx))) ∧
    ∀ lo hi : Int, (a = .nan → a.toInt c.rm lo hi = (0, Fl.nv)) ∧ ∀ s, a = .inf s → a.toInt c.rm lo hi = (if s then lo else hi, Fl.nv)) ∧
  ∀ (f : Fmt) (c : RCtl) (n x : Nat), f ∈ [fmt64, fmt32, fmtBf16, fmtF16, fmtE5m2, fmtE4m3] → n ∈ [8, 16, 32, 64] →
    Rounded f c (sInt n x : ℝ) false (cvtIF n f c x)

/-- R98: `ADDA` and `LEA` compute modulo 2^72 and check nothing, whatever the address; a poisoned operand poisons the result, which the register then
holds like any other. `LEA` requires an extension: without one it is no instruction. -/
def Obligations.AddressArithmetic : Prop :=
  (∀ (w : W32) (rest : List W32), w.extractLsb' 22 9 = 0x02D#9 → (∀ e l, rest = e :: l → isExt e = false) → decode (w :: rest) = .error .bundle) ∧
  ∀ (s : State) (g : SG) (d a : BitVec 4) (b sh : R6) (disp : BitVec 16), s.readyS g [.a d, .a a, .s b] [.a a, .s b] = true →
    let x := (s.here.aGet a).v.toNat
    let y := (s.here.sGet b).v.toInt
    let pz := (s.here.aGet a).p || (s.here.sGet b).p
    ResultA (.adda g d a b) s 0 d ⟨BitVec.ofInt 72 (x + y), pz⟩ ∧
    ResultA (.lea g d a b sh disp) s 1 d ⟨BitVec.ofInt 72 (x + y * 2 ^ sh.toNat + disp.toInt), pz⟩

/-- R99-R102: `LD` and `ST` of the own scratchpad at ea = (aa + off) mod 2^72, where no check of R100 fails. `LD` writes the bytes read, sign-extended,
at T + 6, with the poison of any word read; `ST` enters the low bytes of sd among this cycle's stores, which perform after its reads. The read is
stated where no word it touches awaits correction and no bank is retired (R234, R302, R303): there it changes nothing but its destination. -/
def Obligations.LoadsAndStores : Prop :=
  ∀ (s : State) (g : SG) (w : BitVec 2) (d : R6) (a : BitVec 4) (off : Imm 28),
    let x := s.here
    let n := 2 ^ w.toNat
    let ea : Addr := BitVec.ofInt 72 ((x.aGet a).v.toNat + off.v.toInt * 2 ^ w.toNat)
    let o := x.localOff (x.spOff ea)
    let e := if off.ext then 1 else 0
    (s.readyS g [.s d, .a a] [.a a] = true → x.spadOk (x.aGet a) ea n n true = true → s.soundAt (x.spOff ea) n = true →
      ResultS (.ld g w d a off) s e 6 d
        ⟨BitVec.ofInt 64 ((BitVec.ofNat (8 * n) (s.readN (spadKey s.cur o) n)).toInt), s.spadPoisN s.cur o n⟩ 0#7) ∧
    (s.readyS g [.s d, .a a] [.a a, .s d] = true → x.spadOk (x.aGet a) ea n n false = true →
      Executes (.st g w d a off) s e 0 fun y =>
        y.store s.now (x.spOff ea) ((List.range n).map fun i => (x.sGet d).v.extractLsb' (8 * i) 8) (x.sGet d).p)

/-- R105-R108: the transfers of control. A taken one issues its target at T + 2, where its target passes the checks of R105; one not taken issues the
bundle that follows at T + 1. Conditional outcomes enter the task's signature (R335). In a chain member of rank 1 or more none has an effect (R21). R82 lists
no latency for `CALL`: its link is visible at T + 1 here, log 52 (notes/assumptions/52). -/
def Obligations.TransfersOfControl : Prop :=
  ∀ (s : State) (g : SG),
    let x := s.here
    (0 < x.tsk.rank →
      (∀ disp : Imm 40, s.readyS g [] [] = true → Executes (.br g disp) s (if disp.ext then 1 else 0) 0 id ∧
        Executes (.loop g disp) s (if disp.ext then 1 else 0) 0 id) ∧
      (∀ (n : Bool) (p : BitVec 3) (disp : Imm 34), s.readyS g [.p p] [] = true → Executes (.brp g n p disp) s (if disp.ext then 1 else 0) 0 id) ∧
      (∀ (bit : R6) (n : Bool) (reg : BitVec 2) (disp : Imm 28), s.readyS g [] [] = true →
        Executes (.brf g bit n reg disp) s (if disp.ext then 1 else 0) 0 id) ∧
      (∀ (d : R6) (disp : Imm 34), s.readyS g [.s d] [] = true → Executes (.call g d disp) s (if disp.ext then 1 else 0) 0 id) ∧
      ∀ (a : R6) (disp : Imm 28), s.readyS g [.s a] [] = true → Executes (.ret g a) s 0 0 id ∧
        Executes (.jmpi g a disp) s (if disp.ext then 1 else 0) 0 id) ∧
    (x.tsk.rank = 0 →
    (∀ disp : Imm 40, s.readyS g [] [] = true → s.targetOk (s.target disp.v) = true →
      Executes (.br g disp) s (if disp.ext then 1 else 0) 0 fun y => y.jump s.now (s.target disp.v)) ∧
    (∀ (n : Bool) (p : BitVec 3) (disp : Imm 34), s.readyS g [.p p] [] = true → x.pPois p = false →
      (x.pGet p = n → Executes (.brp g n p disp) s (if disp.ext then 1 else 0) 0 fun y => y.outcome false) ∧
      (x.pGet p ≠ n → s.targetOk (s.target disp.v) = true →
        Executes (.brp g n p disp) s (if disp.ext then 1 else 0) 0 fun y => (y.jump s.now (s.target disp.v)).outcome true)) ∧
    (∀ (bit : R6) (n : Bool) (reg : BitVec 2) (disp : Imm 28), s.readyS g [] [] = true →
      let v := (s.agg s.cur s.now).reg reg
      v.2.getLsbD bit.toNat = false →
      (v.1.getLsbD bit.toNat = n → Executes (.brf g bit n reg disp) s (if disp.ext then 1 else 0) 0 fun y => y.outcome false) ∧
      (v.1.getLsbD bit.toNat ≠ n → s.targetOk (s.target disp.v) = true →
        Executes (.brf g bit n reg disp) s (if disp.ext then 1 else 0) 0 fun y => (y.jump s.now (s.target disp.v)).outcome true)) ∧
    (∀ (d : R6) (disp : Imm 34), s.readyS g [.s d] [] = true → s.targetOk (s.target disp.v) = true →
      let e := if disp.ext then 1 else 0
      Executes (.call g d disp) s e 0 fun y =>
        (y.putS s.now 1 d ⟨(x.sca.pc + BitVec.ofNat 32 (4 * max 4 (2 + e))).setWidth 64, false⟩).jump s.now (s.target disp.v)) ∧
    (∀ (a : R6) (disp : Imm 28), s.readyS g [.s a] [.s a] = true → (x.sGet a).p = false →
      (s.targetOk (x.sGet a).v.toInt = true → Executes (.ret g a) s 0 0 fun y => y.jump s.now (x.sGet a).v.toInt) ∧
      (s.targetOk ((x.sGet a).v.toInt + 4 * disp.v.toInt) = true →
        Executes (.jmpi g a disp) s (if disp.ext then 1 else 0) 0 fun y => y.jump s.now ((x.sGet a).v.toInt + 4 * disp.v.toInt))) ∧
    (∀ disp : Imm 40, s.readyS g [] [] = true →
      let e := if disp.ext then 1 else 0
      let t := s.target disp.v
      let live := decide (2 ≤ min x.sca.ec.toNat 16) && (List.range (min x.sca.ec.toNat 16 - 1)).any fun j => x.sca.g.getLsbD j
      (x.sca.lc ≠ 0#64 → s.targetOk t = true →
        Executes (.loop g disp) s e 0 fun y => ((y.jump s.now t).outcome true).later s.now 1 (.lc (x.sca.lc - 1#64))) ∧
      (x.sca.lc = 0#64 → live = true → s.targetOk t = true →
        Executes (.loop g disp) s e 0 fun y => (y.jump s.now t).outcome true) ∧
      (x.sca.lc = 0#64 → live = false → Executes (.loop g disp) s e 0 fun y => y.outcome false)))

/-- R61, R103, R104, R110, R111: special registers, queues and selectors. `RDS` and the sources of `WRS`, `ENQ`, the selector writes and `DEQ` are
read at T; the writes are seen by bundles of T + 1 and later, truncated to the register. A bundle that reads a number not listed, or writes one that is not
listed or is read-only, raises ILLOP. -/
def Obligations.SpecialRegistersQueuesSelectors : Prop :=
  (∀ (s : State) (w : W32),
    let A := (w.extractLsb' 10 6).toNat
    let D := (w.extractLsb' 16 6).toNat
    [hdrWord Hdr.plain, w, 0x0040_0000#32, setStop 0x0040_0000#32] <+: s.fetchWords s.here → w.getLsbD 31 = false → s.regsSound = true →
    (w.extractLsb' 22 9 = 0x03D#9 ∧ (A = 15 ∨ 32 ≤ A)) ∨ (w.extractLsb' 22 9 = 0x03E#9 ∧ D ≠ 3 ∧ D ≠ 4 ∧ D ≠ 5 ∧ D ≠ 9 ∧ D ≠ 10) →
    Traps (.bundleIssue Hdr.plain) s 4 ⟨.illop, 1, 0, 0⟩) ∧
  ∀ (s : State) (g : SG) (a d : R6),
    let x := s.here
    let v := x.sGet a
    let ag := s.agg s.cur s.now
    (s.readyS g [.s d] [] = true →
      (∀ n : R6, ResultS (.rds g d n) s 0 1 d (spRead (s.slot 0) n.toNat s) 0#7) ∧
      (∀ (q : BitVec 3) (e : PV), x.headAt q.toNat = some e → ResultS (.deq g d q) s 0 1 d e 0#7)) ∧
    (s.readyS g [.s a] [.s a] = true → v.p = false →
      WritesX (.wrs g 3#6 a) s (.lc v.v) ∧ WritesX (.wrs g 4#6 a) s (.ec v.v) ∧
      WritesX (.wrs g 5#6 a) s (.rrb (v.v.extractLsb' 0 5)) ∧ WritesX (.wrs g 9#6 a) s (.fpcsr v.v) ∧
      WritesX (.wrs g 10#6 a) s (.uvec v.v) ∧
      (x.sca.svq.length < 32 → WritesX (.enq g a) s (.svq v)) ∧
      (∀ p : BitVec 2, WritesX (.xselSet g p a) s (.xsel p.toNat v.v) ∧ WritesX (.yselSet g p a) s (.ysel p.toNat (v.v.extractLsb' 0 16)) ∧
        WritesX (.xselAndnf g p (.reg a)) s (.xsel p.toNat (SMap.get 0#64 x.sca.xsel p.toNat &&& ~~~v.v)) ∧
        WritesX (.yselAndnf g p (.reg a)) s (.ysel p.toNat (SMap.get 0#16 x.sca.ysel p.toNat &&& ~~~(v.v.extractLsb' 0 16))))) ∧
    (s.readyS g [] [] = true → ∀ p : BitVec 2,
      (ag.pcol = 0#64 →
        WritesX (.xselAndnf g p .all) s (.xsel p.toNat (SMap.get 0#64 x.sca.xsel p.toNat &&& ~~~ag.cand)) ∧
        WritesX (.xselAndnf g p .any) s (.xsel p.toNat (SMap.get 0#64 x.sca.xsel p.toNat &&& ~~~ag.cor))) ∧
      (ag.prow = 0#16 →
        WritesX (.yselAndnf g p .all) s (.ysel p.toNat (SMap.get 0#16 x.sca.ysel p.toNat &&& ~~~ag.rand)) ∧
        WritesX (.yselAndnf g p .any) s (.ysel p.toNat (SMap.get 0#16 x.sca.ysel p.toNat &&& ~~~ag.ror))))

/-- R80, R112, R114, R116: `NOP` has no effect but its bundle's issue; `TWAIT` issues when its condition is met; `URET` returns to the return
offset, with the handler active through its own bundle; `EXIT` of a lead ends issue, with its successor node; in a chain member it is checked on the member's own
state and has no effect of its own (R21, R24). Guard slots that find no mark have no effect; a mismatch bit that is set raises VIGIL, and poison of a
register that `GLA` or `GLB` names POISONKILL (R221). -/
def Obligations.WaitsReturnsExitsGuards : Prop :=
  (∀ s : State, ∃ t, exec .nop s = .next t ∧ Issued s t (s.here.began s.now 4 0 0 false)) ∧
  (∀ (s : State) (g : SG) (a : R6),
    let x := s.here
    let v := (x.sGet a).v.toNat
    (s.readyS g [.s a] [.s a] = true → (x.sGet a).p = false →
      (v * x.tileSize < x.tsk.spalloc → x.cpy.own.getLsbD v = false → Executes (.twaitTile g a) s 0 0 id) ∧
      (v < 64 → (SMap.get LBlk.none x.cpy.lb v).held = true → (SMap.get LBlk.none x.cpy.lb v).rel = false →
        (SMap.get LBlk.none x.cpy.lb v).ready = true → Executes (.twaitLb g a) s 0 0 id) ∧
      (x.tsk.rank = 0 → v < x.tsk.nnodes → Executes (.exit g (some a)) s 0 0 fun y => y.modTsk fun k => { k with stop := .exit (some v) }) ∧
      (0 < x.tsk.rank → v < x.tsk.nnodes → Executes (.exit g (some a)) s 0 0 id) ∧
      (x.tsk.nnodes ≤ v → Traps (.exit g (some a)) s 4 ⟨.bounds, 1, 0xFF, 0⟩)) ∧
    (s.readyS g [.s a] [.s a] = true → (x.sGet a).p = true → Traps (.exit g (some a)) s 4 ⟨.poisonkill, 1, 0, 0⟩) ∧
    (s.readyS g [] [] = true →
      (x.cpy.own = 0#1024 → Executes (.twaitAll g) s 0 0 id) ∧
      (x.sca.hAct = true → Executes (.uret g) s 0 0 fun y => (y.later s.now 1 .uret).modSca fun r =>
        { r with pc := r.hRet, readyAt := s.now + 2, hWait := true }) ∧
      (x.sca.hAct = true → ((x.apply .uret).sca.hAct = false)) ∧
      (x.tsk.rank = 0 → Executes (.exit g none) s 0 0 fun y => y.modTsk fun k => { k with stop := .exit none }) ∧
      (0 < x.tsk.rank → Executes (.exit g none) s 0 0 id))) ∧
  (∀ (s : State) (g : CG) (n : R6) (a : BitVec 4) (p : BitVec 3),
    let x := s.here
    let e := if g.gx.isSome then 1 else 0
    let Guards (i : Instr) (r : RR) (mm : Bool) : Prop := s.readyC g [r] [] = true →
      (mm = false → Executes i s e 0 id) ∧ (mm = true → Traps i s (max 4 (2 + e)) (trapReg .vigil 1 r))
    Guards (.vgl g n) (.v n) (x.cel.vmm.getLsbD (vphys x.sca.rrb n)) ∧ Guards (.sgl g n) (.s n) (x.sca.smm.getLsbD n.toNat) ∧
    ((x.aGet a).p = false → Guards (.gla g a) (.a a) (x.sca.amm.getLsbD a.toNat)) ∧
    (x.pPois p = false → Guards (.glb g p) (.p p) (x.sca.pmm.getLsbD p.toNat)) ∧
    ((x.aGet a).p = true → s.readyC g [.a a] [] = true → Traps (.gla g a) s (max 4 (2 + e)) (trapReg .poisonkill 1 (.a a))) ∧
    (x.pPois p = true → s.readyC g [.p p] [] = true → Traps (.glb g p) s (max 4 (2 + e)) (trapReg .poisonkill 1 (.p p))))

/-! ## The vector class (R8, R13, R60, R65, R72, R117-R148) -/

/-- R117, R121-R125, R128-R131: an elementwise vector slot that meets no check issues: it enters the wavefront with the selectors, rotation and number
modes of cycle T, and its destination's valid bit is set (R11, R60); nothing else changes at T. -/
def Obligations.VectorLaneSlotsIssue : Prop :=
  (∀ (s : State) (g : VG) (t : VT) (d a b : R6),
    let e := if g.gx.isSome then 1 else 0
    let Enters (i : Instr) : Prop := Waves i s e g [.v d] PV.zero 0#72 ShE.zero
    (s.readyV g [.v d] [.v a, .v b] = true →
      Enters (.vadd g t d a b) ∧ Enters (.vsub g t d a b) ∧ Enters (.vmul g t d a b) ∧ Enters (.vmin g t d a b) ∧
      Enters (.vmax g t d a b) ∧ Enters (.vshl g t d a b) ∧ Enters (.vshr g t d a b) ∧ Enters (.vsar g t d a b) ∧
      Enters (.vand g d a b) ∧ Enters (.vor g d a b) ∧ Enters (.vxor g d a b)) ∧
    (s.readyV g [.v d] [.v a, .v b, .v d] = true → Enters (.vfma g t d a b) ∧ Enters (.vfms g t d a b)) ∧
    (s.readyV g [.v d] [.v a] = true →
      Enters (.vabs g t d a) ∧ Enters (.vneg g t d a) ∧ Enters (.vnot g d a) ∧ Enters (.vrcp g d a) ∧ Enters (.vrsq g d a) ∧
      Enters (.vexp2 g d a) ∧ Enters (.vlog2 g d a) ∧ Enters (.vsin g d a) ∧ Enters (.vcos g d a) ∧ Enters (.vtanh g d a) ∧
      (∀ code : BitVec 4, Enters (.vcvt g code d a)) ∧ ∀ (code : BitVec 4) (lane : BitVec 2), Enters (.vwid g code lane d a))) ∧
  (∀ (s : State) (g : VG) (t : VT) (cond m : BitVec 3) (d a b : R6) (z nf : Bool) (lane fmt : BitVec 2),
    let e := if g.gx.isSome then 1 else 0
    let res : List RR := if nf then [] else [.v b]
    (s.readyV g [.m m] [.v a, .v b] = true → Waves (.vcmp g t cond m a b) s e g [.m m] PV.zero 0#72 ShE.zero) ∧
    (s.readyV g [.v d] [.v a, .v b, .m m] = true → Waves (.vsel g d a b m) s (e + 1) g [.v d] PV.zero 0#72 ShE.zero) ∧
    (s.readyV g (.v d :: res) (.v a :: (res ++ (if z then [] else [.v d]))) = true →
      Waves (.vnrw g d a b z nf lane fmt) s (e + 1) g (.v d :: res) PV.zero 0#72 ShE.zero))

/-- R117, R126, R127, R132-R140: the moves, broadcasts, exchanges, reductions and scans, and the shuffle. A scalar operand or a latched queue head is
captured at T with its poison, a shuffle entry must be valid, and a push needs room in VSQ for every push issued (R136). -/
def Obligations.VectorExchangeSlotsIssue : Prop :=
  ∀ (s : State) (g : VG) (t : VT) (op : BitVec 3) (d a b n : R6) (m q : BitVec 3) (wrap : Bool) (pl : BitVec 22),
    let x := s.here
    let e := if g.gx.isSome then 1 else 0
    let Enters (i : Instr) (dst : List RR) : Prop := Waves i s e g dst PV.zero 0#72 ShE.zero
    let room := decide (vsqLoad s.now x < 32)
    (s.readyV g [.v d] [] = true →
      Enters (.vmov g (.lvl0 d)) [.v d] ∧ Enters (.vmov g (.lvl1 d)) [.v d] ∧ Enters (.vmov g (.row d)) [.v d] ∧
      Enters (.vmov g (.col d)) [.v d] ∧ Enters (.vmov g (.cr d)) [.v d] ∧
      Waves (.vbc g d (.immHi a pl)) s (e + 1) g [.v d] PV.zero 0#72 ShE.zero ∧
      Waves (.vbc g d (.immLo a pl)) s (e + 1) g [.v d] PV.zero 0#72 ShE.zero ∧
      (∀ v : PV, x.headAt q.toNat = some v → Waves (.vbc g d (.head q)) s e g [.v d] v 0#72 ShE.zero) ∧
      Enters (.vcrn g d wrap) [.v d] ∧ Enters (.vcrs g d wrap) [.v d] ∧ Enters (.vcre g d wrap) [.v d] ∧ Enters (.vcrwN g d wrap) [.v d]) ∧
    (s.readyV g [.v d] [.s n] = true → Waves (.vbc g d (.sreg n)) s e g [.v d] (x.sGet n) 0#72 ShE.zero) ∧
    (s.readyV g [.v d] [.m m] = true → Enters (.vmov g (.vm d m)) [.v d]) ∧
    (s.readyV g [.m q] [.m m] = true → Enters (.vmov g (.mm q m)) [.m q]) ∧
    (s.readyV g [.m m] [.v a] = true → Enters (.vmov g (.mv m a)) [.m m]) ∧
    (s.readyV g [] [.v a] = true → Enters (.vcrw g a) []) ∧
    (s.readyV g [.v d] [.v a] = true →
      Enters (.vmov g (.vv d a)) [.v d] ∧ Enters (.vscanx g op t d a) [.v d] ∧ Enters (.vscany g op t d a) [.v d] ∧
      Enters (.vredx g op t d a none) [.v d] ∧ Enters (.vredy g op t d a none) [.v d] ∧
      (room = true → Waves (.vredx g op t d a (some n)) s (e + 1) g [.v d] PV.zero 0#72 ShE.zero ∧
        Waves (.vredy g op t d a (some n)) s (e + 1) g [.v d] PV.zero 0#72 ShE.zero) ∧
      Waves (.vrotx g d a (.imm n)) s (e + 1) g [.v d] PV.zero 0#72 ShE.zero ∧
      Waves (.vbcx g d a (.imm n)) s (e + 1) g [.v d] PV.zero 0#72 ShE.zero ∧
      Waves (.vroty g d a (.imm n)) s (e + 1) g [.v d] PV.zero 0#72 ShE.zero ∧
      Waves (.vbcy g d a (.imm n)) s (e + 1) g [.v d] PV.zero 0#72 ShE.zero) ∧
    (s.readyV g [.v d] [.v a, .s n] = true →
      Waves (.vrotx g d a (.reg n)) s e g [.v d] (x.sGet n) 0#72 ShE.zero ∧ Waves (.vbcx g d a (.reg n)) s e g [.v d] (x.sGet n) 0#72 ShE.zero ∧
      Waves (.vroty g d a (.reg n)) s e g [.v d] (x.sGet n) 0#72 ShE.zero ∧ Waves (.vbcy g d a (.reg n)) s e g [.v d] (x.sGet n) 0#72 ShE.zero) ∧
    (s.readyV g [.v d] [.v a, .v b] = true → (x.shEntry n).valid = true →
      Waves (.vshuf g d a b n) s (e + 1) g [.v d] PV.zero 0#72 (x.shEntry n))

/-- R19, R141-R148, R207: the vector slots that use memory, the shuffle banks, the flags and the accumulators. `VFLAG` also marks its cycle for event 9
(R281). `SHPLD` writes the inactive bank at the later of T + 4 + n and the end of the load before it, and `SHPSW` swaps the banks for bundles of
T + 1; that `SHPLD` writes exactly then is log 52 (notes/assumptions/52): R141 says by when. -/
def Obligations.VectorMemorySlotsIssue : Prop :=
  ∀ (s : State) (g : VG) (c : CG) (d n : R6) (a : BitVec 4) (off : Imm 28) (acc m : BitVec 3) (j : BitVec 5),
    let x := s.here
    let e := if g.gx.isSome then 1 else 0
    let eo := if off.ext then 1 else 0
    let ea (u : Int) : Addr := BitVec.ofInt 72 ((x.aGet a).v.toNat + off.v.toInt * u)
    (s.readyV g [] [] = true →
      ∀ k, k = VFlK.clr ∨ k = VFlK.set → Executes (.vflag g k) s e 1 fun y =>
        (y.wave (.vflag g k) (s.cap g s.marks PV.zero 0#72 ShE.zero) []).modCel fun z => { z with vflagAt := some s.now }) ∧
    (s.regsSound = true → g.chk = false → x.openGx g.gx = true → x.cel.shBusy ≤ s.now → Executes (.shpsw g) s e 1 fun y => y.later s.now 1 .shSwap) ∧
    (s.readyV g [] [.m m] = true →
      ∀ k, k = VFlK.mask m ∨ k = VFlK.notMask m → Executes (.vflag g k) s e 1 fun y =>
        (y.wave (.vflag g k) (s.cap g s.marks PV.zero 0#72 ShE.zero) []).modCel fun z => { z with vflagAt := some s.now }) ∧
    (s.readyV g [.v d] [.a a] = true →
      (x.spadOk (x.aGet a) (ea 1024) 1024 4096 true = true → Waves (.vld g d a off) s (e + eo) g [.v d] PV.zero (ea 1024) ShE.zero) ∧
      (∀ o, (x.aGet a).p = false → (ea 4096).toNat % 4096 = 0 → x.tsk.ownOff 1 (ea 4096) = some o → o + 4096 ≤ x.tsk.vgrant →
        Waves (.vldv g d a off) s (e + eo) g [.v d] PV.zero (ea 4096) ShE.zero)) ∧
    (s.readyV g [] [.v d, .a a] = true → x.spadOk (x.aGet a) (ea 1024) 1024 4096 false = true →
      Waves (.vst g d a off) s (e + eo) g [] PV.zero (ea 1024) ShE.zero) ∧
    (s.readyV g [.v d] [] = true → (x.mat.cmds.any fun k => k.writesAcc acc.toNat) = false →
      Waves (.vrdacc g d acc j) s e g [.v d] PV.zero 0#72 ShE.zero) ∧
    (s.readyV g [.acc acc] [.v d] = true → (x.mat.cmds.any fun k => k.writesAcc acc.toNat || k.readsAcc acc.toNat) = false →
      Waves (.vwracc g acc d j) s e g [.acc acc] PV.zero 0#72 ShE.zero) ∧
    (s.readyC c [.v d, .a a] [.a a] = true → x.spadOk (x.aGet a) (ea 1024) 1024 4096 true = true →
      Executes (.ldwWf c d a off) s ((if c.gx.isSome then 1 else 0) + eo) 0 fun y =>
        y.wave (.ldwWf c d a off) (s.cap ⟨0#2, false, none⟩ s.marks PV.zero (ea 1024) ShE.zero) [.v d]) ∧
    (∀ k : R6, s.regsSound = true → g.chk = false → x.openGx g.gx = true → x.operands [.a a] [.a a] = true →
      let nb := 64 * (k.toNat + 1)
      let o := x.spOff (x.aGet a).v
      x.spadOk (x.aGet a) (x.aGet a).v 64 nb true = true →
      (∀ i ≤ k.toNat, s.soundAt (o + 64 * i) 64 = true) →
      let due := max (s.now + 4 + (k.toNat + 1)) x.cel.shBusy
      Executes (.shpld g n a k) s e 1 fun y =>
        (y.push due (ordOf s.now 1) (.shLoad n.toNat ((List.range (k.toNat + 1)).map fun i =>
          ⟨BitVec.ofNat 512 (s.readN (spadKey s.cur (x.localOff (o + 64 * i))) 64), true,
            s.spadPoisN s.cur (x.localOff (o + 64 * i)) 64⟩))).modCel fun z => { z with shBusy := due })

/-- R8, R11, R121-R124: what row r of an elementwise slot writes, and the flags of the row. Every executing cell writes its element of the physical
register that the name stood for at T, visible at T + 1 + r + L with L from R82, computed from the cell's own elements of the sources: lane by lane in the
packed types, FP32, BF16, FP16, INT32, INT16 and INT8. A compare holds where it holds in every lane. Integer and bitwise slots set no flag; the moves are in
the next statement. -/
def Obligations.VectorElementValues : Prop :=
  ∀ (k : RowCtx) (c : Cap) (g : VG) (d a b : R6),
    let va (i : Nat) := (rdEl k c a i).1
    let vb (i : Nat) := (rdEl k c b i).1
    let vd (i : Nat) := (rdEl k c d i).1
    let p1 (i : Nat) := (rdEl k c a i).2.1
    let p2 (i : Nat) := p1 i || (rdEl k c b i).2.1
    let f := c.ctl
    let Row (ins : Instr) (l : Nat) (v : Nat → W32 × Bool) (fl : Nat → Fl) : Prop :=
      (rowOf ins [] k c).wr = [(c.t + 1 + k.r + l, .v (vphys c.rrb d) (cellWrites (actCells k c) v))] ∧
      (rowOf ins [] k c).fl = cellFlags (actCells k c) fl
    let none_ (_ : Nat) : Fl := 0#7
    let ln (w j : Nat) (x : W32) : Nat := x.toNat / 2 ^ (w * j) % 2 ^ w
    let sg (w n : Nat) : Int := if 2 ^ (w - 1) ≤ n then (n : Int) - 2 ^ w else n
    let pk (w : Nat) (h : Nat → Nat) : W32 := BitVec.ofNat 32 (((List.range (32 / w)).map fun j => h j % 2 ^ w * 2 ^ (w * j)).sum)
    let orFl (w : Nat) (h : Nat → Fl) : Fl := (List.range (32 / w)).foldl (fun m j => m ||| h j) 0#7
    (∀ (t : VT) (w : Nat), (t, w) ∈ [(VT.i32, 32), (VT.i16, 16), (VT.i8, 8)] →
      let A (i j : Nat) := ln w j (va i)
      let B (i j : Nat) := ln w j (vb i)
      Row (.vadd g t d a b) 2 (fun i => (pk w fun j => A i j + B i j, p2 i)) none_ ∧
      Row (.vsub g t d a b) 2 (fun i => (pk w fun j => A i j + 2 ^ w - B i j, p2 i)) none_ ∧
      Row (.vmul g t d a b) 4 (fun i => (pk w fun j => A i j * B i j, p2 i)) none_ ∧
      Row (.vmin g t d a b) 2 (fun i => (pk w fun j => if sg w (A i j) ≤ sg w (B i j) then A i j else B i j, p2 i)) none_ ∧
      Row (.vmax g t d a b) 2 (fun i => (pk w fun j => if sg w (A i j) ≤ sg w (B i j) then B i j else A i j, p2 i)) none_ ∧
      Row (.vabs g t d a) 2 (fun i => (pk w fun j => if sg w (A i j) < 0 then 2 ^ w - A i j else A i j, p1 i)) none_ ∧
      Row (.vneg g t d a) 2 (fun i => (pk w fun j => 2 ^ w - A i j, p1 i)) none_ ∧
      Row (.vshl g t d a b) 2 (fun i => (pk w fun j => A i j * 2 ^ (B i j % w), p2 i)) none_ ∧
      Row (.vshr g t d a b) 2 (fun i => (pk w fun j => A i j / 2 ^ (B i j % w), p2 i)) none_ ∧
      Row (.vsar g t d a b) 2 (fun i => (pk w fun j => (sg w (A i j) / 2 ^ (B i j % w) % 2 ^ w).toNat, p2 i)) none_ ∧
      ∀ cond m : BitVec 3, (rowOf (.vcmp g t cond m a b) [] k c).fl = cellFlags (actCells k c) none_ ∧
        (rowOf (.vcmp g t cond m a b) [] k c).wr = [(c.t + 3 + k.r, .m m.toNat (cellWrites (actCells k c) fun i =>
          ((List.range (32 / w)).all fun j => match cond.toNat with
            | 0 => A i j == B i j | 1 => A i j != B i j | 2 => decide (sg w (A i j) < sg w (B i j)) | 3 => decide (sg w (A i j) ≤ sg w (B i j))
            | 4 => decide (sg w (B i j) < sg w (A i j)) | 5 => decide (sg w (B i j) ≤ sg w (A i j)) | 6 => decide (A i j < B i j)
            | _ => decide (A i j ≤ B i j), p2 i)))]) ∧
    (∀ (t : VT) (w : Nat) (F : Fmt), (t, w, F) ∈ [(VT.f32, 32, fmt32), (VT.bf16, 16, fmtBf16), (VT.f16, 16, fmtF16)] →
      let A (i j : Nat) := ln w j (va i)
      let B (i j : Nat) := ln w j (vb i)
      let D (i j : Nat) := ln w j (vd i)
      let Lanes (ins : Instr) (l : Nat) (p : Nat → Bool) (h : Nat → Nat → Nat × Fl) : Prop :=
        Row ins l (fun i => (pk w fun j => (h i j).1, p i)) fun i => orFl w fun j => (h i j).2
      Lanes (.vadd g t d a b) 2 p2 (fun i j => F.add f (A i j) (B i j)) ∧
      Lanes (.vsub g t d a b) 2 p2 (fun i j => F.sub f (A i j) (B i j)) ∧
      Lanes (.vmul g t d a b) 4 p2 (fun i j => F.mul f (A i j) (B i j)) ∧
      Lanes (.vmin g t d a b) 2 p2 (fun i j => (F.minmax f.ftz false (A i j) (B i j), 0#7)) ∧
      Lanes (.vmax g t d a b) 2 p2 (fun i j => (F.minmax f.ftz true (A i j) (B i j), 0#7)) ∧
      Lanes (.vabs g t d a) 2 p1 (fun i j => (match F.val f.ftz (A i j) with
        | .nan => F.canon | .fin _ 0 _ => 0 | _ => A i j % 2 ^ (w - 1), 0#7)) ∧
      Lanes (.vneg g t d a) 2 p1 (fun i j => (match F.val f.ftz (A i j) with
        | .nan => F.canon | .fin s 0 _ => if s then 0 else 2 ^ (w - 1) | _ => (A i j + 2 ^ (w - 1)) % 2 ^ w, 0#7)) ∧
      Lanes (.vfma g t d a b) 4 (fun i => p2 i || (rdEl k c d i).2.1) (fun i j => F.fma f (A i j) (B i j) (D i j)) ∧
      Lanes (.vfms g t d a b) 4 (fun i => p2 i || (rdEl k c d i).2.1) (fun i j => F.fms f (A i j) (B i j) (D i j)) ∧
      ∀ cond m : BitVec 3,
        let r (i j : Nat) := FV.cmp cond (F.val f.ftz (A i j)) (F.val f.ftz (B i j))
        (rowOf (.vcmp g t cond m a b) [] k c).fl = cellFlags (actCells k c) (fun i => orFl w fun j => (r i j).2) ∧
        (rowOf (.vcmp g t cond m a b) [] k c).wr = [(c.t + 3 + k.r, .m m.toNat (cellWrites (actCells k c) fun i =>
          ((List.range (32 / w)).all fun j => (r i j).1, p2 i)))]) ∧
    Row (.vand g d a b) 2 (fun i => (va i &&& vb i, p2 i)) none_ ∧
    Row (.vor g d a b) 2 (fun i => (va i ||| vb i, p2 i)) none_ ∧
    Row (.vxor g d a b) 2 (fun i => (va i ^^^ vb i, p2 i)) none_ ∧
    Row (.vnot g d a) 2 (fun i => (~~~(va i), p1 i)) none_

/-- R8, R11, R126, R127, R132-R140, R143, R144, R147, R148, R207: what row r of the other vector slots reads, writes, stores and pushes. Each executing cell is
written at the latency of R82 from the elements, the `cr`, the mask, the word of scratchpad or vault, or the accumulator element that its rule names; `VST`
stores and `VWRACC` writes the executing cells' elements. A reduction is the balanced tree and a scan the sequence of the executing cells' elements, with the
identity elsewhere; a column operation gathers row by row and writes at T + 22. Moves, shuffles, flags and memory slots raise no status flag. What `VLD` reads of
a byte that a store of its own bundle took is log 49 (notes/assumptions/49). -/
def Obligations.VectorRowData : Prop :=
  ∀ (k : RowCtx) (c : Cap) (g : VG) (d a b : R6), k.r < 16 →
    let cells := actCells k c
    let va (i : Nat) := (rdEl k c a i).1
    let p1 (i : Nat) := (rdEl k c a i).2.1
    let due (l : Nat) := c.t + 1 + k.r + l
    let word (i : Nat) := 1024 * (i / 64 / 4) + 16 * (i % 64) + 4 * (i / 64 % 4)
    let L := k.x.tsk.levels
    let Is (i : Instr) (w : List (Nat × Wr)) : Prop := (rowOf i [] k c).wr = w ∧ (rowOf i [] k c).fl = 0#7 ∧ (rowOf i [] k c).st = []
    let V (i : Instr) (l : Nat) (v : Nat → W32 × Bool) : Prop := Is i [(due l, .v (vphys c.rrb d) (cellWrites cells v))]
    -- moves
    V (.vmov g (.vv d a)) 2 (fun i => (va i, p1 i)) ∧
    V (.vmov g (.row d)) 2 (fun i => (BitVec.ofNat 32 (i / 64), false)) ∧ V (.vmov g (.col d)) 2 (fun i => (BitVec.ofNat 32 (i % 64), false)) ∧
    (let x (i : Nat) := if hasRow L then i % 64 else i
     let row (n i : Nat) := if n = 1 ∧ domAt L 0 = 1 then i / 64 / extAt L 0 else i / 64
     let lvl (n i : Nat) : W32 :=
       if inRect L i = false then BitVec.allOnes 32
       else if n < L.length ∧ domAt L n = 0 then BitVec.ofNat 32 ((if n = 1 then x i / extAt L 0 else x i) % extAt L n)
       else if n < L.length ∧ domAt L n = 1 then BitVec.ofNat 32 (row n i % extAt L n)
       else BitVec.ofNat 32 (k.x.tsk.lidx[n]?.getD 0)
     V (.vmov g (.lvl0 d)) 2 (fun i => (lvl 0 i, false)) ∧ V (.vmov g (.lvl1 d)) 2 (fun i => (lvl 1 i, false))) ∧
    (let cr (i : Nat) := SMap.get EP.zero k.x.cel.cr i
     V (.vmov g (.cr d)) 2 (fun i => ((cr i).v, (cr i).p)) ∧
     Is (.vcrw g a) [(due 1, .cr (cellWrites cells fun i => (va i, p1 i)))] ∧
     ∀ wrap : Bool,
       V (.vcrn g d wrap) 1 (fun i => if wrap = false ∧ i / 64 = 0 then (0, false) else
         let e := cr ((i / 64 + 15) % 16 * 64 + i % 64); (e.v, e.p)) ∧
       V (.vcrs g d wrap) 1 (fun i => if wrap = false ∧ i / 64 = 15 then (0, false) else
         let e := cr ((i / 64 + 1) % 16 * 64 + i % 64); (e.v, e.p)) ∧
       V (.vcre g d wrap) 1 (fun i => if wrap = false ∧ i % 64 = 63 then (0, false) else
         let e := cr (i / 64 * 64 + (i % 64 + 1) % 64); (e.v, e.p)) ∧
       V (.vcrwN g d wrap) 1 (fun i => if wrap = false ∧ i % 64 = 0 then (0, false) else
         let e := cr (i / 64 * 64 + (i % 64 + 63) % 64); (e.v, e.p))) ∧
    (∀ m n : BitVec 3,
      let e (i : Nat) := k.x.cel.mGet n.toNat i
      V (.vmov g (.vm d n)) 2 (fun i => (if (e i).b then 1 else 0, (e i).p)) ∧
      Is (.vmov g (.mv m a)) [(due 2, .m m.toNat (cellWrites cells fun i => (va i != 0, p1 i)))] ∧
      Is (.vmov g (.mm m n)) [(due 2, .m m.toNat (cellWrites cells fun i => ((e i).b, (e i).p)))] ∧
      V (.vsel g d a b n) 2 (fun i => (if (e i).b then va i else (rdEl k c b i).1, (if (e i).b then p1 i else (rdEl k c b i).2.1) || (e i).p)) ∧
      (c.dup = 0 →
        let Fl (v : VFlK) (h : Nat → Bool × Bool) : Prop :=
          Is (.vflag g v) [(due 1, .cf c.bn (cellWrites cells h)), (c.t + 19, .cfs (cellWrites cells h))]
        Fl .clr (fun _ => (false, false)) ∧ Fl .set (fun _ => (true, false)) ∧ Fl (.mask n) (fun i => ((e i).b, (e i).p)) ∧
        Fl (.notMask n) (fun i => (!(e i).b, (e i).p)))) ∧
    (∀ n : R6, V (.vbc g d (.sreg n)) 2 fun _ => (c.sc.v.extractLsb' 0 32, c.sc.p)) ∧
    (∀ q : BitVec 3, V (.vbc g d (.head q)) 2 fun _ => (c.sc.v.extractLsb' 0 32, c.sc.p)) ∧
    (∀ (n : R6) (p : BitVec 22), V (.vbc g d (.immHi n p)) 2 (fun _ => (BitVec.ofNat 32 (p.toNat * 2 ^ 10 + n.toNat * 2 ^ 4), false)) ∧
      V (.vbc g d (.immLo n p)) 2 (fun _ => ((BitVec.ofNat 28 (p.toNat * 2 ^ 6 + n.toNat)).signExtend 32, false))) ∧
    (∀ x : Dist,
      let n : Nat := match x with | .imm n => n.toNat | .reg _ => c.sc.v.toNat % 64
      let pz : Bool := match x with | .imm _ => false | .reg _ => c.sc.p
      let From (i : Instr) (l : Nat) (src : Nat → Nat) : Prop := V i l fun i => (va (src i), p1 (src i) || pz)
      From (.vrotx g d a x) 4 (fun i => i / 64 * 64 + (i % 64 + 64 - n) % 64) ∧ From (.vbcx g d a x) 3 (fun i => i / 64 * 64 + n) ∧
      From (.vroty g d a x) 3 (fun i => (i / 64 + 16 - n % 16) % 16 * 64 + i % 64) ∧ From (.vbcy g d a x) 3 (fun i => n % 16 * 64 + i % 64)) ∧
    (∀ e : R6, let sel (i : Nat) : Nat := (c.sh.v.extractLsb' (8 * (i % 64)) 8).toNat
      let src (i : Nat) : W32 × Bool := if 128 ≤ sel i then (0, false)
        else let e := rdEl k c (if sel i < 64 then a else b) (i / 64 * 64 + sel i % 64); (e.1, e.2.1)
      V (.vshuf g d a b e) 3 fun i => ((src i).1, (src i).2 || c.sh.p)) ∧
    -- memory and accumulators
    (∀ (n : BitVec 4) (off : Imm 28),
      let o (i : Nat) := k.x.localOff (k.x.spOff c.ea + word i)
      let ld (i : Nat) := k.s.seenWord k.a k.x.cel.old c.t (o i)
      let vo (i : Nat) := (k.x.tsk.ownOff 1 c.ea).getD 0 + 64 * (i % 64) + 4 * (i / 64)
      ((∀ e ∈ k.x.cel.old, e.t ≠ c.t) → ∀ i, ld i = (BitVec.ofNat 32 (k.s.readN (spadKey k.a (o i)) 4), k.s.spadPois k.a (o i))) ∧
      (k.s.err = [] →
        V (.vld g d n off) 6 ld ∧ V (.ldwWf ⟨none, 0⟩ d n off) 3 ld ∧
        V (.vldv g d n off) 8 (fun i => (BitVec.ofNat 32 (k.s.readN (vaultKey k.a (vo i)) 4), k.s.vaultPois k.a (vo i)))) ∧
      (c.dup = 0 → (rowOf (.vst g a n off) [] k c).wr = [] ∧ (rowOf (.vst g a n off) [] k c).fl = 0#7 ∧
        (rowOf (.vst g a n off) [] k c).st = cells.filterMap fun e =>
          if e.2.1 then some (k.x.spOff c.ea + word e.1, va e.1, p1 e.1 || e.2.2, false)
          else if e.2.2 then some (k.x.spOff c.ea + word e.1, 0, true, true) else none)) ∧
    (∀ (n : BitVec 3) (j : BitVec 5),
      let el (i : Nat) := (4 * (i / 64) + j.toNat / 8) * 512 + 8 * (i % 64) + j.toNat % 8
      V (.vrdacc g d n j) 4 (fun i => let e := k.x.cel.accGet n.toNat (el i); (e.v, e.p)) ∧
      (c.dup = 0 → Is (.vwracc g n a j) [(due 4, .acc n.toNat ((cellWrites cells fun i => (va i, p1 i)).map fun e => (el e.1, e.2)))])) ∧
    -- reductions and scans
    ∀ (op : BitVec 3) (t : VT) (push : Option R6), op.toNat ≤ 5 → (3 ≤ op.toNat → t = .i32) →
      let f := combine op t c.ctl
      let runs (i : Nat) : Bool := cells.any fun e => e.1 == i && e.2.1
      let x (j : Nat) : W32 := if runs (64 * k.r + j) then va (64 * k.r + j) else identity op t
      let pz (n : Nat) : Bool := cells.any fun e => e.2.1 && decide (e.1 ≤ n) && p1 e.1
      let red := balanced f 6 x 0
      let pushes (due n : Nat) (v : W32) (p : Bool) : List (Nat × Wr) :=
        match push with | some r => if r.toNat = n ∧ c.dup = 0 then [(due, .vsq ⟨v.setWidth 64, p⟩)] else [] | none => []
      ((rowOf (.vredx g op t d a push) [] k c).wr =
          (due 8, .v (vphys c.rrb d) (cellWrites cells fun _ => (red.1, pz 1023))) :: pushes (due 8) k.r red.1 (pz 1023) ∧
        (rowOf (.vredx g op t d a push) [] k c).fl = red.2) ∧
      (let scan := sequential f (alone t c.ctl (x 0)) x
       (rowOf (.vscanx g op t d a) [] k c).wr = [(due 10, .v (vphys c.rrb d) (cellWrites cells fun i => ((scan (i % 64)).1, pz i)))] ∧
        (rowOf (.vscanx g op t d a) [] k c).fl = (scan 63).2) ∧
      (let mine := cells.map fun e => (e.1, if e.2.1 then some (va e.1) else none, e.2.1 && p1 e.1, e.2.2)
       ∀ before : List (Nat × Option W32 × Bool × Bool),
         let q := before ++ mine
         let at_ (j r : Nat) : W32 × Bool := match q.find? fun e => e.1 == 64 * r + j with | some (_, some v, p, _) => (v, p) | _ => (identity op t, false)
         let y (j r : Nat) := (at_ j r).1
         let out (v : Nat → W32 × Bool) : List (Nat × Option W32 × Bool) := cellWrites (q.map fun e => (e.1, e.2.1.isSome, e.2.2.2)) v
         let poison (j n : Nat) : Bool := (List.range 16).any fun r => decide (r ≤ n) && (at_ j r).2
         let scan (j : Nat) := sequential f (alone t c.ctl (y j 0)) (y j)
         let R := rowOf (.vredy g op t d a push) before k c
         let S := rowOf (.vscany g op t d a) before k c
         R.gath = mine ∧ S.gath = mine ∧
         (k.r ≠ 15 → R.wr = [] ∧ R.fl = 0#7 ∧ S.wr = [] ∧ S.fl = 0#7) ∧
         (k.r = 15 →
           R.wr = (c.t + 22, .v (vphys c.rrb d) (out fun i => ((balanced f 4 (y (i % 64)) 0).1, poison (i % 64) 15))) ::
             (match push with
               | some j => if c.dup = 0 then [(c.t + 22, .vsq ⟨(balanced f 4 (y j.toNat) 0).1.setWidth 64, poison j.toNat 15⟩)] else []
               | none => []) ∧
           R.fl = (List.range 64).foldl (fun m j => m ||| (balanced f 4 (y j) 0).2) 0#7 ∧
           S.wr = [(c.t + 22, .v (vphys c.rrb d) (out fun i => ((scan (i % 64) (i / 64)).1, poison (i % 64) (i / 64))))] ∧
           S.fl = (List.range 64).foldl (fun m j => m ||| (scan j 15).2) 0#7))

/-- R50, R51, R82, R128-R131: the conversions, the widenings, the narrowing with its residue, and the special functions. `VCVT` converts each lane by its code, `VWID`
takes one lane to a whole element, `VNRW` puts the narrowed sum into one lane of vd and the residue into ve. A special function gives the results that R131 fixes:
of NaN, zeros, infinities, negative operands of `VRSQ` and `VLOG2`, large operands of `VEXP2` and `VTANH`, powers of two of `VRCP`; and never a subnormal. -/
def Obligations.VectorConversionsAndFunctions : Prop :=
  (∀ (k : RowCtx) (c : Cap) (g : VG) (d a b : R6),
    let va (i : Nat) := (rdEl k c a i).1
    let p1 (i : Nat) := (rdEl k c a i).2.1
    let f := c.ctl
    let Row (ins : Instr) (l : Nat) (v : Nat → W32 × Bool) (fl : Nat → Fl) : Prop :=
      (rowOf ins [] k c).wr = [(c.t + 1 + k.r + l, .v (vphys c.rrb d) (cellWrites (actCells k c) v))] ∧
      (rowOf ins [] k c).fl = cellFlags (actCells k c) fl
    let ln (w j : Nat) (x : W32) : Nat := x.toNat / 2 ^ (w * j) % 2 ^ w
    let pk (w : Nat) (h : Nat → Nat) : W32 := BitVec.ofNat 32 (((List.range (32 / w)).map fun j => h j % 2 ^ w * 2 ^ (w * j)).sum)
    let Converts (code : BitVec 4) (w : Nat) (h : Nat → Nat × Fl) : Prop :=
      Row (.vcvt g code d a) 4 (fun i => (pk w fun j => (h (ln w j (va i))).1, p1 i))
        fun i => (List.range (32 / w)).foldl (fun m j => m ||| (h (ln w j (va i))).2) 0#7
    Converts 0 32 (cvtIF 32 fmt32 f) ∧ Converts 1 32 (cvtFI fmt32 32 f) ∧ Converts 2 16 (cvtFF fmtF16 fmtBf16 f) ∧
    Converts 3 16 (cvtFF fmtBf16 fmtF16 f) ∧ Converts 4 16 (cvtFI fmtF16 16 f) ∧ Converts 5 16 (cvtIF 16 fmtF16 f) ∧
    Converts 6 16 (cvtFI fmtBf16 16 f) ∧ Converts 7 16 (cvtIF 16 fmtBf16 f) ∧ Converts 8 8 (cvtFF fmtE4m3 fmtE5m2 f) ∧
    Converts 9 8 (cvtFF fmtE5m2 fmtE4m3 f) ∧ Converts 10 8 (cvtFI fmtE4m3 8 f) ∧ Converts 11 8 (cvtIF 8 fmtE4m3 f) ∧
    Converts 12 32 (fun x => fmt32.finish f (FV.rint f.rm (fmt32.val f.ftz x))) ∧
    (∀ lane : BitVec 2,
      let Widens (code : BitVec 4) (v : Nat → W32) : Prop := Row (.vwid g code lane d a) 2 (fun i => (v i, p1 i)) fun _ => 0#7
      let wide (F : Fmt) (i : Nat) : W32 := BitVec.ofNat 32 (cvtFF F fmt32 ⟨.rne, f.ftz, false⟩ (ln F.width lane.toNat (va i))).1
      Widens 0 (wide fmtBf16) ∧ Widens 1 (wide fmtF16) ∧ Widens 2 (wide fmtE4m3) ∧ Widens 3 (wide fmtE5m2) ∧
      Widens 4 (fun i => (BitVec.ofNat 16 (ln 16 lane.toNat (va i))).signExtend 32) ∧
      Widens 5 (fun i => (BitVec.ofNat 8 (ln 8 lane.toNat (va i))).signExtend 32)) ∧
    (∀ (z nf : Bool) (lane fmt : BitVec 2),
      let F := match fmt.toNat with | 0 => fmtBf16 | 1 => fmtF16 | 2 => fmtE4m3 | _ => fmtE5m2
      let sum (i : Nat) := FV.add f.rm (fmt32.val f.ftz (va i).toNat) (if nf then .fin false 0 0 else fmt32.val f.ftz (rdEl k c b i).1.toNat)
      let r (i : Nat) := narrowFb F f (sum i)
      let put (i : Nat) : W32 := BitVec.ofNat 32 (((List.range (32 / F.width)).map fun j =>
        (if j = lane.toNat then (r i).1 % 2 ^ F.width else if z then 0 else ln F.width j (rdEl k c d i).1) * 2 ^ (F.width * j)).sum)
      let pe (i : Nat) := p1 i || (!nf && (rdEl k c b i).2.1)
      let o := rowOf (.vnrw g d a b z nf lane fmt) [] k c
      let due := c.t + 5 + k.r
      lane.toNat < 32 / F.width →
        o.fl = cellFlags (actCells k c) (fun i => (r i).2.2) ∧
        o.wr = (due, Wr.v (vphys c.rrb d) (cellWrites (actCells k c) fun i => (put i, pe i || (!z && (rdEl k c d i).2.1)))) ::
          if nf then [] else [(due, .v (vphys c.rrb b) (cellWrites (actCells k c) fun i => (BitVec.ofNat 32 (r i).2.1, pe i)))]) ∧
    (let Acts (ins : Instr) (n : SpFn) : Prop :=
       Row ins 8 (fun i => (BitVec.ofNat 32 (special n f.ftz (va i)).1, p1 i)) fun i => (special n f.ftz (va i)).2
     Acts (.vrcp g d a) .rcp ∧ Acts (.vrsq g d a) .rsq ∧ Acts (.vexp2 g d a) .exp2 ∧ Acts (.vlog2 g d a) .log2 ∧ Acts (.vsin g d a) .sin ∧
       Acts (.vcos g d a) .cos ∧ Acts (.vtanh g d a) .tanh)) ∧
  (∀ (n : SpFn) (ftz : Bool) (x : W32),
    let r := special n ftz x
    let exact (l : List (SpFn × Nat × Fl)) : Prop := ∀ e ∈ l, n = e.1 → r = e.2
    let sgn := x.toNat / 2 ^ 31 * 2 ^ 31
    let one := 0x3F80_0000
    let nan := 0x7FC0_0000
    let inf := 0x7F80_0000
    let dz : Fl := 2#7
    let nv : Fl := 1#7
    fmt32.isSub r.1 = false ∧
    (inf < x.toNat % 2 ^ 31 → r = (nan, 0#7)) ∧
    (x.toNat = inf → exact [(.rcp, 0, 0), (.rsq, 0, 0), (.exp2, inf, 0), (.log2, inf, 0), (.sin, nan, nv), (.cos, nan, nv), (.tanh, one, 0)]) ∧
    (x.toNat = inf + 2 ^ 31 →
      exact [(.rcp, 2 ^ 31, 0), (.rsq, nan, nv), (.exp2, 0, 0), (.log2, nan, nv), (.sin, nan, nv), (.cos, nan, nv), (.tanh, one + 2 ^ 31, 0)]) ∧
    (x.toNat % 2 ^ 31 = 0 ∨ (ftz = true ∧ fmt32.isSub x.toNat = true) →
      exact [(.rcp, inf + sgn, dz), (.rsq, inf + sgn, dz), (.exp2, one, 0), (.log2, inf + 2 ^ 31, dz), (.sin, sgn, 0), (.cos, one, 0), (.tanh, sgn, 0)]) ∧
    (2 ^ 31 < x.toNat → x.toNat < inf + 2 ^ 31 → (ftz = false ∨ fmt32.isSub x.toNat = false) → exact [(.rsq, nan, nv), (.log2, nan, nv)]) ∧
    (0x4300_0000 ≤ x.toNat → x.toNat < inf → exact [(.exp2, inf, Fl.ovf ||| Fl.nx)]) ∧
    (0x4180_0000 ≤ x.toNat % 2 ^ 31 → x.toNat % 2 ^ 31 < inf → exact [(.tanh, one + sgn, Fl.nx)]) ∧
    ∀ e, 1 ≤ e → e ≤ 253 → x.toNat = sgn + e * 2 ^ 23 → exact [(.rcp, sgn + (254 - e) * 2 ^ 23, 0)])

/-! ## The matrix class (R149-R184) -/

/-- R152-R155: `MLN` loads the shadow records of the loop-nest table and the bound K registers from a record of the own scratchpad, whose fields must be
in range; the record is stated clean and awaiting no correction.
R172, R173: `MWAIT` issues once no matrix command is outstanding and no cause is pending, `MWAIT.wt` once no `MWT` is; `MSTAT` writes the completed
sequence number, the number outstanding and the sticky bits, which `MSTAT.clr` also clears. -/
def Obligations.LoopNestAndMatrixStatus : Prop :=
  (∀ (s : State) (g : MG) (a k l : BitVec 4) (lv : BitVec 3) (ke : Bool),
     let e := if g.gx.isSome then 1 else 0
     s.readyM g [.a a] [.a a] = true →
     (s.recClean a 32 32 = true → hdrOk (s.recBits a 32) = true →
       Executes (.mln g .header a) s e 0 fun y => y.modMat fun m => { m with nest := { m.nest with hdr := s.recBits a 32 } }) ∧
     (s.recClean a 32 32 = true → levOk (s.recBits a 32) = true →
       Executes (.mln g (.level lv ke l) a) s e 0 fun y => y.modMat fun m =>
         { m with nest := { m.nest with lev := SMap.set 0 m.nest.lev lv.toNat (s.recBits a 32),
                                        bind := SMap.set 0 m.nest.bind lv.toNat (BitVec.ofBool ke ++ l) } }) ∧
     (s.recClean a 8 8 = true →
       Executes (.mlnK g k a) s e 0 fun y => y.modMat fun m => { m with k := SMap.set 0#64 m.k k.toNat (s.recBits a 8) })) ∧
  (∀ (s : State) (g : MG) (d : R6),
     let x := s.here
     let e := if g.gx.isSome then 1 else 0
     let v : Word := BitVec.ofNat 64 (x.mat.cseq.toNat * 2 ^ 48 + x.mat.cmds.length % 16 * 2 ^ 44 + x.mat.stick.toNat)
     (s.readyM g [] [] = true →
       (x.mat.cmds = [] → x.mat.pendc = [] → Executes (.mwait g) s e 0 id) ∧
       ((x.mat.cmds.any isMwt) = false → Executes (.mwaitWt g) s e 0 id)) ∧
     (s.readyM g [.s d] [] = true →
       ResultS (.mstat g d) s e 1 d ⟨v, false⟩ 0#7 ∧
       Executes (.mstatClr g d) s e 0 fun y => (y.putS s.now 1 d ⟨v, false⟩).modMat fun m => { m with stick := 0 }))

/-- R150, R156, R157, R164-R170, R176, R177: a matrix command that meets no check takes the next sequence number, holds its tiles engine-owned and joins
the queue of at most eight; the valid bits of the accumulator tiles it writes are set (R60). An `MMS` that the merge buffer of its quad does not
take is dispatched alone at its issue. -/
def Obligations.MatrixCommandsIssue : Prop :=
  ∀ (s : State) (g : MG) (a : BitVec 4) (acc res : BitVec 3) (td : BitVec 8) (ui ef : Bool) (ts : List Nat),
    let x := s.here
    let e := if g.gx.isSome then 1 else 0
    let entry (n : Nat) : BitVec 1024 := SMap.get 0 x.cpy.tdt n
    let room := x.mat.cmds.length < 8
    let at_ := tdWithBase (entry td.toNat) (x.aGet a).v
    let busy (f : MCmd → Bool) := x.mat.cmds.any f
    (s.readyM g [] [] = true →
      (∀ flow i, (flow, i) = (Flow.ip, Instr.mgoIp g ui) ∨ (flow, i) = (Flow.op, Instr.mgoOp g ui) ∨ (flow, i) = (Flow.rw, Instr.mgoRw g ui) →
        goCheck flow (s.slot e) s = .ok ts →
        Executes i s e 0 fun y => (y.matCommand s.now (.mgo (goNest flow x)) ui ts).accValid x.mat.nest.reach) ∧
      (room → busy isMwt = false →
        (x.mat.shd.st ≠ .loaded ∨ ((x.mat.shd.metaW.any fun w => w.2.2) = false ∧ x.mat.shd.fault = none)) →
        Executes (.mswp g) s e 0 fun y => y.matCommand s.now .mswp false [])) ∧
    (s.readyM g [.acc acc] [] = true → room →
      Executes (.mz g acc) s e 0 fun y => (y.matCommand s.now (.mz acc.toNat) false []).accValid [acc.toNat]) ∧
    (s.readyM g [.a a] [.a a] = true → s.recClean a 32 32 = true →
      (∀ rs, mwtRanges a (s.slot e) s = .ok rs →
        let u := lookAll 0 ((rs.filter fun r => (x.tsk.ownOff 0 r.1).isNone).flatMap probes) (s.slot e) s
        mwtCheck a (s.slot e) s = .ok ts → mwtCheck a (s.slot e) u = .ok ts →
        ExecutesFrom (.mwt g a) s u e 0 fun y =>
          y.matCommand s.now (.mwt (s.recBits a 32) (entry (MwtDesc.td (s.recBits a 32)))) false ts) ∧
      (let d := s.recBits a 32
       let u := lookAll 0 (bPages (mmsB x d) d) (s.slot e) s
       (∃ l, bProbe s.cur x.trCap (mmsB x d) d u = .ok l) → mmsTraps a (s.slot e) s = [] → mmsTiles (s.slot e) x d = .ok ts →
        let r := mmsReq a (s.slot e) u
        let cmd (y : Arr) : Arr := y.matCommand s.now (.mms r) (MmsDesc.ui d) ts
        let taken := (s.getQ (s.cur / 4)).takes (s.mmsFlying (s.cur / 4)) r x.tsk.chain
        (taken = true → ExecutesFrom (.mms g a) s u e 0 cmd) ∧
        (taken = false → ∃ v t, Issued u v (cmd (u.here.began s.now (max 4 (2 + e)) 0 0 true)) ∧ exec (.mms g a) s = .next t ∧
          (∀ b, t.getA b = (aloneMms s.cur r v).getA b) ∧ t = { aloneMms s.cur r v with arr := t.arr } ∧
          (t.getQ (s.cur / 4)).stks = (s.getQ (s.cur / 4)).stks ++ [⟨[r], s.cur, false, s.now, false, false⟩]))) ∧
    ((x.aGet a).p = false → (x.aGet a).v.toNat % 4 = 0 → 1 ≤ tdRank (entry td.toNat) → room →
      (let r : List RR := [.acc acc, .a a] ++ if ef then [.acc res] else []
       s.readyM g r r = true → (ef = true → res ≠ acc) → tileCheck a false (entry td.toNat) (s.slot (1 + e)) x = .ok ts →
        busy (fun m => m.writesAcc acc.toNat || (ef && m.writesAcc res.toNat)) = false →
        Executes (.mst g acc res a ui ef td) s (1 + e) 0 fun y =>
          y.matCommand s.now (.mst acc.toNat res.toNat ef (x.aGet a).v at_) ui ts) ∧
      (s.readyM g [.acc acc, .a a] [.a a] = true → tdFmt (entry td.toNat) ≤ 1 →
        tileCheck a true (entry td.toNat) (s.slot (1 + e)) x = .ok ts →
        busy (fun m => m.writesAcc acc.toNat || m.readsAcc acc.toNat) = false →
        Executes (.mla g acc a td) s (1 + e) 0 fun y =>
          (y.matCommand s.now (.mla acc.toNat (x.aGet a).v at_) false ts).accValid [acc.toNat]))

/-- R150, R156, R158, R165, R167, R168, R172: the matrix engine. A command that may start begins at its turn and, but for a nest, has its whole effect
once what it reads can be read: `MZ` clears its tile, `MSWP` exchanges the planes, `MWT` makes the shadow plane LOADING. The running nest takes its next
step, and an index vector with no live tile and no store changes nothing but its place and event 14. A whole command writes what it has left to write and completes:
its tiles return, its number, stickies, flags and pending cause show, a loaded plane is LOADED, and one marked UIRQ is left pending outside a chain. That a start
or a step reads at once what is left to read, and that a completion performs the writes that are left, is log 13 (notes/assumptions/13).
R177-R182: the merge buffer of a quad. A request whose B lies whole in a vault of its quad, with merging on, an entry free and its task no chain, joins
the open stack of its key where its rows fit, and otherwise dispatches that stack and opens another; any other request is dispatched alone on its own plane. Stacks that
are due are dispatched, behind those dispatched before. A dispatched stack that is first on its owner takes the plane when that is idle or runs a nest of
lower priority, and from any nest 4,096 cycles after its dispatch. Once every band is computed, each band's command completes and the stack is gone. -/
def Obligations.MatrixEngineAndMergeBuffer : Prop :=
  ((∀ (s : State) (a : Nat) (seq : BitVec 16) (m : MCmd), (s.getA a).mcmd seq = some m → m.started = false → mayRun s a m = true →
     ∃ t m', exec (.matrixCommandStart a seq) s = .next t ∧ (t.getA a).mcmd seq = some m' ∧ m'.started = true ∧ m'.kind = m.kind ∧ m'.tiles = m.tiles ∧
       (∀ n, m.kind = .mgo n → t = { s with arr := t.arr } ∧ ∀ b, b ≠ a → t.getA b = s.getA b) ∧
       (∀ n, m.kind = .mz n → m'.whole = true ∧ t = { s.regsNew a 6 (n * 32768) ((n + 1) * 32768) with arr := t.arr } ∧ (∀ b, b ≠ a → t.getA b = s.getA b) ∧ ∀ k i, i < 32768 →
         (t.getA a).cel.accGet k i = if k = n then EP.zero else (s.getA a).cel.accGet k i) ∧
       (m.kind = .mswp → s.err = [] → m'.whole = true ∧ t = { s with arr := t.arr } ∧
         (t.getA a).mat.act = (if (s.getA a).mat.shd.st = .loaded then (s.getA a).mat.shd else Plane.empty) ∧
         (t.getA a).mat.shd = (if (s.getA a).mat.shd.st = .loading then (s.getA a).mat.shd else Plane.empty)) ∧
       (∀ d td, m.kind = .mwt d td → m.bad = none → m'.bad = none → (t.getA a).mat.shd.st = .loading ∧ (t.getA a).mat.shd.desc = d ∧ (t.getA a).mat.shd.td = td)) ∧
   (∀ (s : State) (a : Nat) (m : MCmd) (g : Nest), (s.getA a).nest = some (m, g) → (s.getA a).mcmd m.seq = some m →
     (s.getA a).tsk.run = true → (s.getA a).killed = false → m.park = none → s.stackRuns a = false →
     ((s.getA a).stopping = false ∧ s.stackTakes a = false ∨ m.stepping = true) →
     (m.wr ≠ [] → ∃ t m', exec (.tileStep a) s = .next t ∧ (t.getA a).mcmd m.seq = some m' ∧ m'.kind = .mgo g ∧ m'.whole = m.whole ∧
       m'.wr = (engWrite (m.eng a) m.wr s).1 ∧ ∀ w ∈ m'.wr, w ∈ m.wr) ∧
     (m.wr = [] → m.whole = false → (s.ready a m).1 = .ok → exec (.tileStep a) s = .next (walkStep a m g (s.ready a m).2)) ∧
     (m.wr = [] → m.whole = false → s.err = [] →
       (g.tab.levels.zipIdx.all fun e => !bitAt (g.tab.binding e.2) 4 || bitAt (SMap.get 0#64 g.kval e.2) (g.idx.getD e.2 0 % 64)) = false →
       (g.tab.levels.all fun l => !NestLev.se l) = true →
       ∃ t m' n', exec (.tileStep a) s = .next t ∧ t = { s with arr := t.arr } ∧ (∀ b, b ≠ a → t.getA b = s.getA b) ∧
         t.getA a = { (s.getA a).count 14 1 with mat := (t.getA a).mat } ∧
         (t.getA a).mcmd m.seq = some m' ∧ m'.kind = .mgo n' ∧ m'.started = true ∧ n'.tab = g.tab ∧ m'.wr = [] ∧
         n'.idx = (nextIdx g.tab.levels g.idx).getD g.idx ∧ m'.whole = (nextIdx g.tab.levels g.idx).isNone)) ∧
   (∀ (s : State) (a : Nat), (s.getA a).stopping = true ∨ s.stackTakes a = true →
     (∀ e, (s.getA a).nest = some e → e.1.stepping = false) → exec (.tileStep a) s = .next s) ∧
   (∀ (s u : State) (g : Eng) (w : MWr) (h : Home), s.locate g.a g.tr w.va w.bytes.length 1 = (.ok h, u) →
     (u.excluded h = true → unitWrite g w s = ([w], false, u)) ∧
     (u.excluded h = false → ∃ t, unitWrite g w s = ([], false, t) ∧
       ∀ b off far, h = .spad b off far → u.bankOff b off far + w.bytes.length ≤ 2 ^ 24 → w.pz.length = w.bytes.length →
         ∀ i, (hi : i < w.bytes.length) → t.byte (spadKey b (u.bankOff b off far + i)) = w.bytes[i])) ∧
   (∀ (s : State) (a : Nat) (seq : BitVec 16) (m : MCmd), (s.getA a).mcmd seq = some m → m.started = true → m.whole = true → isMms m = false →
     (s.getA a).tsk.run = true → (s.getA a).killed = false →
     let u := flushWr a m s
     let y := u.getA a
     ∃ t c, y.mcmd seq = some c ∧ exec (.matrixCommandComplete a seq) s = .next t ∧ t = { u with arr := t.arr } ∧ (∀ b, b ≠ a → t.getA b = u.getA b) ∧
       c.wr = (engWrite (m.eng a) m.wr s).1 ∧ c.fl = m.fl ∧ c.ms = m.ms ∧ c.ui = m.ui ∧ c.tiles = m.tiles ∧
       (c.bad = m.bad ∨ c.bad = some .asyncmat) ∧ (m.wr = [] → c.wr = [] ∧ c.bad = m.bad ∧ u = { s with arr := u.arr }) ∧
       (c.wr ≠ [] → t = u) ∧
       (c.wr = [] →
       (t.getA a).mat.cmds = y.mat.cmds.filter (fun c => c.seq != seq) ∧ (t.getA a).mat.cseq = seq ∧
       (t.getA a).mat.stick = y.mat.stick ||| c.ms ∧
       (t.getA a).mat.pendc = y.mat.pendc ++ (c.bad.map fun k => (seq, k)).toList ∧
       (t.getA a).mat.shd.st = (if isMwt m && y.mat.shd.st == .loading then .loaded else y.mat.shd.st) ∧
       (∀ n, (t.getA a).cpy.own.getLsbD n = (y.cpy.own.getLsbD n && !c.tiles.contains n)) ∧
       (t.getA a).sca.fpcsr = (y.sca.fpcsr ||| (c.fl.setWidth 64 <<< 8)) ∧
       (t.getA a).sca.uirq = y.sca.uirq ++
         if c.ui && !y.tsk.chain then [(seq.setWidth 64, BitVec.ofNat 64 ((c.bad.map Cause.code).getD 0))] else []))) ∧
  ((∀ (s : State) (a : Nat) (seq : BitVec 16) (m : MCmd) (r : MmsReq), (s.getA a).mcmd seq = some m → m.kind = .mms r → r.seq = seq → m.started = false →
     (s.getA a).tsk.run = true → (s.getA a).killed = false → (s.getA a).stopping = false →
     let q := s.getQ (a / 4)
     let r' := { r with arr := a, arrival := s.now }
     let hit (k : Stk) : Bool := k.isOpen && (k.reqs.head?.map fun o => sameKey o r').getD false
     let fit (k : Stk) : Bool := hit k && decide (k.rows + MmsDesc.rows r.desc ≤ 64)
     let put (l : List Stk) : State := ((beginMms a r' s).modQ (a / 4) fun q => { q with stks := l }).wakeFor r'
     let gives (t : State) (l : List Stk) : Prop := (t.getQ (a / 4)).stks = dispatchStks s.now (put l).stkDue l
     ∃ t m', exec (.mmsArrival a seq) s = .next t ∧ t = { s with arr := t.arr, quad := t.quad } ∧
       (∀ p, p ≠ a / 4 → (∀ v, r.bvault = some v → p ≠ v / 4) → t.getQ p = s.getQ p) ∧
       (t.getA a).mcmd seq = some m' ∧ m'.kind = .mms r' ∧ m'.started = true ∧
       (∀ i k, q.stks[i]? = some k → fit k = true → (∀ j k', j < i → q.stks[j]? = some k' → fit k' = false) →
         gives t (q.stks.set i { k with reqs := k.reqs ++ [{ r' with row0 := k.rows }] })) ∧
       ((∀ k ∈ q.stks, fit k = false) → gives t (⟨[r'], r.bvault.getD a, true, s.now, false, true⟩ :: dispatchStks s.now hit q.stks))) ∧
   (∀ (s : State) (p : Nat), ∃ t, exec (.holdExpiry p) s = .next t ∧ (∀ n, n ≠ p → t.getQ n = s.getQ n) ∧ t = { s with quad := t.quad } ∧
     let go (k : Stk) : Bool := k.isOpen && s.stkDue k
     (t.getQ p).stks = (s.getQ p).stks.filter (fun k => !go k) ++ ((s.getQ p).stks.filter go).map fun k => { k with isOpen := false, at_ := s.now }) ∧
   (∀ (s : State) (p i : Nat) (k : Stk), s.nextStk p i = some k →
     let x := s.getA k.owner
     let takes (ins : Instr) : Prop := ∃ t, exec ins s = .next t ∧ (∀ n, n ≠ p → t.getQ n = s.getQ n) ∧ t = { s with quad := t.quad } ∧
       (t.getQ p).stks[i]? = some { k with run := true } ∧ ∀ j, j ≠ i → (t.getQ p).stks[j]? = (s.getQ p).stks[j]?
     (ownRuns x = (false, false) → takes (.stackStart p i)) ∧
     (ownRuns x = (true, false) → x.csr.prio.toNat < k.prio → takes (.stackStart p i)) ∧
     (ownRuns x = (true, false) → k.at_ + 4096 ≤ s.now → takes (.stackWaitExpiry p i))) ∧
   (∀ (s : State) (p i : Nat) (k : Stk), (s.getQ p).stks[i]? = some k → k.run = true →
     (k.whole s = false → ∃ t, exec (.stackComplete p i) s = .next t ∧ ∀ n, t.getQ n = s.getQ n) ∧
     (k.whole s = true →
       let u := k.reqs.foldl (fun s r => flushBand r s) s
       (k.written u = false → exec (.stackComplete p i) s = .next u) ∧
       (k.written u = true →
       ∃ t, exec (.stackComplete p i) s = .next t ∧ (t.getQ p).stks = (s.getQ p).stks.eraseIdx i ∧ (∀ n, n ≠ p → t.getQ n = s.getQ n) ∧
         ∀ r ∈ k.reqs, (t.getA r.arr).mcmd r.seq = none)) ∧
     (∀ (r : MmsReq) (m : MCmd), k.reqs = [r] → (s.getA r.arr).mcmd r.seq = some m → m.whole = false → m.park = none → m.kind = .mms r →
       (s.getA r.arr).quiet m.t = true → m.missing = [] →
       ∃ t m', exec (.stackComplete p i) s = .next t ∧ (t.getA r.arr).mcmd r.seq = some m' ∧
         (bandOf m.buf r = some (.error ()) → m'.whole = true ∧ m'.bad = some .asyncmat ∧ m'.wr = m.wr) ∧
         ∀ l ms, bandOf m.buf r = some (.ok (l, ms)) → m'.whole = true ∧ m'.bad = m.bad ∧ m'.ms = ms ∧
           m'.wr = unitsOf (l.flatMap fun e => (leBytes 4 e.2.v.toNat).zipIdx.map fun b => (ownAddr (e.1 + b.2), b.1, e.2.p)))))

/-- R42-R56, R156, R159, R160, R164, R165, R169, R170, R175, R176, R182: the data of the matrix class. A unit of 16 bytes is read whole with its poison,
where the bank grants it, and a step is taken with the units of all its reads (the unit and the single step are the model's own: notes/assumptions/13). `MLA` gives every element of its tile the word at its
position, +0 outside the extents, with its poison; `MWT` gives the shadow plane the elements of its range. A band of an `MMS` has for each row and column
the sum of C, if it accumulates, and its groups of products in turn; poison of A or B fails it. `MST` converts each element within the extents and has its bytes to
write, its flags joined; under error feedback the residues replace those of the second tile and the sum is what is converted. A live tile step adds to each element the exact sum of the
products of its row of A and its column of B, rounded once and added, or modulo 2³² for integers; a step whose operand is zero leaves the tile; poison of
a row or a column joins. That a step takes a whole tile at one instant is log 13; the flags of the destinations are log 34 (notes/assumptions/34), and the residue of
a saturating integer destination is log 50 (notes/assumptions/50). -/
def Obligations.MatrixData : Prop :=
  (∀ (s : State) (a : Nat) (seq : BitVec 16) (m : MCmd) (u : Nat) (h : Home), (s.getA a).mcmd seq = some m → m.buf.find u = none → s.err = [] →
    s.locate a m.tr (unitVa u) 16 0 = (.ok h, s) → h.outside = false → (s.askRead (if h.away a then 4 else 0) h).1 = true →
    ∃ m', ((fetchUnit a seq u s).getA a).mcmd seq = some m' ∧ (∀ v, v ≠ u → m'.buf.find v = m.buf.find v) ∧
      m'.buf.find u = some ((s.readHome h 16).1, if (s.readHome h 16).2.1 then s.poisBits h else 0)) ∧
  (∀ (b : UBuf) (va : Addr) (n x : Nat) (p : Bool), engRead b va n = some (x, p) → 1 ≤ n → n ≤ 16 →
    (∀ u v, b.find u = some v → v.1 < 2 ^ 128 ∧ v.2 < 2 ^ 16) →
    let unit (k : Nat) : Nat × Nat := (b.find (k / 16)).getD (0, 0)
    x < 256 ^ n ∧ (∀ i, i < n → x / 256 ^ i % 256 = (unit (va.toNat + i)).1 / 256 ^ ((va.toNat + i) % 16) % 256) ∧
    (p = true ↔ ∃ i, i < n ∧ (unit (va.toNat + i)).2.testBit ((va.toNat + i) % 16) = true)) ∧
  (∀ (s : State) (a : Nat) (seq : BitVec 16) (m : MCmd) (td : BitVec 1024), (s.getA a).mcmd seq = some m → m.started = false →
    mayRun s a m = true → m.missing = [] → fmtPlanes (tdFmt td) = false →
    (∀ n ea, m.kind = .mla n ea td → ∃ t, exec (.matrixCommandStart a seq) s = .next t ∧ ∀ k r, k < 512 → r < 64 → ∀ j,
        (t.getA a).cel.accGet j (512 * r + k) = if j ≠ n then (s.getA a).cel.accGet j (512 * r + k) else
          match inPos td k r with
          | none => EP.zero
          | some p => match engRead m.buf (tdAddr td p) (fmtSize (tdFmt td)) with | some v => ⟨BitVec.ofNat 32 v.1, v.2⟩ | none => EP.zero) ∧
    (∀ d, m.kind = .mwt d td → MwtDesc.spm d = 0 → MwtDesc.kept d ≤ 4096 →
      ∃ t, exec (.matrixCommandStart a seq) s = .next t ∧ ∀ e ∈ planePos d td,
        some (SMap.get (0, false) (t.getA a).mat.shd.els e.1) = engRead m.buf (tdAddr td e.2) (fmtSize (tdFmt td)))) ∧
  (∀ (b : UBuf) (r : MmsReq) (av bv : List OpV) (cv : List (Nat × Bool)), opBlock b r.tdA false (bandPosA r) = some av →
    opBlock b r.tdB false (bandPosB r) = some bv →
    (if MmsDesc.acc r.desc then engReads b (bandC r) else some (List.replicate (MmsDesc.rows r.desc * MmsDesc.n r.desc) (0, false))) = some cv →
    let d := r.desc
    let kk := MmsDesc.k d
    let int := (comboOf (tdFmt r.tdA) (tdFmt r.tdB)).getD false
    ((∃ o ∈ av ++ bv, o.2 = true) → bandOf b r = some (.error ())) ∧
    ((∀ o ∈ av ++ bv, o.2 = false) → ∃ l ms, bandOf b r = some (.ok (l, ms)) ∧ l.length = MmsDesc.rows d * MmsDesc.n d ∧
      ∀ i j, i < MmsDesc.rows d → j < MmsDesc.n d →
        let c := cv.getD (MmsDesc.n d * i + j) (0, false)
        let ks (g : Nat) : List Nat := (List.range 16).filterMap fun q => if 16 * g + q < kk then some (16 * g + q) else none
        l[MmsDesc.n d * i + j]? = some (MmsDesc.coff d + i * MmsDesc.cpitch d + 4 * j,
          (List.range ((kk + 15) / 16)).foldl (fun e g =>
            (accGroup int ((ks g).map fun k => av.getD (kk * i + k) OpV.zero) ((ks g).map fun k => bv.getD (kk * j + k) OpV.zero) e).1)
            ⟨BitVec.ofNat 32 c.1, c.2⟩))) ∧
  (∀ (s : State) (a : Nat) (seq : BitVec 16) (m : MCmd) (n res : Nat) (ef : Bool) (ea : Addr) (td : BitVec 1024), (s.getA a).mcmd seq = some m →
    m.started = false → mayRun s a m = true → s.err = [] → m.kind = .mst n res ef ea td → fmtPlanes (tdFmt td) = false →
    let f := tdFmt td
    let c := (s.getA a).cel
    let acc (k r : Nat) : EP := c.accGet n (512 * r + k)
    let old (k r : Nat) : EP := c.accGet res (512 * r + k)
    let raw := f = 0 ∧ ef = false
    let sum (k r : Nat) : FV := if ef then (FV.add .rne (accVal f (acc k r).v) (fmt32.val false (old k r).v.toNat)).1 else accVal f (acc k r).v
    let code (k r : Nat) : Nat := if raw then (acc k r).v.toNat else (convCode f (sum k r)).1
    let fl (k r : Nat) : Fl := if raw then 0#7 else (convCode f (sum k r)).2
    let pz (k r : Nat) : Bool := (acc k r).p || (ef && (old k r).p)
    let at_ (k r : Nat) (p : Int) : Prop := k < 512 ∧ r < 64 ∧ inPos td k r = some p
    ∃ t m', exec (.matrixCommandStart a seq) s = .next t ∧ t = { s with arr := t.arr } ∧ (t.getA a).mcmd seq = some m' ∧ m'.whole = true ∧
      (∀ i, bitAt m'.fl i = true ↔ ∃ k r p, at_ k r p ∧ bitAt (fl k r) i = true) ∧
      ((∀ k r p k' r' p' i j, at_ k r p → at_ k' r' p' → i < fmtSize f → j < fmtSize f →
          tdAddr td p + BitVec.ofNat 72 i = tdAddr td p' + BitVec.ofNat 72 j → k = k' ∧ r = r' ∧ i = j) →
        ∀ k r p i, at_ k r p → i < fmtSize f →
          ∃ w ∈ m'.wr, ∃ j, (tdAddr td p + BitVec.ofNat 72 i).toNat = w.va.toNat + j ∧ w.bytes[j]? = some (BitVec.ofNat 8 (code k r / 256 ^ i)) ∧
            w.pz[j]? = some (pz k r)) ∧
      (∀ j i, i < 32768 → j ≠ res → (t.getA a).cel.accGet j i = c.accGet j i) ∧
      (∀ k r, k < 512 → r < 64 → (t.getA a).cel.accGet res (512 * r + k) =
        if ef = true ∧ (inPos td k r).isSome = true then
          ⟨residue (sum k r) (codeVal f false (code k r)) (fl k r), pz k r⟩ else old k r)) ∧
  (∀ (s : State) (u : UBuf) (x : Nat) (g : Nest) (int : Bool) (n : Nat) (i j kc : Int) (av bv : List OpV),
    let fl := NestHdr.flush g.tab.hdr
    let s0 := if g.zpend then s.modA x fun x => x.modCel fun c => c.clearAcc n else s
    let pl := (s.getA x).mat.act
    (if g.stat = some true then some ((List.range 64).flatMap fun r => (chunkKs kc).map fun k => pl.at_ fl r k)
      else opBlock u g.tdA fl (g.posA i kc)) = some av →
    (if g.stat = some false then some ((List.range 512).flatMap fun c => (chunkKs kc).map fun k => pl.at_ fl c k)
      else opBlock u g.tdB fl (g.posB j kc)) = some bv →
    let a (r q : Nat) : OpV := av.getD (16 * r + q) OpV.zero
    let b (c q : Nat) : OpV := bv.getD (16 * c + q) OpV.zero
    let dead (q : Nat) : Prop := g.flow = .rw ∧ ∀ c < 512, opLive (b c q) = false
    let skip : Prop := g.flow ≠ .rw ∧ if g.stat = some true then (∀ o ∈ bv, opLive o = false) else ∀ o ∈ av, opLive o = false
    let chk := NestHdr.csum g.tab.hdr
    let old (i : Nat) : EP := (s0.getA x).cel.accGet n i
    ∃ ms k t, tileStep u x g int n i j kc s = some (ms, k, t) ∧ t = { s with arr := t.arr } ∧
      (skip → k = 1 ∧ ∀ r c, r < 64 → c < 512 →
        (t.getA x).cel.accGet n (512 * r + c) = if chk = true ∧ 505 ≤ c then EP.zero else old (512 * r + c)) ∧
      (¬skip → ∀ r c (ps : List Nat), r < 64 → c < 512 → ps = (List.range 16).filter (fun q => !(g.flow == .rw) || (List.range 512).any fun c => opLive (b c q)) →
        (k = 16 - ps.length ∧ ∀ q < 16, q ∉ ps ↔ dead q) ∧
        (t.getA x).cel.accGet n (512 * r + c) =
          if chk = true ∧ 505 ≤ c then EP.zero
          else if chk = true ∧ c = 504 then
            (accGroup int (ps.map (a r)) (ps.map fun q => (sumM ((List.range 504).map fun c => (b c q).1), (List.range 504).any fun c => (b c q).2))
              (old (512 * r + c))).1
          else (accGroup int (ps.map (a r)) (ps.map (b c)) (old (512 * r + c))).1)) ∧
  (∀ (av bv : List OpV) (o : EP),
    let ps := (av.zip bv).map fun e => prodM e.1.1 e.2.1
    let pz := o.p || av.any (·.2) || bv.any (·.2)
    (accGroup true av bv o).1 = ⟨BitVec.ofInt 32 (o.v.toNat + (ps.map fvInt).sum), pz⟩ ∧
    ((ps.all fun x => !x.isNan && !x.isInf) = true →
      (accGroup false av bv o).1 = if (sumM ps).isZero then ⟨o.v, pz⟩ else
        ⟨BitVec.ofNat 32 (fmt32.add ⟨.rne, false, false⟩ o.v.toNat (fmt32.round ⟨.rne, false, false⟩ (sumM ps)).1).1, pz⟩))

/-! ## Copy and network slots (R186-R219) -/

/-- R186-R190, R194, R200-R204, R208, R211-R216: the commands whose descriptor is 128 bytes of the own scratchpad. One whose descriptor can be read and
is prepared, and for which there is room, takes the next sequence number and its place in the queue with the descriptor's image, post code and
UIRQ mark, holds its tiles engine-owned, takes its ring slots and reserves its reply entry. Where the issue check translates (`CPYM`, `NMCST.ord`), the look-ups
leave the TLBs and their counter first (R281, R289); a multicast read whose source page is absent parks instead. -/
def Obligations.DescriptorCommandsIssue : Prop :=
  ∀ (s : State) (g : CG) (a : BitVec 4), s.readyC g [.a a] [.a a] = true →
    let x := s.here
    let e := if g.gx.isSome then 1 else 0
    let c := s.slot e
    let d := s.recBits a 128
    let From (u : State) (i : Instr) (k : CKind) (r : State → Except Trap CPrep) : Prop := ∀ p, s.prepared e a (r s) p → r u = .ok p →
      CommandsFrom i s u e p ∧ p.kind = k ∧ p.desc = d ∧ p.post = hPost d ∧ p.ui = hUi d
    let Issues (i : Instr) (k : CKind) (r : Except Trap CPrep) : Prop := From s i k fun _ => r
    Issues (.cpy g a) .cpy (prepCpy a c s) ∧ Issues (.cpyg g a) .cpyg (prepGs true a c s) ∧ Issues (.cpys g a) .cpys (prepGs false a c s) ∧
    Issues (.nrdx g a) .nrdx (prepNrdx a c s) ∧ Issues (.nsadd g a) .nsadd (prepNsadd a c s) ∧ Issues (.nbin g a) .nbin (prepNbin a c s) ∧
    (∀ op t, Issues (.nred g op t a) (.nred op t) (prepNred op t a c s)) ∧
    Issues (.nmcst g false a) (.nmcst false) (prepNmcst false a c s) ∧
    From (lookAll 1 (repVas d) c s) (.nmcst g true a) (.nmcst true) (prepNmcst true a c) ∧
    (let vas := match cpymPre a c s with | .ok (_, some (lo, _)) => [BitVec.ofNat 72 lo] | _ => []
     let u := lookAll 0 vas c s
     (∀ v ∈ vas, ∀ l, u.locatePure s.cur x.trCap v 1 0 ≠ .bad 1 l) → From u (.cpym g a) .cpym (prepCpym a c))

/-- R186, R209, R210, R214, R217-R219: the commands without a descriptor. `NRD` and `NWR` move 8 (n + 1) bytes between 8-byte aligned addresses, the first
in the own scratchpad; an atomic captures its operation, width, scope, address and operands, and reserves an entry of its head when R = 1. A target in
the own scratchpad is a span of the command (the model's reading: notes/assumptions/28). `NDRAIN`,
`EQX` and `GBAR` take their place among the array's commands. -/
def Obligations.RegisterCommandsIssue : Prop :=
  ∀ (s : State) (g : CG),
    let x := s.here
    let e := if g.gx.isSome then 1 else 0
    let fits (p : CPrep) : Prop := p.traps (s.slot e) x = []
    (∀ (l r : BitVec 4) (n : R6) (off : Nat), s.readyC g [.a l, .a r] [.a l, .a r] = true → (x.aGet l).p = false → (x.aGet r).p = false →
      (x.aGet l).v.toNat % 8 = 0 → (x.aGet r).v.toNat % 8 = 0 → x.tsk.ownOff 0 (x.aGet l).v = some off →
      let len := 8 * (n.toNat + 1)
      let side (rd : Bool) := sideSpans x [((x.aGet r).v, len)] rd none
      (∀ b, side true = some b →
       let p : CPrep := { kind := .nrd (x.aGet l).v (x.aGet r).v len, spans := (off, len, false) :: b }
       fits p → Commands (.nrd g l r n) s e p) ∧
      (∀ b, side false = some b →
       let p : CPrep := { kind := .nwr (x.aGet l).v (x.aGet r).v len, spans := (off, len, true) :: b }
       fits p → Commands (.nwr g l r n) s e p)) ∧
    (∀ (w r : Bool) (sc : BitVec 3) (hd : BitVec 2) (a : BitVec 4) (b : R6),
      let n := if w then 8 else 4
      let head := if r then some (2 + hd.toNat) else none
      let prep (l : List (Nat × Nat × Bool)) (op : Nat) (y : PV) : CPrep :=
        { kind := .natom op w sc (x.aGet a).v (x.sGet b) y head, post := if r then 3 + hd.toNat else 0, spans := l }
      let Acts (i : Instr) (op : Nat) (y : PV) : Prop := ∀ l, sideSpans x [((x.aGet a).v, n)] false none = some l → fits (prep l op y) →
        ∃ t, exec i s = .next t ∧
          Issued (s.reserved (prep l op y)) t (((x.began s.now (max 4 (2 + e)) 0 0 true).command s.now (prep l op y)).count 20 1)
      (x.aGet a).p = false → (x.aGet a).v.toNat % n = 0 →
      (s.readyC g [.a a, .s b] [.a a, .s b] = true → (x.sGet b).p = false →
        Acts (.natomAdd g w sc r hd a b) 0 PV.zero ∧ Acts (.natomMin g w sc r hd a b) 1 PV.zero ∧ Acts (.natomMax g w sc r hd a b) 2 PV.zero ∧
        Acts (.natomXchg g w sc r hd a b) 4 PV.zero ∧ Acts (.natomAnd g w sc r hd a b) 5 PV.zero ∧
        Acts (.natomOr g w sc r hd a b) 6 PV.zero) ∧
      (s.readyC g [.a a, .s b, .s (b + 1)] [.a a, .s b, .s (b + 1)] = true → (x.sGet b).p = false → (x.sGet (b + 1)).p = false →
        Acts (.natomCas g w sc r hd a b) 3 (x.sGet (b + 1)))) ∧
    (s.readyC g [] [] = true →
      (∀ sc post : BitVec 3, let p : CPrep := { kind := .ndrain sc, post := post.toNat }
        fits p → Commands (.ndrain g sc post) s e p) ∧
      (∀ lv, x.tsk.exch = true → quadLevel x.tsk = some lv →
        let p : CPrep := { kind := .eqx, spans := [(x.tsk.spalloc - 262144, 131072, false)], coll := some (collKey 1 lv) }
        fits p → Commands (.eqx g) s e p) ∧
      (∀ lv post : BitVec 3, namesLevel x.tsk.levels lv.toNat = true →
        let p : CPrep := { kind := .gbar lv, post := post.toNat, coll := some (collKey 2 lv.toNat) }
        fits p → Commands (.gbar g lv post) s e p))

/-- R206, R289: load-blocks. A claim of n + 1 lines of one 8 KiB page takes a tag that no block holds, writes it to sd, begins the fill of the lines that are
not present and holds those that are, as far as the 4 MiB of the slice that blocks may hold have room. A release frees the tag of a block whose fill is
complete, whose lines are then ordinary ones, and marks one whose fill is not. Which free tag is taken is left open (notes/assumptions 4).
R192, R193, R198, R203-R205: circular buffers, wait descriptors, tensor entries, tiles. -/
def Obligations.LoadBlocksRingsTiles : Prop :=
  ((∀ (s : State) (g : CG) (d n : R6) (a : BitVec 4) (pa : Nat),
     let x := s.here
     let e := if g.gx.isSome then 1 else 0
     let ea := (x.aGet a).v
     let b (ready : Bool) : LBlk := ⟨true, pa, n.toNat + 1, ready, false, x.cpy.seq⟩
     let p : CPrep := { kind := .lblk 0 }
     let u := lookAll 0 [ea] (s.slot e) s
     let v := (b false).keys.foldl State.claimLine u
     let at_ (k : Nat) : Nat := SMap.get 0 u.line k
     let miss := (b false).keys.filter fun k => at_ k == 0
     let ready := (b false).keys.all fun k => SMap.get 0 v.line k == 2
     s.readyC g [.s d, .a a] [.a a] = true → (x.aGet a).p = false → ea.toNat % 128 = 0 →
     ea.toNat / 8192 = (ea.toNat + 128 * (n.toNat + 1) - 1) / 8192 → ea.extractLsb' 64 8 ≠ 0xFF#8 → freeTags x ≠ [] →
     s.locatePure s.cur x.trCap ea 1 0 = .ok (.phys pa) → u.locatePure s.cur x.trCap ea 1 0 = .ok (.phys pa) → spaceOf pa < 2 →
     p.traps (s.slot e) x = [] →
     ∃ t tag, exec (.lblk g d a n) s = .next t ∧ tag ∈ freeTags x ∧ t = { u with arr := t.arr, line := v.line, free := u.free + 1 } ∧
       (u.heldLines (pa / 128) + n.toNat + 1 ≤ 32768 →
         ∀ k, SMap.get 0 v.line k = if k ∈ (b false).keys ∧ at_ k = 0 then 1 else if k ∈ (b false).keys ∧ at_ k = 3 then 2 else at_ k) ∧
       let z := ((((u.here.began s.now (max 4 (2 + e)) 0 0 true).command s.now p).modCpy fun y =>
           { y with lb := SMap.set LBlk.none y.lb tag (b ready),
                    cmds := y.cmds.map fun m => if m.seq = x.cpy.seq then { m with kind := .lblk tag } else m }).count 22 1).count 8 miss.length
       let z := z.putS s.now 1 d ⟨BitVec.ofNat 64 tag, false⟩
       ∀ q, t.getA q = u.fed z q (if q = u.cur then z else u.getA q)) ∧
   (∀ (s : State) (g : CG) (r : R6),
     let x := s.here
     let tag := (x.sGet r).v.toNat
     let b := SMap.get LBlk.none x.cpy.lb tag
     let e := if g.gx.isSome then 1 else 0
     s.readyC g [.s r] [.s r] = true → (x.sGet r).p = false → tag < 64 → b.held = true → b.rel = false →
     (b.ready = false → Executes (.lblkRel g r) s e 0 fun y =>
       y.modCpy fun z => { z with lb := SMap.set LBlk.none z.lb tag { b with rel := true } }) ∧
     (b.ready = true → ∃ t, exec (.lblkRel g r) s = .next t ∧ t = { s with arr := t.arr, line := t.line } ∧
       (let z := (x.began s.now (max 4 (2 + e)) 0 0 true).modCpy fun z => { z with lb := SMap.set LBlk.none z.lb tag LBlk.none }
        ∀ q, t.getA q = s.fed z q (if q = s.cur then z else s.getA q)) ∧
       (∀ k, k ∉ b.keys → SMap.get 0 t.line k = SMap.get 0 s.line k) ∧
       ∀ k ∈ b.keys, (∀ v ∈ s.arr, v.1 ≠ s.cur → ∀ l ∈ v.2.cpy.lb, l.2.held = true → k ∉ l.2.keys) →
         (∀ l ∈ x.cpy.lb, l.1 ≠ tag → l.2.held = true → k ∉ l.2.keys) → (s.arr.map (·.1)).Pairwise (· < ·) → SMap.get 0 t.line k = 3))) ∧
  (∀ (s : State) (g : CG),
     let x := s.here
     let e := if g.gx.isSome then 1 else 0
     (∀ cb a : BitVec 4, s.readyC g [.a a] [.a a] = true → s.recClean a 16 16 = true →
       let v := s.recBits a 16
       let b := cbOf v
       let old := SMap.get CBuf.none x.cpy.cb cb.toNat
       let n := b.size x.tileSize
       cbOk x.tileSize v = true → (old.on = true → x.anyEngine (x.tilesOf old.off (old.size x.tileSize)) = false) →
       (∀ o ∈ x.cpy.cb, o.1 ≠ cb.toNat → o.2.on = true → b.off + n ≤ o.2.off ∨ o.2.off + o.2.size x.tileSize ≤ b.off) →
       x.tsk.inAlloc b.off n = true →
       Executes (.cbcfg g cb a) s e 0 fun y => y.modCpy fun z => { z with cb := SMap.set CBuf.none z.cb cb.toNat b }) ∧
     (s.readyC g [] [] = true → ∀ (wd cb : BitVec 4) (kind : Bool) (n : R6),
       let b := SMap.get CBuf.none x.cpy.cb cb.toNat
       let k : W32 := BitVec.ofNat 32 (n.toNat + 1)
       b.on = true →
       Executes (.cbw g wd kind cb n) s e 0 (fun y => y.modCpy fun z => { z with wd := SMap.set WDesc.none z.wd wd.toNat ⟨true, cb, kind, n.toNat + 1⟩ }) ∧
       (b.dir = true → (b.ful - b.con).toNat + n.toNat + 1 ≤ b.slots →
         Executes (.cbadvP g cb n) s e 0 fun y => y.modCpy fun z => { z with cb := SMap.set CBuf.none z.cb cb.toNat { b with ful := b.ful + k } }) ∧
       (b.dir = false → n.toNat + 1 ≤ (b.ful - b.con).toNat →
         Executes (.cbadvC g cb n) s e 0 fun y => y.modCpy fun z => { z with cb := SMap.set CBuf.none z.cb cb.toNat { b with con := b.con + k } })) ∧
     (∀ (td : BitVec 8) (a : BitVec 4), s.readyC g [.a a] [.a a] = true →
       (s.recClean a 128 128 = true → tdOk (s.recBits a 128) = true →
         Executes (.tdset g td a) s (1 + e) 0 fun y => y.later s.now 1 (.td td.toNat (s.recBits a 128))) ∧
       (x.spadOk (x.aGet a) (x.aGet a).v 128 128 true = true →
         Executes (.tdget g td a) s (1 + e) 0 fun y =>
           y.store s.now (x.spOff (x.aGet a).v) (leBytes 128 (SMap.get 0#1024 x.cpy.tdt td.toNat).toNat) false)) ∧
     (∀ a : R6, s.readyC g [.s a] [.s a] = true → (x.sGet a).p = false →
       let v := (x.sGet a).v.toNat
       (v < x.ntiles → x.cpy.own.getLsbD v = false →
         Executes (.townRel g a) s e 0 (fun y => y.modCpy fun z => { z with tv := bitSet z.tv v false }) ∧
         Executes (.townClm g a) s e 0 (fun y => y.modCpy fun z => { z with tv := bitSet z.tv v true })) ∧
       (v ≤ 6 → x.cpy.own = 0 → (∀ o ∈ x.cpy.cb, o.2.on = false) →
         Executes (.tcfg g a) s e 0 fun y => y.later s.now 1 (.tcfg (BitVec.ofNat 3 v)))))

/-- R189, R190, R194, R204: a command whose work is over completes: it leaves the queue, its tiles return, the reply entry it reserved holds the status
word of R189 (an atomic's the old value), a UIRQ mark is left pending, and a poisoned value bound for a place poison may not go kills the task. A member
of a multicast group leaves it (R208). -/
def Obligations.CopyCommandCompletes : Prop :=
  ∀ (s : State) (a : Nat) (seq : BitVec 16) (m : CCmd), (s.getA a).cmdOf seq = some m → m.stuck (s.getA a) = false → s.cmdDone a m = true →
    (m.fault = true ∨ m.whole = true ∨ (m.plan.isSome = true ∧ (m.kind = .cpy ∨ m.kind = .cpym ∨ m.kind = .cpyg ∨ m.kind = .cpys ∨ m.kind = .nrdx))) →
    let x := s.getA a
    let word : Word := BitVec.ofNat 64 (m.count * 2 ^ 32 + (if m.pz then 2 ^ 20 else 0) + (if m.fault then 2 ^ 19 else 0) +
      (if m.empty then 2 ^ 18 else 0) + (if m.ovf then 2 ^ 17 else 0) + (if m.oob then 2 ^ 16 else 0) + m.seq.toNat)
    let reply : PV := match m.kind with
      | .natom _ _ _ _ _ _ (some _) => m.old.getD PV.zero
      | _ => ⟨word, false⟩
    ∃ t, exec (.copyCommandComplete a seq) s = .next t ∧ t = { s with arr := t.arr, die := t.die } ∧ (∀ b, b ≠ a → t.getA b = s.getA b) ∧
      (m.kind ≠ .cpym → t.die = s.die) ∧
      (m.kind = .cpym → ∀ e, t.getD e = { s.getD e with grps := ((s.getD e).grps.map fun (g : MGrp) =>
        { g with members := g.members.filter (· != (a, seq)) }).filter fun g => !g.over }) ∧
      (t.getA a).cpy.cmds = x.cpy.cmds.filter (fun q => q.seq != seq) ∧
      (∀ n, (t.getA a).cpy.own.getLsbD n = (x.cpy.own.getLsbD n && !m.tiles.contains n)) ∧
      (t.getA a).cpy.tv = x.cpy.tv ∧ (t.getA a).cpy.ni = x.cpy.ni ∧
      (∀ q, SMap.get [] (t.getA a).sca.heads q = if postHead m.post = some q then
          (SMap.get [] x.sca.heads q).map (fun r => if r.seq = seq ∧ r.val = none then { r with val := some reply } else r)
        else SMap.get [] x.sca.heads q) ∧
      (t.getA a).sca.uirq = x.sca.uirq ++ (if m.ui && !x.tsk.chain then [(seq.setWidth 64, word)] else []) ∧
      (t.getA a).tsk.stop = (if m.pz then .kill 0x0E 0 x.sca.pc false else x.tsk.stop) ∧
      (t.getA a).sca.s = x.sca.s ∧ (t.getA a).sca.a = x.sca.a ∧ (t.getA a).cel = x.cel ∧ (t.getA a).mat = x.mat ∧ (t.getA a).csr = x.csr

/-- R201, R209, R210, R228, R240, R243: accesses perform. An atomic that no earlier command holds back, whose scope contains its home and whose bank is granted,
replaces the memory word by the operation's result, in one step, and keeps the old value for its reply; a one-word copy reads its source and then writes it; a remote
write stores its bytes. The next unit of a closed multicast group is read at its slice, and each member takes its data (R208, R255). Stated without storage
errors, for scratchpads, vaults and memory of SPACE 0 and 1 that is no TAIL of a queue and while no replay captures pages; no other byte changes.
R206, R208, R218, R219, R254-R256, R359: what is met by several. An arrival of `EQX` or `GBAR` registers once the earlier accesses have performed at its
scope, changes nothing else while a participant is missing, and with the last one completes every participant's command, for `EQX` with the swap of the banks due at
the end of the cycle. A multicast request counts one flit on each link of its path, and joins the open group of its key at the home slice or opens one, which fetches
the lines that are missing, where its slice of 65,536 lines has room; a group shuts when it has every array of its mask or its window has passed. A line of
a load-block comes, or is held once the slice has room for it. -/
def Obligations.AccessesAndArrivals : Prop :=
  (let near (s : State) (h : Home) (n : Nat) : Prop := match h with
     | .phys pa => spaceOf pa < 2 ∧ s.err = [] ∧ (∀ e ∈ s.queue, e.2.on = true → pa + n ≤ e.2.desc + 24 ∨ e.2.desc + 32 ≤ pa) ∧
         ∀ i, (SMap.get Part.reset s.part i).replay = none
     | _ => True
   let Stores (s t : State) (k n v : Nat) : Prop := t.readN k n = v % 256 ^ n ∧ ∀ q, (q < k ∨ k + n ≤ q) → t.byte q = s.byte q
   (∀ (s : State) (a unit op : Nat) (seq : BitVec 16) (m : CCmd) (w : Bool) (sc : BitVec 3) (ea : Addr) (x y : PV) (q : Option Nat) (h : Home),
     let n := if w then 8 else 4
     s.err = [] → (s.getA a).cmdOf seq = some m → m.kind = .natom op w sc ea x y q → m.stuck (s.getA a) = false → m.fault = false → m.whole = false →
     unit % 4 ≠ 3 → near s h n → s.heldAt a m true ea 2 = false → s.locateK (s.getA a).tsk a m.tr ea n 2 = (.ok h, s) →
     m.early s a h = false → s.excluded h = false → (s.askRead 4 h).1 = true → homeScope a h ≤ sc.toNat → x.p = false → y.p = false →
     (s.readHome h n).2.1 = false →
     let k := s.keyOf h
     let old := s.readN k n
     let b := 2 ^ (8 * n)
     let xv := x.v.toNat % b
     let new : Nat := match op with
       | 0 => (old + xv) % b
       | 1 => if (BitVec.ofNat (8 * n) xv).toInt < (BitVec.ofNat (8 * n) old).toInt then xv else old
       | 2 => if (BitVec.ofNat (8 * n) old).toInt < (BitVec.ofNat (8 * n) xv).toInt then xv else old
       | 3 => if old = xv then y.v.toNat % b else old
       | 4 => xv
       | 5 => old &&& xv
       | _ => old ||| xv
     ∃ t m', exec (.remoteAccessPerform a seq unit) s = .next t ∧ Stores s t k n new ∧ (t.getA a).cmdOf seq = some m' ∧
       m'.whole = true ∧ m'.count = 1 ∧ m'.old = some ⟨BitVec.ofNat 64 old, false⟩) ∧
   (∀ (s : State) (a : Nat) (seq : BitVec 16) (m : CCmd) (p : XPiece) (v : Addr) (h : Home),
     s.err = [] → (s.getA a).cmdOf seq = some m → (m.kind = .cpy ∨ m.kind = .cpym) → m.stuck (s.getA a) = false → m.fault = false → m.whole = false → m.plan = some [p] →
     near s h p.n → m.early s a h = false → p.src = some v → 1 ≤ p.n → v.toNat + p.n ≤ 2 ^ 72 → p.dst.toNat + p.n ≤ 2 ^ 72 →
     (p.got = none → m.kind = .cpy → s.heldAt a m false v 0 = false → s.locateK (s.getA a).tsk a m.tr v p.n 0 = (.ok h, s) →
       (s.askRead (if h.away a then 4 else 1) h).1 = true →
       ∃ t m', exec (.remoteAccessPerform a seq 1) s = .next t ∧ t.mem = s.mem ∧ (t.getA a).cmdOf seq = some m' ∧
         m'.plan = some [{ p with got := some (BitVec.ofNat 64 (s.readN (s.keyOf h) p.n), (s.readHome h p.n).2.1) }]) ∧
     (∀ w : Word, p.got = some (w, false) → p.done = false → p.orp = false → p.n ≤ 8 → s.heldAt a m false p.dst 1 = false →
       s.locateK (s.getA a).tsk a m.tr p.dst p.n 1 = (.ok h, s) → s.excluded h = false →
       ∃ t m', exec (.remoteAccessPerform a seq 2) s = .next t ∧ Stores s t (s.keyOf h) p.n ((w &&& p.mask) ||| p.cst).toNat ∧
         (t.getA a).cmdOf seq = some m' ∧ m'.plan = some [{ p with done := true }]) ∧
     (∀ (g : MGrp) (lo n : Nat), p.got = none → m.kind = .cpym → groupOf a m s = some g → g.members = [(a, seq)] → s.mayFlit g = true →
       mcSpan m.desc m.tds = some (lo, n) → v.toNat / 16 = lo / 16 + g.pos → lo ≤ v.toNat → spaceOf g.pa < 2 →
       let q : Home := .phys (g.pa + (v.toNat - lo))
       ∃ t m', exec (.remoteAccessPerform a seq 1) s = .next t ∧ t.mem = s.mem ∧ (t.getA a).cmdOf seq = some m' ∧
         m'.plan = some [{ p with got := some (BitVec.ofNat 64 (s.readN (s.keyOf q) p.n), (s.readHome q p.n).2.1) }] ∧
         (t.getD g.home).grps = (s.getD g.home).grps.map fun h => if h.num = g.num then { h with pos := g.pos + 1 } else h)) ∧
   (∀ (s : State) (a i : Nat) (o : NIOp) (va : Addr) (bytes : List Byte) (h : Home), (s.getA a).cpy.ni[i]? = some o →
     o.kind = .wr va bytes (List.replicate bytes.length false) → o.park = none → o.inord = false → bytes ≠ [] → va.toNat + bytes.length ≤ 2 ^ 72 → near s h bytes.length →
     let k := o.own.getD (s.getA a).tsk
     s.heldBack a o.n (match s.locatePureK k a o.tr va 1 1 with | .ok h => some h | _ => none) = false →
     s.locateK k a o.tr va bytes.length 1 = (.ok h, s) → s.excluded h = false →
     ∃ t, exec (.remoteAccessPerform a o.seq (4 * i + 3)) s = .next t ∧ (t.getA a).cpy.ni = (s.getA a).cpy.ni.eraseIdx i ∧
       (∀ j < bytes.length, t.byte (s.keyOf h + j) = bytes.getD j 0) ∧
       ∀ q, (q < s.keyOf h ∨ s.keyOf h + bytes.length ≤ q) → t.byte q = s.byte q)) ∧
  ((∀ (s : State) (a lv : Nat) (seq : BitVec 16) (m : CCmd), (s.getA a).cmdOf seq = some m → m.stuck (s.getA a) = false → m.arrived = false →
     let u := s.modCmd a seq fun m => { m with arrived := true }
     let k := (s.getA a).tsk
     let Meets (i : Instr) (same : CKind → CCmd → Bool) (swap : Bool) : Prop :=
       let who (j : Nat) : Option (Nat × CCmd) := u.partner a lv m same j
       (∀ j, j < partCount k.levels lv → ∃ b q, who j = some (b, q) ∧ q.arrived = true) ∧
           (∃ t, exec i s = .next t ∧ t = { s with arr := t.arr } ∧ ∀ j, j < partCount k.levels lv → ∀ b q, who j = some (b, q) →
             (∃ q', (t.getA b).cmdOf q.seq = some q' ∧ q'.whole = true) ∧ (swap = true → (t.getA b).cpy.swapDue = true)) ∨
         (∃ j, j < partCount k.levels lv ∧ ∀ b q, who j = some (b, q) → q.arrived = false) ∧ exec i s = .next u
     (m.kind = .eqx → (s.getA a).quiet m.t = true → quadLevel k = some lv → s.drained a m.n 3 = true → Meets (.eqxArrival a seq) sameEqx true) ∧
     (∀ l, m.kind = .gbar l → l.toNat = lv → s.drained a m.n (levelScope k lv) = true → Meets (.gbarArrival a seq) (sameGbar l) false)) ∧
   (∀ (s : State) (a lo n pa : Nat) (seq : BitVec 16) (m : CCmd), (s.getA a).cmdOf seq = some m → m.kind = .cpym → m.stuck (s.getA a) = false →
     m.arrived = false → m.plan.isSome = true → mcSpan m.desc m.tds = some (lo, n) → s.heldAt a m true (BitVec.ofNat 72 lo) 0 = false → spaceOf pa < 2 →
     s.locateK (s.getA a).tsk a m.tr (BitVec.ofNat 72 lo) 1 0 = (.ok (.phys pa), s) →
     let home := dieOf pa
     let sl := sliceOf pa
     let d := s.getD home
     let c := SMap.get SliceCnt.zero d.slice sl
     let key (g : MGrp) : Bool := !g.shut && g.pa == pa && g.tds == tdNoOob m.tds && mcShape g.desc == mcShape m.desc &&
       g.mask == mcMask m.desc && (g.members.headD (0, 0)).1 / 32 == a / 32
     let ks := (List.range ((pa + n - 1) / 128 + 1 - pa / 128)).map (· + pa / 128)
     let miss := ks.filter fun k => SMap.get 0 s.line k == 0
     ∃ t m', exec (.multicastRequestArrival a seq) s = .next t ∧ (t.getA a).cmdOf seq = some m' ∧ m'.arrived = true ∧
       (∀ e, (t.getD e).flits = ((s.flitsOn .request 1 (mcPath a home sl)).getD e).flits) ∧
       (∀ e, e ≠ home → (t.getD e).grps = (s.getD e).grps ∧ (t.getD e).slice = (s.getD e).slice) ∧
       if d.grps.any key then
         (t.getD home).grps = (d.shutFull fun g => if key g then { g with members := g.members ++ [(a, seq)] } else g).grps ∧
         SMap.get SliceCnt.zero (t.getD home).slice sl = { c with req := c.req + 1, joined := c.joined + 1 } ∧ t.line = s.line ∧ t.mem = s.mem
       else
         (t.getD home).grps = (({ d with grps := d.grps ++
           [⟨d.ngrp, pa, tdNoOob m.tds, m.desc, home, mcMask m.desc, mcWin m.desc, s.now, [(a, seq)], false, 0, 0, []⟩] } : Die).shutFull id).grps ∧
         SMap.get SliceCnt.zero (t.getD home).slice sl =
           { c with req := c.req + 1, opened := c.opened + 1, fills := c.fills + miss.length, hits := c.hits + (ks.length - miss.length) } ∧
         ((s.line.filter fun e => decide (2 ≤ e.2) && sameSlice e.1 (pa / 128)).length + miss.length ≤ 65536 →
           t.mem = s.mem ∧ ∀ k, SMap.get 0 t.line k = if k ∈ miss then 3 else SMap.get 0 s.line k)) ∧
   (∀ (s : State) (die grp : Nat), ∃ t, exec (.multicastWindowExpiry die grp) s = .next t ∧ t = { s with die := t.die } ∧
     (∀ e, e ≠ die → t.getD e = s.getD e) ∧
     (t.getD die).grps.map (fun g => (g.num, g.members, g.shut)) = (s.getD die).grps.map fun g =>
       (g.num, g.members, g.shut || (g.num == grp && decide (g.at_ + g.win ≤ s.now)))) ∧
   (∀ (s : State) (line : Nat), SMap.get 0 s.line line = 4 ∨ SMap.get 0 s.line line = 1 ∧
       (s.line.filter fun e => decide (2 ≤ e.2) && sameSlice e.1 line).length < 65536 → s.holdRoom line = true →
     (∀ v ∈ s.arr, ∀ l ∈ v.2.cpy.lb, l.2.rel = false) →
     ∃ t, exec (.cacheFillComplete line) s = .next t ∧ t = { s with arr := t.arr, line := t.line } ∧
       (∀ k, SMap.get 0 t.line k = if k = line then 2 else SMap.get 0 s.line k) ∧
       ∀ a tag, SMap.get LBlk.none (t.getA a).cpy.lb tag =
         (let b := SMap.get LBlk.none (s.getA a).cpy.lb tag
          if b.held && b.keys.all (fun k => k == line || SMap.get 0 s.line k == 2) then { b with ready := true } else b)))

/-! ## The system class, privilege, the user-level interrupt (R76, R113, R114, R223, R259-R264, R299) -/

/-- R223, R261, R263, R280, R293: the system instructions at S. `CSRRD` reads the register R263 lays out under that number; a performance counter is read
with the bundle's own counted events in it (the model's choice, notes/assumptions 19). `CSRWR` writes it for bundles of T + 1; `TLBINV` removes entries of
the array's micro-TLB; `CTXSV` and `CTXLD` are commands that hold every tile, `CTXSV` with SPKEEP of
the header at its address, which it looks up and reads at issue; `HALT` stops the sequencer; `XRET` returns to `xpc` at the saved privilege.
That `TLBINV` of kind 0 takes the page of sa as an unsigned 64-bit number is log 48 (notes/assumptions/48).
R76, R223: the system instructions but `ECALL` raise PRIV at user privilege, whatever their operands.
R223, R299, R330: `FBFL` makes the fault buffer of the die empty, writes its new generation, and lets every access parked with another generation wait no
more; a PARKED task of which nothing is parked any more becomes READY, and a queue that waited is ACTIVE again. Where no task is PARKED and no queue waits, memory
is otherwise unchanged; every array of another die always is. -/
def Obligations.SystemSlots : Prop :=
  (∀ (s : State) (d a kind : R6) (n : R6) (r : BitVec 4),
     let x := s.here
     let c := x.csr
     let q := SMap.get Quad.reset s.quad (s.cur / 4)
     x.atS = true → s.regsSound = true →
     (x.operands [.s d] [] = true →
       let Reads (v : Nat) : Prop := ResultS (.csrrd d n) s 0 1 d ⟨BitVec.ofNat 64 v, false⟩ 0#7
       (n = 0#6 → Reads c.xcause.toNat) ∧ (n = 1#6 → Reads c.xpc.toNat) ∧ (n = 2#6 → Reads c.xinfo.toNat) ∧
       (n = 3#6 → Reads (c.part.toNat * 2 ^ 16 + c.ctx.toNat)) ∧ (n = 4#6 → Reads c.hwbase.toNat) ∧ (n = 5#6 → Reads c.hwlimit.toNat) ∧
       (n = 6#6 → Reads c.hwoff.toNat) ∧ (n = 7#6 → Reads ((if c.tlbEn then 2 ^ 63 else 0) + c.tlbRoot.toNat)) ∧
       (n = 8#6 → Reads (q.qcap * 2 ^ 16 + (if q.xctx then 2 else 0) + (if q.men then 1 else 0))) ∧
       (n = 9#6 → Reads (s.getD (s.cur / 32)).fbgen.toNat) ∧
       (n = 10#6 → Reads (c.disp.toNat * 2 ^ 36 + (if c.preq then 2 ^ 32 else 0) + c.prio.toNat * 2 ^ 28 + c.slice.toNat)) ∧
       (n = 11#6 → Reads (c.svec.toNat * 2 ^ 32 + (if x.sca.hAct then 16 else 0) + c.pprv.toNat * 4 + c.prv.toNat)) ∧
       (∀ i : Nat, i < 4 → (n.toNat = 16 + i → Reads (SMap.get 0#64 (x.began s.now 4 0 0 true).csr.pmc i).toNat) ∧
         (n.toNat = 20 + i → Reads (SMap.get 0#10 c.pmsel i).toNat))) ∧
     (x.operands [.s a] [.s a] = true →
       (n.toNat ∈ [1, 4, 5, 6, 7, 10, 11, 16, 17, 18, 19, 20, 21, 22, 23] → WritesX (.csrwr n a) s (.csr n.toNat (x.sGet a).v)) ∧
       (kind.toNat ≤ 2 → Executes (.tlbinv a kind) s 0 0 fun y => { y with tlb := y.tlb.filter fun e =>
         !(if kind.toNat = 2 then true else e.part == c.part.toNat && e.ctx == c.ctx &&
           (kind.toNat == 1 || e.vpn == (x.sGet a).v.toNat / pageSize e.size)) })) ∧
     (x.operands [.a r] [.a r] = true → (x.aGet r).p = false →
       let every : List (Nat × Nat × Bool) := [(0, x.tsk.spalloc, false)]
       let ea := (x.aGet r).v
       let u := lookAll 0 [ea + 2] (s.slot 0) s
       (let p : CPrep := { kind := .ctxsv ea (readKeep (s.slot 0) ea u), frame := true, spans := every }
        p.traps (s.slot 0) x = [] →
          ∃ t, exec (.ctxsv r) s = .next (keepRead ea (s.slot 0) t) ∧ Issued u t ((u.here.began s.now 4 0 0 true).command s.now p)) ∧
       (let p : CPrep := { kind := .ctxld ea, frame := true, spans := every }
        p.traps (s.slot 0) x = [] → Commands (.ctxld r) s 0 p)) ∧
     Executes .halt s 0 0 (fun y => y.modTsk fun k => { k with stop := .halt }) ∧
     (x.cpy.framing = false → Executes .xret s 0 0 fun y =>
       (y.modCsr fun r => { r with prv := if r.pprv = 0#2 then 0#2 else 1#2 }).modSca fun r => { r with pc := c.xpc, readyAt := s.now + 2 })) ∧
  (∀ (s : State) (d a k n : R6) (r : BitVec 4), s.here.atS = false → s.regsSound = true →
     let Refused (i : Instr) : Prop := Traps i s 4 ⟨.priv, 1, 0, 0⟩
     Refused (.csrrd d n) ∧ Refused (.csrwr n a) ∧ Refused (.tlbinv a k) ∧ Refused .fbfl ∧ Refused (.ctxsv r) ∧ Refused (.ctxld r) ∧
     Refused .halt ∧ Refused .xret) ∧
  (∀ s : State, s.here.atS = true → s.regsSound = true →
     let die := s.cur / 32
     let d := s.getD die
     let gen := d.fbgen + 1
     ∃ t, exec .fbfl s = .next t ∧ (t.getD die).fbgen = gen ∧ (∀ e, e ≠ die → t.getD e = s.getD e) ∧
       ((∀ e ∈ s.task, ∀ v, e.2 = some v → v.st ≠ .parked) → (∀ e ∈ s.queue, e.2.parked = none) →
         t.readN (d.fbAddr + 8) 4 = gen.toNat ∧ t.readN (d.fbAddr + 4) 4 = s.readN d.fbAddr 4 ∧
         ∀ k, (k < d.fbAddr + 4 ∨ d.fbAddr + 12 ≤ k) → t.byte k = s.byte k) ∧
       (∀ k v, SMap.get none s.task k = some v → v.st = .parked → (v.arrs.all fun b => b / 32 == die) = true → v.saved.length ≤ v.arrs.length →
         (∀ x ∈ v.saved, (∀ m ∈ x.cpy.cmds, m.park ≠ some gen.toNat) ∧ (∀ o ∈ x.cpy.ni, o.park ≠ some gen.toNat) ∧
           ∀ m ∈ x.mat.cmds, m.park ≠ some gen.toNat) →
         (∀ g, v.parkGen = some g → g / 2 ^ 32 = die ∧ g % 2 ^ 32 ≠ gen.toNat) →
         ∃ w, SMap.get none t.task k = some w ∧ w.st = .ready ∧ w.order = s.norder) ∧
       (∀ q, (s.getU q).on = true → (s.getU q).die = die → (s.getU q).parked ≠ some gen.toNat → (t.getU q).parked = none) ∧
       (∀ b, b / 32 ≠ die → t.getA b = s.getA b) ∧
       ∀ b, b / 32 = die → (t.getA b).tsk.stop ≠ .park ∧ (∀ m ∈ (t.getA b).cpy.cmds, m.park = none ∨ m.park = some gen.toNat) ∧
         (t.getA b).cpy.cmds.length = (s.getA b).cpy.cmds.length ∧ (t.getA b).cpy.tv = (s.getA b).cpy.tv ∧ (t.getA b).csr = (if b = s.cur then
           (s.here.began s.now 4 0 0 true).csr else (s.getA b).csr))

/-- R24, R223, R260, R262-R264: `ECALL n` raises ECALL with n in `xinfo`. At U, outside a chain, the array enters S: `xcause`, `xpc` and `xinfo` are written, PPRV
becomes U and PRV S, and the first bundle of S code is at SVEC, no earlier than T + 2; nothing else of the array changes. At S, and in a chain, the task is
stopped with that cause.
R61, R113, R114: the oldest pending completion is accepted at a boundary of a task at U outside a chain with no handler active: the return offset is saved,
the handler is active, `sh0` and `sh1` hold its tag and status, and the next bundle is at the offset in `uvec`, whose bits [1:0] are ignored; event 16 counts it. Nothing else changes. -/
def Obligations.SystemCallsAndUserInterrupts : Prop :=
  (∀ (s : State) (n : BitVec 12),
     let x := s.here
     let info : Word := BitVec.ofNat 64 (n.toNat * 2 ^ 16 + 4 * 2 ^ 4 + 1)
     s.regsSound = true → ∃ t, exec (.ecall n) s = .next t ∧ t = { s with arr := t.arr } ∧ (∀ b, b ≠ s.cur → t.getA b = s.getA b) ∧
       (x.atS = false → x.tsk.chain = false → t.here = { x with
         csr := { x.csr with xcause := 0x15#8, xpc := x.sca.pc, xinfo := info, pprv := 0#2, prv := 1#2 },
         sca := { x.sca with pc := x.csr.svec &&& 0xFFFF_FFFC#32, far := false, readyAt := s.now + 2, issuedAt := some s.now } }) ∧
       (x.atS = true ∨ x.tsk.chain = true → t.here = { x with
         tsk := { x.tsk with stop := .kill 0x15 info x.sca.pc x.atS }, sca := { x.sca with issuedAt := some s.now } })) ∧
  (∀ (s : State) (a : Nat) (e : Word × Word) (l : List (Word × Word)), (s.getA a).mayAccept s.now = true → (s.getA a).sca.uirq = e :: l →
     let x := s.getA a
     let y := x.count 16 1
     ∃ t, exec (.userInterruptAccept a) s = .next t ∧ t = { s with arr := t.arr } ∧ (∀ b, b ≠ a → t.getA b = s.getA b) ∧
       t.getA a = { y with sca := { x.sca with
         hRet := x.sca.pc, hAct := true, uirq := l, pc := x.sca.uvec.extractLsb' 0 32 &&& 0xFFFF_FFFC#32,
         far := decide (2 ^ 32 ≤ x.sca.uvec.toNat), readyAt := s.now + 1, sh := (t.getA a).sca.sh } } ∧
       SMap.get PV.zero (t.getA a).sca.sh 0 = ⟨e.1, false⟩ ∧ SMap.get PV.zero (t.getA a).sca.sh 1 = ⟨e.2, false⟩ ∧
       ∀ n, 2 ≤ n → SMap.get PV.zero (t.getA a).sca.sh n = SMap.get PV.zero x.sca.sh n)

/-! ## Tasks (R26-R34, R270-R279, R295, R296, R310, R311) -/

/-- R12, R15, R58, R191, R263, R270, R273, R274, R276: a dispatch that finds one task in the pool of a partition, alone in its gang, and a free array for it.
The task runs there from the first bundle of its kernel's code at U. It finds registers, predicates, selectors, masks, `cf`, accumulators, queues and the
shuffle memory at zero, but for `a0`, which holds its scratchpad's address, `m0`, and the selector pairs, which hold its instance rectangle; the TDT and the
buffers of its kernel's records, every other entry unset; `sched`, `ctxid`, the heap window and `tlbcfg` of its node and context; and its image in the
scratchpad, with zeros beyond it. No other array is touched. -/
def Obligations.TaskStarts : Prop :=
  ∀ (s : State) (part id a : Nat) (k : Task) (l : Launch), (s.task.map (·.1)).Pairwise (· < ·) → s.pool part = [(id, k)] →
    s.getT id = some k → s.getL k.launch = some l → s.gang k = [(id, k)] → memberCount (rLevels l.bytes) = 1 → domAt (rLevels l.bytes) (taskLevel (rLevels l.bytes)) ≠ 3 → k.saved = [] →
    s.gangReady k = true → s.capable part (ndSpalloc l.bytes k.node) ≠ [] → s.bestPlace l k [] = some [(0, a)] → s.victims [a] = [] →
    (s.getA a).tsk.run = false → (s.getQ (a / 4)).gated = false →
    let b := l.bytes
    let kr := ndKern b k.node
    let up8 (n : Nat) : Nat := (n + 7) / 8 * 8
    let cols := ((rLevels b).filter fun v => v.dom == 0).foldl (fun n v => n * v.ext) 1
    let rows := ((rLevels b).filter fun v => v.dom == 1).foldl (fun n v => n * v.ext) 1
    let high : Nat := if (rLevels b).any fun v => v.dom == 1 then rows else (cols + 63) / 64
    let cxt := SMap.get Cxt.none s.cxt (65536 * l.part + l.ctx.toNat)
    let hold := nd b k.node 4 2
    let sl := nd b k.node 6 2
    ∃ t k', exec (.taskDispatch part) s = .next t ∧ t.getT id = some k' ∧ k'.st = .running ∧ k'.arrs = [a] ∧ k'.node = k.node ∧ k'.inst = k.inst ∧
      (∀ c, c ≠ a → t.getA c = s.getA c) ∧
      (let y := t.getA a
       y.tsk = { Tsk.reset with
         run := true, id := id, node := k.node, code := codeWords ((b.drop (kn b kr 0 4)).take (kn b kr 4 4)), sregs := up8 (kn b kr 8 1),
         vregs := up8 (kn b kr 9 1), accs := kn b kr 10 1, spalloc := ndSpalloc b k.node, vgrant := ndVgrant b k.node, exch := ndExch b k.node,
         hold := if hold = 0 then 4096 else hold, nnodes := rNodes b, members := [a], peers := [a], lidx := k.inst, levels := rLevels b } ∧
       -- control and status registers
       y.csr.prv = 0#2 ∧ y.csr.disp = 0#4 ∧ y.csr.preq = false ∧ y.csr.prio = BitVec.ofNat 4 (ndPrio b k.node) ∧
       y.csr.slice = BitVec.ofNat 24 (if sl = 0 then (SMap.get Part.reset s.part l.part).slice else 16 * sl) ∧ y.csr.ctx = l.ctx ∧
       y.csr.part = BitVec.ofNat 2 l.part ∧ y.csr.hwbase = cxt.base ∧ y.csr.hwlimit = cxt.limit ∧ y.csr.hwoff = cxt.off ∧
       y.csr.tlbEn = cxt.tlb.getLsbD 63 ∧ y.csr.tlbRoot = cxt.tlb.extractLsb' 0 56 ∧ y.csr.svec = (SMap.get Part.reset s.part l.part).svec ∧
       y.csr.pmc = (s.getA a).csr.pmc ∧ y.csr.pmsel = (s.getA a).csr.pmsel ∧
       -- the scalar side
       y.sca.pc = 0#32 ∧ y.sca.readyAt = s.now + 1 ∧ (∀ n, y.sGet n = ⟨0#64, false⟩) ∧ (∀ n, y.aGet n = if n = 0#4 then ⟨ownAddr 0, false⟩ else ⟨0#72, false⟩) ∧
       y.sca.sv = 0#64 ∧ y.sca.av = 1#16 ∧ y.sca.p = 0#8 ∧ y.sca.pp = 0#8 ∧ y.sca.g = 0#16 ∧ y.sca.lc = 0#64 ∧ y.sca.ec = 0#64 ∧ y.sca.rrb = 0#5 ∧
       y.sca.fpcsr = 0#64 ∧ y.sca.uvec = 0#64 ∧ y.sca.hAct = false ∧ y.sca.svq = [] ∧ y.sca.vsq = [] ∧ y.sca.heads = [] ∧ y.sca.uirq = [] ∧ y.sca.pend = [] ∧
       (∀ n, 1 ≤ n → n ≤ 3 → SMap.get 0#64 y.sca.xsel n = BitVec.ofNat 64 (2 ^ min cols 64 - 1) ∧
         SMap.get 0#16 y.sca.ysel n = BitVec.ofNat 16 (2 ^ high - 1)) ∧
       -- the cells
       (∀ n i, y.cel.vGet n i = El.zero) ∧ y.cel.vv = 0#64 ∧ (∀ n i, n ≠ 0 → y.cel.mGet n i = ⟨false, false⟩) ∧ (∀ i, y.cel.mGet 0 i = ⟨true, false⟩) ∧
       y.cel.mv = 1#8 ∧ y.cel.cr = [] ∧ y.cel.cf = [] ∧ y.cel.cfs = [] ∧ (∀ n i, y.cel.accGet n i = ⟨0#32, false⟩) ∧ y.cel.accv = 0#8 ∧ y.cel.shp = [] ∧
       y.cel.waves = [] ∧ y.cel.stq = [] ∧
       -- the engines
       y.mat.k = [] ∧ y.mat.nest = ⟨0#256, [], []⟩ ∧ y.mat.act.st = .invalid ∧ y.mat.shd.st = .invalid ∧ y.mat.seq = 0#16 ∧ y.mat.cmds = [] ∧ y.mat.stick = 0#9 ∧
       (∀ n, (∀ e ∈ knTd b kr, e.1 ≠ n) → SMap.get 0#1024 y.cpy.tdt n = 0#1024) ∧
       (∀ n v, (n, v) ∈ knTd b kr → (∀ w, (n, w) ∈ knTd b kr → w = v) → ∀ i, (SMap.get 0#1024 y.cpy.tdt n).getLsbD i = (i != 86 && (BitVec.ofNat 1024 v).getLsbD i)) ∧
       (∀ n, (∀ e ∈ knCb b kr, e.1 ≠ n) → SMap.get CBuf.none y.cpy.cb n = CBuf.none) ∧
       (∀ n v, (n, v) ∈ knCb b kr → (∀ w, (n, w) ∈ knCb b kr → w = v) → SMap.get CBuf.none y.cpy.cb n = cbOf (BitVec.ofNat 128 v)) ∧
       y.cpy.wd = [] ∧ y.cpy.lb = [] ∧ y.cpy.seq = 0#16 ∧ y.cpy.cmds = [] ∧ y.cpy.z = 0#3 ∧ y.cpy.own = 0#1024 ∧ y.cpy.tv = BitVec.allOnes 1024 ∧ y.cpy.exb = false ∧
       y.itg.rbank = (s.getA a).itg.rbank ∧ y.itg.gret = (s.getA a).itg.gret ∧ y.tlb = (s.getA a).tlb) ∧
      ∀ off, off < ndSpalloc b k.node → (∀ n, l.at_ n ≠ spadKey a off) →
        t.byte (spadKey a off) = if off < nd b k.node 20 4 then
            b.getD (nd b k.node 16 4 + instNo (rLevels b) k.inst * nd b k.node 32 4 + off) 0#8 else 0#8

/-- R277-R280, R295, R296: the task of one array that has stopped at a boundary is saved once everything it issued is complete, held back or parked:
PREEMPTED where a preemption stopped it and nothing of it is parked, PARKED where an access of it is, where an issue check met a page fault, or where S code
parked it, to resume at `xpc`; the last two leave the generation it waits at. Its context frame has the PARK flag of its state. The array is then free, and no
other array is touched. That the frame stands in `Task.frames` and the registers in `Task.saved`, from which the task resumes, is log 37
(notes/assumptions/37).
R30, R310, R311: how a task of one array ends. One whose `EXIT` has been reached, with its commands complete, its owner bits returned and its results in
place, is DONE. One that was killed becomes READY again, as a fresh start, where its node carries RERUN, the kill allows it and the count is below the
limit; otherwise it has FAILED. Its array is free in either case. -/
def Obligations.TasksStop : Prop :=
  (∀ (s : State) (a id : Nat) (k : Task), (s.task.map (·.1)).Pairwise (· < ·) → (s.getA a).tsk.run = true → (s.getA a).tsk.id = id →
     s.getT id = some k → k.st = .running → k.arrs = [a] → s.gang k = [(id, k)] → s.saveable a = true →
     let x := s.getA a
     let gen := a / 32 * 2 ^ 32 + (s.getD (a / 32)).fbgen.toNat
     let Saves (i : Instr) (st : TState) (g : Option Nat) (pc : BitVec 32) : Prop :=
       ∃ t k' f, exec i s = .next t ∧ t.getT id = some k' ∧ k'.st = st ∧ k'.arrs = [a] ∧ k'.parkGen = g ∧ k'.frames = [f] ∧
         k'.saved = [{ x with sca := { x.sca with pc := pc }, cpy := { x.cpy with ni := x.cpy.ni.filter fun o => o.own.isNone } }] ∧
         frameBits f 16 16 = 2 * (if st = .parked then 1 else 0) + 4 * (if x.tsk.chain then 1 else 0) ∧
         (t.getA a).tsk.run = false ∧ (t.getA a).tlb = x.tlb ∧ (t.getA a).itg = x.itg ∧ ∀ b, b ≠ a → t.getA b = s.getA b
     (x.tsk.stop = .preempt → x.parked = false → Saves (.preemption a) .preempted none x.sca.pc) ∧
     (x.tsk.stop = .preempt → x.parked = true → Saves (.taskPark a) .parked none x.sca.pc) ∧
     (x.tsk.stop = .park → Saves (.taskPark a) .parked (some gen) x.sca.pc) ∧
     (x.tsk.stop = .halt → x.csr.disp = 3#4 → Saves (.taskPark a) .parked (some gen) x.csr.xpc)) ∧
  (∀ (s : State) (a id : Nat) (k : Task) (l : Launch), (s.task.map (·.1)).Pairwise (· < ·) → (s.getA a).tsk.run = true → (s.getA a).tsk.id = id →
     s.getT id = some k → k.st = .running → k.arrs = [a] → s.gang k = [(id, k)] → s.getL k.launch = some l →
     let x := s.getA a
     (x.tsk.stop = .exit none → x.exitReady = true →
       ∃ t k', exec (.exitComplete a) s = .next t ∧ t.getT id = some k' ∧ k'.st = .done ∧ k'.arrs = [] ∧ (t.getA a).tsk.run = false ∧
         ∀ b, b ≠ a → t.getA b = s.getA b) ∧
     (∀ cause xinfo pc fail, x.tsk.stop = .kill cause xinfo pc fail →
       let n := SMap.get 0 l.reruns k.node
       let again := fail = false ∧ ndRerun l.bytes k.node = true ∧ n < (SMap.get Part.reset s.part l.part).limit
       ∃ t k', exec (.taskKill a) s = .next t ∧ t.getT id = some k' ∧ k'.arrs = [] ∧ (t.getA a).tsk.run = false ∧
         (again → k'.st = .ready ∧ k'.saved = [] ∧ a ∈ k'.avoid ∧ ∃ m, t.getL k.launch = some m ∧ SMap.get 0 m.reruns k.node = n + 1) ∧
         (¬again → k'.st = .failed)))

/-- R276, R278: a slice that has run out is reloaded when no task of the pool needs the place; otherwise the task is asked to stop: PREQ is set, and its
sequencer stops at the next boundary outside S code. A member that its lead feeds stops at once.
R275: a quad is gated after 65,536 idle cycles where the partition's policy allows it and no saved task is bound to it; it wakes at the end of its
3,200 cycles. -/
def Obligations.SlicesAndPower : Prop :=
  (∀ (s : State) (a : Nat) (k : Task) (l : Launch), s.runs a = some k → s.getL k.launch = some l → (s.getA a).csr.slice = 0 →
     (s.getA a).tsk.stop = .no → (s.getA a).csr.preq = false →
     let busy := (List.range 128).filter fun b => (s.getA b).tsk.run
     let needs (e : Nat × Task) : Prop := s.prioOf k ≤ s.prioOf e.2 ∧ s.gangReady e.2 = true ∧ ∃ m, s.getL e.2.launch = some m ∧ s.bestPlace m e.2 busy = none
     let sl := nd l.bytes k.node 6 2
     ∃ t, exec (.sliceExpiry a) s = .next t ∧ t = { s with arr := t.arr } ∧
       ((∀ e ∈ s.pool l.part, ¬needs e) → (∀ b, b ≠ a → t.getA b = s.getA b) ∧ t.getA a = { s.getA a with
         csr := { (s.getA a).csr with
           slice := BitVec.ofNat 24 (if sl = 0 then (SMap.get Part.reset s.part l.part).slice else 16 * sl), sliceCnt := 0 } }) ∧
       ((∃ e ∈ s.pool l.part, needs e) → s.gangArrs k = [(a, (s.getA a).tsk.id)] → (∀ b, b ≠ a → t.getA b = s.getA b) ∧
         t.getA a = if (s.getA a).tsk.rank ≠ 0 ∧ (s.getA a).atS = false then { s.getA a with tsk := { (s.getA a).tsk with stop := .preempt } }
           else { s.getA a with csr := { (s.getA a).csr with preq := true } })) ∧
  ((∀ (s : State) (q : Nat), q < 32 → (s.getQ q).gated = false → (∀ i < 4, (s.getA (4 * q + i)).tsk.run = false) →
     (∀ id k, (id, some k) ∈ s.task → k.saved ≠ [] → (∃ a ∈ k.arrs, a / 4 = q) →
       k.bound = none ∧ ∀ l, s.getL k.launch = some l → ndVgrant l.bytes k.node = 0) → (∀ k ∈ (s.getQ q).stks, k.isOpen = false) → (s.getQ q).idle + 65536 ≤ s.now →
     (SMap.get Part.reset s.part (s.getD (q / 8)).part).gate = true →
     ∃ t, exec (.quadPowerGate q) s = .next t ∧ t = { s with quad := t.quad } ∧ (∀ p, p ≠ q → t.getQ p = s.getQ p) ∧
       t.getQ q = { s.getQ q with gated := true, wake := none }) ∧
   (∀ (s : State) (q n : Nat), (s.getQ q).wake = some n → n ≤ s.now →
     ∃ t, exec (.quadWakeComplete q) s = .next t ∧ t = { s with quad := t.quad } ∧ (∀ p, p ≠ q → t.getQ p = s.getQ p) ∧
       t.getQ q = { s.getQ q with gated := false, wake := none, idle := s.now }))

/-! ## Walks, shoot-downs, integrity (R229-R235, R289-R296, R302-R309) -/

/-- R289, R292, R294, R295: the end of a walk. When the die's TGEN has changed the outcome is discarded and the tables are read again. A leaf that every
waiting access passes enters the die's TLB and the micro-TLBs of the waiting arrays (what goes from a full one: the model's choice, log 11). An absent page
parks the waiting access, of a copy engine, the NI or a matrix engine, with its generation, and its task is asked to stop; another fault ends the command of
a copy engine with FAULT.
R290-R292: a shoot-down removes the entries of its kind from the TLBs of the dies it names and of their arrays, advances those dies' TGEN, and waits for
every array of them; an array acknowledges once no access of it that was translated is still to perform; each acknowledgement strikes one off, and the
last sets DONE. That any place a multicast group or a block being filled still owes counts as such an access is log 40 (notes/assumptions/40). -/
def Obligations.TranslationsEnd : Prop :=
  (∀ (s : State) (die k : Nat) (reread : Bool) (w : Walk), (s.getD die).walks[k]? = some w →
     let d := s.getD die
     let now := s.walk w.part (w.vpn * 65536) 4 w.root
     let res := if reread then now else w.res
     (w.tgen ≠ d.tgen → ∃ t, exec (.walkEnd die k reread) s = .next t ∧ t = { s with die := t.die } ∧ (∀ e, e ≠ die → t.getD e = s.getD e) ∧
       t.getD die = { d with walks := d.walks.set k { w with tgen := d.tgen, res := now } }) ∧
     (∀ size pfn r wr a, w.tgen = d.tgen → res = .leaf size pfn r wr a → w.waiters ≠ [] →
       (∀ q ∈ w.waiters, ∃ h, s.leafRes w.part q.va.toNat size pfn r wr a q.acc = .ok h) →
       let e : TlbE := ⟨w.part, w.ctx, size, w.vpn * 65536 / pageSize size, pfn, r, wr, a⟩
       ∃ t, exec (.walkEnd die k reread) s = .next t ∧ t.mem = s.mem ∧ (∀ n, n ≠ die → t.getD n = s.getD n) ∧
         t.getD die = { d with walks := d.walks.eraseIdx k, tlb := dieTlbAdd d.tlb e } ∧
         ∀ b, t.getA b = if w.waiters.any (fun q => q.arr == b) then { s.getA b with tlb := tlbAdd 64 (s.getA b).tlb e } else s.getA b) ∧
     (∀ level q, w.tgen = d.tgen → res = .fault 1 level → w.waiters = [q] → q.arr / 32 = die →
       let x := s.getA q.arr
       let g := some d.fbgen.toNat
       let Parks (y : Arr) : Prop := ∃ t, exec (.walkEnd die k reread) s = .next t ∧ (∀ b, b ≠ q.arr → t.getA b = s.getA b) ∧
         t.getA q.arr = { y with csr := { x.csr with preq := true } }
       (∀ m, q.unit = .cpy → x.cmdOf q.seq = some m → m.fault = false → m.whole = false → m.park = none →
         Parks { x with cpy := { x.cpy with cmds := x.cpy.cmds.map fun m => if m.seq = q.seq then { m with park := g, inord := true } else m } }) ∧
       (∀ o, q.unit = .ni → x.cpy.ni = [o] → o.seq = q.seq → o.park = none → o.own = none →
         Parks { x with cpy := { x.cpy with ni := [{ o with park := g, inord := true }] } }) ∧
       (∀ m, q.unit = .mat → x.mcmd q.seq = some m → m.whole = false → m.park = none →
         Parks { x with mat := { x.mat with cmds := x.mat.cmds.map fun m => if m.seq = q.seq then { m with park := g } else m } })) ∧
     (∀ kind level q m, w.tgen = d.tgen → res = .fault kind level → kind ≠ 1 → w.waiters = [q] → q.unit = .cpy → (s.getA q.arr).cmdOf q.seq = some m →
       m.fault = false → m.whole = false →
       ∃ t m', exec (.walkEnd die k reread) s = .next t ∧ (t.getA q.arr).cmdOf q.seq = some m' ∧ m'.fault = true ∧ m'.whole = true ∧ m'.park = m.park ∧
         ∀ b, b ≠ q.arr → t.getA b = s.getA b)) ∧
  ((∀ (s : State) (die : Nat) (dies : BitVec 4) (kind : BitVec 2) (ctx : BitVec 16) (vpn : BitVec 56), die < 4 →
     let named (d : Nat) : Bool := decide (d < 4) && dies.getLsbD d
     let hit (e : TlbE) : Bool := match kind.toNat with
       | 0 => e.ctx == ctx && e.vpn == vpn.toNat * 65536 / 2 ^ (16 + 14 * e.size)
       | 1 => e.ctx == ctx
       | 2 => e.part == ctx.toNat % 4
       | _ => true
     ∃ t, exec (.shootdownStart die dies kind ctx vpn) s = .next t ∧ t = { s with arr := t.arr, die := t.die } ∧
       (∀ d, d < 4 → (t.getD d).tgen = (if named d then (s.getD d).tgen + 1 else (s.getD d).tgen) ∧
         (t.getD d).tlb = if named d then (s.getD d).tlb.filter (fun e => !hit e) else (s.getD d).tlb) ∧
       (∀ a, t.getA a = if named (a / 32) then { s.getA a with tlb := (s.getA a).tlb.filter fun e => !hit e } else s.getA a) ∧
       (t.getD die).sdGo = false ∧ ((t.getD die).sdDone = true ↔ dies = 0#4) ∧
       ∀ a, a ∈ (t.getD die).owed ↔ named (a / 32) = true) ∧
   (∀ (s : State) (die a : Nat), s.owes a = true → exec (.shootdownAck die a) s = .next s) ∧
   (∀ (s : State) (die a : Nat), s.owes a = false → ∃ t, exec (.shootdownAck die a) s = .next t ∧ t = { s with die := t.die } ∧
     (∀ e, e ≠ die → t.getD e = s.getD e) ∧ t.getD die = { s.getD die with
       owed := (s.getD die).owed.erase a, sdDone := (s.getD die).sdDone || ((s.getD die).owed.erase a).isEmpty }))

/-- R229, R231, R232, R302, R304: parity groups. Of the asynchronous reads of one bank in a cycle the first is direct, another index of it is
reconstructed where the group can, and a further request waits; retirement applies the oldest queued delta, in a cycle in which no reconstruction uses the
parity bank; a rebuild makes the lowest stale index the XOR of its four words, in a cycle without other use of the group; the scrub of clean, sound words in
a normal group leaves memory alone, makes a wrong parity word right, and goes on to the next index; a write-back stores a corrected word.
R306-R309: retirement. The first bank of a group to be retired has the group's queue drained into its parity and the stale indices marked lost; a
second loses every word of the group and takes the array from dispatch. With no task on the array its dead groups are retired, the scratchpad reads zero
and dispatch returns. -/
def Obligations.BanksAndParity : Prop :=
  ((∀ (s : State) (a grp bank i j n : Nat), a < 128 → grp < 16 → bank / 4 = grp → i < 4096 → j < 4096 → n < 4096 → i ≠ j → i ≠ n → j ≠ n →
     let x := s.getA a
     let g := x.itg
     g.degraded grp = false → g.gret = 0#16 → (SMap.get [] g.puq grp).length < 8 → SMap.get false g.stale (grp * 4096 + j) = false →
     SMap.get GUse.none g.use grp = GUse.none →
     let reqs : List AReq := [⟨2, 0, bank, n⟩, ⟨1, 0, bank, j⟩, ⟨0, 0, bank, i⟩]
     ∃ t, exec (.asyncReadGrant a grp reqs) s = .next t ∧ t = { s with arr := t.arr } ∧ (∀ b, b ≠ a → t.getA b = s.getA b) ∧
       (∀ m, SMap.get GUse.none (t.getA a).itg.use m = if m = grp then ⟨[(bank, i)], [], true, true, true, 0⟩ else SMap.get GUse.none g.use m) ∧
       t.getA a = { (x.count 5 1).count 21 1 with itg := { g with
         use := (t.getA a).itg.use, waits := (g.waits.filter fun r => r.bank / 4 != grp) ++ [⟨2, 0, bank, n⟩],
         granted := g.granted ++ [⟨0, 0, bank, i⟩, ⟨1, 0, bank, j⟩] } }) ∧
   (∀ (s : State) (a grp : Nat) (e : Nat × BitVec 128) (l : List (Nat × BitVec 128)), SMap.get [] (s.getA a).itg.puq grp = e :: l →
     ((s.getA a).itg.used grp).recon = false →
     ∃ t, exec (.puqRetirement a grp) s = .next t ∧ t = { s with arr := t.arr } ∧ (∀ b, b ≠ a → t.getA b = s.getA b) ∧
       (∀ k, SMap.get 0 (t.getA a).itg.par k = if k = grp * 4096 + e.1 then SMap.get 0 (s.getA a).itg.par k ^^^ e.2 else SMap.get 0 (s.getA a).itg.par k) ∧
       ∀ k, SMap.get [] (t.getA a).itg.puq k = if k = grp then l else SMap.get [] (s.getA a).itg.puq k) ∧
   (∀ (s : State) (a grp i : Nat) (l : List Nat), (s.getA a).itg.stales grp = i :: l → SMap.get [] (s.getA a).itg.puq grp = [] →
     ((s.getA a).itg.used grp).busy = false →
     ∃ t, exec (.staleRebuild a grp) s = .next t ∧ t = { s with arr := t.arr } ∧ (∀ b, b ≠ a → t.getA b = s.getA b) ∧
       SMap.get 0 (t.getA a).itg.par (grp * 4096 + i) =
         s.bankWord a (4 * grp) i ^^^ s.bankWord a (4 * grp + 1) i ^^^ s.bankWord a (4 * grp + 2) i ^^^ s.bankWord a (4 * grp + 3) i ∧
       SMap.get false (t.getA a).itg.stale (grp * 4096 + i) = false ∧
       ∀ k, k ≠ grp * 4096 + i → SMap.get 0 (t.getA a).itg.par k = SMap.get 0 (s.getA a).itg.par k ∧
         SMap.get false (t.getA a).itg.stale k = SMap.get false (s.getA a).itg.stale k) ∧
   (∀ (s : State) (a grp : Nat), a < 128 → grp < 16 →
     let g := (s.getA a).itg
     let i := SMap.get 0 g.scrub grp
     (∀ b < 4, ∀ j < 4, let o := 16 * g.holds (64 * i + 4 * grp + b) + 4 * j
       SMap.get 0 s.err (spadKey a o) = 0 ∧ s.spadPois a o = false ∧ SMap.get 0 s.err (parKey a grp i + 4 * j) = 0) →
     g.degraded grp = false → SMap.get false g.stale (grp * 4096 + i) = false →
     let Scrubs (ins : Instr) : Prop := ∃ t, exec ins s = .next t ∧ t.mem = s.mem ∧ t.pois = s.pois ∧ (∀ k, SMap.get 0 t.err k = SMap.get 0 s.err k) ∧
       (∀ b, b ≠ a → t.getA b = s.getA b) ∧ SMap.get 0 (t.getA a).itg.scrub grp = (i + 1) % 4096 ∧
       SMap.get 0 (t.getA a).itg.par (grp * 4096 + i) = s.groupXor a grp i ^^^ g.pending grp i
     (g.stales grp = [] → SMap.get [] g.puq grp = [] → (g.used grp).busy = false → Scrubs (.patrolScrub a grp)) ∧
     (SMap.get 0 g.scrubWait grp + 1024 ≤ s.now → Scrubs (.scrubTimeout a grp))) ∧
   (∀ (s : State) (key : Nat), SMap.get 0 s.err key = 1 → ∃ t, exec (.eccWriteback key) s = .next t ∧ t = { s with err := t.err } ∧
     ∀ k, SMap.get 0 t.err k = if k = key then 0 else SMap.get 0 s.err k)) ∧
  ((∀ (s : State) (a : Nat) (bank : BitVec 6), a < 128 →
     let g := (s.getA a).itg
     let grp := bank.toNat / 4
     g.rbank.getLsbD bank.toNat = false →
     (g.degraded grp = false → ∃ t, exec (.bankRetire a bank) s = .next t ∧ t = { s with arr := t.arr } ∧ (∀ b, b ≠ a → t.getA b = s.getA b) ∧
       (t.getA a).itg.rbank = g.rbank ||| BitVec.ofNat 64 (2 ^ bank.toNat) ∧ (t.getA a).itg.go = false ∧
       SMap.get [] (t.getA a).itg.puq grp = [] ∧ (t.getA a).itg.stales grp = [] ∧
       ∀ i ∈ g.stales grp, SMap.get false (t.getA a).itg.lost (grp * 4096 + i) = true) ∧
     (g.degraded grp = true → ∃ t, exec (.bankRetire a bank) s = .next t ∧ t = { s with arr := t.arr, pois := t.pois } ∧
       (∀ b, b ≠ a → t.getA b = s.getA b) ∧ (t.getA a).itg.rbank = g.rbank ||| BitVec.ofNat 64 (2 ^ bank.toNat) ∧
       (t.getA a).itg.noDisp = true ∧
       ∀ i < 4096, ∀ w < 16, t.isPois (spadKey a (16 * g.holds (64 * i + 4 * grp + w / 4) + 4 * (w % 4))) = true)) ∧
   (∀ (s : State) (a : Nat), a < 128 → (s.getA a).tsk.run = false → (s.getA a).itg.dead ≠ [] →
     (∀ id k, (id, some k) ∈ s.task → k.bound ≠ some a) →
     ∃ t, exec (.groupRetire a) s = .next t ∧ (t.getA a).itg.noDisp = false ∧ (t.getA a).itg.par = [] ∧ (t.getA a).itg.puq = [] ∧
       (t.getA a).itg.stale = [] ∧ (t.getA a).itg.lost = [] ∧
       (∀ i < 16, (t.getA a).itg.gret.getLsbD i = ((s.getA a).itg.gret.getLsbD i || (s.getA a).itg.dead.contains i)) ∧
       (∀ off < 4194304, t.byte (spadKey a off) = 0#8) ∧ (∀ k, (k < spadKey a 0 ∨ spadKey a 4194304 ≤ k) → t.byte k = s.byte k) ∧
       ∀ b, b ≠ a → t.getA b = s.getA b))

/-! ## Command queues (R318-R335) -/

/-- R323, R325, R327: `NOP` and `BARRIER` complete with their processing, and so does `FFENCE`, which first discards every kept slot beyond its own index.
R323, R328: `WAIT` reads its word afresh. It completes when the masked word compares with the value as asked, and otherwise nothing happens.
R5, R284, R323: `WRITE` stores its words from its address on, `SIGNAL` stores its value or adds it to the word there, `WRITESIG` does one and then the
other, `TIMESTAMP` stores the die's cycle count and its tag; each then completes. The addresses lie in the heap window. -/
def Obligations.PacketsRun : Prop :=
  (∀ (s : State) (q : Nat) (f : Fetched), Tidy s q f →
     (s.isCurrent q (.nopPacket q) = some f → ∃ t, exec (.nopPacket q) s = .next t ∧ Completed s t q f) ∧
     (s.isCurrent q (.barrier q) = some f → ∃ t, exec (.barrier q) s = .next t ∧ Completed s t q f) ∧
     (s.isCurrent q (.ffence q) = some f → ∃ t, exec (.ffence q) s = .next t ∧
       Completed (s.modU q fun u => { u with kept := u.kept.filter fun x => x.idx ≤ f.idx }) t q f)) ∧
  (∀ (s : State) (q : Nat) (f : Fetched) (addr : Addr) (cond : Byte) (value mask : Word), Tidy s q f →
     let pa := s.winPa q addr
     let x : Word := BitVec.ofNat 64 (s.readN pa 8) &&& mask
     let holds : Prop := (cond = 0#8 → value.toNat ≤ x.toNat) ∧ (cond = 1#8 → x = value) ∧ (cond = 2#8 → x ≠ value) ∧
       (cond = 3#8 → x.toNat < value.toNat)
     s.isCurrent q (.wait q addr cond value mask) = some f → s.winOk q addr 8 (s.qSlot q f.idx) →
       (holds → ∃ t, exec (.wait q addr cond value mask) s = .next t ∧ Completed s t q f) ∧
       (¬holds → exec (.wait q addr cond value mask) s = .next s)) ∧
  (∀ (s : State) (q : Nat) (f : Fetched) (addr sig : Addr) (words : List Word) (op : Byte) (value word : Word) (tag : W32), Tidy s q f →
     let slot := s.qSlot q f.idx
     let pa := s.winPa q addr
     (s.isCurrent q (.write q addr words) = some f → s.winOk q addr (8 * words.length) slot →
       ∃ m t, exec (.write q addr words) s = .next t ∧ WritesAt s m pa (words.flatMap fun w => leBytes 8 w.toNat) ∧ Completed m t q f) ∧
     (s.isCurrent q (.signal q addr op value) = some f → s.winOk q addr 8 slot →
       ∃ m t, exec (.signal q addr op value) s = .next t ∧ Completed m t q f ∧
         (op = 1#8 → WritesAt s m pa (leBytes 8 value.toNat)) ∧
         (op = 2#8 → WritesAt s m pa (leBytes 8 (s.readN pa 8 + value.toNat)))) ∧
     (s.isCurrent q (.writesig q addr word sig op value) = some f → s.winOk q addr 8 slot → s.winOk q sig 8 slot →
       ∃ n m t, exec (.writesig q addr word sig op value) s = .next t ∧ WritesAt s n pa (leBytes 8 word.toNat) ∧ Completed m t q f ∧
         (op = 1#8 → WritesAt n m (s.winPa q sig) (leBytes 8 value.toNat)) ∧
         (op = 2#8 → WritesAt n m (s.winPa q sig) (leBytes 8 (n.readN (s.winPa q sig) 8 + value.toNat)))) ∧
     (s.isCurrent q (.timestamp q addr tag) = some f → s.winOk q addr 16 slot →
       ∃ m t, exec (.timestamp q addr tag) s = .next t ∧
         WritesAt s m pa (leBytes 8 (s.getD (s.getU q).die).cyc ++ leBytes 8 tag.toNat) ∧ Completed m t q f))

/-- R323, R325: `COPY` is handed over and consumed. What is pending pairs every byte of the source with the byte of the destination at the same place.
R265, R268, R272, R323, R325: `LAUNCH`. A record that fails a check gets LSTAT LAUNCHERR with the reason, starts no task, and the packet completes. One
that passes is registered under the next number with the bytes read, every node gets its tasks, and the packet is consumed and waits.
R323, R325, R333-R335: `REPLAY` is handed over when the partition runs no other: its record, where it lies, and its passes are named. A pass begins when no
task of the partition runs: its counters are cleared and select what the record asks, its signature is 0, and its launch is accepted. Once the launch is
over its counts and its signature are recorded, after pass 1 the pages captured too. The replay then ends where the Harvest area was full, with FULL set, or
where every pass has run; otherwise captured pages are restored, scratchpads zeroed and a shoot-down begun, and the next pass waits for it. That
a REPLAY waits while the partition runs another is log 39 (notes/assumptions/39).
R323, R325: a packet handed over completes when nothing is left to wait for: a launch that is over, a firmware copy once its bytes have been copied, a
replay that has ended. It leaves the pending packets, and CSEQ passes it when its turn has come. A launch that is not over waits, and so does a replay. The
bytes of a copy move at one instant, here: log 14 (notes/assumptions/14). The copy of a destroyed queue is made and completes nothing: log 39
(notes/assumptions/39). -/
def Obligations.PacketsHandedOver : Prop :=
  (∀ (s : State) (q : Nat) (f : Fetched) (src dst : Addr) (len : W32), Tidy s q f → s.isCurrent q (.copy q src dst len) = some f →
     s.winOk q src len.toNat (s.qSlot q f.idx) → s.winOk q dst len.toNat (s.qSlot q f.idx) →
     ∃ t l, exec (.copy q src dst len) s = .next t ∧ Consumed s t q f ∧ t.qCseq q = s.qCseq q ∧
       (t.getU q).pend = (s.getU q).pend ++ [(f.idx, pkIrq f.bytes, .copy l)] ∧
       ∀ x y : Nat, (∃ e ∈ l, ∃ j < e.2.2, x = e.1 + j ∧ y = e.2.1 + j) ↔ ∃ i < len.toNat, x = s.winPa q src + i ∧ y = s.winPa q dst + i) ∧
  (∀ (s : State) (q : Nat) (f : Fetched) (record : Addr) (n : Nat) (ps : List (Nat × Nat)), Tidy s q f →
     s.isCurrent q (.launch q record) = some f → s.recRange (s.qTr q) record = .ok n → s.cpXlate (s.qTr q) record n 0 = .ok ps →
     let b := s.bytesAt ps
     let part := (s.getU q).part
     let l : Launch := ⟨q, f.idx, part, s.qCtx q, record, b, ps.map (fun e => e.1 / 65536), false, [], []⟩
     let apart (off : Nat) : Prop := (l.at_ off < s.qSlot q f.idx ∨ s.qSlot q f.idx + 64 ≤ l.at_ off) ∧
       ∀ e ∈ s.queue, e.2.on = true → l.at_ off < e.2.desc ∨ e.2.desc + 128 ≤ l.at_ off
     (∀ off < n, apart off) → (∀ e ∈ ps, s.memSound e.1 e.2 = true) →
     (∀ r, launchReason part b s = r → 0 < r →
       ∃ m t, exec (.launch q record) s = .next t ∧ Completed m t q f ∧ m = { s with mem := m.mem, pois := m.pois } ∧
         (∀ k, m.isPois k = s.isPois k) ∧ (∀ k, (∀ i < 4, k ≠ l.at_ (36 + i)) → m.byte k = s.byte k) ∧ ∀ i < 4, m.byte (l.at_ (36 + i)) = (leBytes 4 (2 + 256 * r)).getD i 0#8) ∧
     (launchReason part b s = 0 →
       ∃ t l', exec (.launch q record) s = .next t ∧ t.nlaunch = s.nlaunch + 1 ∧ t.getL s.nlaunch = some l' ∧ l'.bytes = b ∧ l'.part = part ∧
         l'.ctx = l.ctx ∧ t.ntask = s.ntask + rNodes b * taskCount (rLevels b) ∧ t.arr = s.arr ∧ t.die = s.die ∧ t.part = s.part ∧
         (t.getU q).pend = (s.getU q).pend ++ [(f.idx, pkIrq f.bytes, .launch s.nlaunch)] ∧
         ((t.getU q).kept = (s.getU q).kept.filter fun x => x.idx != f.idx) ∧
         ∀ i < rNodes b, ∀ j < taskCount (rLevels b), ∃ k, t.getT (s.ntask + i * taskCount (rLevels b) + j) = some k ∧ k.launch = s.nlaunch ∧
           k.node = i ∧ k.inst = instOf (rLevels b) j)) ∧
  ((∀ (s : State) (q : Nat) (f : Fetched) (record rrec : Addr) (npass : Byte) (ps : List (Nat × Nat)), Tidy s q f →
     s.isCurrent q (.replay q record npass rrec) = some f → s.cpXlate (s.qTr q) rrec 512 0 = .ok ps →
     let p := SMap.get Part.reset s.part (s.getU q).part
     p.replay = none →
     ∃ t, exec (.replay q record npass rrec) s = .next t ∧ t.arr = s.arr ∧ t.task = s.task ∧ t.die = s.die ∧
       t.readN ((s.getU q).desc + 32) 8 = (f.idx + 1) % 2 ^ 64 ∧
       (t.getU q).pend = (s.getU q).pend ++ [(f.idx, pkIrq f.bytes, .replay)] ∧
       SMap.get Part.reset t.part (s.getU q).part =
         { p with replay := some ⟨q, f.idx, s.qCtx q, record, ps, npass.toNat, 0, none, [], false, List.replicate npass.toNat 0, 0, false⟩ } ∧
       ∀ e, e ≠ (s.getU q).part → SMap.get Part.reset t.part e = SMap.get Part.reset s.part e) ∧
   (∀ (s : State) (part : Nat) (r : Replay), (SMap.get Part.reset s.part part).replay = some r →
     (∀ a ∈ s.partArrs part, (s.getA a).tsk.run = false) → (∀ lid, r.launch = some lid → s.launchOver lid = true) →
     (∀ e ∈ r.rrec, s.memSound e.1 e.2 = true) →
     let lead := (s.partDies part).headD 0
     let tr := s.cxtTr part r.ctx
     (∀ n ps, r.pass = 0 ∨ (r.prep = true ∧ (s.getD lead).sdDone = true) → s.recRange tr r.rec_ = .ok n → s.cpXlate tr r.rec_ n 0 = .ok ps →
       (∀ e ∈ ps, s.memSound e.1 e.2 = true) →
       launchReason part (s.bytesAt ps) s = 0 → (r.pass = 0 → r.prep = false) →
       ∃ t, exec (.replayPassStart part) s = .next t ∧ t.nlaunch = s.nlaunch + 1 ∧ t.die = s.die ∧ t.queue = s.queue ∧
         SMap.get Part.reset t.part part = { SMap.get Part.reset s.part part with
           replay := some { r with pass := r.pass + 1, launch := some s.nlaunch, prep := false, sigs := r.sigs.set r.pass 0 } } ∧
         (∀ a ∈ s.partArrs part, (t.getA a).csr.pmc = [] ∧ ∀ n < 4, SMap.get 0#10 (t.getA a).csr.pmsel n =
           (BitVec.ofNat 10 (s.rrField r (8 * r.pass + 2 * n) 2) &&& 0x01F#10) ||| 0x180#10) ∧
         ∀ a, (t.getA a).sca = (s.getA a).sca ∧ (t.getA a).tsk = (s.getA a).tsk) ∧
     (r.pass ≠ 0 → r.prep = true → (s.getD lead).sdDone = false → exec (.replayPassStart part) s = .next s) ∧
     (∀ k, r.rrec = [(k, 512)] → r.prep = false → (s.getD lead).sdDone = true → 1 ≤ r.pass → r.pass ≤ 8 → spaceOf k = 0 → spaceOf (k + 512) = 0 →
       s.memSound k 512 = true → (∀ e ∈ s.queue, e.2.on = true → k + 512 ≤ e.2.desc ∨ e.2.desc + 128 ≤ k) →
       let area := s.readN (k + 64) 9
       let n := r.pages.length
       let table := area + 65536 * n
       (r.pass = 1 → (∀ i < n, s.pageOk part (table + 16 * i - (table + 16 * i) % 65536) = true) ∧ spaceOf table = 0 ∧ spaceOf (table + 16 * n) = 0 ∧
         s.memSound table (16 * n) = true ∧ (table + 16 * n ≤ k ∨ k + 512 ≤ table) ∧
         ∀ e ∈ s.queue, e.2.on = true → table + 16 * n ≤ e.2.desc ∨ e.2.desc + 128 ≤ table) →
       (r.full = true ∨ r.npass ≤ r.pass ∨ ∀ pg ∈ r.pages, pg * 65536 + 65536 ≤ k ∨ k + 512 ≤ pg * 65536) →
       let miss := (r.sigs.take r.pass).any fun v => v != r.sigs.headD 0
       let cnt (n : Nat) : Nat := (s.partArrs part).foldl (fun t a => t + (SMap.get 0 (s.getA a).csr.pmc n).toNat % 2 ^ 48) 0
       ∃ t, exec (.replayPassStart part) s = .next t ∧
         t.readN (k + 168 + 8 * (r.pass - 1)) 8 = (r.sigs.getD (r.pass - 1) 0).toNat ∧
         (∀ n < 4, t.readN (k + 256 + 32 * (r.pass - 1) + 8 * n) 8 = cnt n % 2 ^ 64) ∧
         (r.pass = 1 → t.readN (k + 164) 4 = n % 2 ^ 32 ∧
           (r.full = true ∨ r.npass ≤ 1 → ∀ i < n, t.readN (table + 16 * i) 9 = r.pages.getD i 0 * 65536 % 2 ^ 72)) ∧
         (r.full = true ∨ r.npass ≤ r.pass → t = { s with mem := t.mem, pois := t.pois, part := t.part } ∧
           SMap.get Part.reset t.part part = { SMap.get Part.reset s.part part with replay := none } ∧
           t.readN (k + 160) 4 = (if r.full then 2 else 0) + (if miss then 1 else 0) ∧
           ∀ j, (j < k + 160 ∨ k + 512 ≤ j) → (r.pass ≠ 1 ∨ j < table ∨ table + 16 * n ≤ j) → t.byte j = s.byte j) ∧
         (r.full = false → r.pass < r.npass → Memory.wf s.mem = true → r.pages.Nodup →
           (∀ pg ∈ r.pages, s.pageOk part (pg * 65536) = true ∧ (pg * 65536 + 65536 ≤ area ∨ area + 65536 * n + 16 * n ≤ pg * 65536)) →
           (∀ i < n, s.pageOk part (area + 65536 * i) = true ∧ s.memSound (area + 65536 * i) 65536 = true) → (area + 65536 * n ≤ k ∨ k + 512 ≤ area) →
           SMap.get Part.reset t.part part = { SMap.get Part.reset s.part part with replay := some { r with prep := true } } ∧
           (∀ i < n, ∀ j < 65536, t.byte (r.pages.getD i 0 * 65536 + j) = s.byte (area + 65536 * i + j)) ∧
           (∀ a ∈ s.partArrs part, ∀ off < 4194304, t.byte (spadKey a off) = 0#8) ∧
           (∀ a, a ∈ (t.getD lead).owed ↔ a ∈ s.partArrs part) ∧ ((t.getD lead).sdDone = true ↔ s.partDies part = []))))) ∧
  (∀ (s : State) (q : Nat) (index : Word),
     let i : Instr := .packetComplete q index
     -- a copy between places of SPACE 0 that are apart, without poison or storage error
     let Plain (a b n : Nat) : Prop := n % 16 = 0 ∧ spaceOf a = 0 ∧ spaceOf (a + n) = 0 ∧ spaceOf b = 0 ∧ spaceOf (b + n) = 0 ∧
       (a + n ≤ b ∨ b + n ≤ a) ∧ s.poisN a n = false ∧ s.memSound a n = true ∧ s.memSound b n = true ∧
       ∀ e ∈ s.queue, e.2.on = true → b + n ≤ e.2.desc ∨ e.2.desc + 128 ≤ b
     (∀ a b n, (s.getU q).left.find? (fun e => e.1 == index.toNat) = some (index.toNat, .copy [(a, b, n)]) → Plain a b n →
       ∃ m, WritesAt s m b (s.bytes a n) ∧
         exec i s = .next (m.modU q fun u => { u with left := u.left.eraseP fun e => e.1 == index.toNat })) ∧
     ∀ (irq : Bool) (w : PkWait), (s.getU q).on = true → (s.getU q).fin = [] → (∀ e ∈ (s.getU q).left, e.1 ≠ index.toNat) →
       s.memSound ((s.getU q).desc + 48) 8 = true →
       (s.getU q).pend.find? (fun e => e.1 == index.toNat) = some (index.toNat, irq, w) →
       let Ends (m : State) : Prop := ∃ t, exec i s = .next t ∧
         (t.getU q).pend = (s.getU q).pend.filter (fun e => e.1 != index.toNat) ∧ t.arr = s.arr ∧ t.task = s.task ∧
         (∀ k, (k < (s.getU q).desc + 48 ∨ (s.getU q).desc + 56 ≤ k) → t.byte k = m.byte k) ∧
         t.qCseq q = if s.qCseq q = index.toNat then (index.toNat + 1) % 2 ^ 64 else s.qCseq q
       (∀ lid, w = .launch lid → (s.launchOver lid = true → Ends s) ∧ (s.launchOver lid = false → exec i s = .next s)) ∧
       (w = .replay → (∀ r, (SMap.get Part.reset s.part (s.getU q).part).replay = some r → r.q ≠ q ∨ r.idx ≠ index.toNat) → Ends s) ∧
       (∀ r, w = .replay → (SMap.get Part.reset s.part (s.getU q).part).replay = some r → r.q = q → r.idx = index.toNat → exec i s = .next s) ∧
       (∀ a b n, w = .copy [(a, b, n)] → Plain a b n → ∃ m, WritesAt s m b (s.bytes a n) ∧ Ends m))

/-- R319, R340: where the descriptor holds no storage error, a write of a queue's TAIL, directly or by a doorbell of its own partition, makes it the larger of its value and the one written.
R326, R330, R331, R337: a service slot whose queue's fetch finds nothing new, and whose reads no storage error, checks the packet at RIX. One that passes every check is processed next; a
malformed one puts the queue in its error state with nothing kept; one whose page is absent makes it wait, with a fault record of the generation. -/
def Obligations.QueuesAreServed : Prop :=
  (∀ (s : State) (f q : Nat) (value : Word), (s.getU q).on = true →
     s.memSound ((s.getU q).desc + 24) 8 = true →
     let Rises (i : Instr) : Prop := ∃ t, exec i s = .next t ∧ t = { s with mem := t.mem, pois := t.pois } ∧ (∀ k, t.isPois k = s.isPois k) ∧ t.qTail q = max (s.qTail q) value.toNat ∧
       ∀ k, (k < (s.getU q).desc + 24 ∨ (s.getU q).desc + 32 ≤ k) → t.byte k = s.byte k
     Rises (.tailWrite q value) ∧ ((s.getU q).part = f → Rises (.doorbell f q value)) ∧
     ((s.getU q).part ≠ f → exec (.doorbell f q value) s = .next s)) ∧
  (∀ (s : State) (die core pos q : Nat) (f : Fetched), s.queueAt die core pos = some q → s.qState q = 1 → s.current q = some f →
     s.memSound (s.getU q).desc 128 = true → s.pkReads (s.qTr q) f.bytes = s →
     (∀ i, i < 16 → (s.getU q).kept.any (fun x => x.idx == s.qRix q + i) = true ∨ s.qTail q ≤ s.qRix q + i) →
     let u := s.getU q
     ∃ t, exec (.queueServiceSlot die core pos) s = .next t ∧ t.arr = s.arr ∧ t.task = s.task ∧
       (∀ i, s.pkCheck q f = .ok → pkInstr q f.bytes = some i → t = { s with agenda := i :: s.agenda }) ∧
       (∀ r va, s.pkCheck q f = .malformed r va → (t.getU q).kept = [] ∧ t.dev.ringWix = s.dev.ringWix + 1 ∧
         t.dev.errdev = s.dev.errdev ||| BitVec.ofNat 64 (2 ^ s.dev.self) ∧ t.dev.msix = s.dev.msix ++ [(u.part, 0)] ∧
         ((s.dev.ring + 64 * 2 ^ s.dev.ringK ≤ u.desc ∨ u.desc + 128 ≤ s.dev.ring) → t.qState q = 2)) ∧
       (∀ va acc lv, s.pkCheck q f = .absent va acc lv → (t.getU q).parked = some (s.getD u.die).fbgen.toNat ∧ t.dev = s.dev ∧
         (let d := s.getD u.die
          d.fbAddr + 64 + 64 * d.fbNrec ≤ u.desc ∨ u.desc + 128 ≤ d.fbAddr → 0 < d.fbNrec → t.qState q = 3)))

/-! ## The mailbox and the management core (R297, R306, R316, R337-R343, R347, R352, R354) -/

/-- R339, R341, R354: no request is served in stage 0. A reply writes STATUS, clears MBDOOR, sets the device's bit of MBDEV and sends message 1; memory, arrays,
tasks and queues do not change with it.
R306, R337, R341: a mailbox slot serves the request waiting, its arguments where notes/assumptions 18 puts them (the model's choice from byte 8 on). With
none waiting it retires a bank whose count has reached the threshold. Neither slot does anything where core 3 has none of its kind. A fault-poll slot tells the host of a fault buffer that has ceased to be empty,
and of a shoot-down that is done. That a worn bank is retired in a
mailbox slot with no request waiting is log 41 (notes/assumptions/41). -/
def Obligations.ManagementReplies : Prop :=
  (∀ (s : State) (p status : Nat),
     let t := s.reply p status
     t = { s with part := t.part, dev := t.dev } ∧ SMap.get 0#8 (t.getP p).mbRep 0 = BitVec.ofNat 8 status ∧ (t.getP p).mbDoor = false ∧
     (t.getP p).mbReq = (s.getP p).mbReq ∧ (∀ e, e ≠ p → t.getP e = s.getP e) ∧
     t.dev = { s.dev with mbdev := s.dev.mbdev ||| BitVec.ofNat 64 (2 ^ s.dev.self), msix := s.dev.msix ++ [(p, 1)] } ∧
     (s.dev.stage = 0#2 → exec (.mailboxSlot p) s = .next s ∧ exec (.partreset p) s = .next s)) ∧
  ((∀ (s : State) (p : Nat), s.dev.stage ≠ 0#2 → s.hasPart p = true → s.hasKind (s.lead p) 4 = true →
     (s.getP p).mbDoor = true → (s.getP p).shoot = false →
     let f := s.mbField p
     let va (off : Nat) : Addr := BitVec.ofNat 72 (f off 9)
     let g (off n : Nat) : Nat := s.readN (f 16 9 + off) n
     let img (i : Nat) : List W32 := (List.range (g (96 + 4 * i) 4 / 4)).map fun j => BitVec.ofNat 32 (s.readN (g (64 + 8 * i) 8 + 4 * j) 4)
     let i : Instr := .mailboxSlot p
     (f 0 1 = 1 → exec i s = exec (.regq p (f 8 1) (va 16) (f 9 1) (f 10 1) (f 11 1)) s) ∧ (f 0 1 = 2 → exec i s = exec (.destroyq p (f 8 1)) s) ∧
     (f 0 1 = 3 → exec i s = exec (.recoverq p (f 8 1) (f 9 1)) s) ∧ (f 0 1 = 4 → exec i s = exec (.quote p (leBytes 32 (f 8 32)) (va 40)) s) ∧
     (f 0 1 = 5 → s.rangeOk p (f 16 9) 112 false = true → s.memSound (f 16 9) 112 = true →
       (∀ i < 4, s.memSound (g (64 + 8 * i) 8) (g (96 + 4 * i) 4) = true) →
       exec i s = exec (.partcfg p (BitVec.ofNat 8 (f 8 1)) ((List.range 4).map fun i => g (8 * i) 8) ((List.range 4).map img)
         ((List.range 4).map fun i => g (32 + 4 * i) 4) ((List.range 4).map fun i => g (48 + 2 * i) 2)) s) ∧
     (f 0 1 = 5 → s.rangeOk p (f 16 9) 112 false = false → Answers i s s p 2) ∧
     (f 0 1 = 6 → f 8 1 = p → exec i s = exec (.partreset p) s) ∧ (f 0 1 = 6 → f 8 1 ≠ p → Answers i s s p 2) ∧ (f 0 1 = 7 → exec i s = exec (.partparam p (va 8)) s) ∧
     (f 0 1 = 8 → exec i s = exec (.quadpol p (f 8 1) (f 9 1) (f 10 1 % 2 == 1) (f 10 1 / 2 % 2 == 1) (f 12 2)) s) ∧
     (f 0 1 = 9 → exec i s = exec (.ctxset p (BitVec.ofNat 16 (f 8 2)) (f 10 1 % 2 == 1) (BitVec.ofNat 56 (f 16 8)) (BitVec.ofNat 56 (f 24 8))
       (BitVec.ofNat 56 (f 32 8)) (BitVec.ofNat 64 (f 40 8))) s) ∧
     (f 0 1 = 11 → exec i s = exec (.shoot p (BitVec.ofNat 4 (f 8 1)) (BitVec.ofNat 2 (f 9 1)) (BitVec.ofNat 16 (f 10 2)) (BitVec.ofNat 56 (f 16 8))) s) ∧
     (f 0 1 = 10 → exec i s = exec (.counters p (va 8)) s) ∧ (f 0 1 = 0 ∨ 12 ≤ f 0 1 → Answers i s s p 2)) ∧
   (∀ (s : State) (p a b : Nat), s.dev.stage ≠ 0#2 → s.hasPart p = true → s.hasKind (s.lead p) 4 = true → (s.getP p).mbDoor = false → s.worn p = some (a, b) → b < 64 →
     (s.getA a).itg.go = false →
     ∃ t, exec (.mailboxSlot p) s = .next t ∧ t = { s with arr := t.arr, agenda := .bankRetire a (BitVec.ofNat 6 b) :: s.agenda } ∧
       (∀ c, c ≠ a → t.getA c = s.getA c) ∧ (t.getA a).itg = { (s.getA a).itg with bank := BitVec.ofNat 6 b, go := true }) ∧
   (∀ (s : State) (p die : Nat), (s.hasKind (s.lead p) 4 = false → exec (.mailboxSlot p) s = .next s) ∧
     (s.hasKind die 2 = false → exec (.faultPollSlot die) s = .next s)) ∧
   (∀ (s : State) (die : Nat), s.hasKind die 2 = true → let d := s.getD die
     (d.fpend = true → (s.getP d.part).shoot = false → ∃ t, exec (.faultPollSlot die) s = .next t ∧ t = { s with die := t.die, dev := t.dev } ∧
       t.getD die = { d with fpend := false } ∧ (∀ e, e ≠ die → t.getD e = s.getD e) ∧
       t.dev = { s.dev with fbdev := s.dev.fbdev ||| BitVec.ofNat 64 (2 ^ s.dev.self), msix := s.dev.msix ++ [(d.part, 2)] }) ∧
     (d.fpend = false → (s.getP d.part).shoot = true → s.lead d.part = die → d.sdDone = true → Answers (.faultPollSlot die) s s d.part 0) ∧
     (d.fpend = false → (s.getP d.part).shoot = false → exec (.faultPollSlot die) s = .next s)))

/-- R318, R325, R338, R341, R342: `REGQ`, `DESTROYQ` and `RECOVERQ`: the refusals, and what a request that is done makes of the queue and its descriptor. A
destroyed queue is gone at once; that a copy it had handed over is made all the same is log 39 (notes/assumptions/39). The descriptors hold no storage error. -/
def Obligations.MailboxQueues : Prop :=
  ∀ (s : State) (p q die core pos mode : Nat) (desc : Addr), s.dev.stage ≠ 0#2 → s.hasPart p = true →
    let u := s.getU q
    let sl := s.posSlots die core pos
    let taken : Prop := u.on = true ∨ (s.getD die).part ≠ p ∨ s.descOk p desc.toNat = false ∨ sl.length < 8 ∨ 64 < posGap sl ∨
      (s.queueAt die core pos).isSome = true
    let inRange : Prop := q < 256 ∧ die < 4 ∧ core < 3 ∧ pos < 64 ∧ desc.toNat % 128 = 0
    let Only (v : State) : Prop := v = { s with mem := v.mem, pois := v.pois, queue := v.queue } ∧
      (∀ k, v.isPois k = s.isPois k) ∧ ∀ r, r ≠ q → v.getU r = s.getU r
    (¬inRange → exec (.regq p q desc die core pos) s = .next (s.reply p 2)) ∧
    (inRange → s.memSound desc.toNat 128 = true →
      (taken → exec (.regq p q desc die core pos) s = .next (s.reply p 1)) ∧
      (¬taken → ∃ v : State, exec (.regq p q desc die core pos) s = .next (v.reply p 0) ∧ Only v ∧
        v.getU q = ⟨true, p, desc.toNat, die, core, pos, s.readN desc.toNat 9, s.readN (desc.toNat + 12) 1, s.readN (desc.toNat + 13) 1,
          s.readN (desc.toNat + 14) 2, s.readN (desc.toNat + 16) 2, [], [], [], none, u.left⟩ ∧
        v.qState q = 1 ∧ v.qRix q = 0 ∧ v.qTail q = 0 ∧ v.qCseq q = 0 ∧
        ∀ k, (k < desc.toNat + 24 ∨ desc.toNat + 56 ≤ k ∨ (desc.toNat + 41 ≤ k ∧ k < desc.toNat + 48)) → v.byte k = s.byte k)) ∧
    (u.on = true → u.part = p → s.memSound (u.desc + 40) 1 = true →
      ∃ v : State, exec (.destroyq p q) s = .next (v.reply p 0) ∧ Only v ∧ v.getU q = { Queue.none with left := (v.getU q).left } ∧
        (u.left = [] → ∀ j w, (j, w) ∈ (v.getU q).left ↔ ∃ irq l, w = .copy l ∧ (j, irq, w) ∈ u.pend) ∧
        v.byte (u.desc + 40) = 0#8 ∧ ∀ k, k ≠ u.desc + 40 → v.byte k = s.byte k) ∧
    (u.on = false ∨ u.part ≠ p → exec (.destroyq p q) s = .next (s.reply p 1)) ∧
    (2 < mode → exec (.recoverq p q mode) s = .next (s.reply p 2)) ∧
    (mode ≤ 2 → u.on = false ∨ u.part ≠ p ∨ s.qState q ≠ 2 → exec (.recoverq p q mode) s = .next (s.reply p 1)) ∧
    (mode ≤ 2 → u.on = true → u.part = p → s.qState q = 2 → u.fin = [] → s.qRix q ≤ s.qTail q → s.qCseq q ≤ s.qRix q →
      s.memSound (u.desc + 32) 24 = true →
      (∀ j, spaceOf (s.qSlot q j) = 0 ∧ s.memSound (s.qSlot q j) 8 = true ∧ ∀ e ∈ s.queue, e.2.on = true → s.qSlot q j + 64 ≤ e.2.desc ∨ e.2.desc + 128 ≤ s.qSlot q j) →
      let n := if mode = 0 then 0 else if mode = 1 then 1 else s.qTail q - s.qRix q
      ∃ v : State, exec (.recoverq p q mode) s = .next (v.reply p 0) ∧ v.qState q = 1 ∧ v.qRix q = (s.qRix q + n) % 2 ^ 64 ∧ (v.getU q).kept = [] ∧
        v.qTail q = s.qTail q ∧ v.arr = s.arr ∧ v.task = s.task ∧ (∀ r, r ≠ q → v.getU r = s.getU r) ∧
        (s.qCseq q = s.qRix q → s.qRix q + n < 2 ^ 64 → v.qCseq q = s.qRix q + n) ∧ (s.qCseq q < s.qRix q → v.qCseq q = s.qCseq q) ∧
        ∀ j, s.qRix q ≤ j → j < s.qRix q + n → (v.byte (s.qSlot q j + 1)).getLsbD 0 = false ∧ v.byte (s.qSlot q j) = s.byte (s.qSlot q j))

/-- R341, R346, R347: `PARTCFG`, in stage 1 or after a reset of the partition: the dies' partitions, the windows, images, entries and shares; every array has
the entry of its die's partition. `PARTRESET` destroys the partition's queues, fails its tasks and returns it to stage 1. That one
`PARTCFG` sets all four dies and all four partitions, stage 1 included, is log 43 (notes/assumptions/43); two bits a die in DIES are log 18 (notes/assumptions/18).
R275, R276, R297, R306, R311, R341: `PARTPARAM` takes the slice, the re-run limit, the threshold and GATE from its block and sets up a die's fault buffer
that has changed, with WIX, RIX and DROPS 0; out of range it is a bad request, with a task PARKED it is refused.
R263, R290, R291, R341: `QUADPOL` writes a quad's policy, with a hold cap of 0 to 4,096 cycles (a greater one is a bad request), `CTXSET` defines or removes a context, `SHOOT` starts a shoot-down whose reply waits for DONE; each
within its partition. -/
def Obligations.MailboxSettings : Prop :=
  (∀ (s : State) (p : Nat), s.dev.stage ≠ 0#2 → s.hasPart p = true →
     (∀ (dies : BitVec 8) (bar2 : List Nat) (images : List (List W32)) (svecs shares : List Nat),
       let i : Instr := .partcfg p dies bar2 images svecs shares
       (s.dev.stage ≠ 1#2 → (s.getP p).stage1 = false → Answers i s s p 1) ∧
       (s.dev.stage = 1#2 ∨ (s.getP p).stage1 = true → ∃ v, Answers i s v p 0 ∧ v = { s with die := v.die, part := v.part, arr := v.arr } ∧
         (∀ d, d < 4 → v.getD d = { s.getD d with part := (dies.extractLsb' (2 * d) 2).toNat }) ∧
         (∀ e, e < 4 → v.getP e = { s.getP e with
             bar2 := bar2.getD e 0, image := images.getD e [], svec := BitVec.ofNat 32 (svecs.getD e 0), share := shares.getD e 0, stage1 := false }) ∧
         ∀ a, a < 128 → v.getA a = { s.getA a with csr := { (s.getA a).csr with svec := (v.getP (v.getD (a / 32)).part).svec } })) ∧
     (let mine (k : Task) : Prop := ∃ l, s.getL k.launch = some l ∧ l.part = p
      ∃ v, Answers (.partreset p) s v p 0 ∧ (v.getP p).stage1 = true ∧ (v.getP p).replay = none ∧
       (∀ q, (s.getU q).on = true → (s.getU q).part = p → (∀ e ∈ s.queue, ∀ f ∈ s.queue, e.1 = f.1 → e = f) → v.getU q = { Queue.none with left := (v.getU q).left }) ∧
       ((s.task.map (·.1)).Pairwise (· < ·) → (∀ id k, (id, some k) ∈ s.task → mine k → k.st.final = true) → v.arr = s.arr ∧ v.task = s.task) ∧
       ∀ id a k, (s.task.map (·.1)).Pairwise (· < ·) → s.getT id = some k → mine k → k.st = .running → k.arrs = [a] → s.gang k = [(id, k)] →
         (s.getA a).tsk.run = true → (s.getA a).tsk.id = id → (∀ j m, s.getT j = some m → j ≠ id → mine m → m.st.final = true) →
         ∃ k', v.getT id = some k' ∧ k'.st = .failed ∧ k'.arrs = [] ∧ (v.getA a).tsk.run = false)) ∧
  (∀ (s : State) (p : Nat) (addr : Addr), s.dev.stage ≠ 0#2 → s.hasPart p = true →
     let pa := addr.toNat
     let f (off n : Nat) : Nat := s.readN (pa + off) n
     let base (d : Nat) : Nat := f (16 + 16 * d) 9
     let nrec (d : Nat) : Nat := f (28 + 16 * d) 2
     let span (d : Nat) : Nat := 64 + 64 * nrec d
     let inRange : Prop := 1 ≤ f 0 4 ∧ f 0 4 < 2 ^ 24 ∧ f 4 1 ≤ 15 ∧ 1 ≤ f 5 1 ∧ f 6 1 ≤ 1 ∧
       ∀ d ∈ s.partDies p, base d % 64 = 0 ∧ spaceOf (base d) = 0 ∧ dieOf (base d) = d ∧ dieOf (base d + span d - 1) = d ∧ 16 ≤ nrec d ∧
         s.rangeOk p (base d) (span d) false = true
     let parked : Prop := ∃ e k l, (e, some k) ∈ s.task ∧ k.st = .parked ∧ s.getL k.launch = some l ∧ l.part = p
     s.rangeOk p pa 128 false = true → s.memSound pa 128 = true →
     (¬inRange → Answers (.partparam p addr) s s p 2) ∧
     (inRange → parked → Answers (.partparam p addr) s s p 1) ∧
     (inRange → ¬parked → ∃ v : State, exec (.partparam p addr) s = .next (v.reply p 0) ∧
       v = { s with mem := v.mem, pois := v.pois, err := v.err, die := v.die, part := v.part } ∧
       v.getP p = { s.getP p with slice := f 0 4, limit := f 4 1, thresh := f 5 1, gate := f 6 1 == 1 } ∧
       (∀ d ∈ s.partDies p, let e := s.getD d
         (e.fbAddr = base d → e.fbNrec = nrec d → v.getD d = e) ∧
         (e.fbAddr ≠ base d ∨ e.fbNrec ≠ nrec d → v.getD d = { e with fbAddr := base d, fbNrec := nrec d, fpend := false } ∧
           v.readN (base d) 8 = 0 ∧ v.readN (base d + 8) 4 = e.fbgen.toNat ∧ v.readN (base d + 12) 4 = nrec d ∧ v.readN (base d + 16) 4 = 0)) ∧
       ∀ k, (∀ d ∈ s.partDies p, k < base d ∨ base d + 64 ≤ k) → v.byte k = s.byte k)) ∧
  (∀ (s : State) (p : Nat), s.dev.stage ≠ 0#2 → s.hasPart p = true →
     (∀ (die quad qcap : Nat) (xctx men : Bool),
       let i : Instr := .quadpol p die quad xctx men qcap
       let n := 8 * die + quad
       (4 ≤ die ∨ 8 ≤ quad ∨ 4096 < qcap → Answers i s s p 2) ∧
       (die < 4 → quad < 8 → qcap ≤ 4096 → (s.getD die).part ≠ p → Answers i s s p 1) ∧
       (die < 4 → quad < 8 → qcap ≤ 4096 → (s.getD die).part = p → ∃ v : State, exec i s = .next (v.reply p 0) ∧ v = { s with quad := v.quad } ∧
         v.getQ n = { s.getQ n with qcap := qcap, xctx := xctx, men := men } ∧ ∀ e, e ≠ n → v.getQ e = s.getQ e)) ∧
     (∀ (ctx : BitVec 16) (base limit off : BitVec 56) (tlbcfg : Word),
       let set (v : State) (c : Cxt) : Prop := v = { s with cxt := v.cxt } ∧ SMap.get Cxt.none v.cxt (65536 * p + ctx.toNat) = c ∧
         ∀ k, k ≠ 65536 * p + ctx.toNat → SMap.get Cxt.none v.cxt k = SMap.get Cxt.none s.cxt k
       let used : Prop := (∃ e ∈ s.queue, e.2.on = true ∧ e.2.part = p ∧ e.2.ctx = ctx.toNat) ∨
         ∃ e l, (e, some l) ∈ s.launch ∧ l.fin = false ∧ l.part = p ∧ l.ctx = ctx
       (∃ v : State, exec (.ctxset p ctx true base limit off tlbcfg) s = .next (v.reply p 0) ∧ set v ⟨true, base, limit, off, tlbcfg⟩) ∧
       (used → Answers (.ctxset p ctx false base limit off tlbcfg) s s p 1) ∧
       (¬used → ∃ v : State, exec (.ctxset p ctx false base limit off tlbcfg) s = .next (v.reply p 0) ∧ set v Cxt.none)) ∧
     (∀ (dies : BitVec 4) (kind : BitVec 2) (ctx : BitVec 16) (vpn : BitVec 56),
       let i : Instr := .shoot p dies kind ctx vpn
       ((∃ d < 4, dies.getLsbD d = true ∧ (s.getD d).part ≠ p) → Answers i s s p 1) ∧
       ((∀ d < 4, dies.getLsbD d = true → (s.getD d).part = p) → (s.getP p).shoot = false →
         ∃ t, exec i s = .next t ∧ t = { s with arr := t.arr, die := t.die, part := t.part } ∧ t.getP p = { s.getP p with shoot := true } ∧
           (t.getD (s.lead p)).sdKind = kind ∧ (t.getD (s.lead p)).sdCtx = ctx ∧ (t.getD (s.lead p)).sdva = vpn ∧
           (∀ e, e ≠ p → t.getP e = s.getP e) ∧ (∀ a, a ∈ (t.getD (s.lead p)).owed ↔ a / 32 < 4 ∧ dies.getLsbD (a / 32) = true) ∧
           ∀ d, d < 4 → (t.getD d).tgen = if dies.getLsbD d then (s.getD d).tgen + 1 else (s.getD d).tgen) ∧
       ((∀ d < 4, dies.getLsbD d = true → (s.getD d).part = p) → (s.getP p).shoot = true → exec i s = .next s)))

/-- R341, R343, R352: `COUNTERS` writes the counter block and `QUOTE` a quote with the digests measured at boot, or with a zero nonce the two certificates, at the destination; elsewhere
memory is unchanged. That the certificates take 3,072 bytes is the layout of log 9 (notes/assumptions/9): R352 gives no length. -/
def Obligations.MailboxReports : Prop :=
  ∀ (s : State) (p : Nat) (dest : Addr), s.dev.stage ≠ 0#2 → s.hasPart p = true →
    let parts := ((List.range 4).filter fun p => !(s.partDies p).isEmpty).length
    let most := max 9744 (1586 + s.dev.meas.flatten.length + 64 * parts)
    (∀ n, 0 < n → n ≤ most → s.rangeOk p dest.toNat n true = true) → s.memSound dest.toNat most = true →
    (∀ e ∈ s.queue, e.2.on = true → dest.toNat + most ≤ e.2.desc ∨ e.2.desc + 128 ≤ dest.toNat) →
    let Writes (i : Instr) (ok : List Byte → Prop) : Prop := ∃ l v, Answers i s v p 0 ∧ ok l ∧ v = { s with mem := v.mem, pois := v.pois } ∧
      (∀ i < l.length, v.byte (dest.toNat + i) = l.getD i 0#8) ∧
      ∀ k, (k < dest.toNat ∨ dest.toNat + l.length ≤ k) → v.byte k = s.byte k
    (dest.toNat % 64 = 0 → Writes (.counters p dest) fun l => l.length = 9744 ∧ recN l 0 2 = 1 ∧ recN l 2 1 = p % 256 ∧
      recN l 8 8 = (s.getD (s.lead p)).cyc % 2 ^ 64 ∧
      (∀ c < 32, recN l (16 + 8 * c) 8 = SMap.get 0 (s.getP p).reruns c % 2 ^ 64) ∧
      ∀ a < 128, let mine := (s.getD (a / 32)).part = p
        (mine → (∀ b < 64, recN l (1296 + 64 * a + b) 1 = SMap.get 0 (s.getA a).itg.ucnt b % 256) ∧ recN l (9488 + 2 * a) 2 = (s.getA a).itg.gret.toNat ∧
          ∀ n < 16, recN l (272 + 256 * (a / 32) + 16 * n) 8 = SMap.get 0 (s.getD (a / 32)).corr n % 2 ^ 64 ∧
            recN l (280 + 256 * (a / 32) + 16 * n) 8 = SMap.get 0 (s.getD (a / 32)).unc n % 2 ^ 64) ∧
        (¬mine → (∀ b < 64, recN l (1296 + 64 * a + b) 1 = 0) ∧ recN l (9488 + 2 * a) 2 = 0)) ∧
    (∀ nonce : List Byte, nonce.length = 32 → nonce.any (· != 0#8) = true →
      Writes (.quote p nonce dest) fun l => l.length = 1586 + s.dev.meas.flatten.length + 64 * parts ∧
        recN l 0 2 = 1 ∧ recN l 2 2 = (s.dev.meas.length + parts) % 65536 ∧ (l.drop 8).take 32 = nonce ∧
        recN l 40 8 = s.dstat.toNat ∧ (l.drop 48).take s.dev.meas.flatten.length = s.dev.meas.flatten) ∧
    Writes (.quote p (List.replicate 32 0#8) dest) fun l => l.length = 3072

/-! ## The host, registers, links and bring-up (R6, R290, R306, R315, R339, R340, R344, R345, R350-R354) -/

/-- R6, R290, R306, R340: writes of device registers. A 1 clears a bit of ERRDEV, MBDEV or FBDEV; GO of a shoot-down or of a retirement starts it; while GO
reads 1 another write is ignored. Firmware reads SDCTL, SDVA and BRETCTL back with GO, DONE, the generation and the retired groups.
The error ring's RIX has 32 bits: log 57 (notes/assumptions/57).
R319, R340, R353: an access to this device's own register block reads or writes the register at the offset; a block of no device of the group reads 0 and
ignores writes; what another device of the group reads is a free value (log 4, notes/assumptions/4), in no register of this one. -/
def Obligations.DeviceRegisters : Prop :=
  (∀ (s : State) (v : Word),
     let Dev (r : DevReg) (d : Dev) : Prop := exec (.registerWrite r v) s = .next { s with dev := d }
     Dev .errdev { s.dev with errdev := s.dev.errdev &&& ~~~v } ∧ Dev .mbdev { s.dev with mbdev := s.dev.mbdev &&& ~~~v } ∧
     Dev .fbdev { s.dev with fbdev := s.dev.fbdev &&& ~~~v } ∧ Dev .errRix { s.dev with ringRix := v.extractLsb' 0 32 } ∧
     (∀ d, d < 4 →
       (∃ t, exec (.registerWrite (.sdva d) v) s = .next t ∧ t = { s with die := t.die } ∧ (∀ e, e ≠ d → t.getD e = s.getD e) ∧
         t.getD d = { s.getD d with sdva := v.extractLsb' 0 56 }) ∧
       (s.readM (.sdva d)).extractLsb' 0 56 = (s.getD d).sdva ∧ (s.readM (.sdva d)).extractLsb' 56 8 = 0#8 ∧
       (let w := s.readM (.sdctl d)
        w.extractLsb' 0 16 = (s.getD d).sdCtx ∧ w.extractLsb' 16 2 = 0#2 ∧ w.extractLsb' 18 2 = (s.getD d).sdKind ∧ w.extractLsb' 20 4 = (s.getD d).sdDies ∧
        w.getLsbD 24 = (s.getD d).sdGo ∧ w.getLsbD 25 = (s.getD d).sdDone ∧ w.extractLsb' 26 6 = 0#6 ∧ w.extractLsb' 32 32 = (s.getD d).tgen) ∧
       ((s.getD d).sdGo = true → exec (.registerWrite (.sdctl d) v) s = .next s) ∧
       ((s.getD d).sdGo = false → ∃ t, exec (.registerWrite (.sdctl d) v) s = .next t ∧ t = { s with die := t.die, agenda := t.agenda } ∧
         (∀ e, e ≠ d → t.getD e = s.getD e) ∧
         t.getD d = { s.getD d with sdDies := v.extractLsb' 20 4, sdKind := v.extractLsb' 18 2, sdCtx := v.extractLsb' 0 16, sdGo := v.getLsbD 24 } ∧
         t.agenda = if v.getLsbD 24 then .shootdownStart d (v.extractLsb' 20 4) (v.extractLsb' 18 2) (v.extractLsb' 0 16) (s.getD d).sdva :: s.agenda
           else s.agenda)) ∧
     (∀ a, a < 128 →
       (let w := s.readM (.bretctl a)
        w.extractLsb' 0 6 = (s.getA a).itg.bank ∧ w.extractLsb' 6 10 = 0#10 ∧ w.getLsbD 16 = (s.getA a).itg.go ∧ w.extractLsb' 17 31 = 0#31 ∧
        w.extractLsb' 48 16 = (s.getA a).itg.gret) ∧
       ((s.getA a).itg.go = true → exec (.registerWrite (.bretctl a) v) s = .next s) ∧
       ((s.getA a).itg.go = false → ∃ t, exec (.registerWrite (.bretctl a) v) s = .next t ∧ t = { s with arr := t.arr, agenda := t.agenda } ∧
         (∀ b, b ≠ a → t.getA b = s.getA b) ∧ t.getA a = { s.getA a with itg := { (s.getA a).itg with bank := v.extractLsb' 0 6, go := v.getLsbD 16 } } ∧
         t.agenda = if v.getLsbD 16 then .bankRetire a (v.extractLsb' 0 6) :: s.agenda else s.agenda)) ∧
     ∀ f, (∀ off, off ≤ 56 → ∃ t, exec (.registerWrite (.mboxReq f off) v) s = .next t ∧ t = { s with part := t.part } ∧
         (∀ k, SMap.get 0#8 (t.getP f).mbReq k = if off ≤ k ∧ k < off + 8 then v.extractLsb' (8 * (k - off)) 8 else SMap.get 0#8 (s.getP f).mbReq k)) ∧
       (v = 1#64 → ∃ t, exec (.registerWrite (.mbdoor f) v) s = .next t ∧ t = { s with part := t.part } ∧ t.getP f = { s.getP f with mbDoor := true } ∧
         ∀ e, e ≠ f → t.getP e = s.getP e) ∧
       (v ≠ 1#64 → exec (.registerWrite (.mbdoor f) v) s = .next s)) ∧
  (∀ (s : State) (f off : Nat) (v : Word),
     let d := s.dev
     let get (n : Nat) : Instr := .registerBlockAccess n f false off v
     let put (n : Nat) : Instr := .registerBlockAccess n f true off v
     (∀ n, d.group ≤ n → n ≠ d.self → exec (put n) s = .next s ∧ exec (get n) s = .next { s with dev := { d with hostVal := 0 } }) ∧
     (∀ n, n < d.group → n ≠ d.self → exec (put n) s = .next s ∧
       exec (get n) s = .next { s with free := s.free + 1, dev := { d with hostVal := Config.freeWord s.free } }) ∧
     (d.self < d.group → s.hasPart f = true → off % 8 = 0 →
       let Reads (w : Word) : Prop := exec (get d.self) s = .next { s with dev := { d with hostVal := w } }
       (off = 0x08 → d.self = 0 → Reads d.errdev) ∧ (off = 0x10 → d.self = 0 → Reads d.mbdev) ∧ (off = 0x18 → d.self = 0 → Reads d.fbdev) ∧
       (off = 0x110 → Reads (d.ringWix.setWidth 64)) ∧ (off = 0x118 → Reads (d.ringRix.setWidth 64)) ∧
       (off = 0x1080 → Reads (if (s.getP f).mbDoor then 1#64 else 0#64)) ∧
       (∀ q, q < 256 → off = 0x100000 + 8 * q → (s.getU q).on = true → (s.getU q).part = f → Reads (BitVec.ofNat 64 (s.qTail q))) ∧
       (off = 0 → (∀ i < 4, (s.getD i).part < 4 ∧ (s.getD i).thr ≤ 4) → ∃ w, Reads w ∧ w.extractLsb' 0 2 = d.stage ∧ w.getLsbD 3 = d.bootErr ∧
         (w.getLsbD 32 = true ↔ d.ringWix ≠ d.ringRix) ∧ w.extractLsb' 33 31 = 0#31 ∧
         ∀ i < 4, w.getLsbD (4 + i) = (s.getD i).svc ∧ (w.extractLsb' (8 + 2 * i) 2).toNat = (s.getD i).part ∧
           (w.extractLsb' (20 + 3 * i) 3).toNat = (s.getD i).thr) ∧
       (off = 0 ∨ off = 0x110 → exec (put d.self) s = .next s) ∧
       (off = 0x118 → exec (put d.self) s = exec (.registerWrite .errRix v) s) ∧
       (off = 0x08 → d.self = 0 → exec (put d.self) s = exec (.registerWrite .errdev v) s) ∧
       (off = 0x1080 → exec (put d.self) s = exec (.registerWrite (.mbdoor f) v) s) ∧
       (∀ q, q < 256 → off = 0x100000 + 8 * q → exec (put d.self) s = exec (.doorbell f q v) s)))

/-- R243, R319, R339: the host's accesses through BAR2. A read answers with the bytes at its offset. An AtomicOp adds, swaps or compares and swaps the 64-bit word at its offset and returns the old value; a
write stores its bytes. A whole write of a registered queue's TAIL is applied as the maximum.
R316, R317, R337, R347, in stage 3, in a KIND 3 slot, with no uncorrectable vault event: samples too hot, a voltage below 97 % or a partition above its
share ask the die's clock to step down; sixteen good samples below 95 % of the share ask it to step up. At 110 °C the die leaves service as well, with an
error record, and its tasks are asked to stop. What of a sample the host gives, and its units, are the model's choice (log 42). -/
def Obligations.HostAndMonitors : Prop :=
  (∀ (s : State) (f off : Nat) (op : Byte) (x y : Word) (l : List Byte) (pa : Nat),
     (s.bar2 f off 8 = some pa → off % 8 = 0 → op.toNat ≤ 2 → s.memSound pa 8 = true →
       (∀ e ∈ s.queue, e.2.on = true → pa + 8 ≤ e.2.desc ∨ e.2.desc + 128 ≤ pa) →
       let old : Word := BitVec.ofNat 64 (s.readN pa 8)
       ∃ t w, exec (.hostAtomicop f off op x y) s = .next t ∧ t.dev.hostVal = old ∧ t.arr = s.arr ∧ t.queue = s.queue ∧ t.task = s.task ∧
         (∀ i < 8, t.byte (pa + i) = (leBytes 8 w).getD i 0#8) ∧ (∀ k, (k < pa ∨ pa + 8 ≤ k) → t.byte k = s.byte k) ∧
         (s.dev.self = 0 → t = { s with mem := t.mem, pois := t.pois, dev := { s.dev with hostVal := old } }) ∧
         (op = 0#8 → w = (old + x).toNat) ∧ (op = 1#8 → w = x.toNat) ∧ (op = 2#8 → w = if old = x then y.toNat else old.toNat)) ∧
     (∀ n, s.bar2 f off n = some pa → s.memSound pa n = true →
       (s.hostRead pa n).1 = s.readN pa n ∧ (s.hostRead pa n).2.1 = s.poisN pa n ∧
       (s.dev.self = 0 → (s.hostRead pa n).2.2 = { s with dev := { s.dev with hostVal := BitVec.ofNat 64 (s.readN pa n) } })) ∧
     (s.bar2 f off l.length = some pa → s.memSound pa l.length = true →
       ((∀ e ∈ s.queue, e.2.on = true → pa + l.length ≤ e.2.desc ∨ e.2.desc + 128 ≤ pa) →
         ∃ m, exec (.hostBar2Write f off l) s = .next m ∧ WritesAt s m pa l) ∧
       (∀ q v, s.queue.filter (fun e => e.2.on) = [(q, s.getU q)] → (s.getU q).on = true → pa = (s.getU q).desc + 24 → l = leBytes 8 v → v < 2 ^ 64 →
         ∃ m, exec (.hostBar2Write f off l) s = .next m ∧ m.qTail q = max (s.qTail q) v ∧
           ∀ k, (k < pa ∨ pa + 8 ≤ k) → m.byte k = s.byte k)) ∧
     (s.bar2 f off 8 = none → exec (.hostAtomicop f off op x y) s = .next s) ∧ (s.bar2 f off l.length = none → exec (.hostBar2Write f off l) s = .next s)) ∧
  (∀ (s : State) (die power : Nat) (temps volts : List Nat), die < 4 → s.dev.stage = 3#2 →
     let d := s.getD die
     let share := (s.getP d.part).share
     let cap := if share = 0 then 2400 else share
     let i : Instr := .monitorSlot die temps volts power
     let step := d.thrReq.getD d.thr
     let asks (n g : Nat) : Die := { d with thrReq := if d.thr = n then none else some n, good := g }
     let Only (e : Die) : Prop := ∃ t, exec i s = .next t ∧ t = { s with die := t.die } ∧ t.getD die = e ∧ ∀ n, n ≠ die → t.getD n = s.getD n
     (s.hasKind die 3 = false → exec i s = .next s) ∧
     (s.hasKind die 3 = true → SMap.get 0 d.unc 3 = 0 →
       ((∀ x ∈ temps, x < 110) ∨ d.svc = false → (∃ x ∈ temps, 95 ≤ x) ∨ (∃ x ∈ volts, x < 970) ∨ cap < power → Only (asks (min 4 (step + 1)) 0)) ∧
       ((∀ x ∈ temps, x ≤ 90) → (∀ x ∈ volts, 1000 ≤ x) → power ≤ cap →
         (15 ≤ d.good → 100 * power < 95 * cap → Only (asks (step - 1) 0)) ∧
         (d.good < 15 ∨ 95 * cap ≤ 100 * power → Only { d with good := d.good + 1 })) ∧
       ((∀ x ∈ temps, x < 95) → (∀ x ∈ volts, 970 ≤ x) → power ≤ cap → (∃ x ∈ temps, 90 < x) ∨ (∃ x ∈ volts, x < 1000) → Only { d with good := 0 }) ∧
       ((∃ x ∈ temps, 110 ≤ x) → d.svc = true → ∃ t, exec i s = .next t ∧ t.getD die = { asks (min 4 (step + 1)) 0 with svc := false } ∧
         t.dev.ringWix = s.dev.ringWix + 1 ∧ t = { s with arr := t.arr, die := t.die, mem := t.mem, pois := t.pois, err := t.err, dev := t.dev } ∧ (∀ n, n ≠ die → t.getD n = s.getD n) ∧
         ∀ a id k, a / 32 = die → s.runs a = some k → (a, id) ∈ s.gangArrs k → (s.getA a).tsk.stop = .no →
           if (s.getA a).tsk.rank ≠ 0 ∧ (s.getA a).atS = false then (t.getA a).tsk.stop = .preempt else (t.getA a).csr.preq = true)))

/-- R315, R344, R345, R350: a flit replayed well counts a correction, a sixteenth failure in a row retrains the port; a third retraining that fails takes it
down and out of every mask; a Clos flit is corrected below eight attempts and otherwise delivered poisoned; an expander that fails is recorded. -/
def Obligations.LinksFail : Prop :=
  (∀ (s : State) (port ch : Nat), port < 16 → ch < 4 → (s.getPort port).down = false → (s.getPort port).training = false →
    let p := s.getPort port
    let Only (good : Bool) (q : Port) : Prop := ∃ t, exec (.flitReplay port ch good) s = .next t ∧ t.mem = s.mem ∧ t.arr = s.arr ∧ t.getPort port = q ∧
      (∀ n, n ≠ port → t.getPort n = s.getPort n) ∧ t.dev.routes = s.dev.routes ∧
      SMap.get 0 (t.getD (port / 4)).corr 8 = SMap.get 0 (s.getD (port / 4)).corr 8 + (if good then 1 else 0)
    Only true { p with fails := 0 } ∧ (p.fails < 15 → Only false { p with fails := p.fails + 1 }) ∧
    (15 ≤ p.fails → Only false { p with fails := 0, training := true })) ∧
  (∀ (s : State) (port : Nat), port < 16 → (s.getPort port).down = false →
    let p := s.getPort port
    (∃ t, exec (.linkRetrain port true) s = .next t ∧ t = { s with dev := t.dev } ∧ t.getPort port = { p with training := false, retrains := 0, fails := 0 } ∧
      t.dev.routes = s.dev.routes) ∧
    (p.retrains < 2 → ∃ t, exec (.linkRetrain port false) s = .next t ∧ t = { s with dev := t.dev } ∧
      t.getPort port = { p with training := true, retrains := p.retrains + 1 } ∧ t.dev.routes = s.dev.routes) ∧
    (2 ≤ p.retrains → ∃ t, exec (.linkRetrain port false) s = .next t ∧ (t.getPort port).down = true ∧ (t.getPort port).buf = [] ∧
      ((∀ e ∈ s.arr, e.2.cpy.cmds = [] ∧ e.2.cpy.ni = []) → t.arr = s.arr) ∧
      (∀ g, g < 64 → SMap.get 0 t.dev.routes g = SMap.get 0 s.dev.routes g &&& ~~~BitVec.ofNat 16 (2 ^ port)) ∧
      (∀ n, n ≠ port → t.getPort n = s.getPort n))) ∧
  (∀ (s : State) (key attempts : Nat), spaceOf key < 2 → dieOf key < 4 →
    let k := key - key % 16
    (attempts < 8 → ∃ t, exec (.closRetransmit key attempts) s = .next t ∧ t = { s with die := t.die } ∧
      SMap.get 0 (t.getD (dieOf key)).corr 4 = SMap.get 0 (s.getD (dieOf key)).corr 4 + 1) ∧
    (8 ≤ attempts → ∃ t, exec (.closRetransmit key attempts) s = .next t ∧ t.arr = s.arr ∧ (∀ i < 16, t.isPois (k + i) = true) ∧
      (∀ j, granule j ≠ granule k → t.isPois j = s.isPois j) ∧ t.dev.ringWix = s.dev.ringWix + 1 ∧
      SMap.get 0 (t.getD (dieOf key)).unc 4 = SMap.get 0 (s.getD (dieOf key)).unc 4 + 1)) ∧
  (∀ (s : State) (die : Nat), die < 4 → (s.getD die).expOk = true →
    ∃ t, exec (.expanderFailure die) s = .next t ∧ t.arr = s.arr ∧ t.getD die = { s.getD die with expOk := false } ∧
      (∀ n, n ≠ die → t.getD n = s.getD n) ∧ t.dev.ringWix = s.dev.ringWix + 1)

/-- R337, R351, R353, R354: reset and bring-up. A stage-1 image whose digest is not the one in the OTP, or that the flash does not give as it is stored, leaves the device in stage 0 with BOOTERR; one that has it
brings stage 1, with the Almanacs of the images that pass, no queue, launch or task and every array as at reset, while stored memory stays but for the fault
buffers' headers and the error ring (where they lie: the model's choice, log 5). The first die to pass its checks brings stage 2 at step 4, CD0 if it passes;
the last brings stage 3, in which every die that passed goes to step 0. That the routing table outlives the reset is log 6 (notes/assumptions/6), and that every
loaded Almanac keeps R337 rests on log 9 (notes/assumptions/9). -/
def Obligations.BringUp : Prop :=
  (∀ (s : State) (intact : Bool), ∃ t, exec (.deviceReset intact) s = .next t ∧ t.arr = State.reset.arr ∧ t.queue = [] ∧ t.task = [] ∧ t.launch = [] ∧ t.cxt = [] ∧
    (∀ p, t.getP p = Part.reset) ∧ t.now = s.now ∧ t.dev.routes = s.dev.routes ∧
    (intact = false ∨ digest Config.stage1Image ≠ Config.otpStage1 → t.dev.stage = 0#2 ∧ t.dev.bootErr = true ∧ t.mem = s.mem) ∧
    (intact = true → digest Config.stage1Image = Config.otpStage1 → t.dev.stage = 1#2 ∧ t.dev.bootErr = false ∧
      (∀ die core, t.almanac die core = Almanac.none ∨ (t.almanac die core).ok = true) ∧
      ∀ k, (∀ d < 4, k < (t.getD d).fbAddr ∨ (t.getD d).fbAddr + 64 ≤ k) → (k < stage1Ring ∨ stage1Ring + 4096 ≤ k) → t.byte k = s.byte k)) ∧
  (∀ (s : State) (die : Nat) (good : Bool), die < 4 →
    let i : Instr := .dieChecksComplete die good
    (s.dev.stage = 0#2 ∨ (∃ d ∈ s.dev.checked, d % 4 = die) → exec i s = .next s) ∧
    (s.dev.stage = 1#2 → s.dev.checked = [] → good = true → die = 0 →
      ∃ t, exec i s = .next t ∧ t = { s with dev := { s.dev with stage := 2, checked := [0], first := some 0 }, die := t.die } ∧
        t.getD 0 = { s.getD 0 with svc := true, thr := 4 } ∧ ∀ e, e ≠ 0 → t.getD e = s.getD e) ∧
    (s.dev.stage = 1#2 → s.dev.checked = [] → good = true → die ≠ 0 → exec i s = .next { s with dev := { s.dev with checked := [die] } }) ∧
    (s.dev.stage = 2#2 → s.dev.checked.length = 3 → (∀ d ∈ s.dev.checked, d % 4 ≠ die) → (0 ∈ s.dev.checked ∨ 4 ∈ s.dev.checked) →
      (∃ d ∈ s.dev.checked, d < 4) → (∀ d ∈ s.dev.checked, d < 8) → ∃ t, exec i s = .next t ∧ t.dev.stage = 3#2 ∧ t.arr = s.arr ∧
        ∀ d, d < 4 → t.getD d = if (d ∈ s.dev.checked ∨ (good = true ∧ d = die)) then
          { s.getD d with svc := true, thrReq := if (s.getD d).thr = 0 then none else some 0 } else s.getD d))
/-! ## Traps, guards and register checks (R24, R59, R60, R72, R75, R76, R100, R222, R259-R264) -/

/-- R24, R260-R264: what a precise trap does to its array. At U outside a chain a cause that does not kill enters S: `xcause`, `xpc` and `xinfo` are written, PPRV
becomes U and PRV S, and issue goes on at SVEC at T + 2. Otherwise the sequencer stops with the cause; nothing else of the array changes. -/
def Obligations.TrapEntry : Prop :=
  ∀ (x : Arr) (now len : Nat) (pc : BitVec 32) (t : Trap), t.cause ≠ .asyncmat → t.cause ≠ .msdc →
    let info : Word := BitVec.ofNat 64 (t.detail * 2 ^ 16 + t.opnd % 256 * 2 ^ 8 + len % 16 * 2 ^ 4 + t.slot % 8)
    let y := x.trap now len pc t
    (x.csr.prv = 0#2 → t.cause.kills = false → x.tsk.chain = false → y = { x with
      csr := { x.csr with xcause := BitVec.ofNat 8 t.cause.code, xpc := pc, xinfo := info, pprv := 0#2, prv := 1#2 },
      sca := { x.sca with pc := x.csr.svec &&& 0xFFFF_FFFC#32, far := false, readyAt := now + 2 } }) ∧
    (x.csr.prv = 0#2 → (t.cause.kills = true ∨ x.tsk.chain = true) → y = { x with tsk := { x.tsk with stop := .kill t.cause.code info pc false } }) ∧
    (x.csr.prv ≠ 0#2 → y = { x with tsk := { x.tsk with stop := .kill t.cause.code info pc true } })

/-- R59, R60, R72, R75, R76: the checks of a slot's registers and guard, for an add, an address add and two vector adds. A register beyond the allocation raises
INVREG even where the guard is 0; a guard that is poisoned raises POISONKILL; a guard that is 0 squashes the slot; a source never written raises INVREG; a
check copy without its primary is BUNDLE. -/
def Obligations.RegistersAndGuardsAreChecked : Prop :=
  ∀ (s : State) (p : BitVec 3) (d a b : R6) (e f : BitVec 4),
    let x := s.here
    let g : SG := ⟨false, p⟩
    let v : VG := ⟨0, false, none⟩
    let room : Prop := (RR.s d).unalloc x = false ∧ (RR.s a).unalloc x = false ∧ (RR.s b).unalloc x = false
    let Nothing (i : Instr) : Prop := ∃ t, exec i s = .next t ∧ Issued s t (x.began s.now 4 0 1 false)
    s.regsSound = true →
    (((RR.s d).unalloc x = true → Traps (.add g d a b) s 4 ⟨.invreg, 1, d.toNat, 0⟩) ∧
     ((RR.s d).unalloc x = false → (RR.s a).unalloc x = true → Traps (.add g d a b) s 4 ⟨.invreg, 1, a.toNat, 0⟩) ∧
     (room → x.pPois p = true → (RR.s a).invalid x = false → (RR.s b).invalid x = false → Traps (.add g d a b) s 4 ⟨.poisonkill, 1, 0, 0⟩) ∧
     (room → x.pGet p = false → x.pPois p = false → Nothing (.add g d a b)) ∧
     (room → x.open_ p = true → (RR.s a).invalid x = true → Traps (.add g d a b) s 4 ⟨.invreg, 1, a.toNat, 0⟩) ∧
     (room → x.open_ p = true → (RR.s a).invalid x = false → (RR.s b).invalid x = false → (RR.s a).splitBad x = true →
       Traps (.add g d a b) s 4 ⟨.pipechk, 1, 0, 0⟩) ∧
     Traps (.add ⟨true, p⟩ d a b) s 4 ⟨.bundle, 1, 0, 0⟩) ∧
    (x.open_ p = true → (RR.s b).unalloc x = false → (RR.a f).invalid x = true → Traps (.adda g e f b) s 4 ⟨.invreg, 1, f.toNat, 1⟩) ∧
    (∀ t : VT, ((RR.v d).unalloc x = true → Traps (.vadd v t d a b) s 4 ⟨.invreg, 1, d.toNat, 3⟩) ∧
      ((RR.v d).unalloc x = false → (RR.v a).unalloc x = false → (RR.v b).unalloc x = false → (RR.v a).invalid x = true →
        Traps (.vadd v t d a b) s 4 ⟨.invreg, 1, a.toNat, 3⟩) ∧
      Traps (.vadd ⟨0, true, none⟩ t d a b) s 4 ⟨.bundle, 1, 0, 0⟩)

/-- R49, R58, R75, R220, R222: a bundle of a slot and its check copy. The copy writes no register and contributes no status flag. A `.dup` copy sets the mismatch bit
of the destination where the second unit's result differs, a `.shd` copy marks the destination split with what its check bits then find; of a predicate it
raises ILLOP. A vector copy enters the wavefront beside its primary; its rows write nothing, and its last one sets the mismatch bit at T + 18 + L. The second
unit's error is `chkErr` (notes/assumptions/10); `sh0` to `sh7` and `p0` have no mismatch bit (notes/assumptions/62). -/
def Obligations.CheckCopies : Prop :=
  (∀ (s : State) (p : BitVec 3),
    let x := s.here
    let err := x.sca.chkErr
    let Pair (shd vec : Bool) (i j : Instr) : Prop :=
      hdrWord ⟨0, 0, false, false, shd && vec, shd && !vec⟩ :: (encode i ++ encode j ++ [setStop 0x0040_0000#32]) <+: s.fetchWords x
    let Done (shd vec : Bool) (f : Arr → Arr) : Prop :=
      ∃ t, exec (.bundleIssue ⟨0, 0, false, false, shd && vec, shd && !vec⟩) s = .next t ∧ Issued s t (f (x.began s.now 4 (if vec then 2 else 0) 0 true))
    let copy (l : Nat) (w : Wr) (y : Arr) : Arr := y.push (s.now + l) (ordOf s.now 2) w
    -- a result of latency l, its mismatch bit and its check bits
    let Copied (i j : Instr) (l : Nat) (f : Arr → Arr) (mm : Wr) (split : Option Wr) : Prop :=
      (Pair false false i j → Done false false fun y => if err = 0#64 then f y else copy l mm (f y)) ∧
      (Pair true false i j → match split with
        | some w => Done true false fun y => copy l w (f y)
        | none => Traps (.bundleIssue ⟨0, 0, false, false, false, true⟩) s 4 ⟨.illop, 2, 0, 0⟩)
    (∀ d a b : R6, s.readyS ⟨false, p⟩ [.s d, .s a, .s b] [.s a, .s b] = true →
      let v : PV := ⟨(x.sGet a).v + (x.sGet b).v, (x.sGet a).p || (x.sGet b).p⟩
      let k : RCtl := ⟨Rm.of (x.sca.fpcsr.extractLsb' 0 2), x.sca.fpcsr.getLsbD 2, x.sca.fpcsr.getLsbD 4⟩
      let r := fmt64.add k (x.sGet a).v.toNat (x.sGet b).v.toNat
      let z : PV := ⟨BitVec.ofNat 64 r.1, v.p⟩
      (x.inHandler = false ∨ d.toNat < 56 →
        Copied (.add ⟨false, p⟩ d a b) (.add ⟨true, p⟩ d a b) 1 (fun y => y.putS s.now 1 d v) (.mmS d.toNat) (some (.ssplit d.toNat (decide (err ≠ 0#64)))) ∧
        Copied (.fadd ⟨false, p⟩ true d a b) (.fadd ⟨true, p⟩ true d a b) 4 (fun y => (y.putS s.now 4 d z).putF s.now 4 r.2) (.mmS d.toNat)
          (some (.ssplit d.toNat (decide (err ≠ 0#64))))) ∧
      (x.inHandler = true → 56 ≤ d.toNat → ∀ shd, Pair shd false (.add ⟨false, p⟩ d a b) (.add ⟨true, p⟩ d a b) → Done shd false fun y => y.putS s.now 1 d v)) ∧
    (∀ (d a : BitVec 4) (b : R6), s.readyS ⟨false, p⟩ [.a d, .a a, .s b] [.a a, .s b] = true →
      Copied (.adda ⟨false, p⟩ d a b) (.adda ⟨true, p⟩ d a b) 1
        (fun y => y.putA s.now d ⟨BitVec.ofInt 72 ((x.aGet a).v.toNat + (x.sGet b).v.toInt), (x.aGet a).p || (x.sGet b).p⟩)
        (.mmA d.toNat) (some (.asplit d.toNat (decide (err ≠ 0#64))))) ∧
    (∀ (d : BitVec 3) (a b : R6), s.readyS ⟨false, p⟩ [.p d, .s a, .s b] [.s a, .s b] = true →
      let f (y : Arr) : Arr := y.putP s.now 1 d (decide ((x.sGet a).v = (x.sGet b).v)) ((x.sGet a).p || (x.sGet b).p)
      (d ≠ 0#3 → Copied (.cmp ⟨false, p⟩ .eq d a b) (.cmp ⟨true, p⟩ .eq d a b) 1 f (.mmP d.toNat) none) ∧
      (d = 0#3 → Pair false false (.cmp ⟨false, p⟩ .eq d a b) (.cmp ⟨true, p⟩ .eq d a b) → Done false false f)) ∧
    ∀ (t : VT) (sp : BitVec 2) (d a b : R6) (shd : Bool), s.readyV ⟨sp, false, none⟩ [.v d, .v a, .v b] [.v a, .v b] = true →
      Pair shd true (.vadd ⟨sp, false, none⟩ t d a b) (.vadd ⟨sp, true, none⟩ t d a b) →
      let cap := s.cap ⟨sp, false, none⟩ s.marks PV.zero 0 ShE.zero
      Done shd true fun y => (y.wave (.vadd ⟨sp, false, none⟩ t d a b) cap [.v d]).modCel fun e =>
        { e with waves := e.waves ++ [⟨.vadd ⟨sp, true, none⟩ t d a b, { cap with slot := 2, dup := if shd then 2 else 1 }, [], 0#7, false⟩] }) ∧
  (∀ (s : State) (t : VT) (g : VG) (d a b : R6) (w : Wave), w.ins = .vadd g t d a b → w.cap.t < s.now → s.now ≤ w.cap.t + 16 →
    let x := s.here
    let c := w.cap
    let k : RowCtx := ⟨s, s.cur, x, s.now, s.now - c.t - 1⟩
    let l := 2
    let err : Bool := x.sca.chkErr.extractLsb' 0 32 != 0#32
    let runs := (actCells k c).filter fun e => e.2.1
    let r := rowStep s.cur s.now x w s
    let Only (f : Arr → Arr) : Prop := r.1 = { s with arr := r.1.arr } ∧ ∀ n, r.1.getA n = if n = s.cur then f x else s.getA n
    (rowOf w.ins w.gath k c).bad = false →
      (c.dup = 1 → r.2.mis = (w.mis || (err && !runs.isEmpty)) ∧
        (s.now = c.t + 16 → r.2.mis = true → Only fun y => y.push (c.t + 18 + l) (ordOf c.t c.slot) (.mmV (vphys c.rrb d))) ∧
        (s.now < c.t + 16 ∨ r.2.mis = false → Only id)) ∧
      (c.dup = 2 → Only fun y => y.push (s.now + l) (ordOf c.t c.slot) (.vsplit (vphys c.rrb d) (runs.map (·.1)) err))) ∧
  ∀ (x : Arr) (n : Nat),
    (x.apply (.mmS n)).sca = { x.sca with smm := bitSet x.sca.smm n true } ∧ (x.apply (.mmA n)).sca = { x.sca with amm := bitSet x.sca.amm n true } ∧
    (x.apply (.mmP n)).sca = { x.sca with pmm := bitSet x.sca.pmm n true } ∧ (x.apply (.mmV n)).cel = { x.cel with vmm := bitSet x.cel.vmm n true } ∧
    (∀ fail, (x.apply (.ssplit n fail)).sca = { x.sca with ssplit := bitSet x.sca.ssplit n true, sfail := bitSet x.sca.sfail n fail } ∧
      (x.apply (.asplit n fail)).sca = { x.sca with asplit := bitSet x.sca.asplit n true, afail := bitSet x.sca.afail n fail }) ∧
    ∀ v : PV, (x.apply (.s n v)).sca.ssplit = bitSet x.sca.ssplit n false

/-- R76, R100, R145, R191: the checks of an own-scratchpad access, in their order, for `LD` and `ST`: a poisoned address, alignment, bounds, a tile the engines
own, and for a load a tile without valid contents. None of the access happens. -/
def Obligations.AccessesAreChecked : Prop :=
  ∀ (s : State) (g : SG) (w : BitVec 2) (d : R6) (a : BitVec 4) (off : Imm 28),
    let x := s.here
    let n := 2 ^ w.toNat
    let ea : Addr := BitVec.ofInt 72 ((x.aGet a).v.toNat + off.v.toInt * 2 ^ w.toNat)
    let o := x.spOff ea
    let Ld (c : Cause) (opnd : Nat) : Prop := s.readyS g [.s d, .a a] [.a a] = true → Traps (.ld g w d a off) s 4 ⟨c, 1, opnd, 0⟩
    let Both (c : Cause) (opnd : Nat) : Prop := Ld c opnd ∧
      (s.readyS g [.s d, .a a] [.a a, .s d] = true → Traps (.st g w d a off) s 4 ⟨c, 1, opnd, 0⟩)
    ((x.aGet a).p = true → Both .poisonkill 0) ∧
    ((x.aGet a).p = false → (ea.toNat % n ≠ 0 → Both .align 0) ∧
      (ea.toNat % n = 0 → (x.tsk.ownOff 0 ea = none ∨ x.tsk.inAlloc o n = false → Both .bounds 0xFF) ∧
        (x.tsk.ownOff 0 ea ≠ none → x.tsk.inAlloc o n = true → (x.anyEngine (x.tilesOf o n) = true → Both .tbusy 0) ∧
          (x.anyEngine (x.tilesOf o n) = false → x.anyInvalid (x.tilesOf o n) = true → Ld .invtile 0))))

/-- R193: `TOWN.rel` and `TOWN.clm` clear and set the valid bit of the tile whose handle is in sa; the bytes and their poison stay. A tile the engines own raises
TBUSY, a handle beyond the last tile BOUNDS. -/
def Obligations.TileOwnership : Prop :=
  ∀ (s : State) (g : CG) (a : R6),
    let x := s.here
    let e := if g.gx.isSome then 1 else 0
    let v := (x.sGet a).v.toNat
    s.readyC g [.s a] [.s a] = true → (x.sGet a).p = false →
    let Both (c : Cause) (opnd : Nat) : Prop := Traps (.townRel g a) s (max 4 (2 + e)) ⟨c, 1, opnd, 0⟩ ∧
      Traps (.townClm g a) s (max 4 (2 + e)) ⟨c, 1, opnd, 0⟩
    (v < x.ntiles → x.cpy.own.getLsbD v = false →
      Executes (.townRel g a) s e 0 (fun y => y.modCpy fun z => { z with tv := bitSet z.tv v false }) ∧
      Executes (.townClm g a) s e 0 (fun y => y.modCpy fun z => { z with tv := bitSet z.tv v true })) ∧
    (v < x.ntiles → x.cpy.own.getLsbD v = true → Both .tbusy 0) ∧
    (x.ntiles ≤ v → Both .bounds 0xFF)

/-- R123: `VAND`, `VOR`, `VXOR` and `VNOT` act on all 32 bits of the element: row r writes the executing cells of the destination at T + 1 + r + 2 and raises no flag. -/
def Obligations.VectorBitwise : Prop :=
  ∀ (k : RowCtx) (c : Cap) (g : VG) (d a b : R6),
    let va (i : Nat) := (rdEl k c a i).1
    let vb (i : Nat) := (rdEl k c b i).1
    let p1 (i : Nat) := (rdEl k c a i).2.1
    let p2 (i : Nat) := p1 i || (rdEl k c b i).2.1
    let Row (i : Instr) (v : Nat → W32 × Bool) : Prop := (rowOf i [] k c).fl = 0#7 ∧
      (rowOf i [] k c).wr = [(c.t + 1 + k.r + 2, .v (vphys c.rrb d) (cellWrites (actCells k c) v))]
    Row (.vand g d a b) (fun i => (va i &&& vb i, p2 i)) ∧ Row (.vor g d a b) (fun i => (va i ||| vb i, p2 i)) ∧
    Row (.vxor g d a b) (fun i => (va i ^^^ vb i, p2 i)) ∧ Row (.vnot g d a) (fun i => (~~~(va i), p1 i))
end

