-- ==== Sys2Proof/Laws/Map.lean ====
section
/-! SUPPORT. Laws of sparse tables: read after write, and that every operation keeps the canonical form. -/

namespace Sys2Proof.Machine

variable {α : Type}

theorem SMap.find_put_same (m : SMap α) (k : Nat) (v : α) : (m.put k v).find k = some v := by
  induction m with
  | nil => simp [SMap.put, SMap.find]
  | cons e m ih =>
    obtain ⟨j, w⟩ := e
    simp only [SMap.put]
    split
    · simp [SMap.find]
    · split
      · simp [SMap.find]
      · simp [SMap.find, *]

theorem SMap.find_put_ne (m : SMap α) {k j : Nat} (v : α) (h : j ≠ k) : (m.put k v).find j = m.find j := by
  induction m with
  | nil => simp [SMap.put, SMap.find, Ne.symm h]
  | cons e m ih =>
    obtain ⟨i, w⟩ := e
    simp only [SMap.put]
    split
    · simp [SMap.find, Ne.symm h]
    · split
      · subst_vars; simp [SMap.find, Ne.symm h]
      · simp [SMap.find, ih]

theorem SMap.find_erase_same (m : SMap α) (k : Nat) : (m.erase k).find k = none := by
  induction m with
  | nil => rfl
  | cons e m ih =>
    obtain ⟨i, w⟩ := e
    simp only [SMap.erase]
    split
    · exact ih
    · simp [SMap.find, *]

theorem SMap.find_erase_ne (m : SMap α) {k j : Nat} (h : j ≠ k) : (m.erase k).find j = m.find j := by
  induction m with
  | nil => rfl
  | cons e m ih =>
    obtain ⟨i, w⟩ := e
    simp only [SMap.erase]
    split
    · subst_vars; simp [SMap.find, ih, Ne.symm h]
    · simp [SMap.find, ih]

@[simp] theorem SMap.get_set_same [DecidableEq α] (d : α) (m : SMap α) (k : Nat) (v : α) :
    (m.set d k v).get d k = v := by
  unfold SMap.set SMap.get
  split
  · subst_vars; simp [SMap.find_erase_same]
  · simp [SMap.find_put_same]

theorem SMap.get_set_ne [DecidableEq α] (d : α) (m : SMap α) {k j : Nat} (v : α) (h : j ≠ k) :
    (m.set d k v).get d j = m.get d j := by
  unfold SMap.set SMap.get
  split
  · rw [SMap.find_erase_ne m h]
  · rw [SMap.find_put_ne m v h]

@[simp] theorem SMap.get_nil (d : α) (k : Nat) : SMap.get d ([] : SMap α) k = d := rfl

/-- A read after a write, both cases in one equation. -/
theorem SMap.get_set [DecidableEq α] (d : α) (m : SMap α) (k j : Nat) (v : α) :
    (m.set d k v).get d j = if j = k then v else m.get d j := by
  split
  · subst_vars; simp
  · exact SMap.get_set_ne d m v ‹_›

theorem SMap.wfFrom_mono [DecidableEq α] (d : α) {lo lo' : Nat} (m : SMap α) (hl : lo' ≤ lo)
    (h : SMap.wfFrom d lo m = true) : SMap.wfFrom d lo' m = true := by
  cases m with
  | nil => rfl
  | cons e m =>
    simp only [SMap.wfFrom, Bool.and_eq_true, decide_eq_true_eq] at h ⊢
    exact ⟨by omega, h.2⟩

theorem SMap.wfFrom_erase [DecidableEq α] (d : α) (m : SMap α) (k lo : Nat) (h : SMap.wfFrom d lo m = true) :
    SMap.wfFrom d lo (m.erase k) = true := by
  induction m generalizing lo with
  | nil => rfl
  | cons e m ih =>
    obtain ⟨j, w⟩ := e
    simp only [SMap.wfFrom, Bool.and_eq_true, decide_eq_true_eq] at h
    simp only [SMap.erase]
    split
    · exact SMap.wfFrom_mono d _ (by omega) (ih _ h.2.2)
    · simp only [SMap.wfFrom, Bool.and_eq_true, decide_eq_true_eq]
      exact ⟨h.1, h.2.1, ih _ h.2.2⟩

theorem SMap.wfFrom_put [DecidableEq α] (d : α) (m : SMap α) (k lo : Nat) (v : α) (hv : v ≠ d) (hk : lo ≤ k)
    (h : SMap.wfFrom d lo m = true) : SMap.wfFrom d lo (m.put k v) = true := by
  induction m generalizing lo with
  | nil => simp [SMap.put, SMap.wfFrom, hv, hk]
  | cons e m ih =>
    obtain ⟨j, w⟩ := e
    simp only [SMap.wfFrom, Bool.and_eq_true, decide_eq_true_eq] at h
    simp only [SMap.put]
    split
    · simp only [SMap.wfFrom, Bool.and_eq_true, decide_eq_true_eq]
      exact ⟨hk, hv, by omega, h.2⟩
    · split
      · subst_vars
        simp only [SMap.wfFrom, Bool.and_eq_true, decide_eq_true_eq]
        exact ⟨hk, hv, h.2.2⟩
      · simp only [SMap.wfFrom, Bool.and_eq_true, decide_eq_true_eq]
        exact ⟨h.1, h.2.1, ih _ (by omega) h.2.2⟩

/-- Writing keeps the canonical form. -/
theorem SMap.wf_set [DecidableEq α] (d : α) (m : SMap α) (k : Nat) (v : α) (h : m.wf d = true) :
    (m.set d k v).wf d = true := by
  unfold SMap.set SMap.wf
  split
  · exact SMap.wfFrom_erase d m k 0 h
  · exact SMap.wfFrom_put d m k 0 v ‹_› (Nat.zero_le k) h

end Sys2Proof.Machine
end

