-- ==== Sys2Proof/Laws/State.lean ====
section
/-! SUPPORT. One lemma for each field of the state under each update of it, and reading an array, a die or a partition after one was
replaced. -/

namespace Sys2Proof.Machine

open Sys2Proof

@[simp] theorem State.setA_now (s : State) (a : Nat) (x : Arr) : (s.setA a x).now = s.now := rfl
@[simp] theorem State.setA_cur (s : State) (a : Nat) (x : Arr) : (s.setA a x).cur = s.cur := rfl
@[simp] theorem State.setA_agenda (s : State) (a : Nat) (x : Arr) : (s.setA a x).agenda = s.agenda := rfl
@[simp] theorem State.setA_phase (s : State) (a : Nat) (x : Arr) : (s.setA a x).phase = s.phase := rfl
@[simp] theorem State.setA_free (s : State) (a : Nat) (x : Arr) : (s.setA a x).free = s.free := rfl
@[simp] theorem State.setA_quad (s : State) (a : Nat) (x : Arr) : (s.setA a x).quad = s.quad := rfl
@[simp] theorem State.setA_die (s : State) (a : Nat) (x : Arr) : (s.setA a x).die = s.die := rfl
@[simp] theorem State.setA_part (s : State) (a : Nat) (x : Arr) : (s.setA a x).part = s.part := rfl
@[simp] theorem State.setA_cxt (s : State) (a : Nat) (x : Arr) : (s.setA a x).cxt = s.cxt := rfl
@[simp] theorem State.setA_queue (s : State) (a : Nat) (x : Arr) : (s.setA a x).queue = s.queue := rfl
@[simp] theorem State.setA_launch (s : State) (a : Nat) (x : Arr) : (s.setA a x).launch = s.launch := rfl
@[simp] theorem State.setA_nlaunch (s : State) (a : Nat) (x : Arr) : (s.setA a x).nlaunch = s.nlaunch := rfl
@[simp] theorem State.setA_task (s : State) (a : Nat) (x : Arr) : (s.setA a x).task = s.task := rfl
@[simp] theorem State.setA_ntask (s : State) (a : Nat) (x : Arr) : (s.setA a x).ntask = s.ntask := rfl
@[simp] theorem State.setA_norder (s : State) (a : Nat) (x : Arr) : (s.setA a x).norder = s.norder := rfl
@[simp] theorem State.setA_dev (s : State) (a : Nat) (x : Arr) : (s.setA a x).dev = s.dev := rfl
@[simp] theorem State.setA_mem (s : State) (a : Nat) (x : Arr) : (s.setA a x).mem = s.mem := rfl
@[simp] theorem State.setA_pois (s : State) (a : Nat) (x : Arr) : (s.setA a x).pois = s.pois := rfl
@[simp] theorem State.setA_err (s : State) (a : Nat) (x : Arr) : (s.setA a x).err = s.err := rfl
@[simp] theorem State.setA_line (s : State) (a : Nat) (x : Arr) : (s.setA a x).line = s.line := rfl
@[simp] theorem State.setA_heal (s : State) (a : Nat) (x : Arr) : (s.setA a x).heal = s.heal := rfl

@[simp] theorem State.modA_now (s : State) (a : Nat) (f : Arr → Arr) : (s.modA a f).now = s.now := rfl
@[simp] theorem State.modA_cur (s : State) (a : Nat) (f : Arr → Arr) : (s.modA a f).cur = s.cur := rfl
@[simp] theorem State.modA_agenda (s : State) (a : Nat) (f : Arr → Arr) : (s.modA a f).agenda = s.agenda := rfl
@[simp] theorem State.modA_phase (s : State) (a : Nat) (f : Arr → Arr) : (s.modA a f).phase = s.phase := rfl
@[simp] theorem State.modA_free (s : State) (a : Nat) (f : Arr → Arr) : (s.modA a f).free = s.free := rfl
@[simp] theorem State.modA_quad (s : State) (a : Nat) (f : Arr → Arr) : (s.modA a f).quad = s.quad := rfl
@[simp] theorem State.modA_die (s : State) (a : Nat) (f : Arr → Arr) : (s.modA a f).die = s.die := rfl
@[simp] theorem State.modA_part (s : State) (a : Nat) (f : Arr → Arr) : (s.modA a f).part = s.part := rfl
@[simp] theorem State.modA_cxt (s : State) (a : Nat) (f : Arr → Arr) : (s.modA a f).cxt = s.cxt := rfl
@[simp] theorem State.modA_queue (s : State) (a : Nat) (f : Arr → Arr) : (s.modA a f).queue = s.queue := rfl
@[simp] theorem State.modA_launch (s : State) (a : Nat) (f : Arr → Arr) : (s.modA a f).launch = s.launch := rfl
@[simp] theorem State.modA_nlaunch (s : State) (a : Nat) (f : Arr → Arr) : (s.modA a f).nlaunch = s.nlaunch := rfl
@[simp] theorem State.modA_task (s : State) (a : Nat) (f : Arr → Arr) : (s.modA a f).task = s.task := rfl
@[simp] theorem State.modA_ntask (s : State) (a : Nat) (f : Arr → Arr) : (s.modA a f).ntask = s.ntask := rfl
@[simp] theorem State.modA_norder (s : State) (a : Nat) (f : Arr → Arr) : (s.modA a f).norder = s.norder := rfl
@[simp] theorem State.modA_dev (s : State) (a : Nat) (f : Arr → Arr) : (s.modA a f).dev = s.dev := rfl
@[simp] theorem State.modA_mem (s : State) (a : Nat) (f : Arr → Arr) : (s.modA a f).mem = s.mem := rfl
@[simp] theorem State.modA_pois (s : State) (a : Nat) (f : Arr → Arr) : (s.modA a f).pois = s.pois := rfl
@[simp] theorem State.modA_err (s : State) (a : Nat) (f : Arr → Arr) : (s.modA a f).err = s.err := rfl
@[simp] theorem State.modA_line (s : State) (a : Nat) (f : Arr → Arr) : (s.modA a f).line = s.line := rfl
@[simp] theorem State.modA_heal (s : State) (a : Nat) (f : Arr → Arr) : (s.modA a f).heal = s.heal := rfl

@[simp] theorem State.setD_now (s : State) (d : Nat) (x : Die) : (s.setD d x).now = s.now := rfl
@[simp] theorem State.setD_cur (s : State) (d : Nat) (x : Die) : (s.setD d x).cur = s.cur := rfl
@[simp] theorem State.setD_agenda (s : State) (d : Nat) (x : Die) : (s.setD d x).agenda = s.agenda := rfl
@[simp] theorem State.setD_phase (s : State) (d : Nat) (x : Die) : (s.setD d x).phase = s.phase := rfl
@[simp] theorem State.setD_free (s : State) (d : Nat) (x : Die) : (s.setD d x).free = s.free := rfl
@[simp] theorem State.setD_arr (s : State) (d : Nat) (x : Die) : (s.setD d x).arr = s.arr := rfl
@[simp] theorem State.setD_quad (s : State) (d : Nat) (x : Die) : (s.setD d x).quad = s.quad := rfl
@[simp] theorem State.setD_part (s : State) (d : Nat) (x : Die) : (s.setD d x).part = s.part := rfl
@[simp] theorem State.setD_cxt (s : State) (d : Nat) (x : Die) : (s.setD d x).cxt = s.cxt := rfl
@[simp] theorem State.setD_queue (s : State) (d : Nat) (x : Die) : (s.setD d x).queue = s.queue := rfl
@[simp] theorem State.setD_launch (s : State) (d : Nat) (x : Die) : (s.setD d x).launch = s.launch := rfl
@[simp] theorem State.setD_nlaunch (s : State) (d : Nat) (x : Die) : (s.setD d x).nlaunch = s.nlaunch := rfl
@[simp] theorem State.setD_task (s : State) (d : Nat) (x : Die) : (s.setD d x).task = s.task := rfl
@[simp] theorem State.setD_ntask (s : State) (d : Nat) (x : Die) : (s.setD d x).ntask = s.ntask := rfl
@[simp] theorem State.setD_norder (s : State) (d : Nat) (x : Die) : (s.setD d x).norder = s.norder := rfl
@[simp] theorem State.setD_dev (s : State) (d : Nat) (x : Die) : (s.setD d x).dev = s.dev := rfl
@[simp] theorem State.setD_mem (s : State) (d : Nat) (x : Die) : (s.setD d x).mem = s.mem := rfl
@[simp] theorem State.setD_pois (s : State) (d : Nat) (x : Die) : (s.setD d x).pois = s.pois := rfl
@[simp] theorem State.setD_err (s : State) (d : Nat) (x : Die) : (s.setD d x).err = s.err := rfl
@[simp] theorem State.setD_line (s : State) (d : Nat) (x : Die) : (s.setD d x).line = s.line := rfl
@[simp] theorem State.setD_heal (s : State) (d : Nat) (x : Die) : (s.setD d x).heal = s.heal := rfl

@[simp] theorem State.modD_now (s : State) (d : Nat) (f : Die → Die) : (s.modD d f).now = s.now := rfl
@[simp] theorem State.modD_cur (s : State) (d : Nat) (f : Die → Die) : (s.modD d f).cur = s.cur := rfl
@[simp] theorem State.modD_agenda (s : State) (d : Nat) (f : Die → Die) : (s.modD d f).agenda = s.agenda := rfl
@[simp] theorem State.modD_phase (s : State) (d : Nat) (f : Die → Die) : (s.modD d f).phase = s.phase := rfl
@[simp] theorem State.modD_free (s : State) (d : Nat) (f : Die → Die) : (s.modD d f).free = s.free := rfl
@[simp] theorem State.modD_arr (s : State) (d : Nat) (f : Die → Die) : (s.modD d f).arr = s.arr := rfl
@[simp] theorem State.modD_quad (s : State) (d : Nat) (f : Die → Die) : (s.modD d f).quad = s.quad := rfl
@[simp] theorem State.modD_part (s : State) (d : Nat) (f : Die → Die) : (s.modD d f).part = s.part := rfl
@[simp] theorem State.modD_cxt (s : State) (d : Nat) (f : Die → Die) : (s.modD d f).cxt = s.cxt := rfl
@[simp] theorem State.modD_queue (s : State) (d : Nat) (f : Die → Die) : (s.modD d f).queue = s.queue := rfl
@[simp] theorem State.modD_launch (s : State) (d : Nat) (f : Die → Die) : (s.modD d f).launch = s.launch := rfl
@[simp] theorem State.modD_nlaunch (s : State) (d : Nat) (f : Die → Die) : (s.modD d f).nlaunch = s.nlaunch := rfl
@[simp] theorem State.modD_task (s : State) (d : Nat) (f : Die → Die) : (s.modD d f).task = s.task := rfl
@[simp] theorem State.modD_ntask (s : State) (d : Nat) (f : Die → Die) : (s.modD d f).ntask = s.ntask := rfl
@[simp] theorem State.modD_norder (s : State) (d : Nat) (f : Die → Die) : (s.modD d f).norder = s.norder := rfl
@[simp] theorem State.modD_dev (s : State) (d : Nat) (f : Die → Die) : (s.modD d f).dev = s.dev := rfl
@[simp] theorem State.modD_mem (s : State) (d : Nat) (f : Die → Die) : (s.modD d f).mem = s.mem := rfl
@[simp] theorem State.modD_pois (s : State) (d : Nat) (f : Die → Die) : (s.modD d f).pois = s.pois := rfl
@[simp] theorem State.modD_err (s : State) (d : Nat) (f : Die → Die) : (s.modD d f).err = s.err := rfl
@[simp] theorem State.modD_line (s : State) (d : Nat) (f : Die → Die) : (s.modD d f).line = s.line := rfl
@[simp] theorem State.modD_heal (s : State) (d : Nat) (f : Die → Die) : (s.modD d f).heal = s.heal := rfl

@[simp] theorem State.modQ_now (s : State) (q : Nat) (f : Quad → Quad) : (s.modQ q f).now = s.now := rfl
@[simp] theorem State.modQ_cur (s : State) (q : Nat) (f : Quad → Quad) : (s.modQ q f).cur = s.cur := rfl
@[simp] theorem State.modQ_agenda (s : State) (q : Nat) (f : Quad → Quad) : (s.modQ q f).agenda = s.agenda := rfl
@[simp] theorem State.modQ_phase (s : State) (q : Nat) (f : Quad → Quad) : (s.modQ q f).phase = s.phase := rfl
@[simp] theorem State.modQ_free (s : State) (q : Nat) (f : Quad → Quad) : (s.modQ q f).free = s.free := rfl
@[simp] theorem State.modQ_arr (s : State) (q : Nat) (f : Quad → Quad) : (s.modQ q f).arr = s.arr := rfl
@[simp] theorem State.modQ_die (s : State) (q : Nat) (f : Quad → Quad) : (s.modQ q f).die = s.die := rfl
@[simp] theorem State.modQ_part (s : State) (q : Nat) (f : Quad → Quad) : (s.modQ q f).part = s.part := rfl
@[simp] theorem State.modQ_cxt (s : State) (q : Nat) (f : Quad → Quad) : (s.modQ q f).cxt = s.cxt := rfl
@[simp] theorem State.modQ_queue (s : State) (q : Nat) (f : Quad → Quad) : (s.modQ q f).queue = s.queue := rfl
@[simp] theorem State.modQ_launch (s : State) (q : Nat) (f : Quad → Quad) : (s.modQ q f).launch = s.launch := rfl
@[simp] theorem State.modQ_nlaunch (s : State) (q : Nat) (f : Quad → Quad) : (s.modQ q f).nlaunch = s.nlaunch := rfl
@[simp] theorem State.modQ_task (s : State) (q : Nat) (f : Quad → Quad) : (s.modQ q f).task = s.task := rfl
@[simp] theorem State.modQ_ntask (s : State) (q : Nat) (f : Quad → Quad) : (s.modQ q f).ntask = s.ntask := rfl
@[simp] theorem State.modQ_norder (s : State) (q : Nat) (f : Quad → Quad) : (s.modQ q f).norder = s.norder := rfl
@[simp] theorem State.modQ_dev (s : State) (q : Nat) (f : Quad → Quad) : (s.modQ q f).dev = s.dev := rfl
@[simp] theorem State.modQ_mem (s : State) (q : Nat) (f : Quad → Quad) : (s.modQ q f).mem = s.mem := rfl
@[simp] theorem State.modQ_pois (s : State) (q : Nat) (f : Quad → Quad) : (s.modQ q f).pois = s.pois := rfl
@[simp] theorem State.modQ_err (s : State) (q : Nat) (f : Quad → Quad) : (s.modQ q f).err = s.err := rfl
@[simp] theorem State.modQ_line (s : State) (q : Nat) (f : Quad → Quad) : (s.modQ q f).line = s.line := rfl
@[simp] theorem State.modQ_heal (s : State) (q : Nat) (f : Quad → Quad) : (s.modQ q f).heal = s.heal := rfl

@[simp] theorem State.modU_now (s : State) (q : Nat) (f : Queue → Queue) : (s.modU q f).now = s.now := rfl
@[simp] theorem State.modU_cur (s : State) (q : Nat) (f : Queue → Queue) : (s.modU q f).cur = s.cur := rfl
@[simp] theorem State.modU_agenda (s : State) (q : Nat) (f : Queue → Queue) : (s.modU q f).agenda = s.agenda := rfl
@[simp] theorem State.modU_phase (s : State) (q : Nat) (f : Queue → Queue) : (s.modU q f).phase = s.phase := rfl
@[simp] theorem State.modU_free (s : State) (q : Nat) (f : Queue → Queue) : (s.modU q f).free = s.free := rfl
@[simp] theorem State.modU_arr (s : State) (q : Nat) (f : Queue → Queue) : (s.modU q f).arr = s.arr := rfl
@[simp] theorem State.modU_quad (s : State) (q : Nat) (f : Queue → Queue) : (s.modU q f).quad = s.quad := rfl
@[simp] theorem State.modU_die (s : State) (q : Nat) (f : Queue → Queue) : (s.modU q f).die = s.die := rfl
@[simp] theorem State.modU_part (s : State) (q : Nat) (f : Queue → Queue) : (s.modU q f).part = s.part := rfl
@[simp] theorem State.modU_cxt (s : State) (q : Nat) (f : Queue → Queue) : (s.modU q f).cxt = s.cxt := rfl
@[simp] theorem State.modU_launch (s : State) (q : Nat) (f : Queue → Queue) : (s.modU q f).launch = s.launch := rfl
@[simp] theorem State.modU_nlaunch (s : State) (q : Nat) (f : Queue → Queue) : (s.modU q f).nlaunch = s.nlaunch := rfl
@[simp] theorem State.modU_task (s : State) (q : Nat) (f : Queue → Queue) : (s.modU q f).task = s.task := rfl
@[simp] theorem State.modU_ntask (s : State) (q : Nat) (f : Queue → Queue) : (s.modU q f).ntask = s.ntask := rfl
@[simp] theorem State.modU_norder (s : State) (q : Nat) (f : Queue → Queue) : (s.modU q f).norder = s.norder := rfl
@[simp] theorem State.modU_dev (s : State) (q : Nat) (f : Queue → Queue) : (s.modU q f).dev = s.dev := rfl
@[simp] theorem State.modU_mem (s : State) (q : Nat) (f : Queue → Queue) : (s.modU q f).mem = s.mem := rfl
@[simp] theorem State.modU_pois (s : State) (q : Nat) (f : Queue → Queue) : (s.modU q f).pois = s.pois := rfl
@[simp] theorem State.modU_err (s : State) (q : Nat) (f : Queue → Queue) : (s.modU q f).err = s.err := rfl
@[simp] theorem State.modU_line (s : State) (q : Nat) (f : Queue → Queue) : (s.modU q f).line = s.line := rfl
@[simp] theorem State.modU_heal (s : State) (q : Nat) (f : Queue → Queue) : (s.modU q f).heal = s.heal := rfl

@[simp] theorem State.modP_now (s : State) (p : Nat) (f : Part → Part) : (s.modP p f).now = s.now := rfl
@[simp] theorem State.modP_cur (s : State) (p : Nat) (f : Part → Part) : (s.modP p f).cur = s.cur := rfl
@[simp] theorem State.modP_agenda (s : State) (p : Nat) (f : Part → Part) : (s.modP p f).agenda = s.agenda := rfl
@[simp] theorem State.modP_phase (s : State) (p : Nat) (f : Part → Part) : (s.modP p f).phase = s.phase := rfl
@[simp] theorem State.modP_free (s : State) (p : Nat) (f : Part → Part) : (s.modP p f).free = s.free := rfl
@[simp] theorem State.modP_arr (s : State) (p : Nat) (f : Part → Part) : (s.modP p f).arr = s.arr := rfl
@[simp] theorem State.modP_quad (s : State) (p : Nat) (f : Part → Part) : (s.modP p f).quad = s.quad := rfl
@[simp] theorem State.modP_die (s : State) (p : Nat) (f : Part → Part) : (s.modP p f).die = s.die := rfl
@[simp] theorem State.modP_cxt (s : State) (p : Nat) (f : Part → Part) : (s.modP p f).cxt = s.cxt := rfl
@[simp] theorem State.modP_queue (s : State) (p : Nat) (f : Part → Part) : (s.modP p f).queue = s.queue := rfl
@[simp] theorem State.modP_launch (s : State) (p : Nat) (f : Part → Part) : (s.modP p f).launch = s.launch := rfl
@[simp] theorem State.modP_nlaunch (s : State) (p : Nat) (f : Part → Part) : (s.modP p f).nlaunch = s.nlaunch := rfl
@[simp] theorem State.modP_task (s : State) (p : Nat) (f : Part → Part) : (s.modP p f).task = s.task := rfl
@[simp] theorem State.modP_ntask (s : State) (p : Nat) (f : Part → Part) : (s.modP p f).ntask = s.ntask := rfl
@[simp] theorem State.modP_norder (s : State) (p : Nat) (f : Part → Part) : (s.modP p f).norder = s.norder := rfl
@[simp] theorem State.modP_dev (s : State) (p : Nat) (f : Part → Part) : (s.modP p f).dev = s.dev := rfl
@[simp] theorem State.modP_mem (s : State) (p : Nat) (f : Part → Part) : (s.modP p f).mem = s.mem := rfl
@[simp] theorem State.modP_pois (s : State) (p : Nat) (f : Part → Part) : (s.modP p f).pois = s.pois := rfl
@[simp] theorem State.modP_err (s : State) (p : Nat) (f : Part → Part) : (s.modP p f).err = s.err := rfl
@[simp] theorem State.modP_line (s : State) (p : Nat) (f : Part → Part) : (s.modP p f).line = s.line := rfl
@[simp] theorem State.modP_heal (s : State) (p : Nat) (f : Part → Part) : (s.modP p f).heal = s.heal := rfl

@[simp] theorem State.modDev_now (s : State) (f : Dev → Dev) : (s.modDev f).now = s.now := rfl
@[simp] theorem State.modDev_cur (s : State) (f : Dev → Dev) : (s.modDev f).cur = s.cur := rfl
@[simp] theorem State.modDev_agenda (s : State) (f : Dev → Dev) : (s.modDev f).agenda = s.agenda := rfl
@[simp] theorem State.modDev_phase (s : State) (f : Dev → Dev) : (s.modDev f).phase = s.phase := rfl
@[simp] theorem State.modDev_free (s : State) (f : Dev → Dev) : (s.modDev f).free = s.free := rfl
@[simp] theorem State.modDev_arr (s : State) (f : Dev → Dev) : (s.modDev f).arr = s.arr := rfl
@[simp] theorem State.modDev_quad (s : State) (f : Dev → Dev) : (s.modDev f).quad = s.quad := rfl
@[simp] theorem State.modDev_die (s : State) (f : Dev → Dev) : (s.modDev f).die = s.die := rfl
@[simp] theorem State.modDev_part (s : State) (f : Dev → Dev) : (s.modDev f).part = s.part := rfl
@[simp] theorem State.modDev_cxt (s : State) (f : Dev → Dev) : (s.modDev f).cxt = s.cxt := rfl
@[simp] theorem State.modDev_queue (s : State) (f : Dev → Dev) : (s.modDev f).queue = s.queue := rfl
@[simp] theorem State.modDev_launch (s : State) (f : Dev → Dev) : (s.modDev f).launch = s.launch := rfl
@[simp] theorem State.modDev_nlaunch (s : State) (f : Dev → Dev) : (s.modDev f).nlaunch = s.nlaunch := rfl
@[simp] theorem State.modDev_task (s : State) (f : Dev → Dev) : (s.modDev f).task = s.task := rfl
@[simp] theorem State.modDev_ntask (s : State) (f : Dev → Dev) : (s.modDev f).ntask = s.ntask := rfl
@[simp] theorem State.modDev_norder (s : State) (f : Dev → Dev) : (s.modDev f).norder = s.norder := rfl
@[simp] theorem State.modDev_mem (s : State) (f : Dev → Dev) : (s.modDev f).mem = s.mem := rfl
@[simp] theorem State.modDev_pois (s : State) (f : Dev → Dev) : (s.modDev f).pois = s.pois := rfl
@[simp] theorem State.modDev_err (s : State) (f : Dev → Dev) : (s.modDev f).err = s.err := rfl
@[simp] theorem State.modDev_line (s : State) (f : Dev → Dev) : (s.modDev f).line = s.line := rfl
@[simp] theorem State.modDev_heal (s : State) (f : Dev → Dev) : (s.modDev f).heal = s.heal := rfl

@[simp] theorem State.setByte_now (s : State) (k : Nat) (b : Byte) : (s.setByte k b).now = s.now := rfl
@[simp] theorem State.setByte_cur (s : State) (k : Nat) (b : Byte) : (s.setByte k b).cur = s.cur := rfl
@[simp] theorem State.setByte_agenda (s : State) (k : Nat) (b : Byte) : (s.setByte k b).agenda = s.agenda := rfl
@[simp] theorem State.setByte_phase (s : State) (k : Nat) (b : Byte) : (s.setByte k b).phase = s.phase := rfl
@[simp] theorem State.setByte_free (s : State) (k : Nat) (b : Byte) : (s.setByte k b).free = s.free := rfl
@[simp] theorem State.setByte_arr (s : State) (k : Nat) (b : Byte) : (s.setByte k b).arr = s.arr := rfl
@[simp] theorem State.setByte_quad (s : State) (k : Nat) (b : Byte) : (s.setByte k b).quad = s.quad := rfl
@[simp] theorem State.setByte_die (s : State) (k : Nat) (b : Byte) : (s.setByte k b).die = s.die := rfl
@[simp] theorem State.setByte_part (s : State) (k : Nat) (b : Byte) : (s.setByte k b).part = s.part := rfl
@[simp] theorem State.setByte_cxt (s : State) (k : Nat) (b : Byte) : (s.setByte k b).cxt = s.cxt := rfl
@[simp] theorem State.setByte_queue (s : State) (k : Nat) (b : Byte) : (s.setByte k b).queue = s.queue := rfl
@[simp] theorem State.setByte_launch (s : State) (k : Nat) (b : Byte) : (s.setByte k b).launch = s.launch := rfl
@[simp] theorem State.setByte_nlaunch (s : State) (k : Nat) (b : Byte) : (s.setByte k b).nlaunch = s.nlaunch := rfl
@[simp] theorem State.setByte_task (s : State) (k : Nat) (b : Byte) : (s.setByte k b).task = s.task := rfl
@[simp] theorem State.setByte_ntask (s : State) (k : Nat) (b : Byte) : (s.setByte k b).ntask = s.ntask := rfl
@[simp] theorem State.setByte_norder (s : State) (k : Nat) (b : Byte) : (s.setByte k b).norder = s.norder := rfl
@[simp] theorem State.setByte_dev (s : State) (k : Nat) (b : Byte) : (s.setByte k b).dev = s.dev := rfl
@[simp] theorem State.setByte_pois (s : State) (k : Nat) (b : Byte) : (s.setByte k b).pois = s.pois := rfl
@[simp] theorem State.setByte_err (s : State) (k : Nat) (b : Byte) : (s.setByte k b).err = s.err := rfl
@[simp] theorem State.setByte_line (s : State) (k : Nat) (b : Byte) : (s.setByte k b).line = s.line := rfl
@[simp] theorem State.setByte_heal (s : State) (k : Nat) (b : Byte) : (s.setByte k b).heal = s.heal := rfl

@[simp] theorem State.setPois_now (s : State) (k : Nat) (b : Bool) : (s.setPois k b).now = s.now := rfl
@[simp] theorem State.setPois_cur (s : State) (k : Nat) (b : Bool) : (s.setPois k b).cur = s.cur := rfl
@[simp] theorem State.setPois_agenda (s : State) (k : Nat) (b : Bool) : (s.setPois k b).agenda = s.agenda := rfl
@[simp] theorem State.setPois_phase (s : State) (k : Nat) (b : Bool) : (s.setPois k b).phase = s.phase := rfl
@[simp] theorem State.setPois_free (s : State) (k : Nat) (b : Bool) : (s.setPois k b).free = s.free := rfl
@[simp] theorem State.setPois_arr (s : State) (k : Nat) (b : Bool) : (s.setPois k b).arr = s.arr := rfl
@[simp] theorem State.setPois_quad (s : State) (k : Nat) (b : Bool) : (s.setPois k b).quad = s.quad := rfl
@[simp] theorem State.setPois_die (s : State) (k : Nat) (b : Bool) : (s.setPois k b).die = s.die := rfl
@[simp] theorem State.setPois_part (s : State) (k : Nat) (b : Bool) : (s.setPois k b).part = s.part := rfl
@[simp] theorem State.setPois_cxt (s : State) (k : Nat) (b : Bool) : (s.setPois k b).cxt = s.cxt := rfl
@[simp] theorem State.setPois_queue (s : State) (k : Nat) (b : Bool) : (s.setPois k b).queue = s.queue := rfl
@[simp] theorem State.setPois_launch (s : State) (k : Nat) (b : Bool) : (s.setPois k b).launch = s.launch := rfl
@[simp] theorem State.setPois_nlaunch (s : State) (k : Nat) (b : Bool) : (s.setPois k b).nlaunch = s.nlaunch := rfl
@[simp] theorem State.setPois_task (s : State) (k : Nat) (b : Bool) : (s.setPois k b).task = s.task := rfl
@[simp] theorem State.setPois_ntask (s : State) (k : Nat) (b : Bool) : (s.setPois k b).ntask = s.ntask := rfl
@[simp] theorem State.setPois_norder (s : State) (k : Nat) (b : Bool) : (s.setPois k b).norder = s.norder := rfl
@[simp] theorem State.setPois_dev (s : State) (k : Nat) (b : Bool) : (s.setPois k b).dev = s.dev := rfl
@[simp] theorem State.setPois_mem (s : State) (k : Nat) (b : Bool) : (s.setPois k b).mem = s.mem := rfl
@[simp] theorem State.setPois_err (s : State) (k : Nat) (b : Bool) : (s.setPois k b).err = s.err := rfl
@[simp] theorem State.setPois_line (s : State) (k : Nat) (b : Bool) : (s.setPois k b).line = s.line := rfl
@[simp] theorem State.setPois_heal (s : State) (k : Nat) (b : Bool) : (s.setPois k b).heal = s.heal := rfl

@[simp] theorem State.sound_now (s : State) (k n : Nat) : (s.sound k n).now = s.now := rfl
@[simp] theorem State.sound_cur (s : State) (k n : Nat) : (s.sound k n).cur = s.cur := rfl
@[simp] theorem State.sound_agenda (s : State) (k n : Nat) : (s.sound k n).agenda = s.agenda := rfl
@[simp] theorem State.sound_phase (s : State) (k n : Nat) : (s.sound k n).phase = s.phase := rfl
@[simp] theorem State.sound_free (s : State) (k n : Nat) : (s.sound k n).free = s.free := rfl
@[simp] theorem State.sound_arr (s : State) (k n : Nat) : (s.sound k n).arr = s.arr := rfl
@[simp] theorem State.sound_quad (s : State) (k n : Nat) : (s.sound k n).quad = s.quad := rfl
@[simp] theorem State.sound_die (s : State) (k n : Nat) : (s.sound k n).die = s.die := rfl
@[simp] theorem State.sound_part (s : State) (k n : Nat) : (s.sound k n).part = s.part := rfl
@[simp] theorem State.sound_cxt (s : State) (k n : Nat) : (s.sound k n).cxt = s.cxt := rfl
@[simp] theorem State.sound_queue (s : State) (k n : Nat) : (s.sound k n).queue = s.queue := rfl
@[simp] theorem State.sound_launch (s : State) (k n : Nat) : (s.sound k n).launch = s.launch := rfl
@[simp] theorem State.sound_nlaunch (s : State) (k n : Nat) : (s.sound k n).nlaunch = s.nlaunch := rfl
@[simp] theorem State.sound_task (s : State) (k n : Nat) : (s.sound k n).task = s.task := rfl
@[simp] theorem State.sound_ntask (s : State) (k n : Nat) : (s.sound k n).ntask = s.ntask := rfl
@[simp] theorem State.sound_norder (s : State) (k n : Nat) : (s.sound k n).norder = s.norder := rfl
@[simp] theorem State.sound_dev (s : State) (k n : Nat) : (s.sound k n).dev = s.dev := rfl
@[simp] theorem State.sound_mem (s : State) (k n : Nat) : (s.sound k n).mem = s.mem := rfl
@[simp] theorem State.sound_pois (s : State) (k n : Nat) : (s.sound k n).pois = s.pois := rfl
@[simp] theorem State.sound_line (s : State) (k n : Nat) : (s.sound k n).line = s.line := rfl
@[simp] theorem State.sound_heal (s : State) (k n : Nat) : (s.sound k n).heal = s.heal := rfl

@[simp] theorem State.msg_now (s : State) (f vec : Nat) : (s.msg f vec).now = s.now := rfl
@[simp] theorem State.msg_cur (s : State) (f vec : Nat) : (s.msg f vec).cur = s.cur := rfl
@[simp] theorem State.msg_agenda (s : State) (f vec : Nat) : (s.msg f vec).agenda = s.agenda := rfl
@[simp] theorem State.msg_phase (s : State) (f vec : Nat) : (s.msg f vec).phase = s.phase := rfl
@[simp] theorem State.msg_free (s : State) (f vec : Nat) : (s.msg f vec).free = s.free := rfl
@[simp] theorem State.msg_arr (s : State) (f vec : Nat) : (s.msg f vec).arr = s.arr := rfl
@[simp] theorem State.msg_quad (s : State) (f vec : Nat) : (s.msg f vec).quad = s.quad := rfl
@[simp] theorem State.msg_die (s : State) (f vec : Nat) : (s.msg f vec).die = s.die := rfl
@[simp] theorem State.msg_part (s : State) (f vec : Nat) : (s.msg f vec).part = s.part := rfl
@[simp] theorem State.msg_cxt (s : State) (f vec : Nat) : (s.msg f vec).cxt = s.cxt := rfl
@[simp] theorem State.msg_queue (s : State) (f vec : Nat) : (s.msg f vec).queue = s.queue := rfl
@[simp] theorem State.msg_launch (s : State) (f vec : Nat) : (s.msg f vec).launch = s.launch := rfl
@[simp] theorem State.msg_nlaunch (s : State) (f vec : Nat) : (s.msg f vec).nlaunch = s.nlaunch := rfl
@[simp] theorem State.msg_task (s : State) (f vec : Nat) : (s.msg f vec).task = s.task := rfl
@[simp] theorem State.msg_ntask (s : State) (f vec : Nat) : (s.msg f vec).ntask = s.ntask := rfl
@[simp] theorem State.msg_norder (s : State) (f vec : Nat) : (s.msg f vec).norder = s.norder := rfl
@[simp] theorem State.msg_mem (s : State) (f vec : Nat) : (s.msg f vec).mem = s.mem := rfl
@[simp] theorem State.msg_pois (s : State) (f vec : Nat) : (s.msg f vec).pois = s.pois := rfl
@[simp] theorem State.msg_err (s : State) (f vec : Nat) : (s.msg f vec).err = s.err := rfl
@[simp] theorem State.msg_line (s : State) (f vec : Nat) : (s.msg f vec).line = s.line := rfl
@[simp] theorem State.msg_heal (s : State) (f vec : Nat) : (s.msg f vec).heal = s.heal := rfl

@[simp] theorem Arr.modSca_sca (x : Arr) (f : Sca → Sca) : (x.modSca f).sca = f x.sca := rfl
@[simp] theorem Arr.modSca_cel (x : Arr) (f : Sca → Sca) : (x.modSca f).cel = x.cel := rfl
@[simp] theorem Arr.modSca_mat (x : Arr) (f : Sca → Sca) : (x.modSca f).mat = x.mat := rfl
@[simp] theorem Arr.modSca_cpy (x : Arr) (f : Sca → Sca) : (x.modSca f).cpy = x.cpy := rfl
@[simp] theorem Arr.modSca_tsk (x : Arr) (f : Sca → Sca) : (x.modSca f).tsk = x.tsk := rfl
@[simp] theorem Arr.modSca_csr (x : Arr) (f : Sca → Sca) : (x.modSca f).csr = x.csr := rfl
@[simp] theorem Arr.modSca_tlb (x : Arr) (f : Sca → Sca) : (x.modSca f).tlb = x.tlb := rfl
@[simp] theorem Arr.modSca_itg (x : Arr) (f : Sca → Sca) : (x.modSca f).itg = x.itg := rfl

@[simp] theorem Arr.modCel_sca (x : Arr) (f : Cel → Cel) : (x.modCel f).sca = x.sca := rfl
@[simp] theorem Arr.modCel_cel (x : Arr) (f : Cel → Cel) : (x.modCel f).cel = f x.cel := rfl
@[simp] theorem Arr.modCel_mat (x : Arr) (f : Cel → Cel) : (x.modCel f).mat = x.mat := rfl
@[simp] theorem Arr.modCel_cpy (x : Arr) (f : Cel → Cel) : (x.modCel f).cpy = x.cpy := rfl
@[simp] theorem Arr.modCel_tsk (x : Arr) (f : Cel → Cel) : (x.modCel f).tsk = x.tsk := rfl
@[simp] theorem Arr.modCel_csr (x : Arr) (f : Cel → Cel) : (x.modCel f).csr = x.csr := rfl
@[simp] theorem Arr.modCel_tlb (x : Arr) (f : Cel → Cel) : (x.modCel f).tlb = x.tlb := rfl
@[simp] theorem Arr.modCel_itg (x : Arr) (f : Cel → Cel) : (x.modCel f).itg = x.itg := rfl

@[simp] theorem Arr.modMat_sca (x : Arr) (f : Mat → Mat) : (x.modMat f).sca = x.sca := rfl
@[simp] theorem Arr.modMat_cel (x : Arr) (f : Mat → Mat) : (x.modMat f).cel = x.cel := rfl
@[simp] theorem Arr.modMat_mat (x : Arr) (f : Mat → Mat) : (x.modMat f).mat = f x.mat := rfl
@[simp] theorem Arr.modMat_cpy (x : Arr) (f : Mat → Mat) : (x.modMat f).cpy = x.cpy := rfl
@[simp] theorem Arr.modMat_tsk (x : Arr) (f : Mat → Mat) : (x.modMat f).tsk = x.tsk := rfl
@[simp] theorem Arr.modMat_csr (x : Arr) (f : Mat → Mat) : (x.modMat f).csr = x.csr := rfl
@[simp] theorem Arr.modMat_tlb (x : Arr) (f : Mat → Mat) : (x.modMat f).tlb = x.tlb := rfl
@[simp] theorem Arr.modMat_itg (x : Arr) (f : Mat → Mat) : (x.modMat f).itg = x.itg := rfl

@[simp] theorem Arr.modCpy_sca (x : Arr) (f : Cpy → Cpy) : (x.modCpy f).sca = x.sca := rfl
@[simp] theorem Arr.modCpy_cel (x : Arr) (f : Cpy → Cpy) : (x.modCpy f).cel = x.cel := rfl
@[simp] theorem Arr.modCpy_mat (x : Arr) (f : Cpy → Cpy) : (x.modCpy f).mat = x.mat := rfl
@[simp] theorem Arr.modCpy_cpy (x : Arr) (f : Cpy → Cpy) : (x.modCpy f).cpy = f x.cpy := rfl
@[simp] theorem Arr.modCpy_tsk (x : Arr) (f : Cpy → Cpy) : (x.modCpy f).tsk = x.tsk := rfl
@[simp] theorem Arr.modCpy_csr (x : Arr) (f : Cpy → Cpy) : (x.modCpy f).csr = x.csr := rfl
@[simp] theorem Arr.modCpy_tlb (x : Arr) (f : Cpy → Cpy) : (x.modCpy f).tlb = x.tlb := rfl
@[simp] theorem Arr.modCpy_itg (x : Arr) (f : Cpy → Cpy) : (x.modCpy f).itg = x.itg := rfl

@[simp] theorem Arr.modTsk_sca (x : Arr) (f : Tsk → Tsk) : (x.modTsk f).sca = x.sca := rfl
@[simp] theorem Arr.modTsk_cel (x : Arr) (f : Tsk → Tsk) : (x.modTsk f).cel = x.cel := rfl
@[simp] theorem Arr.modTsk_mat (x : Arr) (f : Tsk → Tsk) : (x.modTsk f).mat = x.mat := rfl
@[simp] theorem Arr.modTsk_cpy (x : Arr) (f : Tsk → Tsk) : (x.modTsk f).cpy = x.cpy := rfl
@[simp] theorem Arr.modTsk_tsk (x : Arr) (f : Tsk → Tsk) : (x.modTsk f).tsk = f x.tsk := rfl
@[simp] theorem Arr.modTsk_csr (x : Arr) (f : Tsk → Tsk) : (x.modTsk f).csr = x.csr := rfl
@[simp] theorem Arr.modTsk_tlb (x : Arr) (f : Tsk → Tsk) : (x.modTsk f).tlb = x.tlb := rfl
@[simp] theorem Arr.modTsk_itg (x : Arr) (f : Tsk → Tsk) : (x.modTsk f).itg = x.itg := rfl

@[simp] theorem Arr.modCsr_sca (x : Arr) (f : Csr → Csr) : (x.modCsr f).sca = x.sca := rfl
@[simp] theorem Arr.modCsr_cel (x : Arr) (f : Csr → Csr) : (x.modCsr f).cel = x.cel := rfl
@[simp] theorem Arr.modCsr_mat (x : Arr) (f : Csr → Csr) : (x.modCsr f).mat = x.mat := rfl
@[simp] theorem Arr.modCsr_cpy (x : Arr) (f : Csr → Csr) : (x.modCsr f).cpy = x.cpy := rfl
@[simp] theorem Arr.modCsr_tsk (x : Arr) (f : Csr → Csr) : (x.modCsr f).tsk = x.tsk := rfl
@[simp] theorem Arr.modCsr_csr (x : Arr) (f : Csr → Csr) : (x.modCsr f).csr = f x.csr := rfl
@[simp] theorem Arr.modCsr_tlb (x : Arr) (f : Csr → Csr) : (x.modCsr f).tlb = x.tlb := rfl
@[simp] theorem Arr.modCsr_itg (x : Arr) (f : Csr → Csr) : (x.modCsr f).itg = x.itg := rfl

@[simp] theorem Arr.modItg_sca (x : Arr) (f : Itg → Itg) : (x.modItg f).sca = x.sca := rfl
@[simp] theorem Arr.modItg_cel (x : Arr) (f : Itg → Itg) : (x.modItg f).cel = x.cel := rfl
@[simp] theorem Arr.modItg_mat (x : Arr) (f : Itg → Itg) : (x.modItg f).mat = x.mat := rfl
@[simp] theorem Arr.modItg_cpy (x : Arr) (f : Itg → Itg) : (x.modItg f).cpy = x.cpy := rfl
@[simp] theorem Arr.modItg_tsk (x : Arr) (f : Itg → Itg) : (x.modItg f).tsk = x.tsk := rfl
@[simp] theorem Arr.modItg_csr (x : Arr) (f : Itg → Itg) : (x.modItg f).csr = x.csr := rfl
@[simp] theorem Arr.modItg_tlb (x : Arr) (f : Itg → Itg) : (x.modItg f).tlb = x.tlb := rfl
@[simp] theorem Arr.modItg_itg (x : Arr) (f : Itg → Itg) : (x.modItg f).itg = f x.itg := rfl

@[simp] theorem Arr.push_cel (x : Arr) (due ord : Nat) (w : Wr) : (x.push due ord w).cel = x.cel := rfl
@[simp] theorem Arr.push_mat (x : Arr) (due ord : Nat) (w : Wr) : (x.push due ord w).mat = x.mat := rfl
@[simp] theorem Arr.push_cpy (x : Arr) (due ord : Nat) (w : Wr) : (x.push due ord w).cpy = x.cpy := rfl
@[simp] theorem Arr.push_tsk (x : Arr) (due ord : Nat) (w : Wr) : (x.push due ord w).tsk = x.tsk := rfl
@[simp] theorem Arr.push_csr (x : Arr) (due ord : Nat) (w : Wr) : (x.push due ord w).csr = x.csr := rfl
@[simp] theorem Arr.push_tlb (x : Arr) (due ord : Nat) (w : Wr) : (x.push due ord w).tlb = x.tlb := rfl
@[simp] theorem Arr.push_itg (x : Arr) (due ord : Nat) (w : Wr) : (x.push due ord w).itg = x.itg := rfl
@[simp] theorem Arr.push_sca_pc (x : Arr) (due ord : Nat) (w : Wr) : (x.push due ord w).sca.pc = x.sca.pc := rfl
@[simp] theorem Arr.push_sca_far (x : Arr) (due ord : Nat) (w : Wr) : (x.push due ord w).sca.far = x.sca.far := rfl
@[simp] theorem Arr.push_sca_readyAt (x : Arr) (due ord : Nat) (w : Wr) : (x.push due ord w).sca.readyAt = x.sca.readyAt := rfl
@[simp] theorem Arr.push_sca_issuedAt (x : Arr) (due ord : Nat) (w : Wr) : (x.push due ord w).sca.issuedAt = x.sca.issuedAt := rfl
@[simp] theorem Arr.push_sca_s (x : Arr) (due ord : Nat) (w : Wr) : (x.push due ord w).sca.s = x.sca.s := rfl
@[simp] theorem Arr.push_sca_sv (x : Arr) (due ord : Nat) (w : Wr) : (x.push due ord w).sca.sv = x.sca.sv := rfl
@[simp] theorem Arr.push_sca_smm (x : Arr) (due ord : Nat) (w : Wr) : (x.push due ord w).sca.smm = x.sca.smm := rfl
@[simp] theorem Arr.push_sca_ssplit (x : Arr) (due ord : Nat) (w : Wr) : (x.push due ord w).sca.ssplit = x.sca.ssplit := rfl
@[simp] theorem Arr.push_sca_sfail (x : Arr) (due ord : Nat) (w : Wr) : (x.push due ord w).sca.sfail = x.sca.sfail := rfl
@[simp] theorem Arr.push_sca_asplit (x : Arr) (due ord : Nat) (w : Wr) : (x.push due ord w).sca.asplit = x.sca.asplit := rfl
@[simp] theorem Arr.push_sca_afail (x : Arr) (due ord : Nat) (w : Wr) : (x.push due ord w).sca.afail = x.sca.afail := rfl
@[simp] theorem Arr.push_sca_sh (x : Arr) (due ord : Nat) (w : Wr) : (x.push due ord w).sca.sh = x.sca.sh := rfl
@[simp] theorem Arr.push_sca_a (x : Arr) (due ord : Nat) (w : Wr) : (x.push due ord w).sca.a = x.sca.a := rfl
@[simp] theorem Arr.push_sca_av (x : Arr) (due ord : Nat) (w : Wr) : (x.push due ord w).sca.av = x.sca.av := rfl
@[simp] theorem Arr.push_sca_amm (x : Arr) (due ord : Nat) (w : Wr) : (x.push due ord w).sca.amm = x.sca.amm := rfl
@[simp] theorem Arr.push_sca_p (x : Arr) (due ord : Nat) (w : Wr) : (x.push due ord w).sca.p = x.sca.p := rfl
@[simp] theorem Arr.push_sca_pp (x : Arr) (due ord : Nat) (w : Wr) : (x.push due ord w).sca.pp = x.sca.pp := rfl
@[simp] theorem Arr.push_sca_pmm (x : Arr) (due ord : Nat) (w : Wr) : (x.push due ord w).sca.pmm = x.sca.pmm := rfl
@[simp] theorem Arr.push_sca_g (x : Arr) (due ord : Nat) (w : Wr) : (x.push due ord w).sca.g = x.sca.g := rfl
@[simp] theorem Arr.push_sca_lc (x : Arr) (due ord : Nat) (w : Wr) : (x.push due ord w).sca.lc = x.sca.lc := rfl
@[simp] theorem Arr.push_sca_ec (x : Arr) (due ord : Nat) (w : Wr) : (x.push due ord w).sca.ec = x.sca.ec := rfl
@[simp] theorem Arr.push_sca_rrb (x : Arr) (due ord : Nat) (w : Wr) : (x.push due ord w).sca.rrb = x.sca.rrb := rfl
@[simp] theorem Arr.push_sca_fpcsr (x : Arr) (due ord : Nat) (w : Wr) : (x.push due ord w).sca.fpcsr = x.sca.fpcsr := rfl
@[simp] theorem Arr.push_sca_uvec (x : Arr) (due ord : Nat) (w : Wr) : (x.push due ord w).sca.uvec = x.sca.uvec := rfl
@[simp] theorem Arr.push_sca_xsel (x : Arr) (due ord : Nat) (w : Wr) : (x.push due ord w).sca.xsel = x.sca.xsel := rfl
@[simp] theorem Arr.push_sca_ysel (x : Arr) (due ord : Nat) (w : Wr) : (x.push due ord w).sca.ysel = x.sca.ysel := rfl
@[simp] theorem Arr.push_sca_svq (x : Arr) (due ord : Nat) (w : Wr) : (x.push due ord w).sca.svq = x.sca.svq := rfl
@[simp] theorem Arr.push_sca_vsq (x : Arr) (due ord : Nat) (w : Wr) : (x.push due ord w).sca.vsq = x.sca.vsq := rfl
@[simp] theorem Arr.push_sca_heads (x : Arr) (due ord : Nat) (w : Wr) : (x.push due ord w).sca.heads = x.sca.heads := rfl
@[simp] theorem Arr.push_sca_hAct (x : Arr) (due ord : Nat) (w : Wr) : (x.push due ord w).sca.hAct = x.sca.hAct := rfl
@[simp] theorem Arr.push_sca_hRet (x : Arr) (due ord : Nat) (w : Wr) : (x.push due ord w).sca.hRet = x.sca.hRet := rfl
@[simp] theorem Arr.push_sca_hWait (x : Arr) (due ord : Nat) (w : Wr) : (x.push due ord w).sca.hWait = x.sca.hWait := rfl
@[simp] theorem Arr.push_sca_uirq (x : Arr) (due ord : Nat) (w : Wr) : (x.push due ord w).sca.uirq = x.sca.uirq := rfl
@[simp] theorem Arr.push_pend (x : Arr) (due ord : Nat) (w : Wr) : (x.push due ord w).sca.pend = pins x.sca.pend ⟨due, ord, w⟩ := rfl
@[simp] theorem Arr.push_sca_chkErr (x : Arr) (due ord : Nat) (w : Wr) : (x.push due ord w).sca.chkErr = x.sca.chkErr := rfl

/-! ## Reading after replacing -/

@[simp] theorem State.getA_setA_same (s : State) (a : Nat) (x : Arr) : (s.setA a x).getA a = x := by
  simp [State.getA, State.setA, SMap.get_set]
theorem State.getA_setA (s : State) (a b : Nat) (x : Arr) : (s.setA a x).getA b = if b = a then x else s.getA b := by
  simp [State.getA, State.setA, SMap.get_set]
theorem State.getA_setA_ne (s : State) (a b : Nat) (x : Arr) (h : b ≠ a) : (s.setA a x).getA b = s.getA b := by
  simp [State.getA_setA, h]
@[simp] theorem State.getA_modA_same (s : State) (a : Nat) (f : Arr → Arr) : (s.modA a f).getA a = f (s.getA a) := by
  simp [State.modA]
theorem State.getA_modA (s : State) (a b : Nat) (f : Arr → Arr) : (s.modA a f).getA b = if b = a then f (s.getA a) else s.getA b := by
  simp [State.modA, State.getA_setA]
theorem State.getA_modA_ne (s : State) (a b : Nat) (f : Arr → Arr) (h : b ≠ a) : (s.modA a f).getA b = s.getA b := by
  simp [State.getA_modA, h]
@[simp] theorem State.getD_modD_same (s : State) (d : Nat) (f : Die → Die) : (s.modD d f).getD d = f (s.getD d) := by
  simp [State.modD, State.setD, State.getD, SMap.get_set]
theorem State.getD_modD (s : State) (d e : Nat) (f : Die → Die) : (s.modD d f).getD e = if e = d then f (s.getD d) else s.getD e := by
  simp [State.modD, State.setD, State.getD, SMap.get_set]
@[simp] theorem State.getQ_modQ_same (s : State) (q : Nat) (f : Quad → Quad) : (s.modQ q f).getQ q = f (s.getQ q) := by
  simp [State.modQ, State.getQ, SMap.mod, SMap.get_set]
@[simp] theorem State.getU_modU_same (s : State) (q : Nat) (f : Queue → Queue) : (s.modU q f).getU q = f (s.getU q) := by
  simp [State.modU, State.getU, SMap.mod, SMap.get_set]
@[simp] theorem State.getP_modP_same (s : State) (p : Nat) (f : Part → Part) : (s.modP p f).getP p = f (s.getP p) := by
  simp [State.modP, State.getP, SMap.mod, SMap.get_set]
@[simp] theorem State.getA_modD (s : State) (a d : Nat) (f : Die → Die) : (s.modD d f).getA a = s.getA a := rfl
@[simp] theorem State.getD_modA (s : State) (a d : Nat) (f : Arr → Arr) : (s.modA a f).getD d = s.getD d := rfl
@[simp] theorem State.byte_modA (s : State) (a k : Nat) (f : Arr → Arr) : (s.modA a f).byte k = s.byte k := rfl

end Sys2Proof.Machine
end

