-- ==== Sys2Proof/Laws/Issue.lean ====
section
/-! SUPPORT. What the issue of one slot can do: a slot that meets no check and no hold issues its bundle and has its effect; what `forward`
and `began` leave unchanged. -/

namespace Sys2Proof.Machine

open Sys2Proof

/-- The context a slot's checks and effect are given. -/
def State.slotOf (s : State) (ext : Nat) (m : SlotSem) : Ctx := { s.slot ext with shld := m.shld }

/-- Nothing stands against the issue of a slot: no guard, no cause of R76, no hold of R81. -/
structure Clear (ext : Nat) (m : SlotSem) (s : State) : Prop where
  sound : s.regsSound = true
  chk : m.chk = false
  preds : ∀ p ∈ m.preds, s.here.open_ p = true
  stages : ∀ e, m.gx = some e → e.ge = true → bitAt s.here.sca.g e.gi.toNat = true
  priv : m.priv = true → s.here.atS = true
  lead : m.xfer = true → s.here.tsk.rank = 0
  ill : m.ill (s.slotOf ext m) s = false
  regs : ∀ r ∈ m.regs, r.unalloc s.here = false
  srcs : ∀ r ∈ m.srcs, r.invalid s.here = false ∧ r.splitBad s.here = false
  own : m.own (s.slotOf ext m) s = []
  heads : ∀ q ∈ m.heads, (s.here.headAt q).isSome = true ∧ q < 256
  hold : m.hold (s.slotOf ext m) s = false
  pf : m.pf (s.slotOf ext m) s = none
  look : m.look (s.slotOf ext m) s = s

/-- The state after the issue of a slot, in terms of its effect. -/
def issued (ext : Nat) (m : SlotSem) (s : State) : State :=
  let c := s.slotOf ext m
  let s1 := (m.eff c (s.modA s.cur fun x => x.began s.now c.len (if m.cls = .vector then 1 else 0) 0 true)).modA s.cur id
  if s.here.atS then s1 else forward c s1

/-- Counting an event changes performance counters alone. -/
theorem Arr.count_eq (x : Arr) (ev k : Nat) : ∃ m, x.count ev k = { x with csr := { x.csr with pmc := m } } := by
  unfold Arr.count
  let P (y : Arr) : Prop := ∃ m, y = { x with csr := { x.csr with pmc := m } }
  refine List.foldlRecOn (motive := P) _ _ ?_ ?_
  · exact ⟨x.csr.pmc, rfl⟩
  · rintro y ⟨m, rfl⟩ i -
    dsimp only
    split <;> split <;> exact ⟨_, rfl⟩
@[simp] theorem Arr.count_sca (x : Arr) (ev k : Nat) : (x.count ev k).sca = x.sca := by obtain ⟨m, h⟩ := x.count_eq ev k; rw [h]
@[simp] theorem Arr.count_cel (x : Arr) (ev k : Nat) : (x.count ev k).cel = x.cel := by obtain ⟨m, h⟩ := x.count_eq ev k; rw [h]
@[simp] theorem Arr.count_mat (x : Arr) (ev k : Nat) : (x.count ev k).mat = x.mat := by obtain ⟨m, h⟩ := x.count_eq ev k; rw [h]
@[simp] theorem Arr.count_cpy (x : Arr) (ev k : Nat) : (x.count ev k).cpy = x.cpy := by obtain ⟨m, h⟩ := x.count_eq ev k; rw [h]
@[simp] theorem Arr.count_tsk (x : Arr) (ev k : Nat) : (x.count ev k).tsk = x.tsk := by obtain ⟨m, h⟩ := x.count_eq ev k; rw [h]
@[simp] theorem Arr.count_tlb (x : Arr) (ev k : Nat) : (x.count ev k).tlb = x.tlb := by obtain ⟨m, h⟩ := x.count_eq ev k; rw [h]
@[simp] theorem Arr.count_itg (x : Arr) (ev k : Nat) : (x.count ev k).itg = x.itg := by obtain ⟨m, h⟩ := x.count_eq ev k; rw [h]
@[simp] theorem Arr.count_prv (x : Arr) (ev k : Nat) : (x.count ev k).csr.prv = x.csr.prv := by obtain ⟨m, h⟩ := x.count_eq ev k; rw [h]

/-! ## Sound register storage -/

theorem SMap.get_of_forall_ne {α : Type} {d : α} {m : SMap α} {k : Nat} (h : ∀ e ∈ m, e.1 ≠ k) : SMap.get d m k = d := by
  unfold SMap.get
  suffices SMap.find m k = none by simp [this]
  induction m with
  | nil => rfl
  | cons e m ih =>
    obtain ⟨i, w⟩ := e
    simp [SMap.find, h (i, w) (by simp), ih fun e he => h e (by simp [he])]

/-- A fold whose every step leaves the state. -/
theorem foldl_fixed {α β : Type} {f : β → α → β} {b : β} {l : List α} (h : ∀ e ∈ l, f b e = b) : l.foldl f b = b := by
  induction l with
  | nil => rfl
  | cons e l ih => rw [List.foldl_cons, h e (by simp), ih fun x hx => h x (by simp [hx])]

theorem regRead_sound {s : State} (h : s.regsSound = true) {cls n : Nat} (hk : cls * 2 ^ 32 + n < 2 ^ 40) : s.regRead s.cur cls n = s := by
  have he : SMap.get 0 s.err (regKey s.cur cls n) = 0 := by
    refine SMap.get_of_forall_ne fun e he => ?_
    have := List.all_eq_true.mp h e he
    rw [Bool.or_eq_true, decide_eq_true_iff, decide_eq_true_iff] at this
    unfold regKey at this ⊢
    omega
  simp [State.regRead, he]

theorem regsRead_sound {s : State} (h : s.regsSound = true) {cls lo hi : Nat} (hk : cls * 2 ^ 32 + hi ≤ 2 ^ 40) :
    s.regsRead s.cur cls lo hi = s := by
  unfold State.regsRead
  split
  · rfl
  · refine foldl_fixed fun n hn => ?_
    obtain ⟨e, he, rfl⟩ := List.mem_map.mp hn
    obtain ⟨he, hr⟩ := List.mem_filter.mp he
    have := List.all_eq_true.mp h e he
    rw [Bool.or_eq_true, decide_eq_true_iff, decide_eq_true_iff] at this
    rw [Bool.and_eq_true, decide_eq_true_iff, decide_eq_true_iff] at hr
    refine regRead_sound h ?_
    unfold regKey at this hr ⊢
    omega

theorem vphys_lt (rrb : BitVec 5) (n : R6) : vphys rrb n < 64 := by
  unfold vphys
  have := n.isLt
  split <;> omega

theorem rrRead_sound {s : State} (h : s.regsSound = true) (r : RR) : s.rrRead s.cur r = s := by
  cases r with
  | s n =>
    have := n.isLt
    dsimp only [State.rrRead]
    split
    · exact regRead_sound (cls := 14) (n := n.toNat - 56) h (by omega)
    · exact regRead_sound (cls := 0) (n := n.toNat) h (by omega)
  | a n => exact regRead_sound h (by have := n.isLt; omega)
  | p n => exact regRead_sound h (by have := n.isLt; omega)
  | v n => exact regsRead_sound h (by have := vphys_lt (s.getA s.cur).sca.rrb n; omega)
  | m n => exact regsRead_sound h (by have := n.isLt; omega)
  | acc n => exact regsRead_sound h (by have := n.isLt; omega)

/-- Sound storage is read without a change, whatever one slot names. -/
theorem checkRegs_sound {s : State} (h : s.regsSound = true) (x : Arr) (e : Slot) (hh : ∀ q ∈ e.sem.heads, q < 256) :
    checkRegs s.cur x [e] s = s := by
  have hp : e.sem.preds.foldl (fun (s' : State) p => s'.rrRead s.cur (.p p)) s = s := foldl_fixed fun p _ => rrRead_sound h _
  have hs : e.sem.srcs.foldl (fun (s' : State) r => s'.rrRead s.cur r) s = s := foldl_fixed fun r _ => rrRead_sound h r
  have hq : e.sem.heads.foldl (fun (s' : State) q => s'.regRead s.cur 10 q) s = s :=
    foldl_fixed fun q hq => regRead_sound h (by have := hh q hq; omega)
  have h4 : s.regsRead s.cur 4 0 8192 = s := regsRead_sound h (by omega)
  have h5 : s.regsRead s.cur 5 0 1024 = s := regsRead_sound h (by omega)
  have h9 : s.regsRead s.cur 9 0 128 = s := regsRead_sound h (by omega)
  unfold checkRegs
  simp only [List.foldl_cons, List.foldl_nil, hp, hs, hq, h4, h5, h9, ite_self]

theorem not_squashed {m : SlotSem} {s : State} {ext : Nat} (h : Clear ext m s) (l : List Slot) : squashed s.here l { idx := 1, sem := m } = false := by
  have hg : Slot.guardOff s.here { idx := 1, sem := m } = false := by
    unfold Slot.guardOff
    simp only [Bool.or_eq_false_iff, List.any_eq_false, Bool.not_eq_true']
    refine ⟨fun p hp => ?_, fun i hi => ?_⟩
    · have := h.preds p hp
      simp [Arr.open_] at this
      simp [this.1]
    · simp only [Slot.stages, Option.toList, List.nil_append] at hi
      cases he : m.gx with
      | none => simp [he] at hi
      | some e =>
        cases hge : e.ge with
        | false => simp [he, hge] at hi
        | true =>
          simp [he, hge] at hi
          subst hi
          simp [h.stages e he hge]
  unfold squashed
  simp only [hg, Bool.false_or, List.any_eq_false, Bool.and_eq_true, not_and, beq_iff_eq]
  intro p _ hp
  simp at hp

/-- A slot against which nothing stands issues, and has its effect on the array that has begun to issue. -/
theorem runSlot_clear {ext : Nat} {m : SlotSem} {s : State} (h : Clear ext m s) : runSlot ext m s = issued ext m s := by
  have hq : squashed (s.getA s.cur) [{ idx := 1, sem := m }] { idx := 1, sem := m } = false :=
    not_squashed h _
  have hmute : Slot.mute (s.getA s.cur) { idx := 1, sem := m } = false := by
    unfold Slot.mute
    cases hx : m.xfer with
    | false => simp
    | true => have := h.lead hx; simp [State.here] at this; simp [this]
  have hpp : (m.preds.filter fun p => (s.getA s.cur).pPois p) = [] := by
    rw [List.filter_eq_nil_iff]
    intro p hp
    have := h.preds p hp
    simp [Arr.open_, State.here] at this
    simp [this.2]
  have hreg : (m.regs.filter (·.unalloc (s.getA s.cur))) = [] := by
    rw [List.filter_eq_nil_iff]
    intro r hr
    have := h.regs r hr
    simp [State.here] at this
    simp [this]
  have hsi : (m.srcs.filter (·.invalid (s.getA s.cur))) = [] := by
    rw [List.filter_eq_nil_iff]
    intro r hr
    have := (h.srcs r hr).1
    simp [State.here] at this
    simp [this]
  have hss : (m.srcs.filter (·.splitBad (s.getA s.cur))) = [] := by
    rw [List.filter_eq_nil_iff]
    intro r hr
    have := (h.srcs r hr).2
    simp [State.here] at this
    simp [this]
  have hpr : (m.priv && !(s.getA s.cur).atS) = false := by
    cases hx : m.priv with
    | false => simp
    | true => have := h.priv hx; simp [State.here] at this; simp [this]
  have hown := h.own
  have hill := h.ill
  have hhold := h.hold
  have hpf := h.pf
  have hheads : (m.heads.any fun q => ((s.getA s.cur).headAt q).isNone) = false := by
    rw [List.any_eq_false]
    intro q hq'
    have := (h.heads q hq').1
    simp [State.here] at this
    cases hh : (s.getA s.cur).headAt q with
    | none => simp [hh] at this
    | some v => simp
  have hlist : ([{ idx := 1, sem := m }] : List Slot).any (fun e => e.sem.shld && !squashed (s.getA s.cur) [{ idx := 1, sem := m }] e)
      = m.shld := by simp [hq]
  have hctx : (⟨s.cur, s.now, (s.getA s.cur).sca.pc, max 4 (2 + ext), 1, 0#8, 0, m.shld⟩ : Ctx) = s.slotOf ext m := rfl
  have hst : slotTraps ⟨s.cur, s.now, (s.getA s.cur).sca.pc, max 4 (2 + ext), 0, 0#8, 0, m.shld⟩ (s.getA s.cur) false
      { idx := 1, sem := m } s = [] := by
    unfold slotTraps
    simp only [hmute, hpr, hreg, hpp, hsi, hss, hctx, hown, hill]
    simp
  have htr : ∀ h' : Hdr, h' = Hdr.plain → pickTrap (hdrTraps h' (s.getA s.cur) ++
      allTraps ⟨s.cur, s.now, (s.getA s.cur).sca.pc, max 4 (2 + ext), 0, 0#8, 0, m.shld⟩ (s.getA s.cur)
        [{ idx := 1, sem := m }] [{ idx := 1, sem := m }] s s) = none := by
    intro h' hh
    subst hh
    have : allTraps ⟨s.cur, s.now, (s.getA s.cur).sca.pc, max 4 (2 + ext), 0, 0#8, 0, m.shld⟩ (s.getA s.cur)
        [{ idx := 1, sem := m }] [{ idx := 1, sem := m }] s s = [] := by
      unfold allTraps
      simp only [hq, hst]
      split <;> simp [allTraps]
    rw [this]
    simp [hdrTraps, Hdr.plain, pickTrap]
  have hho : holdOf ⟨s.cur, s.now, (s.getA s.cur).sca.pc, max 4 (2 + ext), 0, 0#8, 0, m.shld⟩ Hdr.plain (s.getA s.cur)
      [{ idx := 1, sem := m }] s = .none := by
    have hw : waitHeads Hdr.plain (s.getA s.cur) [{ idx := 1, sem := m }] = m.heads := by
      have hf : (List.range 8).filter (fun q => bitAt Hdr.plain.pop q) = [] := by decide
      unfold waitHeads
      rw [hf]
      simp [hq]
    unfold holdOf
    rw [hw, hheads]
    simp only [List.any_cons, List.any_nil, hq, hctx, hhold]
    simp [Hdr.plain]
  have hfs : ([({ idx := 1, sem := m } : Slot)].findSome? fun e =>
      if squashed (s.getA s.cur) [{ idx := 1, sem := m }] e then none else
        e.sem.pf { (⟨s.cur, s.now, (s.getA s.cur).sca.pc, max 4 (2 + ext), 0, 0#8, 0, m.shld⟩ : Ctx) with slot := e.idx } s) = none := by
    simp only [List.findSome?, hq, hctx, hpf]
    simp
  have hlk : looks ⟨s.cur, s.now, (s.getA s.cur).sca.pc, max 4 (2 + ext), 0, 0#8, 0, m.shld⟩ (s.getA s.cur)
      [{ idx := 1, sem := m }] [{ idx := 1, sem := m }] s = s := by
    simp only [looks, hq, hmute, hctx]
    simpa using h.look
  have hrun : ∀ t : State, runSlots ⟨s.cur, s.now, (s.getA s.cur).sca.pc, max 4 (2 + ext), 0, 0#8, 0, m.shld⟩ (s.getA s.cur)
      [{ idx := 1, sem := m }] [{ idx := 1, sem := m }] t = m.eff (s.slotOf ext m) t := by
    intro t
    simp only [runSlots, hq, hmute, hctx]
    simp
  have hbeg : ∀ y : Arr, y = s.getA s.cur → tally ⟨s.cur, s.now, (s.getA s.cur).sca.pc, max 4 (2 + ext), 0, 0#8, 0, m.shld⟩ (s.getA s.cur)
      [{ idx := 1, sem := m }] (startIssue ⟨s.cur, s.now, (s.getA s.cur).sca.pc, max 4 (2 + ext), 0, 0#8, 0, m.shld⟩ y) =
      y.began s.now (max 4 (2 + ext)) (if m.cls = .vector then 1 else 0) 0 true := by
    intro y hy
    subst hy
    unfold tally Arr.began startIssue
    simp only [List.filter_cons, List.filter_nil, List.all_cons, List.all_nil, hq, Ctx.next]
    by_cases hc : m.cls = .vector <;> simp [hc] <;> rfl
  have hend : endIssue Hdr.plain ⟨s.cur, s.now, (s.getA s.cur).sca.pc, max 4 (2 + ext), 0, 0#8, 0, m.shld⟩
      ((s.getA s.cur).sca.lc != 0#64) = id := by
    funext x
    simp [endIssue, Hdr.plain, List.range, List.range.loop, bitAt]
  unfold runSlot issueSlots
  simp only [h.chk, Bool.false_eq_true, if_false, checkRegs_sound h.sound _ { idx := 1, sem := m } fun q hq => (h.heads q hq).2, hlist]
  have hpop : Hdr.plain.pop = 0#8 := rfl
  rw [hpop, htr _ rfl, hho]
  simp only [hlk, hfs]
  simp only [hrun, hend]
  unfold issued
  simp only [State.here]
  have hm : (s.modA s.cur fun y => tally ⟨s.cur, s.now, (s.getA s.cur).sca.pc, max 4 (2 + ext), 0, 0#8, 0, m.shld⟩ (s.getA s.cur)
      [{ idx := 1, sem := m }] (startIssue ⟨s.cur, s.now, (s.getA s.cur).sca.pc, max 4 (2 + ext), 0, 0#8, 0, m.shld⟩ y)) =
      s.modA s.cur fun x => x.began s.now (s.slotOf ext m).len (if m.cls = .vector then 1 else 0) 0 true := by
    exact congrArg (s.setA s.cur) (hbeg _ rfl)
  rw [hm]
  rfl

@[simp] theorem Arr.began_tsk (x : Arr) (now len nv nsq : Nat) (e : Bool) : (x.began now len nv nsq e).tsk = x.tsk := by
  unfold Arr.began
  dsimp only
  repeat' split
  all_goals simp
@[simp] theorem Arr.began_cpy (x : Arr) (now len nv nsq : Nat) (e : Bool) : (x.began now len nv nsq e).cpy = x.cpy := by
  unfold Arr.began
  dsimp only
  repeat' split
  all_goals simp
@[simp] theorem Arr.began_mat (x : Arr) (now len nv nsq : Nat) (e : Bool) : (x.began now len nv nsq e).mat = x.mat := by
  unfold Arr.began
  dsimp only
  repeat' split
  all_goals simp
@[simp] theorem Arr.began_tlb (x : Arr) (now len nv nsq : Nat) (e : Bool) : (x.began now len nv nsq e).tlb = x.tlb := by
  unfold Arr.began
  dsimp only
  repeat' split
  all_goals simp
@[simp] theorem Arr.began_itg (x : Arr) (now len nv nsq : Nat) (e : Bool) : (x.began now len nv nsq e).itg = x.itg := by
  unfold Arr.began
  dsimp only
  repeat' split
  all_goals simp
@[simp] theorem Arr.began_prv (x : Arr) (now len nv nsq : Nat) (e : Bool) : (x.began now len nv nsq e).csr.prv = x.csr.prv := by
  unfold Arr.began
  dsimp only
  repeat' split
  all_goals simp
/-- The scalar side of an array that has begun to issue: its sequencing fields alone have changed. -/
@[simp] theorem Arr.began_sca (x : Arr) (now len nv nsq : Nat) (e : Bool) : (x.began now len nv nsq e).sca =
    { x.sca with pc := x.sca.pc + BitVec.ofNat 32 (4 * len), far := false, readyAt := now + 1, issuedAt := some now, hWait := x.atS && x.sca.hWait } := by
  unfold Arr.began
  dsimp only
  repeat' split
  all_goals simp
@[simp] theorem Arr.began_atS (x : Arr) (now len nv nsq : Nat) (e : Bool) : (x.began now len nv nsq e).atS = x.atS := by
  simp [Arr.atS]

/-- What the chain's stream changes: `fed`. -/
theorem forward_getA (c : Ctx) (s t : State) (hc : c.a = s.cur) (ht : c.t = s.now) (hp : c.pc = s.here.sca.pc)
    (hm : (t.getA s.cur).tsk.members = s.here.tsk.members) (hr : (t.getA s.cur).tsk.rank = s.here.tsk.rank)
    (hd : (t.getA s.cur).tsk.dhop = s.here.tsk.dhop) (b : Nat) :
    (if s.here.atS then t else forward c t).getA b = s.fed (t.getA s.cur) b (t.getA b) := by
  unfold State.fed forward
  cases ha : s.here.atS with
  | true => simp [ha]
  | false =>
    simp only [hc, ht, hp, hm, hr, hd, ha, Bool.false_eq_true, if_false, Bool.not_false, Bool.true_and]
    cases hx : s.here.tsk.members[s.here.tsk.rank + 1]? with
    | none => simp
    | some d =>
      simp only [State.getA_modA]
      by_cases hb : b = d
      · subst hb; simp
      · simp [hb, Ne.symm hb]

/-- Nothing but arrays differs. -/
def ArrOnly (s t : State) : Prop := t = { s with arr := t.arr }
theorem ArrOnly.trans {s t u : State} (h : ArrOnly s t) (k : ArrOnly t u) : ArrOnly s u := by
  unfold ArrOnly at h k ⊢
  rw [k, h]
theorem arrOnly_modA (s : State) (a : Nat) (f : Arr → Arr) : ArrOnly s (s.modA a f) := rfl
theorem arrOnly_refl (s : State) : ArrOnly s s := rfl
theorem arrOnly_forward (c : Ctx) (s : State) : ArrOnly s (forward c s) := by
  unfold forward
  dsimp only
  split
  · exact arrOnly_refl s
  · exact arrOnly_modA _ _ _

/-- A slot against which nothing stands, and whose effect changes its own array alone. -/
theorem executes_of_getA {i : Instr} {ext nv : Nat} {m : SlotSem} {s : State} {f : Arr → Arr} (hex : exec i s = .next (runSlot ext m s))
    (h : Clear ext m s) (hv : (if m.cls = .vector then 1 else 0) = nv)
    (hg : ∀ b, (m.eff (s.slotOf ext m) (s.modA s.cur fun x => x.began s.now (max 4 (2 + ext)) nv 0 true)).getA b =
      if b = s.cur then f (s.here.began s.now (max 4 (2 + ext)) nv 0 true) else s.getA b)
    (ho : ArrOnly s (m.eff (s.slotOf ext m) (s.modA s.cur fun x => x.began s.now (max 4 (2 + ext)) nv 0 true)))
    (hk : ∀ y : Arr, (f y).tsk.members = y.tsk.members ∧ (f y).tsk.rank = y.tsk.rank ∧ (f y).tsk.dhop = y.tsk.dhop) :
    Executes i s ext nv f := by
  refine ⟨_, hex, ?_⟩
  rw [runSlot_clear h]
  have hlen : (s.slotOf ext m).len = max 4 (2 + ext) := rfl
  have hA : ∀ b, ((m.eff (s.slotOf ext m) (s.modA s.cur fun x => x.began s.now (s.slotOf ext m).len
      (if m.cls = .vector then 1 else 0) 0 true)).modA s.cur id).getA b =
      if b = s.cur then f (s.here.began s.now (max 4 (2 + ext)) nv 0 true) else s.getA b := by
    intro b
    rw [hlen, hv, ← hg b]
    by_cases hb : b = s.cur
    · subst hb; simp
    · simp [hb, State.getA_modA]
  constructor
  · intro b
    unfold issued
    have h0 := hA s.cur
    simp only [if_true] at h0
    rw [forward_getA _ s _ rfl rfl rfl (by rw [h0, (hk _).1]; simp) (by rw [h0, (hk _).2.1]; simp) (by rw [h0, (hk _).2.2]; simp), h0, hA]
  · unfold issued
    dsimp only
    rw [hlen, hv]
    have h1 := ho.trans (arrOnly_modA _ s.cur id)
    split
    · exact h1
    · exact h1.trans (arrOnly_forward _ _)

/-- The same of an effect that is one update of the array. -/
theorem executes_of {i : Instr} {ext nv : Nat} {m : SlotSem} {s : State} {f : Arr → Arr} (hex : exec i s = .next (runSlot ext m s))
    (h : Clear ext m s) (hv : (if m.cls = .vector then 1 else 0) = nv)
    (he : m.eff (s.slotOf ext m) (s.modA s.cur fun x => x.began s.now (max 4 (2 + ext)) nv 0 true) =
      (s.modA s.cur fun x => x.began s.now (max 4 (2 + ext)) nv 0 true).modA s.cur f)
    (hk : ∀ y : Arr, (f y).tsk.members = y.tsk.members ∧ (f y).tsk.rank = y.tsk.rank ∧ (f y).tsk.dhop = y.tsk.dhop) :
    Executes i s ext nv f := by
  refine executes_of_getA hex h hv ?_ ?_ hk
  · intro b
    rw [he]
    by_cases hb : b = s.cur
    · subst hb; simp [State.here]
    · simp [hb, State.getA_modA]
  · rw [he]
    exact (arrOnly_modA s s.cur _).trans (arrOnly_modA _ s.cur f)

end Sys2Proof.Machine
end

