-- ==== Sys2Proof/Laws/Memory.lean ====
section
/-! SUPPORT. Every operation over memory keeps its canonical form. -/

namespace Sys2Proof.Machine

open Sys2Proof

theorem SMap.wfFrom_filter {α : Type} [DecidableEq α] (d : α) (p : Nat × α → Bool) (m : SMap α) (lo : Nat)
    (h : SMap.wfFrom d lo m = true) : SMap.wfFrom d lo (m.filter p) = true := by
  induction m generalizing lo with
  | nil => rfl
  | cons e m ih =>
    obtain ⟨k, v⟩ := e
    simp only [SMap.wfFrom, Bool.and_eq_true, decide_eq_true_eq] at h
    have hm := ih (k + 1) h.2.2
    rw [List.filter_cons]
    split
    · simp only [SMap.wfFrom, Bool.and_eq_true, decide_eq_true_eq]
      exact ⟨h.1, h.2.1, hm⟩
    · exact SMap.wfFrom_mono d _ (by omega) hm

theorem SMap.wf_filter {α : Type} [DecidableEq α] (d : α) (p : Nat × α → Bool) (m : SMap α) (h : m.wf d = true) :
    SMap.wf d (m.filter p) = true := SMap.wfFrom_filter d p m 0 h

/-- What each turn of a fold keeps, the fold keeps. -/
theorem foldl_keeps {α β : Type} (P : α → Prop) (f : α → β → α) (l : List β) (s : α) (hf : ∀ s e, P s → P (f s e)) (h : P s) :
    P (l.foldl f s) := by
  induction l generalizing s with
  | nil => exact h
  | cons e l ih => exact ih _ (hf s e h)

/-- The state's memory is in canonical form. -/
def State.canon (s : State) : Prop := Memory.wf s.mem = true

theorem canon_setByte {s : State} (k : Nat) (b : Byte) (h : s.canon) : (s.setByte k b).canon := SMap.wf_set _ _ _ _ h

theorem canon_setBytes {s : State} (k : Nat) (l : List Byte) (h : s.canon) : (s.setBytes k l).canon := by
  induction l generalizing s k with
  | nil => exact h
  | cons b l ih => exact ih _ (canon_setByte k b h)

theorem canon_writeN {s : State} (k n v : Nat) (h : s.canon) : (s.writeN k n v).canon := by
  induction n generalizing s k v with
  | zero => exact h
  | succ n ih => exact ih _ _ (canon_setByte k _ h)

theorem canon_setPois {s : State} (k : Nat) (b : Bool) (h : s.canon) : (s.setPois k b).canon := h
theorem canon_sound {s : State} (k n : Nat) (h : s.canon) : (s.sound k n).canon := h
theorem canon_modA {s : State} (a : Nat) (f : Arr → Arr) (h : s.canon) : (s.modA a f).canon := h
theorem canon_modD {s : State} (d : Nat) (f : Die → Die) (h : s.canon) : (s.modD d f).canon := h

theorem canon_poisWrite {s : State} (k n : Nat) (p : Bool) (h : s.canon) : (s.poisWrite k n p).canon := by
  unfold State.poisWrite
  dsimp only
  split
  · exact h
  · exact foldl_keeps State.canon _ _ _ (fun s _ h => canon_setPois _ _ h) h

theorem canon_ite {c : Prop} [Decidable c] {s t : State} (hs : s.canon) (ht : t.canon) : (if c then s else t).canon := by
  split
  · exact hs
  · exact ht

theorem canon_msg {s : State} (f vec : Nat) (h : s.canon) : (s.msg f vec).canon := h
theorem canon_dev {s : State} (d : Dev) (h : s.canon) : ({ s with dev := d } : State).canon := h
theorem canon_err {s : State} (e : SMap Nat) (h : s.canon) : ({ s with err := e } : State).canon := h

theorem canon_wholeUnit {s : State} (u : Nat) (l : List Byte) (h : s.canon) : (s.wholeUnit u l).canon := by
  unfold State.wholeUnit
  exact canon_err _ (canon_setPois _ _ (canon_setBytes _ _ h))

theorem canon_errRecord {s : State} (ty reason die part qa rix tag detail addr : Nat) (h : s.canon) :
    (s.errRecord ty reason die part qa rix tag detail addr).canon := by
  unfold State.errRecord
  lift_lets
  intro d full bytes t
  exact canon_msg _ _ (canon_dev _ (canon_wholeUnit _ bytes h))

/-- An uncorrectable event writes its record, and nothing else of memory. -/
theorem canon_uncorrectable {s : State} (die place qa addr : Nat) (h : s.canon) : (s.uncorrectable die place qa addr).canon :=
  canon_errRecord _ _ _ _ _ _ _ _ _ (canon_modD _ _ h)

theorem canon_unitRead {s : State} (u k place : Nat) (h : s.canon) : (s.unitRead u k place).canon := by
  unfold State.unitRead
  dsimp only
  split
  · exact h
  · split
    · exact canon_uncorrectable _ _ _ _ h
    · exact canon_modD _ _ h

theorem canon_physRead {s : State} (pa n : Nat) (h : s.canon) : (s.physRead pa n).2.canon := by
  unfold State.physRead
  dsimp only
  refine canon_ite h (foldl_keeps State.canon _ _ _ (fun s u h => ?_) h)
  exact canon_ite (canon_unitRead _ _ _ h) (canon_unitRead _ _ _ (canon_unitRead _ _ _ h))

theorem canon_physFix {s : State} (pa n : Nat) (h : s.canon) : (s.physFix pa n).canon := by
  unfold State.physFix
  exact foldl_keeps State.canon _ _ _ (fun s u h => canon_err _ (canon_ite h (canon_physRead _ _ h))) h

theorem canon_spadWrite {s : State} (a off : Nat) (l : List Byte) (p : Bool) (h : s.canon) : (s.spadWrite a off l p).canon := by
  unfold State.spadWrite
  refine canon_modA _ _ (canon_sound _ _ (canon_poisWrite _ _ _ (canon_setBytes _ _ ?_)))
  exact foldl_keeps State.canon _ _ _ (fun s w h => foldl_keeps State.canon _ _ _ (fun s i h => canon_setPois _ _ h) h) h

theorem canon_localWrite {s : State} (a off : Nat) (l : List Byte) (p : Bool) (h : s.canon) : (s.localWrite a off l p).canon :=
  canon_modA _ _ (canon_spadWrite _ _ _ _ h)

theorem canon_keepOld {s : State} (a t off n : Nat) (h : s.canon) : (s.keepOld a t off n).canon := by
  unfold State.keepOld
  exact canon_ite h (canon_modA _ _ h)

theorem canon_performStores {s : State} (a : Nat) (l : List StQ) (h : s.canon) : (s.performStores a l).canon := by
  induction l generalizing s with
  | nil => exact h
  | cons e l ih =>
    unfold State.performStores
    apply ih
    exact canon_ite (canon_setPois _ _ (canon_keepOld _ _ _ _ h)) (canon_localWrite _ _ _ _ (canon_keepOld _ _ _ _ h))

theorem canon_physWrite {s : State} (pa : Nat) (l : List Byte) (p : Bool) (h : s.canon) : (s.physWrite pa l p).canon := by
  unfold State.physWrite
  dsimp only
  refine foldl_keeps State.canon _ _ _ (fun r t h => canon_ite (canon_writeN _ _ _ h) (canon_writeN _ _ _ h)) ?_
  exact canon_poisWrite _ _ _ (canon_setBytes _ _ (canon_ite h (canon_physFix _ _ h)))

theorem canon_devWrite {s : State} (pa : Nat) (l : List Byte) (p : Bool) (h : s.canon) : (s.devWrite pa l p).canon := by
  unfold State.devWrite
  split
  · split
    · exact canon_setBytes _ _ h
    · exact canon_physWrite _ _ _ h
  · exact canon_sound _ _ (canon_poisWrite _ _ _ (canon_setBytes _ _ h))

theorem wf_copyMap {m : SMap Byte} (src dst n : Nat) (h : SMap.wf 0#8 m = true) : SMap.wf 0#8 (copyMap m 0#8 src dst n) = true :=
  foldl_keeps (fun (r : SMap Byte) => SMap.wf 0#8 r = true) _ _ _ (fun _ _ hr => SMap.wf_set _ _ _ _ hr) (SMap.wf_filter _ _ _ h)

theorem canon_copyRange {s : State} (src dst n : Nat) (h : s.canon) : (s.copyRange src dst n).canon := by
  unfold State.copyRange
  exact foldl_keeps State.canon _ _ _ (fun _ _ h => canon_writeN _ _ _ h) (wf_copyMap src dst n (canon_physRead src n h))

theorem canon_harvest {s : State} (k : Tsk) (part pa : Nat) (h : s.canon) : (s.harvest k part pa).canon := by
  unfold State.harvest
  dsimp only
  split
  · exact h
  · split
    · exact h
    · split
      · exact h
      · exact canon_copyRange _ _ _ h

theorem canon_tookWrite {s : State} (e : Home) (n : Nat) (h : s.canon) : (s.tookWrite e n).canon := by
  unfold State.tookWrite
  split
  · exact canon_modA _ _ h
  · exact h
theorem canon_sendFlits {s : State} (pa n : Nat) (h : s.canon) : (s.sendFlits pa n).canon := by
  unfold State.sendFlits State.sendOn
  split
  · exact h
  · exact canon_dev _ h

theorem canon_writeHomeK {s : State} (k : Tsk) (a : Nat) (e : Home) (l : List Byte) (p : Bool) (h : s.canon) :
    (s.writeHomeK k a e l p).canon := by
  have ht := canon_tookWrite e l.length h
  unfold State.writeHomeK
  dsimp only
  split
  · exact canon_modA _ _ (canon_spadWrite _ _ _ _ ht)
  · exact canon_sound _ _ (canon_poisWrite _ _ _ (canon_setBytes _ _ ht))
  · exact canon_ite (canon_sendFlits _ _ (canon_setBytes _ _ (canon_harvest _ _ _ ht))) (canon_physWrite _ _ _ (canon_harvest _ _ _ ht))

theorem canon_writeHome {s : State} (a : Nat) (e : Home) (l : List Byte) (p : Bool) (h : s.canon) : (s.writeHome a e l p).canon :=
  canon_writeHomeK _ _ _ _ _ h

theorem canon_healUnit {s : State} (a id u lo hi : Nat) (c : Bool) (h : s.canon) : (s.healUnit a id u lo hi c).canon := by
  unfold State.healUnit
  exact canon_ite h (canon_ite h h)

theorem canon_writeHomeP {s : State} (k : Tsk) (a id : Nat) (e : Home) (l : List Byte) (ps : List Bool) (h : s.canon) :
    (s.writeHomeP k a id e l ps).canon := by
  have hw := canon_writeHomeK k a e l false h
  unfold State.writeHomeP
  dsimp only
  refine canon_ite hw ?_
  have hp : ∀ t : State, t.canon → ∀ m, (ps.zipIdx.foldl (fun (s : State) e => if e.1 then s.setPois (m + e.2) true else s) t).canon :=
    fun t ht m => foldl_keeps State.canon _ _ _ (fun s e h => canon_ite (canon_setPois _ _ h) h) ht
  split
  · exact foldl_keeps State.canon _ _ _ (fun s i h => canon_healUnit _ _ _ _ _ _ h) (hp _ hw _)
  · exact hp _ hw _

theorem canon_vaultFix {s : State} (b off : Nat) (h : s.canon) : (s.vaultFix b off).canon := by
  unfold State.vaultFix
  dsimp only
  exact canon_ite h (canon_ite (canon_modD _ _ h) (canon_uncorrectable _ _ _ _ (canon_setPois _ _ (canon_err _ h))))

theorem canon_devRead {s : State} (pa n : Nat) (h : s.canon) : (s.devRead pa n).canon := by
  unfold State.devRead
  split
  · exact foldl_keeps (fun (r : Bool × State) => r.2.canon) _ _ _ (fun r w hr => canon_vaultFix _ _ hr) h
  · exact canon_physRead _ _ h

theorem canon_putFault {s : State} (die : Nat) (r : List Byte) (h : s.canon) : (s.putFault die r).canon := by
  unfold State.putFault
  lift_lets
  intro d t wix rix u v
  have ht : t.canon := canon_devRead _ _ h
  have hv : v.canon := canon_physWrite _ _ _ (canon_physWrite _ _ _ ht)
  exact canon_ite (canon_physWrite _ _ _ ht) (canon_ite (canon_modD _ _ hv) hv)

theorem canon_recWrite {s : State} (l : Launch) (off : Nat) (bs : List Byte) (h : s.canon) : (s.recWrite l off bs).canon := by
  unfold State.recWrite
  dsimp only
  exact canon_ite (canon_devWrite _ _ _ h) (canon_devWrite _ _ _ (canon_devWrite _ _ _ h))

theorem canon_padSet {s : State} (a lo hi : Nat) (bytes : SMap Byte) (pz : SMap Bool) (h : s.canon) :
    (s.padSet a lo hi bytes pz).canon := by
  unfold State.padSet
  dsimp only
  apply canon_modA
  refine foldl_keeps State.canon _ _ _ (fun s e h => canon_setPois _ _ h) ?_
  refine foldl_keeps State.canon _ _ _ (fun s e h => canon_setByte _ _ h) ?_
  exact SMap.wf_filter _ _ _ h

theorem canon_padLoad {s : State} (a : Nat) (k : Tsk) (f : SMap Byte) (h : s.canon) : (s.padLoad a k f).canon :=
  canon_padSet _ _ _ _ _ h

end Sys2Proof.Machine
end

