-- ==== Sys2Proof/Laws/PerInstr.lean ====
section
/-! SUPPORT. The statement made instruction by instruction: the words that encode an instruction are at most three (R69), and none of
them has S = 1 (R64), which only the last slot of a bundle has. -/

namespace Sys2Proof

theorem wS_append (x : BitVec 31) : (0#1 ++ x).getLsbD 31 = false := by
  rw [BitVec.getLsbD_append]; simp

theorem wS_mkWord (op : BitVec 9) (d a b : R6) (m : BitVec 4) : wS (mkWord op d a b m) = false := wS_append _

theorem wS_mkExt (p : BitVec 22) : wS (mkExt p) = false := wS_append _

theorem wS_hdrWord (h : Hdr) : wS (hdrWord h) = false := wS_append _

/-- The words of a slot taken apart: one to three, S = 0 in each. -/
theorem rawWords_words (r : Raw) : (rawWords r).length ≤ 3 ∧ ∀ w ∈ rawWords r, wS w = false := by
  obtain ⟨op, d, a, b, m, gx, pl⟩ := r
  cases gx <;> cases pl <;> simp [rawWords, wS_mkWord, wS_mkExt]

/-- The words of any instruction. -/
theorem encode_words (i : Instr) : (encode i).length ≤ 3 ∧ ∀ w ∈ encode i, wS w = false := by
  unfold encode
  split
  · simp [wS_hdrWord]
  · split
    · exact rawWords_words _
    · simp

/-- What the family says of an instruction. -/
def Laws.EncodedWords.Statement (i : Instr) : Prop := (encode i).length ≤ 3 ∧ ∀ w ∈ encode i, wS w = false

theorem Laws.EncodedWords.bundleIssue (h : Hdr) : Laws.EncodedWords.Statement (Instr.bundleIssue h) := encode_words _
theorem Laws.EncodedWords.nop : Laws.EncodedWords.Statement (Instr.nop) := encode_words _
theorem Laws.EncodedWords.add (g : SG) (d a b : R6) : Laws.EncodedWords.Statement (Instr.add g d a b) := encode_words _
theorem Laws.EncodedWords.sub (g : SG) (d a b : R6) : Laws.EncodedWords.Statement (Instr.sub g d a b) := encode_words _
theorem Laws.EncodedWords.mul (g : SG) (d a b : R6) : Laws.EncodedWords.Statement (Instr.mul g d a b) := encode_words _
theorem Laws.EncodedWords.mulh (g : SG) (d a b : R6) : Laws.EncodedWords.Statement (Instr.mulh g d a b) := encode_words _
theorem Laws.EncodedWords.div (g : SG) (d a b : R6) : Laws.EncodedWords.Statement (Instr.div g d a b) := encode_words _
theorem Laws.EncodedWords.rem (g : SG) (d a b : R6) : Laws.EncodedWords.Statement (Instr.rem g d a b) := encode_words _
theorem Laws.EncodedWords.and (g : SG) (d a b : R6) : Laws.EncodedWords.Statement (Instr.and g d a b) := encode_words _
theorem Laws.EncodedWords.or (g : SG) (d a b : R6) : Laws.EncodedWords.Statement (Instr.or g d a b) := encode_words _
theorem Laws.EncodedWords.xor (g : SG) (d a b : R6) : Laws.EncodedWords.Statement (Instr.xor g d a b) := encode_words _
theorem Laws.EncodedWords.andn (g : SG) (d a b : R6) : Laws.EncodedWords.Statement (Instr.andn g d a b) := encode_words _
theorem Laws.EncodedWords.shl (g : SG) (d a b : R6) : Laws.EncodedWords.Statement (Instr.shl g d a b) := encode_words _
theorem Laws.EncodedWords.shr (g : SG) (d a b : R6) : Laws.EncodedWords.Statement (Instr.shr g d a b) := encode_words _
theorem Laws.EncodedWords.sar (g : SG) (d a b : R6) : Laws.EncodedWords.Statement (Instr.sar g d a b) := encode_words _
theorem Laws.EncodedWords.rol (g : SG) (d a b : R6) : Laws.EncodedWords.Statement (Instr.rol g d a b) := encode_words _
theorem Laws.EncodedWords.min (g : SG) (d a b : R6) : Laws.EncodedWords.Statement (Instr.min g d a b) := encode_words _
theorem Laws.EncodedWords.max (g : SG) (d a b : R6) : Laws.EncodedWords.Statement (Instr.max g d a b) := encode_words _
theorem Laws.EncodedWords.clz (g : SG) (d a : R6) : Laws.EncodedWords.Statement (Instr.clz g d a) := encode_words _
theorem Laws.EncodedWords.popc (g : SG) (d a : R6) : Laws.EncodedWords.Statement (Instr.popc g d a) := encode_words _
theorem Laws.EncodedWords.addImm (g : SG) (d a : R6) (i : Imm 28) : Laws.EncodedWords.Statement (Instr.addImm g d a i) := encode_words _
theorem Laws.EncodedWords.subImm (g : SG) (d a : R6) (i : Imm 28) : Laws.EncodedWords.Statement (Instr.subImm g d a i) := encode_words _
theorem Laws.EncodedWords.mulImm (g : SG) (d a : R6) (i : Imm 28) : Laws.EncodedWords.Statement (Instr.mulImm g d a i) := encode_words _
theorem Laws.EncodedWords.mulhImm (g : SG) (d a : R6) (i : Imm 28) : Laws.EncodedWords.Statement (Instr.mulhImm g d a i) := encode_words _
theorem Laws.EncodedWords.divImm (g : SG) (d a : R6) (i : Imm 28) : Laws.EncodedWords.Statement (Instr.divImm g d a i) := encode_words _
theorem Laws.EncodedWords.remImm (g : SG) (d a : R6) (i : Imm 28) : Laws.EncodedWords.Statement (Instr.remImm g d a i) := encode_words _
theorem Laws.EncodedWords.andImm (g : SG) (d a : R6) (i : Imm 28) : Laws.EncodedWords.Statement (Instr.andImm g d a i) := encode_words _
theorem Laws.EncodedWords.orImm (g : SG) (d a : R6) (i : Imm 28) : Laws.EncodedWords.Statement (Instr.orImm g d a i) := encode_words _
theorem Laws.EncodedWords.xorImm (g : SG) (d a : R6) (i : Imm 28) : Laws.EncodedWords.Statement (Instr.xorImm g d a i) := encode_words _
theorem Laws.EncodedWords.andnImm (g : SG) (d a : R6) (i : Imm 28) : Laws.EncodedWords.Statement (Instr.andnImm g d a i) := encode_words _
theorem Laws.EncodedWords.shlImm (g : SG) (d a : R6) (i : Imm 28) : Laws.EncodedWords.Statement (Instr.shlImm g d a i) := encode_words _
theorem Laws.EncodedWords.shrImm (g : SG) (d a : R6) (i : Imm 28) : Laws.EncodedWords.Statement (Instr.shrImm g d a i) := encode_words _
theorem Laws.EncodedWords.sarImm (g : SG) (d a : R6) (i : Imm 28) : Laws.EncodedWords.Statement (Instr.sarImm g d a i) := encode_words _
theorem Laws.EncodedWords.rolImm (g : SG) (d a : R6) (i : Imm 28) : Laws.EncodedWords.Statement (Instr.rolImm g d a i) := encode_words _
theorem Laws.EncodedWords.minImm (g : SG) (d a : R6) (i : Imm 28) : Laws.EncodedWords.Statement (Instr.minImm g d a i) := encode_words _
theorem Laws.EncodedWords.maxImm (g : SG) (d a : R6) (i : Imm 28) : Laws.EncodedWords.Statement (Instr.maxImm g d a i) := encode_words _
theorem Laws.EncodedWords.li (g : SG) (d : R6) (i : Imm 28) : Laws.EncodedWords.Statement (Instr.li g d i) := encode_words _
theorem Laws.EncodedWords.liQ1 (g : SG) (d : R6) (i : Imm 28) : Laws.EncodedWords.Statement (Instr.liQ1 g d i) := encode_words _
theorem Laws.EncodedWords.liQ2 (g : SG) (d : R6) (i : Imm 28) : Laws.EncodedWords.Statement (Instr.liQ2 g d i) := encode_words _
theorem Laws.EncodedWords.mov (g : SG) (k : MovK) : Laws.EncodedWords.Statement (Instr.mov g k) := encode_words _
theorem Laws.EncodedWords.sel (g : SG) (d a b : R6) : Laws.EncodedWords.Statement (Instr.sel g d a b) := encode_words _
theorem Laws.EncodedWords.cmp (g : SG) (c : CmpC) (d : BitVec 3) (a b : R6) : Laws.EncodedWords.Statement (Instr.cmp g c d a b) := encode_words _
theorem Laws.EncodedWords.cmpImm (g : SG) (c : CmpC) (d : BitVec 3) (a : R6) (i : Imm 28) : Laws.EncodedWords.Statement (Instr.cmpImm g c d a i) := encode_words _
theorem Laws.EncodedWords.fadd (g : SG) (dbl : Bool) (d a b : R6) : Laws.EncodedWords.Statement (Instr.fadd g dbl d a b) := encode_words _
theorem Laws.EncodedWords.fsub (g : SG) (dbl : Bool) (d a b : R6) : Laws.EncodedWords.Statement (Instr.fsub g dbl d a b) := encode_words _
theorem Laws.EncodedWords.fmul (g : SG) (dbl : Bool) (d a b : R6) : Laws.EncodedWords.Statement (Instr.fmul g dbl d a b) := encode_words _
theorem Laws.EncodedWords.ffma (g : SG) (dbl : Bool) (d a b : R6) : Laws.EncodedWords.Statement (Instr.ffma g dbl d a b) := encode_words _
theorem Laws.EncodedWords.fdiv (g : SG) (dbl : Bool) (d a b : R6) : Laws.EncodedWords.Statement (Instr.fdiv g dbl d a b) := encode_words _
theorem Laws.EncodedWords.fsqrt (g : SG) (dbl : Bool) (d a : R6) : Laws.EncodedWords.Statement (Instr.fsqrt g dbl d a) := encode_words _
theorem Laws.EncodedWords.fcvt (g : SG) (code : BitVec 4) (d a : R6) : Laws.EncodedWords.Statement (Instr.fcvt g code d a) := encode_words _
theorem Laws.EncodedWords.fcmp (g : SG) (dbl : Bool) (cond : BitVec 3) (d : BitVec 3) (a b : R6) : Laws.EncodedWords.Statement (Instr.fcmp g dbl cond d a b) := encode_words _
theorem Laws.EncodedWords.adda (g : SG) (d a : BitVec 4) (b : R6) : Laws.EncodedWords.Statement (Instr.adda g d a b) := encode_words _
theorem Laws.EncodedWords.lea (g : SG) (d a : BitVec 4) (b : R6) (sh : R6) (disp : BitVec 16) : Laws.EncodedWords.Statement (Instr.lea g d a b sh disp) := encode_words _
theorem Laws.EncodedWords.ld (g : SG) (w : BitVec 2) (d : R6) (a : BitVec 4) (off : Imm 28) : Laws.EncodedWords.Statement (Instr.ld g w d a off) := encode_words _
theorem Laws.EncodedWords.st (g : SG) (w : BitVec 2) (d : R6) (a : BitVec 4) (off : Imm 28) : Laws.EncodedWords.Statement (Instr.st g w d a off) := encode_words _
theorem Laws.EncodedWords.br (g : SG) (disp : Imm 40) : Laws.EncodedWords.Statement (Instr.br g disp) := encode_words _
theorem Laws.EncodedWords.brp (g : SG) (n : Bool) (p : BitVec 3) (disp : Imm 34) : Laws.EncodedWords.Statement (Instr.brp g n p disp) := encode_words _
theorem Laws.EncodedWords.brf (g : SG) (bit : R6) (n : Bool) (reg : BitVec 2) (disp : Imm 28) : Laws.EncodedWords.Statement (Instr.brf g bit n reg disp) := encode_words _
theorem Laws.EncodedWords.call (g : SG) (d : R6) (disp : Imm 34) : Laws.EncodedWords.Statement (Instr.call g d disp) := encode_words _
theorem Laws.EncodedWords.ret (g : SG) (a : R6) : Laws.EncodedWords.Statement (Instr.ret g a) := encode_words _
theorem Laws.EncodedWords.jmpi (g : SG) (a : R6) (disp : Imm 28) : Laws.EncodedWords.Statement (Instr.jmpi g a disp) := encode_words _
theorem Laws.EncodedWords.loop (g : SG) (disp : Imm 40) : Laws.EncodedWords.Statement (Instr.loop g disp) := encode_words _
theorem Laws.EncodedWords.rds (g : SG) (d : R6) (n : R6) : Laws.EncodedWords.Statement (Instr.rds g d n) := encode_words _
theorem Laws.EncodedWords.wrs (g : SG) (n : R6) (a : R6) : Laws.EncodedWords.Statement (Instr.wrs g n a) := encode_words _
theorem Laws.EncodedWords.enq (g : SG) (a : R6) : Laws.EncodedWords.Statement (Instr.enq g a) := encode_words _
theorem Laws.EncodedWords.deq (g : SG) (d : R6) (q : BitVec 3) : Laws.EncodedWords.Statement (Instr.deq g d q) := encode_words _
theorem Laws.EncodedWords.exit (g : SG) (succ : Option R6) : Laws.EncodedWords.Statement (Instr.exit g succ) := encode_words _
theorem Laws.EncodedWords.uret (g : SG) : Laws.EncodedWords.Statement (Instr.uret g) := encode_words _
theorem Laws.EncodedWords.twaitTile (g : SG) (a : R6) : Laws.EncodedWords.Statement (Instr.twaitTile g a) := encode_words _
theorem Laws.EncodedWords.twaitLb (g : SG) (a : R6) : Laws.EncodedWords.Statement (Instr.twaitLb g a) := encode_words _
theorem Laws.EncodedWords.twaitAll (g : SG) : Laws.EncodedWords.Statement (Instr.twaitAll g) := encode_words _
theorem Laws.EncodedWords.xselSet (g : SG) (p : BitVec 2) (a : R6) : Laws.EncodedWords.Statement (Instr.xselSet g p a) := encode_words _
theorem Laws.EncodedWords.xselAndnf (g : SG) (p : BitVec 2) (src : FSrc) : Laws.EncodedWords.Statement (Instr.xselAndnf g p src) := encode_words _
theorem Laws.EncodedWords.yselSet (g : SG) (p : BitVec 2) (a : R6) : Laws.EncodedWords.Statement (Instr.yselSet g p a) := encode_words _
theorem Laws.EncodedWords.yselAndnf (g : SG) (p : BitVec 2) (src : FSrc) : Laws.EncodedWords.Statement (Instr.yselAndnf g p src) := encode_words _
theorem Laws.EncodedWords.vadd (g : VG) (t : VT) (d a b : R6) : Laws.EncodedWords.Statement (Instr.vadd g t d a b) := encode_words _
theorem Laws.EncodedWords.vsub (g : VG) (t : VT) (d a b : R6) : Laws.EncodedWords.Statement (Instr.vsub g t d a b) := encode_words _
theorem Laws.EncodedWords.vmul (g : VG) (t : VT) (d a b : R6) : Laws.EncodedWords.Statement (Instr.vmul g t d a b) := encode_words _
theorem Laws.EncodedWords.vmin (g : VG) (t : VT) (d a b : R6) : Laws.EncodedWords.Statement (Instr.vmin g t d a b) := encode_words _
theorem Laws.EncodedWords.vmax (g : VG) (t : VT) (d a b : R6) : Laws.EncodedWords.Statement (Instr.vmax g t d a b) := encode_words _
theorem Laws.EncodedWords.vabs (g : VG) (t : VT) (d a : R6) : Laws.EncodedWords.Statement (Instr.vabs g t d a) := encode_words _
theorem Laws.EncodedWords.vneg (g : VG) (t : VT) (d a : R6) : Laws.EncodedWords.Statement (Instr.vneg g t d a) := encode_words _
theorem Laws.EncodedWords.vfma (g : VG) (t : VT) (d a b : R6) : Laws.EncodedWords.Statement (Instr.vfma g t d a b) := encode_words _
theorem Laws.EncodedWords.vfms (g : VG) (t : VT) (d a b : R6) : Laws.EncodedWords.Statement (Instr.vfms g t d a b) := encode_words _
theorem Laws.EncodedWords.vshl (g : VG) (t : VT) (d a b : R6) : Laws.EncodedWords.Statement (Instr.vshl g t d a b) := encode_words _
theorem Laws.EncodedWords.vshr (g : VG) (t : VT) (d a b : R6) : Laws.EncodedWords.Statement (Instr.vshr g t d a b) := encode_words _
theorem Laws.EncodedWords.vsar (g : VG) (t : VT) (d a b : R6) : Laws.EncodedWords.Statement (Instr.vsar g t d a b) := encode_words _
theorem Laws.EncodedWords.vand (g : VG) (d a b : R6) : Laws.EncodedWords.Statement (Instr.vand g d a b) := encode_words _
theorem Laws.EncodedWords.vor (g : VG) (d a b : R6) : Laws.EncodedWords.Statement (Instr.vor g d a b) := encode_words _
theorem Laws.EncodedWords.vxor (g : VG) (d a b : R6) : Laws.EncodedWords.Statement (Instr.vxor g d a b) := encode_words _
theorem Laws.EncodedWords.vnot (g : VG) (d a : R6) : Laws.EncodedWords.Statement (Instr.vnot g d a) := encode_words _
theorem Laws.EncodedWords.vcmp (g : VG) (t : VT) (cond : BitVec 3) (d : BitVec 3) (a b : R6) : Laws.EncodedWords.Statement (Instr.vcmp g t cond d a b) := encode_words _
theorem Laws.EncodedWords.vsel (g : VG) (d a b : R6) (m : BitVec 3) : Laws.EncodedWords.Statement (Instr.vsel g d a b m) := encode_words _
theorem Laws.EncodedWords.vmov (g : VG) (k : VMovK) : Laws.EncodedWords.Statement (Instr.vmov g k) := encode_words _
theorem Laws.EncodedWords.vbc (g : VG) (d : R6) (k : VBcK) : Laws.EncodedWords.Statement (Instr.vbc g d k) := encode_words _
theorem Laws.EncodedWords.vcvt (g : VG) (code : BitVec 4) (d a : R6) : Laws.EncodedWords.Statement (Instr.vcvt g code d a) := encode_words _
theorem Laws.EncodedWords.vnrw (g : VG) (d vs ve : R6) (z nf : Bool) (lane fmt : BitVec 2) : Laws.EncodedWords.Statement (Instr.vnrw g d vs ve z nf lane fmt) := encode_words _
theorem Laws.EncodedWords.vwid (g : VG) (code : BitVec 4) (lane : BitVec 2) (d a : R6) : Laws.EncodedWords.Statement (Instr.vwid g code lane d a) := encode_words _
theorem Laws.EncodedWords.vrcp (g : VG) (d a : R6) : Laws.EncodedWords.Statement (Instr.vrcp g d a) := encode_words _
theorem Laws.EncodedWords.vrsq (g : VG) (d a : R6) : Laws.EncodedWords.Statement (Instr.vrsq g d a) := encode_words _
theorem Laws.EncodedWords.vexp2 (g : VG) (d a : R6) : Laws.EncodedWords.Statement (Instr.vexp2 g d a) := encode_words _
theorem Laws.EncodedWords.vlog2 (g : VG) (d a : R6) : Laws.EncodedWords.Statement (Instr.vlog2 g d a) := encode_words _
theorem Laws.EncodedWords.vsin (g : VG) (d a : R6) : Laws.EncodedWords.Statement (Instr.vsin g d a) := encode_words _
theorem Laws.EncodedWords.vcos (g : VG) (d a : R6) : Laws.EncodedWords.Statement (Instr.vcos g d a) := encode_words _
theorem Laws.EncodedWords.vtanh (g : VG) (d a : R6) : Laws.EncodedWords.Statement (Instr.vtanh g d a) := encode_words _
theorem Laws.EncodedWords.vrotx (g : VG) (d a : R6) (x : Dist) : Laws.EncodedWords.Statement (Instr.vrotx g d a x) := encode_words _
theorem Laws.EncodedWords.vbcx (g : VG) (d a : R6) (x : Dist) : Laws.EncodedWords.Statement (Instr.vbcx g d a x) := encode_words _
theorem Laws.EncodedWords.vredx (g : VG) (op : BitVec 3) (t : VT) (d a : R6) (push : Option R6) : Laws.EncodedWords.Statement (Instr.vredx g op t d a push) := encode_words _
theorem Laws.EncodedWords.vscanx (g : VG) (op : BitVec 3) (t : VT) (d a : R6) : Laws.EncodedWords.Statement (Instr.vscanx g op t d a) := encode_words _
theorem Laws.EncodedWords.vroty (g : VG) (d a : R6) (x : Dist) : Laws.EncodedWords.Statement (Instr.vroty g d a x) := encode_words _
theorem Laws.EncodedWords.vbcy (g : VG) (d a : R6) (x : Dist) : Laws.EncodedWords.Statement (Instr.vbcy g d a x) := encode_words _
theorem Laws.EncodedWords.vredy (g : VG) (op : BitVec 3) (t : VT) (d a : R6) (push : Option R6) : Laws.EncodedWords.Statement (Instr.vredy g op t d a push) := encode_words _
theorem Laws.EncodedWords.vscany (g : VG) (op : BitVec 3) (t : VT) (d a : R6) : Laws.EncodedWords.Statement (Instr.vscany g op t d a) := encode_words _
theorem Laws.EncodedWords.vcrw (g : VG) (a : R6) : Laws.EncodedWords.Statement (Instr.vcrw g a) := encode_words _
theorem Laws.EncodedWords.vcrn (g : VG) (d : R6) (wrap : Bool) : Laws.EncodedWords.Statement (Instr.vcrn g d wrap) := encode_words _
theorem Laws.EncodedWords.vcrs (g : VG) (d : R6) (wrap : Bool) : Laws.EncodedWords.Statement (Instr.vcrs g d wrap) := encode_words _
theorem Laws.EncodedWords.vcre (g : VG) (d : R6) (wrap : Bool) : Laws.EncodedWords.Statement (Instr.vcre g d wrap) := encode_words _
theorem Laws.EncodedWords.vcrwN (g : VG) (d : R6) (wrap : Bool) : Laws.EncodedWords.Statement (Instr.vcrwN g d wrap) := encode_words _
theorem Laws.EncodedWords.vshuf (g : VG) (d a b : R6) (e : R6) : Laws.EncodedWords.Statement (Instr.vshuf g d a b e) := encode_words _
theorem Laws.EncodedWords.shpld (g : VG) (e : R6) (a : BitVec 4) (n : R6) : Laws.EncodedWords.Statement (Instr.shpld g e a n) := encode_words _
theorem Laws.EncodedWords.shpsw (g : VG) : Laws.EncodedWords.Statement (Instr.shpsw g) := encode_words _
theorem Laws.EncodedWords.vflag (g : VG) (k : VFlK) : Laws.EncodedWords.Statement (Instr.vflag g k) := encode_words _
theorem Laws.EncodedWords.vld (g : VG) (d : R6) (a : BitVec 4) (off : Imm 28) : Laws.EncodedWords.Statement (Instr.vld g d a off) := encode_words _
theorem Laws.EncodedWords.vst (g : VG) (s : R6) (a : BitVec 4) (off : Imm 28) : Laws.EncodedWords.Statement (Instr.vst g s a off) := encode_words _
theorem Laws.EncodedWords.vldv (g : VG) (d : R6) (a : BitVec 4) (off : Imm 28) : Laws.EncodedWords.Statement (Instr.vldv g d a off) := encode_words _
theorem Laws.EncodedWords.vrdacc (g : VG) (d : R6) (acc : BitVec 3) (j : BitVec 5) : Laws.EncodedWords.Statement (Instr.vrdacc g d acc j) := encode_words _
theorem Laws.EncodedWords.vwracc (g : VG) (acc : BitVec 3) (s : R6) (j : BitVec 5) : Laws.EncodedWords.Statement (Instr.vwracc g acc s j) := encode_words _
theorem Laws.EncodedWords.mln (g : MG) (r : NestRec) (a : BitVec 4) : Laws.EncodedWords.Statement (Instr.mln g r a) := encode_words _
theorem Laws.EncodedWords.mlnK (g : MG) (k : BitVec 4) (a : BitVec 4) : Laws.EncodedWords.Statement (Instr.mlnK g k a) := encode_words _
theorem Laws.EncodedWords.mgoIp (g : MG) (ui : Bool) : Laws.EncodedWords.Statement (Instr.mgoIp g ui) := encode_words _
theorem Laws.EncodedWords.mgoOp (g : MG) (ui : Bool) : Laws.EncodedWords.Statement (Instr.mgoOp g ui) := encode_words _
theorem Laws.EncodedWords.mgoRw (g : MG) (ui : Bool) : Laws.EncodedWords.Statement (Instr.mgoRw g ui) := encode_words _
theorem Laws.EncodedWords.mms (g : MG) (a : BitVec 4) : Laws.EncodedWords.Statement (Instr.mms g a) := encode_words _
theorem Laws.EncodedWords.mwt (g : MG) (a : BitVec 4) : Laws.EncodedWords.Statement (Instr.mwt g a) := encode_words _
theorem Laws.EncodedWords.mswp (g : MG) : Laws.EncodedWords.Statement (Instr.mswp g) := encode_words _
theorem Laws.EncodedWords.mz (g : MG) (acc : BitVec 3) : Laws.EncodedWords.Statement (Instr.mz g acc) := encode_words _
theorem Laws.EncodedWords.mst (g : MG) (acc res : BitVec 3) (a : BitVec 4) (ui ef : Bool) (td : BitVec 8) : Laws.EncodedWords.Statement (Instr.mst g acc res a ui ef td) := encode_words _
theorem Laws.EncodedWords.mla (g : MG) (acc : BitVec 3) (a : BitVec 4) (td : BitVec 8) : Laws.EncodedWords.Statement (Instr.mla g acc a td) := encode_words _
theorem Laws.EncodedWords.mwait (g : MG) : Laws.EncodedWords.Statement (Instr.mwait g) := encode_words _
theorem Laws.EncodedWords.mwaitWt (g : MG) : Laws.EncodedWords.Statement (Instr.mwaitWt g) := encode_words _
theorem Laws.EncodedWords.mstat (g : MG) (d : R6) : Laws.EncodedWords.Statement (Instr.mstat g d) := encode_words _
theorem Laws.EncodedWords.mstatClr (g : MG) (d : R6) : Laws.EncodedWords.Statement (Instr.mstatClr g d) := encode_words _
theorem Laws.EncodedWords.matrixCommandStart (a : Nat) (seq : BitVec 16) : Laws.EncodedWords.Statement (Instr.matrixCommandStart a seq) := encode_words _
theorem Laws.EncodedWords.tileStep (a : Nat) : Laws.EncodedWords.Statement (Instr.tileStep a) := encode_words _
theorem Laws.EncodedWords.matrixCommandComplete (a : Nat) (seq : BitVec 16) : Laws.EncodedWords.Statement (Instr.matrixCommandComplete a seq) := encode_words _
theorem Laws.EncodedWords.mmsArrival (a : Nat) (seq : BitVec 16) : Laws.EncodedWords.Statement (Instr.mmsArrival a seq) := encode_words _
theorem Laws.EncodedWords.holdExpiry (quad : Nat) : Laws.EncodedWords.Statement (Instr.holdExpiry quad) := encode_words _
theorem Laws.EncodedWords.stackStart (quad : Nat) (stk : Nat) : Laws.EncodedWords.Statement (Instr.stackStart quad stk) := encode_words _
theorem Laws.EncodedWords.stackWaitExpiry (quad : Nat) (stk : Nat) : Laws.EncodedWords.Statement (Instr.stackWaitExpiry quad stk) := encode_words _
theorem Laws.EncodedWords.stackComplete (quad : Nat) (stk : Nat) : Laws.EncodedWords.Statement (Instr.stackComplete quad stk) := encode_words _
theorem Laws.EncodedWords.cpy (g : CG) (a : BitVec 4) : Laws.EncodedWords.Statement (Instr.cpy g a) := encode_words _
theorem Laws.EncodedWords.cpyg (g : CG) (a : BitVec 4) : Laws.EncodedWords.Statement (Instr.cpyg g a) := encode_words _
theorem Laws.EncodedWords.cpys (g : CG) (a : BitVec 4) : Laws.EncodedWords.Statement (Instr.cpys g a) := encode_words _
theorem Laws.EncodedWords.cpym (g : CG) (a : BitVec 4) : Laws.EncodedWords.Statement (Instr.cpym g a) := encode_words _
theorem Laws.EncodedWords.lblk (g : CG) (d : R6) (a : BitVec 4) (n : R6) : Laws.EncodedWords.Statement (Instr.lblk g d a n) := encode_words _
theorem Laws.EncodedWords.lblkRel (g : CG) (b : R6) : Laws.EncodedWords.Statement (Instr.lblkRel g b) := encode_words _
theorem Laws.EncodedWords.cbcfg (g : CG) (cb : BitVec 4) (a : BitVec 4) : Laws.EncodedWords.Statement (Instr.cbcfg g cb a) := encode_words _
theorem Laws.EncodedWords.cbw (g : CG) (wd : BitVec 4) (kind : Bool) (cb : BitVec 4) (n : R6) : Laws.EncodedWords.Statement (Instr.cbw g wd kind cb n) := encode_words _
theorem Laws.EncodedWords.cbadvP (g : CG) (cb : BitVec 4) (n : R6) : Laws.EncodedWords.Statement (Instr.cbadvP g cb n) := encode_words _
theorem Laws.EncodedWords.cbadvC (g : CG) (cb : BitVec 4) (n : R6) : Laws.EncodedWords.Statement (Instr.cbadvC g cb n) := encode_words _
theorem Laws.EncodedWords.tdset (g : CG) (td : BitVec 8) (a : BitVec 4) : Laws.EncodedWords.Statement (Instr.tdset g td a) := encode_words _
theorem Laws.EncodedWords.tdget (g : CG) (td : BitVec 8) (a : BitVec 4) : Laws.EncodedWords.Statement (Instr.tdget g td a) := encode_words _
theorem Laws.EncodedWords.townRel (g : CG) (a : R6) : Laws.EncodedWords.Statement (Instr.townRel g a) := encode_words _
theorem Laws.EncodedWords.townClm (g : CG) (a : R6) : Laws.EncodedWords.Statement (Instr.townClm g a) := encode_words _
theorem Laws.EncodedWords.tcfg (g : CG) (a : R6) : Laws.EncodedWords.Statement (Instr.tcfg g a) := encode_words _
theorem Laws.EncodedWords.ldwWf (g : CG) (d : R6) (a : BitVec 4) (off : Imm 28) : Laws.EncodedWords.Statement (Instr.ldwWf g d a off) := encode_words _
theorem Laws.EncodedWords.nrd (g : CG) (l r : BitVec 4) (n : R6) : Laws.EncodedWords.Statement (Instr.nrd g l r n) := encode_words _
theorem Laws.EncodedWords.nwr (g : CG) (l r : BitVec 4) (n : R6) : Laws.EncodedWords.Statement (Instr.nwr g l r n) := encode_words _
theorem Laws.EncodedWords.nrdx (g : CG) (a : BitVec 4) : Laws.EncodedWords.Statement (Instr.nrdx g a) := encode_words _
theorem Laws.EncodedWords.nsadd (g : CG) (a : BitVec 4) : Laws.EncodedWords.Statement (Instr.nsadd g a) := encode_words _
theorem Laws.EncodedWords.nbin (g : CG) (a : BitVec 4) : Laws.EncodedWords.Statement (Instr.nbin g a) := encode_words _
theorem Laws.EncodedWords.natomAdd (g : CG) (w : Bool) (scope : BitVec 3) (r : Bool) (head : BitVec 2) (a : BitVec 4) (b : R6) : Laws.EncodedWords.Statement (Instr.natomAdd g w scope r head a b) := encode_words _
theorem Laws.EncodedWords.natomMin (g : CG) (w : Bool) (scope : BitVec 3) (r : Bool) (head : BitVec 2) (a : BitVec 4) (b : R6) : Laws.EncodedWords.Statement (Instr.natomMin g w scope r head a b) := encode_words _
theorem Laws.EncodedWords.natomMax (g : CG) (w : Bool) (scope : BitVec 3) (r : Bool) (head : BitVec 2) (a : BitVec 4) (b : R6) : Laws.EncodedWords.Statement (Instr.natomMax g w scope r head a b) := encode_words _
theorem Laws.EncodedWords.natomCas (g : CG) (w : Bool) (scope : BitVec 3) (r : Bool) (head : BitVec 2) (a : BitVec 4) (b : R6) : Laws.EncodedWords.Statement (Instr.natomCas g w scope r head a b) := encode_words _
theorem Laws.EncodedWords.natomXchg (g : CG) (w : Bool) (scope : BitVec 3) (r : Bool) (head : BitVec 2) (a : BitVec 4) (b : R6) : Laws.EncodedWords.Statement (Instr.natomXchg g w scope r head a b) := encode_words _
theorem Laws.EncodedWords.natomAnd (g : CG) (w : Bool) (scope : BitVec 3) (r : Bool) (head : BitVec 2) (a : BitVec 4) (b : R6) : Laws.EncodedWords.Statement (Instr.natomAnd g w scope r head a b) := encode_words _
theorem Laws.EncodedWords.natomOr (g : CG) (w : Bool) (scope : BitVec 3) (r : Bool) (head : BitVec 2) (a : BitVec 4) (b : R6) : Laws.EncodedWords.Statement (Instr.natomOr g w scope r head a b) := encode_words _
theorem Laws.EncodedWords.nred (g : CG) (op : BitVec 3) (t : VT) (a : BitVec 4) : Laws.EncodedWords.Statement (Instr.nred g op t a) := encode_words _
theorem Laws.EncodedWords.nmcst (g : CG) (ord : Bool) (a : BitVec 4) : Laws.EncodedWords.Statement (Instr.nmcst g ord a) := encode_words _
theorem Laws.EncodedWords.ndrain (g : CG) (scope post : BitVec 3) : Laws.EncodedWords.Statement (Instr.ndrain g scope post) := encode_words _
theorem Laws.EncodedWords.eqx (g : CG) : Laws.EncodedWords.Statement (Instr.eqx g) := encode_words _
theorem Laws.EncodedWords.gbar (g : CG) (level post : BitVec 3) : Laws.EncodedWords.Statement (Instr.gbar g level post) := encode_words _
theorem Laws.EncodedWords.copyCommandComplete (a : Nat) (seq : BitVec 16) : Laws.EncodedWords.Statement (Instr.copyCommandComplete a seq) := encode_words _
theorem Laws.EncodedWords.remoteAccessPerform (a : Nat) (seq : BitVec 16) (unit : Nat) : Laws.EncodedWords.Statement (Instr.remoteAccessPerform a seq unit) := encode_words _
theorem Laws.EncodedWords.eqxArrival (a : Nat) (seq : BitVec 16) : Laws.EncodedWords.Statement (Instr.eqxArrival a seq) := encode_words _
theorem Laws.EncodedWords.gbarArrival (a : Nat) (seq : BitVec 16) : Laws.EncodedWords.Statement (Instr.gbarArrival a seq) := encode_words _
theorem Laws.EncodedWords.multicastRequestArrival (a : Nat) (seq : BitVec 16) : Laws.EncodedWords.Statement (Instr.multicastRequestArrival a seq) := encode_words _
theorem Laws.EncodedWords.multicastWindowExpiry (die : Nat) (grp : Nat) : Laws.EncodedWords.Statement (Instr.multicastWindowExpiry die grp) := encode_words _
theorem Laws.EncodedWords.cacheFillComplete (line : Nat) : Laws.EncodedWords.Statement (Instr.cacheFillComplete line) := encode_words _
theorem Laws.EncodedWords.vgl (g : CG) (a : R6) : Laws.EncodedWords.Statement (Instr.vgl g a) := encode_words _
theorem Laws.EncodedWords.sgl (g : CG) (a : R6) : Laws.EncodedWords.Statement (Instr.sgl g a) := encode_words _
theorem Laws.EncodedWords.gla (g : CG) (a : BitVec 4) : Laws.EncodedWords.Statement (Instr.gla g a) := encode_words _
theorem Laws.EncodedWords.glb (g : CG) (p : BitVec 3) : Laws.EncodedWords.Statement (Instr.glb g p) := encode_words _
theorem Laws.EncodedWords.csrrd (d : R6) (csr : R6) : Laws.EncodedWords.Statement (Instr.csrrd d csr) := encode_words _
theorem Laws.EncodedWords.csrwr (csr : R6) (a : R6) : Laws.EncodedWords.Statement (Instr.csrwr csr a) := encode_words _
theorem Laws.EncodedWords.tlbinv (a : R6) (kind : R6) : Laws.EncodedWords.Statement (Instr.tlbinv a kind) := encode_words _
theorem Laws.EncodedWords.fbfl : Laws.EncodedWords.Statement (Instr.fbfl) := encode_words _
theorem Laws.EncodedWords.ctxsv (a : BitVec 4) : Laws.EncodedWords.Statement (Instr.ctxsv a) := encode_words _
theorem Laws.EncodedWords.ctxld (a : BitVec 4) : Laws.EncodedWords.Statement (Instr.ctxld a) := encode_words _
theorem Laws.EncodedWords.halt : Laws.EncodedWords.Statement (Instr.halt) := encode_words _
theorem Laws.EncodedWords.ecall (n : BitVec 12) : Laws.EncodedWords.Statement (Instr.ecall n) := encode_words _
theorem Laws.EncodedWords.xret : Laws.EncodedWords.Statement (Instr.xret) := encode_words _
theorem Laws.EncodedWords.userInterruptAccept (a : Nat) : Laws.EncodedWords.Statement (Instr.userInterruptAccept a) := encode_words _
theorem Laws.EncodedWords.taskDispatch (part : Nat) : Laws.EncodedWords.Statement (Instr.taskDispatch part) := encode_words _
theorem Laws.EncodedWords.sliceExpiry (a : Nat) : Laws.EncodedWords.Statement (Instr.sliceExpiry a) := encode_words _
theorem Laws.EncodedWords.preemption (a : Nat) : Laws.EncodedWords.Statement (Instr.preemption a) := encode_words _
theorem Laws.EncodedWords.exitComplete (a : Nat) : Laws.EncodedWords.Statement (Instr.exitComplete a) := encode_words _
theorem Laws.EncodedWords.taskKill (a : Nat) : Laws.EncodedWords.Statement (Instr.taskKill a) := encode_words _
theorem Laws.EncodedWords.taskPark (a : Nat) : Laws.EncodedWords.Statement (Instr.taskPark a) := encode_words _
theorem Laws.EncodedWords.quadPowerGate (quad : Nat) : Laws.EncodedWords.Statement (Instr.quadPowerGate quad) := encode_words _
theorem Laws.EncodedWords.quadWakeComplete (quad : Nat) : Laws.EncodedWords.Statement (Instr.quadWakeComplete quad) := encode_words _
theorem Laws.EncodedWords.walkEnd (die : Nat) (k : Nat) (reread : Bool) : Laws.EncodedWords.Statement (Instr.walkEnd die k reread) := encode_words _
theorem Laws.EncodedWords.shootdownStart (die : Nat) (dies : BitVec 4) (kind : BitVec 2) (ctx : BitVec 16) (vpn : BitVec 56) : Laws.EncodedWords.Statement (Instr.shootdownStart die dies kind ctx vpn) := encode_words _
theorem Laws.EncodedWords.shootdownAck (die : Nat) (a : Nat) : Laws.EncodedWords.Statement (Instr.shootdownAck die a) := encode_words _
theorem Laws.EncodedWords.asyncReadGrant (a : Nat) (grp : Nat) (reqs : List AReq) : Laws.EncodedWords.Statement (Instr.asyncReadGrant a grp reqs) := encode_words _
theorem Laws.EncodedWords.puqRetirement (a : Nat) (grp : Nat) : Laws.EncodedWords.Statement (Instr.puqRetirement a grp) := encode_words _
theorem Laws.EncodedWords.staleRebuild (a : Nat) (grp : Nat) : Laws.EncodedWords.Statement (Instr.staleRebuild a grp) := encode_words _
theorem Laws.EncodedWords.patrolScrub (a : Nat) (grp : Nat) : Laws.EncodedWords.Statement (Instr.patrolScrub a grp) := encode_words _
theorem Laws.EncodedWords.scrubTimeout (a : Nat) (grp : Nat) : Laws.EncodedWords.Statement (Instr.scrubTimeout a grp) := encode_words _
theorem Laws.EncodedWords.eccWriteback (key : Nat) : Laws.EncodedWords.Statement (Instr.eccWriteback key) := encode_words _
theorem Laws.EncodedWords.bankRetire (a : Nat) (bank : BitVec 6) : Laws.EncodedWords.Statement (Instr.bankRetire a bank) := encode_words _
theorem Laws.EncodedWords.groupRetire (a : Nat) : Laws.EncodedWords.Statement (Instr.groupRetire a) := encode_words _
theorem Laws.EncodedWords.queueServiceSlot (die core pos : Nat) : Laws.EncodedWords.Statement (Instr.queueServiceSlot die core pos) := encode_words _
theorem Laws.EncodedWords.nopPacket (q : Nat) : Laws.EncodedWords.Statement (Instr.nopPacket q) := encode_words _
theorem Laws.EncodedWords.launch (q : Nat) (record : Addr) : Laws.EncodedWords.Statement (Instr.launch q record) := encode_words _
theorem Laws.EncodedWords.write (q : Nat) (addr : Addr) (words : List Word) : Laws.EncodedWords.Statement (Instr.write q addr words) := encode_words _
theorem Laws.EncodedWords.signal (q : Nat) (addr : Addr) (op : Byte) (value : Word) : Laws.EncodedWords.Statement (Instr.signal q addr op value) := encode_words _
theorem Laws.EncodedWords.writesig (q : Nat) (addr : Addr) (word : Word) (sig : Addr) (op : Byte) (value : Word) : Laws.EncodedWords.Statement (Instr.writesig q addr word sig op value) := encode_words _
theorem Laws.EncodedWords.wait (q : Nat) (addr : Addr) (cond : Byte) (value mask : Word) : Laws.EncodedWords.Statement (Instr.wait q addr cond value mask) := encode_words _
theorem Laws.EncodedWords.ffence (q : Nat) : Laws.EncodedWords.Statement (Instr.ffence q) := encode_words _
theorem Laws.EncodedWords.barrier (q : Nat) : Laws.EncodedWords.Statement (Instr.barrier q) := encode_words _
theorem Laws.EncodedWords.copy (q : Nat) (src dst : Addr) (len : W32) : Laws.EncodedWords.Statement (Instr.copy q src dst len) := encode_words _
theorem Laws.EncodedWords.timestamp (q : Nat) (addr : Addr) (tag : W32) : Laws.EncodedWords.Statement (Instr.timestamp q addr tag) := encode_words _
theorem Laws.EncodedWords.replay (q : Nat) (record : Addr) (npass : Byte) (rrec : Addr) : Laws.EncodedWords.Statement (Instr.replay q record npass rrec) := encode_words _
theorem Laws.EncodedWords.replayPassStart (part : Nat) : Laws.EncodedWords.Statement (Instr.replayPassStart part) := encode_words _
theorem Laws.EncodedWords.packetComplete (q : Nat) (index : Word) : Laws.EncodedWords.Statement (Instr.packetComplete q index) := encode_words _
theorem Laws.EncodedWords.tailWrite (q : Nat) (value : Word) : Laws.EncodedWords.Statement (Instr.tailWrite q value) := encode_words _
theorem Laws.EncodedWords.doorbell (f : Nat) (q : Nat) (value : Word) : Laws.EncodedWords.Statement (Instr.doorbell f q value) := encode_words _
theorem Laws.EncodedWords.faultPollSlot (die : Nat) : Laws.EncodedWords.Statement (Instr.faultPollSlot die) := encode_words _
theorem Laws.EncodedWords.monitorSlot (die : Nat) (temps volts : List Nat) (power : Nat) : Laws.EncodedWords.Statement (Instr.monitorSlot die temps volts power) := encode_words _
theorem Laws.EncodedWords.mailboxSlot (part : Nat) : Laws.EncodedWords.Statement (Instr.mailboxSlot part) := encode_words _
theorem Laws.EncodedWords.regq (part : Nat) (q : Nat) (desc : Addr) (die core pos : Nat) : Laws.EncodedWords.Statement (Instr.regq part q desc die core pos) := encode_words _
theorem Laws.EncodedWords.destroyq (part : Nat) (q : Nat) : Laws.EncodedWords.Statement (Instr.destroyq part q) := encode_words _
theorem Laws.EncodedWords.recoverq (part : Nat) (q : Nat) (mode : Nat) : Laws.EncodedWords.Statement (Instr.recoverq part q mode) := encode_words _
theorem Laws.EncodedWords.quote (part : Nat) (nonce : List Byte) (dest : Addr) : Laws.EncodedWords.Statement (Instr.quote part nonce dest) := encode_words _
theorem Laws.EncodedWords.partcfg (part : Nat) (dies : BitVec 8) (bar2 : List Nat) (images : List (List W32)) (svecs shares : List Nat) : Laws.EncodedWords.Statement (Instr.partcfg part dies bar2 images svecs shares) := encode_words _
theorem Laws.EncodedWords.partreset (part : Nat) : Laws.EncodedWords.Statement (Instr.partreset part) := encode_words _
theorem Laws.EncodedWords.partparam (part : Nat) (addr : Addr) : Laws.EncodedWords.Statement (Instr.partparam part addr) := encode_words _
theorem Laws.EncodedWords.quadpol (part : Nat) (die quad : Nat) (xctx men : Bool) (qcap : Nat) : Laws.EncodedWords.Statement (Instr.quadpol part die quad xctx men qcap) := encode_words _
theorem Laws.EncodedWords.ctxset (part : Nat) (ctx : BitVec 16) (valid : Bool) (base limit off : BitVec 56) (tlbcfg : Word) : Laws.EncodedWords.Statement (Instr.ctxset part ctx valid base limit off tlbcfg) := encode_words _
theorem Laws.EncodedWords.counters (part : Nat) (dest : Addr) : Laws.EncodedWords.Statement (Instr.counters part dest) := encode_words _
theorem Laws.EncodedWords.shoot (part : Nat) (dies : BitVec 4) (kind : BitVec 2) (ctx : BitVec 16) (vpn : BitVec 56) : Laws.EncodedWords.Statement (Instr.shoot part dies kind ctx vpn) := encode_words _
theorem Laws.EncodedWords.registerBlockAccess (dev f : Nat) (isWrite : Bool) (off : Nat) (value : Word) : Laws.EncodedWords.Statement (Instr.registerBlockAccess dev f isWrite off value) := encode_words _
theorem Laws.EncodedWords.hostAtomicop (f : Nat) (off : Nat) (op : Byte) (x y : Word) : Laws.EncodedWords.Statement (Instr.hostAtomicop f off op x y) := encode_words _
theorem Laws.EncodedWords.registerWrite (r : DevReg) (value : Word) : Laws.EncodedWords.Statement (Instr.registerWrite r value) := encode_words _
theorem Laws.EncodedWords.flitReplay (port : Nat) (ch : Nat) (good : Bool) : Laws.EncodedWords.Statement (Instr.flitReplay port ch good) := encode_words _
theorem Laws.EncodedWords.linkRetrain (port : Nat) (good : Bool) : Laws.EncodedWords.Statement (Instr.linkRetrain port good) := encode_words _
theorem Laws.EncodedWords.closRetransmit (key : Nat) (attempts : Nat) : Laws.EncodedWords.Statement (Instr.closRetransmit key attempts) := encode_words _
theorem Laws.EncodedWords.expanderFailure (die : Nat) : Laws.EncodedWords.Statement (Instr.expanderFailure die) := encode_words _
theorem Laws.EncodedWords.deviceReset (intact : Bool) : Laws.EncodedWords.Statement (Instr.deviceReset intact) := encode_words _
theorem Laws.EncodedWords.dieChecksComplete (die : Nat) (good : Bool) : Laws.EncodedWords.Statement (Instr.dieChecksComplete die good) := encode_words _
theorem Laws.EncodedWords.hostBar2Write (f : Nat) (off : Nat) (bytes : List Byte) : Laws.EncodedWords.Statement (Instr.hostBar2Write f off bytes) := encode_words _

end Sys2Proof
end

