-- ==== Sys2Proof/Laws/Slots.lean ====
section
/-! SUPPORT. The shared shapes of slots: when each has nothing against it, and its results as `Arr.putS`, `Arr.putA`, `Arr.putP` and `Arr.later`
say them. -/

namespace Sys2Proof.Machine

open Sys2Proof

@[simp] theorem Arr.push_atS (x : Arr) (due ord : Nat) (w : Wr) : (x.push due ord w).atS = x.atS := rfl
@[simp] theorem Arr.push_inHandler (x : Arr) (due ord : Nat) (w : Wr) : (x.push due ord w).inHandler = x.inHandler := rfl
@[simp] theorem Arr.later_tsk (x : Arr) (now l : Nat) (w : Wr) : (x.later now l w).tsk = x.tsk := rfl
@[simp] theorem Arr.later_atS (x : Arr) (now l : Nat) (w : Wr) : (x.later now l w).atS = x.atS := rfl
@[simp] theorem Arr.putS_tsk (x : Arr) (now l : Nat) (d : R6) (v : PV) : (x.putS now l d v).tsk = x.tsk := by
  unfold Arr.putS
  dsimp only
  repeat' split
  all_goals rfl
@[simp] theorem Arr.putA_tsk (x : Arr) (now : Nat) (d : BitVec 4) (v : PA) : (x.putA now d v).tsk = x.tsk := by
  unfold Arr.putA
  dsimp only
  repeat' split
  all_goals rfl
@[simp] theorem Arr.putP_tsk (x : Arr) (now l : Nat) (d : BitVec 3) (b p : Bool) : (x.putP now l d b p).tsk = x.tsk := rfl
@[simp] theorem Arr.putF_tsk (x : Arr) (now l : Nat) (f : Fl) : (x.putF now l f).tsk = x.tsk := by
  unfold Arr.putF
  split <;> rfl
@[simp] theorem Arr.putF_zero (x : Arr) (now l : Nat) : x.putF now l 0#7 = x := by simp [Arr.putF]

theorem wrS_eq (s t : State) (ext l : Nat) (m : SlotSem) (d : R6) (v : PV) :
    wrS (s.slotOf ext m) l d v t = t.modA s.cur fun x => x.putS s.now l d v := by
  unfold wrS
  dsimp only [State.slotOf, State.slot]
  congr 1
  funext x
  unfold Arr.putS Arr.later
  by_cases h : (x.inHandler && decide (56 ≤ d.toNat)) = true
  · simp only [h]
    simp [Ctx.ord]
  · simp only [h]
    simp [Ctx.ord]
theorem wrA_eq (s t : State) (ext : Nat) (m : SlotSem) (d : BitVec 4) (v : PA) :
    wrA (s.slotOf ext m) d v t = t.modA s.cur fun x => x.putA s.now d v := rfl
theorem wrP_eq (s t : State) (ext l : Nat) (m : SlotSem) (d : BitVec 3) (b pz : Bool) :
    wrP (s.slotOf ext m) l d b pz t = t.modA s.cur fun x => x.putP s.now l d b pz := rfl
theorem wrX_eq (s t : State) (ext : Nat) (m : SlotSem) (w : Wr) :
    wrX (s.slotOf ext m) w t = t.modA s.cur fun x => x.later s.now 1 w := rfl
theorem wrF_eq (s t : State) (ext l : Nat) (m : SlotSem) (f : Fl) :
    wrF (s.slotOf ext m) (s.now + l) f t = if f = 0#7 then t else t.modA s.cur fun x => x.putF s.now l f := by
  unfold wrF Arr.putF
  by_cases h : f = 0#7 <;> simp [h, State.slotOf, State.slot]

theorem clear_sSem {ext : Nat} {g : SG} {regs srcs : List RR} {eff : Ctx → State → State} {s : State}
    (h : s.readyS g regs srcs = true) : Clear ext (sSem g regs srcs eff) s := by
  simp [State.readyS, Arr.readyS, Arr.operands] at h
  obtain ⟨h0, ⟨h1, h2⟩, h3, h4⟩ := h
  constructor <;> simp_all [sSem, SlotSem.preds, State.slotOf]
theorem clear_cSem {ext : Nat} {g : CG} {regs srcs : List RR} {own : Ctx → State → List Trap} {eff : Ctx → State → State} {s : State}
    (h : s.readyC g regs srcs = true) (ho : own (s.slot ext) s = []) : Clear ext (cSem g regs srcs own eff) s := by
  simp [State.readyC, Arr.readyC, Arr.operands] at h
  obtain ⟨h0, ⟨h1, h2⟩, h3, h4⟩ := h
  constructor
  case preds =>
    intro p hp
    simp only [cSem, SlotSem.preds, List.mem_cons] at hp
    rcases hp with rfl | hp
    · exact h1
    · cases hg : g.gx with
      | none => simp [hg] at hp
      | some e => simp [Arr.openGx, hg] at h2 hp; simp_all
  case stages =>
    intro e he hge
    simp only [cSem] at he
    simp [Arr.openGx, he] at h2
    simp_all
  case own => exact ho
  all_goals simp_all [cSem, State.slotOf]
theorem clear_mSem {ext : Nat} {g : MG} {regs srcs : List RR} {own : Ctx → State → List Trap} {eff : Ctx → State → State} {s : State}
    (h : s.readyM g regs srcs = true) (ho : own (s.slot ext) s = []) : Clear ext (mSem g regs srcs own eff) s := by
  simp [State.readyM, Arr.readyM, Arr.operands] at h
  obtain ⟨h0, h2, h3, h4⟩ := h
  constructor
  case preds =>
    intro p hp
    simp only [mSem, SlotSem.preds, List.mem_cons] at hp
    rcases hp with rfl | hp
    · simp [Arr.open_, Arr.pGet, Arr.pPois]
    · cases hg : g.gx with
      | none => simp [hg] at hp
      | some e => simp [Arr.openGx, hg] at h2 hp; simp_all
  case stages =>
    intro e he hge
    simp only [mSem] at he
    simp [Arr.openGx, he] at h2
    simp_all
  case own => exact ho
  all_goals simp_all [mSem, State.slotOf]
theorem clear_vSem {ext : Nat} {g : VG} {i : Instr} {dst srcs : List RR} {sc : Ctx → State → PV} {ea : Ctx → State → Addr}
    {sh : Ctx → State → ShE} {s : State} (h : s.readyV g dst srcs = true) : Clear ext (vSem g i dst srcs sc ea sh) s := by
  simp [State.readyV, Arr.readyV, Arr.operands] at h
  obtain ⟨h0, ⟨h1, h2⟩, h3, h4⟩ := h
  constructor
  case preds =>
    intro p hp
    simp only [vSem, SlotSem.preds, List.mem_cons] at hp
    rcases hp with rfl | hp
    · simp [Arr.open_, Arr.pGet, Arr.pPois]
    · cases hg : g.gx with
      | none => simp [hg] at hp
      | some e => simp [Arr.openGx, hg] at h2 hp; simp_all
  case stages =>
    intro e he hge
    simp only [vSem] at he
    simp [Arr.openGx, he] at h2
    simp_all
  case regs =>
    intro r hr
    simp only [vSem, List.mem_append, List.mem_map, Option.mem_toList] at hr
    rcases hr with hr | hr | ⟨n, hn, rfl⟩
    · exact h3.1 r hr
    · exact h3.2.1 r hr
    · exact h3.2.2 n hn
  case srcs =>
    intro r hr
    simp only [vSem, List.mem_append, List.mem_map, Option.mem_toList] at hr
    rcases hr with hr | ⟨n, hn, rfl⟩
    · exact h4.1 r hr
    · exact h4.2 n hn
  all_goals simp_all [vSem, State.slotOf]

/-- A scalar slot of any kind: what can stand against it, one by one. -/
theorem clear_scalar {ext : Nat} {m : SlotSem} {s : State} (h : s.readyS ⟨m.chk, m.pg⟩ m.regs m.srcs = true) (hg : m.gx = none)
    (hp : m.priv = false) (hx : m.xfer = true → s.here.tsk.rank = 0) (hi : m.ill (s.slotOf ext m) s = false)
    (ho : m.own (s.slotOf ext m) s = []) (hh : ∀ q ∈ m.heads, (s.here.headAt q).isSome = true ∧ q < 256)
    (hw : m.hold (s.slotOf ext m) s = false) (hf : m.pf (s.slotOf ext m) s = none)
    (hl : m.look (s.slotOf ext m) s = s) : Clear ext m s := by
  simp [State.readyS, Arr.readyS, Arr.operands] at h
  obtain ⟨h0, ⟨h1, h2⟩, h3, h4⟩ := h
  constructor <;> simp_all [SlotSem.preds]

@[simp] theorem slotOf_a (s : State) (ext : Nat) (m : SlotSem) : (s.slotOf ext m).a = s.cur := rfl
@[simp] theorem slotOf_t (s : State) (ext : Nat) (m : SlotSem) : (s.slotOf ext m).t = s.now := rfl
@[simp] theorem slotOf_pc (s : State) (ext : Nat) (m : SlotSem) : (s.slotOf ext m).pc = s.here.sca.pc := rfl
@[simp] theorem slotOf_slot (s : State) (ext : Nat) (m : SlotSem) : (s.slotOf ext m).slot = 1 := rfl
@[simp] theorem slotOf_pop (s : State) (ext : Nat) (m : SlotSem) : (s.slotOf ext m).pop = 0#8 := rfl
@[simp] theorem slotOf_next (s : State) (ext : Nat) (m : SlotSem) :
    (s.slotOf ext m).next = s.here.sca.pc + BitVec.ofNat 32 (4 * max 4 (2 + ext)) := rfl
@[simp] theorem wrF_zero (c : Ctx) (n : Nat) (t : State) : wrF c n 0#7 t = t := by simp [wrF]

/-- A slot whose effect is a scalar result with flags. -/
theorem resultS_of {i : Instr} {s : State} {ext l : Nat} {d : R6} {v : PV} {f : Fl} {m : SlotSem}
    (hex : exec i s = .next (runSlot ext m s)) (h : Clear ext m s) (hc : m.cls ≠ .vector)
    (he : ∀ t, t = (s.modA s.cur fun x => x.began s.now (max 4 (2 + ext)) 0 0 true) →
      m.eff (s.slotOf ext m) t = wrF (s.slotOf ext m) (s.now + l) f (wrS (s.slotOf ext m) l d v t)) : ResultS i s ext l d v f := by
  refine executes_of_getA hex h (by simp [hc]) ?_ ?_ ?_
  · intro b
    rw [he _ rfl, wrF_eq, wrS_eq]
    by_cases hf : f = 0#7 <;> by_cases hb : b = s.cur <;> simp [hf, hb, State.getA_modA, State.here]
  · rw [he _ rfl, wrF_eq, wrS_eq]
    split
    · exact (arrOnly_modA _ _ _).trans (arrOnly_modA _ _ _)
    · exact ((arrOnly_modA _ _ _).trans (arrOnly_modA _ _ _)).trans (arrOnly_modA _ _ _)
  · intro y; simp

/-- A slot whose effect is an address result. -/
theorem resultA_of {i : Instr} {s : State} {ext : Nat} {d : BitVec 4} {v : PA} {m : SlotSem}
    (hex : exec i s = .next (runSlot ext m s)) (h : Clear ext m s) (hc : m.cls ≠ .vector)
    (he : ∀ t, t = (s.modA s.cur fun x => x.began s.now (max 4 (2 + ext)) 0 0 true) →
      m.eff (s.slotOf ext m) t = wrA (s.slotOf ext m) d v t) : ResultA i s ext d v := by
  refine executes_of hex h (by simp [hc]) ?_ ?_
  · rw [he _ rfl, wrA_eq]
  · intro y; simp

/-- A slot whose effect is a predicate result with flags. -/
theorem resultP_of {i : Instr} {s : State} {ext l : Nat} {d : BitVec 3} {b p : Bool} {f : Fl} {m : SlotSem}
    (hex : exec i s = .next (runSlot ext m s)) (h : Clear ext m s) (hc : m.cls ≠ .vector)
    (he : ∀ t, t = (s.modA s.cur fun x => x.began s.now (max 4 (2 + ext)) 0 0 true) →
      m.eff (s.slotOf ext m) t = wrF (s.slotOf ext m) (s.now + l) f (wrP (s.slotOf ext m) l d b p t)) : ResultP i s ext l d b p f := by
  refine executes_of_getA hex h (by simp [hc]) ?_ ?_ ?_
  · intro b
    rw [he _ rfl, wrF_eq, wrP_eq]
    by_cases hf : f = 0#7 <;> by_cases hb : b = s.cur <;> simp [hf, hb, State.getA_modA, State.here]
  · rw [he _ rfl, wrF_eq, wrP_eq]
    split
    · exact (arrOnly_modA _ _ _).trans (arrOnly_modA _ _ _)
    · exact ((arrOnly_modA _ _ _).trans (arrOnly_modA _ _ _)).trans (arrOnly_modA _ _ _)
  · intro y; simp

@[simp] theorem Arr.wave_tsk (x : Arr) (i : Instr) (cap : Cap) (dst : List RR) : (x.wave i cap dst).tsk = x.tsk := by
  unfold Arr.wave setValid
  split
  · rfl
  · refine List.foldlRecOn (motive := fun y : Arr => y.tsk = x.tsk) _ _ rfl ?_
    intro y h r _
    cases r <;> simp [h]
theorem began_marks (s : State) (len nv : Nat) : ((s.here.began s.now len nv 0 true).cel.cfTimes).length = s.marks := by
  unfold Arr.began State.marks
  dsimp only
  repeat' split
  all_goals simp_all
/-- What a vector slot captures from the array that has begun to issue. -/
theorem capOf_began (s : State) (ext len nv : Nat) (m : SlotSem) (g : VG) (sc : PV) (ea : Addr) (sh : ShE) :
    capOf g (s.slotOf ext m) ((s.modA s.cur fun x => x.began s.now len nv 0 true).getA s.cur) sc ea sh = s.cap g s.marks sc ea sh := by
  unfold capOf State.cap
  simp only [State.getA_modA, if_true]
  have hb := began_marks s len nv
  simp [State.here, State.slotOf, State.slot] at hb ⊢
  exact hb
/-- A vector slot whose effect is to enter the wavefront. -/
theorem waves_of {i : Instr} {s : State} {g : VG} {dst : List RR} {ext : Nat} {sc : PV} {ea : Addr} {sh : ShE} {m : SlotSem}
    (hex : exec i s = .next (runSlot ext m s)) (h : Clear ext m s) (hc : m.cls = .vector)
    (he : ∀ t, t = (s.modA s.cur fun x => x.began s.now (max 4 (2 + ext)) 1 0 true) →
      m.eff (s.slotOf ext m) t = enterWave i (capOf g (s.slotOf ext m) (t.getA s.cur) sc ea sh) dst (s.slotOf ext m) t) :
    Waves i s ext g dst sc ea sh := by
  refine executes_of hex h (by simp [hc]) ?_ ?_
  · rw [he _ rfl, capOf_began]
    rfl
  · intro y; simp

/-- A vector slot of any kind: what can stand against it beyond its registers, one by one. -/
theorem clear_vector {ext : Nat} {m : SlotSem} {s : State} (g : VG) (dst srcs : List RR) (h : s.readyV g dst srcs = true)
    (hg : m.gx = g.gx) (hpg : m.pg = 0#3) (hc : m.chk = g.chk) (hr : m.regs = dst ++ (srcs ++ (VG_mask g).toList.map .m))
    (hs : m.srcs = srcs ++ (VG_mask g).toList.map .m) (hp : m.priv = false) (hx : m.xfer = false)
    (hi : m.ill (s.slotOf ext m) s = false) (ho : m.own (s.slotOf ext m) s = [])
    (hh : ∀ q ∈ m.heads, (s.here.headAt q).isSome = true ∧ q < 256) (hw : m.hold (s.slotOf ext m) s = false)
    (hf : m.pf (s.slotOf ext m) s = none)
    (hl : m.look (s.slotOf ext m) s = s) : Clear ext m s := by
  have k := clear_vSem (ext := ext) (i := .nop) (sc := fun _ _ => PV.zero) (ea := fun _ _ => 0) (sh := fun _ _ => ShE.zero) h
  refine ⟨k.sound, hc.trans k.chk, ?_, ?_, by simp [hp], by simp [hx], hi, by rw [hr]; exact k.regs, by rw [hs]; exact k.srcs, ho, hh, hw, hf, hl⟩
  · have := k.preds
    unfold SlotSem.preds at *
    rw [hg, hpg]
    exact this
  · have := k.stages
    rw [hg]
    exact this

end Sys2Proof.Machine
end

