-- ==== Sys2Proof/Tests/Slice0.lean ====
section
/-! SUPPORT. The model's own tests: ill-formed terms that `wf` refuses, words written out from the spec's encodings that decode to their instructions, single
steps on small states, and for each statement states and operands that meet its hypotheses. -/

namespace Sys2Proof.Tests

open Sys2Proof Sys2Proof.Machine

set_option Elab.async false

/-! ## Small states -/

/-- A number whose bits from `o` on are those of `v`, for each pair. -/
def fields (l : List (Nat × Nat)) : Nat := l.foldl (fun n e => n + e.2 * 2 ^ e.1) 0
/-- `NOP`, and the words of a bundle of nothing else. -/
def nopI : Instr := .nop
def nops : List W32 := bundleFor (encode nopI)
/-- Array 0 with a task of every register, all valid, at U, its image `code`. -/
def arrOf (code : List W32) : Arr :=
  { Arr.reset with
    tsk := { Tsk.reset with
      run := true, id := 0, code := code, sregs := 64, vregs := 64, accs := 8, spalloc := 262144, vgrant := 65536, nnodes := 2 }
    sca := { Sca.reset with
      s := [(1, ⟨5#64, false⟩), (2, ⟨7#64, false⟩), (3, ⟨0xFFFF_FFFF_FFFF_FFFF#64, false⟩), (4, ⟨0x8000_0000_0000_0000#64, false⟩),
            (5, ⟨9#64, true⟩), (6, ⟨64#64, false⟩)]
      sv := BitVec.allOnes 64
      a := [(1, ⟨ownAddr 64, false⟩), (2, ⟨ownAddr 4096, false⟩), (3, ⟨ownAddr 8192, false⟩), (4, ⟨ownAddr 262144, false⟩),
            (5, ⟨ownAddr 64, true⟩), (6, ⟨ownAddr (2 ^ 24), false⟩), (7, ⟨ownAddr 6, false⟩)]
      av := BitVec.allOnes 16
      p := 0x02#8, pp := 0x08#8 }
    cel := { Cel.reset with vv := BitVec.allOnes 64, mv := BitVec.allOnes 8, accv := BitVec.allOnes 8 }
    csr := { Csr.reset with prv := 0#2 } }
def onU (code : List W32) : State := { State.reset with arr := [(0, arrOf code)] }
/-- The array changed. -/
def upd (s : State) (f : Arr → Arr) : State := s.modA 0 f
def atU : State := onU nops
/-- The same at S, with `code` as the system image. -/
def onS (code : List W32) : State :=
  { State.reset with arr := [(0, (arrOf nops).modCsr fun c => { c with prv := 1#2 })], part := [(0, { Part.reset with image := code })] }
def atS : State := onS nops
/-- Bytes in array 0's scratchpad. -/
def pad (s : State) (off n v : Nat) : State := s.setBytes (spadKey 0 off) (leBytes n v)
def g0 : SG := ⟨false, 0⟩
def v0 : VG := ⟨0, false, none⟩
def m0 : MG := ⟨none⟩
def c0 : CG := ⟨none, 0⟩

/-! ## Records -/

/-- A tensor entry: base, format, and for each dimension extent and stride in elements (group 1, no halo). -/
def tdImg (base : Addr) (fmt : Nat) (ds : List (Nat × Nat)) : BitVec 1024 :=
  BitVec.ofNat 1024 (fields ([(0, base.toNat), (72, fmt), (77, ds.length)] ++
    ds.zipIdx.flatMap fun e => [(256 + 96 * e.2, e.1.1), (256 + 96 * e.2 + 32, e.1.2), (256 + 96 * e.2 + 88, 1)]))
/-- Entries 0 to 6: A and B of BF16 in the scratchpad and the vault, C of FP32, two FP32 vectors of 8, an INT32 matrix and an FP32 one. -/
def entries : SMap (BitVec 1024) :=
  [(0, tdImg (ownAddr 16384) 2 [(16, 0), (16, 16)]), (1, tdImg (ownAddr (2 ^ 24)) 2 [(16, 0), (16, 16)]),
   (2, tdImg (ownAddr 32768) 0 [(64, 0), (64, 64)]), (3, tdImg (ownAddr 65536) 0 [(8, 0)]), (4, tdImg (ownAddr 69632) 0 [(8, 0)]),
   (5, tdImg (ownAddr 16384) 1 [(16, 0), (16, 16)]), (6, tdImg (ownAddr 16384) 2 [(16, 0), (16, 16)])]
def withEntries (s : State) : State := upd s fun x => x.modCpy fun c => { c with tdt := entries }

/-! ## Matrix states -/

/-- A nest of one level of two, its A, B and C entries 0, 1 and 2; `b` the entry of B, `sa` the stationary side. -/
def nestHdr (b : Nat) (sa : Bool) : BitVec 256 := BitVec.ofNat 256 (fields [(0, 1), (16, b), (24, 2), (35, if sa then 1 else 0)])
def nestLev : BitVec 256 := BitVec.ofNat 256 (fields [(0, 2), (32, 16), (83, 1), (84, 1)])
/-- A weight descriptor of entry `td`: role, and 16 stored positions. -/
def mwtDesc (td : Nat) (role : Bool) : BitVec 256 := BitVec.ofNat 256 (fields [(0, td), (8, if role then 1 else 0), (96, 16)])
/-- A request of the merge buffer of 4 rows and 16 columns, 16 deep, UIRQ marked. -/
def mmsDesc : BitVec 256 :=
  BitVec.ofNat 256 (fields [(0, 16384), (32, 32768), (64, 0), (72, 1), (80, 4), (89, 1), (96, 7), (192, 16), (208, 16), (224, 64)])
def withNest (s : State) (b : Nat) (sa role : Bool) : State :=
  upd s fun x => x.modMat fun m =>
    { m with nest := ⟨nestHdr b sa, [(0, nestLev)], []⟩
             act := { Plane.empty with st := .loaded, desc := mwtDesc (if role then 0 else b) role, td := SMap.get 0 entries (if role then 0 else b) } }
def matU : State := withNest (withEntries (pad atU 4096 32 (nestHdr 1 false).toNat)) 1 false true

/-! ## Copy and network states -/

/-- A quad of two arrays over a cell level of 4: its two arrays are the participants of level 2. -/
def quadLevels : List Level := [⟨0, 0, 4⟩, ⟨2, 1, 2⟩, ⟨4, 3, 1⟩]
/-- Translation by the heap window of 16 MiB from address 0. -/
def withWindow (s : State) : State := upd s fun x => x.modCsr fun c => { c with hwlimit := 0x100#56 }
/-- A descriptor in place, with the tensor entries, a window and the levels. -/
def withDesc (l : List (Nat × Nat)) : State :=
  withWindow (upd (withEntries (pad atU 4096 128 (fields l))) fun x => x.modTsk fun k =>
    { k with levels := quadLevels, lidx := [0, 0, 0], peers := [0, 1] })
def cpyS : State := withDesc [(0, 3), (8, 4), (16, 1), (29, 1), (32, 3), (512, 8)]
def cpygS : State := withDesc [(0, 3), (8, 4), (64, 8192), (96, 2)]
def nrdxS : State := withDesc [(0, 3), (8, 4), (64, 8192), (96, 2), (128, 8)]
def nsaddS : State := withDesc [(8, 4), (64, 8192), (96, 8448), (128, 3)]
def nbinS : State := withDesc [(64, 8192), (96, 8448), (128, 3), (160, 0x1000)]
def nredS : State := withDesc [(64, 8192), (96, 8448), (128, 16), (144, 2)]
def nmcstS : State := withDesc [(64, 8192), (96, 64), (128, 2), (256, 0x1000), (328, 0x2000)]
/-- Entry 7: eight FP32 elements at 4,096 in the window, the source of a multicast read. -/
def cpymS : State :=
  upd (withDesc [(0, 7), (8, 4), (16, 1), (512, 8), (736, 1), (768, 100)]) fun x => x.modCpy fun c =>
    { c with tdt := SMap.set 0#1024 c.tdt 7 (tdImg 4096#72 0 [(8, 0)]) }

/-! ## Launches and tasks -/

/-- A launch record of 256 bytes: a cell level of 4 and one array, one node of 8 KiB with RERUN and priority 2, one kernel of four words. -/
def recordN : Nat :=
  fields [(0, 1), (8 * 2, 2), (8 * 4, 1), (8 * 12, 1), (8 * 16, 64), (8 * 20, 80), (8 * 24, 144), (8 * 28, 144), (8 * 32, 224), (8 * 40, 256),
    (8 * 68, 4), (8 * 72, 2), (8 * 73, 1), (8 * 76, 1), (8 * 82, 2), (8 * 83, 1), (8 * 88, 8192),
    (8 * 144, 208), (8 * 148, 16), (8 * 152, 64), (8 * 153, 64), (8 * 154, 8), (8 * 208, (nops.zipIdx.foldl (fun n e => n + e.1.toNat * 2 ^ (32 * e.2)) 0))]
def record : List Byte := leBytes 256 recordN
/-- The launch as accepted from queue 3 of partition 0, its record in page 2. -/
def theLaunch : Launch := ⟨3, 0, 0, 7#16, 0x20000#72, record, [2], false, [], []⟩
def theTask : Task := ⟨0, 0, [0, 0], .ready, 0, [], [], [], none, [], false, none⟩
/-- Partition 0 with die 0 in service, one launch and its task ready. -/
def readyS : State :=
  { State.reset with
    die := [(0, { Die.reset with svc := true })]
    dev := { Dev.reset with stage := 3 }
    launch := [(0, some theLaunch)], nlaunch := 1, task := [(0, some theTask)], ntask := 1, norder := 1 }
/-- The task on array 0, with what `f` makes of the array. -/
def runS (f : Arr → Arr) : State :=
  { readyS with
    arr := [(0, f ((arrOf nops).modTsk fun k => { k with levels := rLevels record, lidx := [0, 0], peers := [0], spalloc := 8192 }))]
    task := [(0, some { theTask with st := .running, arrs := [0] })] }

/-! ## Queues -/

/-- A packet of a type with VALID, IRQ and tag 9, and its other fields by byte offset. -/
def pkt (ty : Nat) (l : List (Nat × Nat)) : List Byte := leBytes 64 (fields ([(0, ty), (8, 9), (32, 9)] ++ l.map fun e => (8 * e.1, e.2)))
/-- Queue 3 of partition 0 at position 0 of core 0 of die 0, stage 3: descriptor at 0x1000, a ring of 16 slots at 0x2000, context 7, TAIL 6, RIX and
CSEQ 5; what `l` holds is kept as the slot at RIX. -/
def withQueue (s : State) (l : List Byte) : State :=
  { s.setBytes 0x1000 (leBytes 128 (fields [(0, 0x2000), (96, 4), (104, 2), (112, 7), (128, 1), (192, 6), (256, 5), (320, 1), (384, 5)])) with
    queue := [(3, ⟨true, 0, 0x1000, 0, 0, 0, 0x2000, 4, 2, 7, 8, [⟨5, l, false⟩], [], [], none, []⟩)]
    cxt := [(cxtKey 0 7, ⟨true, 0#56, 0x100#56, 0#56, 0#64⟩)]
    dev := { s.dev with stage := 3, ring := 0x8000 } }
def qS (l : List Byte) : State := withQueue State.reset l
def f5 (l : List Byte) : Fetched := ⟨5, l, false⟩
/-- The launch record at 0x20000 of the window. -/
def withRecord (s : State) (b : List Byte) : State := s.setBytes 0x20000 b

/-! ## Ill-formed terms (R59, R65-R71, R79, R88, R120, R151, R187, R221): one for each check -/

theorem test_wf_header : (Instr.bundleIssue ⟨0, 3, false, false, false, false⟩).wf = false := by decide
theorem test_wf_immediates : (Instr.addImm g0 1 2 ⟨64, false⟩).wf = false ∧ (Instr.brp g0 false 1 ⟨4096, false⟩).wf = false ∧
    (Instr.br g0 ⟨262144, false⟩).wf = false ∧ (Instr.liQ2 g0 1 ⟨0x100, true⟩).wf = false := by decide
theorem test_wf_check_copies : (Instr.mov ⟨true, 0⟩ (.gs 1)).wf = false ∧ (Instr.st ⟨true, 0⟩ 2 1 2 ⟨0, false⟩).wf = false ∧
    (Instr.wrs ⟨true, 0⟩ 3 1).wf = false ∧ (Instr.enq ⟨true, 0⟩ 1).wf = false ∧ (Instr.exit ⟨true, 0⟩ none).wf = false ∧
    (Instr.uret ⟨true, 0⟩).wf = false ∧ (Instr.twaitAll ⟨true, 0⟩).wf = false ∧ (Instr.xselSet ⟨true, 0⟩ 1 1).wf = false ∧
    (Instr.shpsw ⟨0, true, none⟩).wf = false := by decide
theorem test_wf_flag_branch : (Instr.brf g0 0 false 3 ⟨0, false⟩).wf = false ∧ (Instr.brf g0 34 false 0 ⟨0, false⟩).wf = false := by decide
theorem test_wf_special_registers : (Instr.rds g0 1 15).wf = false ∧ (Instr.wrs g0 0 1).wf = false ∧ (Instr.deq g0 1 0).wf = false := by decide
theorem test_wf_selectors : (Instr.xselSet g0 0 1).wf = false ∧ (Instr.yselAndnf g0 0 .all).wf = false := by decide
theorem test_wf_vector_types : (Instr.vfma v0 .i16 1 2 3).wf = false ∧ (Instr.vshl v0 .f32 1 2 3).wf = false ∧
    (Instr.vbc v0 1 (.head 1)).wf = false ∧ (Instr.vcvt v0 13 1 2).wf = false := by decide
theorem test_wf_narrow_widen : (Instr.vnrw v0 1 2 1 false false 0 0).wf = false ∧ (Instr.vnrw v0 1 2 3 false true 0 0).wf = false ∧
    (Instr.vnrw v0 1 2 3 false false 2 1).wf = false ∧ (Instr.vwid v0 6 0 1 2).wf = false ∧ (Instr.vwid v0 4 2 1 2).wf = false := by decide
theorem test_wf_reductions : (Instr.vredx v0 0 .f32 1 2 (some 16)).wf = false ∧ (Instr.vredy v0 3 .f32 1 2 none).wf = false ∧
    (Instr.nred c0 7 .i32 1).wf = false := by decide
theorem test_wf_guards : (Instr.vcrw ⟨0, false, some ⟨false, 0, true, 1, false, 0⟩⟩ 1).wf = false ∧ (Instr.mz ⟨some ⟨false, 0, true, 1, false, 0⟩⟩ 1).wf = false ∧
    (Instr.cpy ⟨some ⟨true, 1, false, 0, false, 0⟩, 0⟩ 1).wf = false := by decide
theorem test_wf_patterns : (Instr.shpld v0 60 1 4).wf = false ∧ (Instr.shpld ⟨1, false, none⟩ 0 1 0).wf = false := by decide
theorem test_wf_matrix : (Instr.mln m0 (.level 6 false 0) 1).wf = false ∧ (Instr.mln m0 (.level 0 false 1) 1).wf = false ∧
    (Instr.mst m0 0 1 2 false false 0).wf = false := by decide
theorem test_wf_network : (Instr.natomAdd c0 true 7 false 0 1 2).wf = false ∧ (Instr.natomAdd c0 true 1 false 1 1 2).wf = false ∧
    (Instr.natomCas c0 true 1 false 0 1 63).wf = false ∧ (Instr.ndrain c0 0 0).wf = false ∧ (Instr.gbar c0 1 7).wf = false := by decide
theorem test_wf_units : (Instr.tileStep 128).wf = false ∧ (Instr.holdExpiry 32).wf = false ∧ (Instr.multicastWindowExpiry 4 0).wf = false ∧
    (Instr.patrolScrub 0 16).wf = false ∧ (Instr.queueServiceSlot 0 4 0).wf = false ∧ (Instr.nopPacket 256).wf = false ∧
    (Instr.mailboxSlot 4).wf = false ∧ (Instr.flitReplay 16 0 true).wf = false ∧ (Instr.registerBlockAccess 64 0 false 0 0).wf = false := by decide

/-! ## Words written out from the encodings of R64-R71, R88, R120, R151, R187 and R221 -/

/-- The words of a slot, its extensions after it, are those of the instruction. -/
def reads (l : List W32) (i : Instr) : Bool := match decode l with | .ok (j, []) => j == i | _ => false

theorem test_decode_header : reads [0x0000_0100] (.bundleIssue ⟨0, 0, false, true, false, false⟩) = true ∧
    reads [0x0010_0000] (.bundleIssue ⟨0x40, 0, false, false, false, false⟩) = true := by decide
theorem test_decode_scalar : reads [0x0083_0422] (.add ⟨false, 2⟩ 3 1 2) = true ∧ reads [0x058D_40D2] (.sel ⟨false, 2⟩ 13 16 13) = true ∧
    reads [0x0040_0000] .nop = true ∧ reads [0x0C04_0840] (.ld g0 2 4 2 ⟨4, false⟩) = true ∧
    reads [0x0D04_0570] (.st g0 2 4 1 ⟨23, false⟩) = true := by decide
theorem test_decode_scalar_control : reads [0x0EFF_FFC0] (.loop g0 ⟨-4, false⟩) = true ∧ reads [0x0F47_3800] (.rds g0 7 14) = true ∧
    reads [0x1005_1800] (.deq g0 5 6) = true ∧ reads [0x1040_0000] (.exit g0 none) = true := by decide
/-- The check copy of the vector addition is the same slot with CHK (R75), and bit 31 of a word is S (R65). -/
theorem test_decode_vector : reads [0x2028_A6A4] (.vadd ⟨1, false, none⟩ .f32 40 41 42) = true ∧
    reads [0xA028_A6A6] (.vadd ⟨1, true, none⟩ .f32 40 41 42) = true ∧
    reads [0x3B85_0C00, 0x7FC0_0005] (.vredy v0 0 .f32 5 3 (some 5)) = true ∧
    reads [0x3B44_0C00, 0xFFC0_000F] (.vbcy v0 4 3 (.imm 15)) = true ∧ reads [0x4106_08D0] (.vrdacc v0 6 2 13) = true := by decide
theorem test_decode_matrix : reads [0x5000_0C00] (.mln m0 (.level 0 false 0) 3) = true ∧ reads [0x5001_1130] (.mln m0 (.level 1 true 3) 4) = true ∧
    reads [0x5007_0800] (.mln m0 .header 2) = true ∧ reads [0x5006_1430] (.mlnK m0 3 5) = true ∧ reads [0x5040_0000] (.mgoIp m0 false) = true ∧
    reads [0x5080_0000] (.mgoOp m0 false) = true ∧ reads [0x5100_0400] (.mms m0 1) = true ∧ reads [0x5140_0C00] (.mwt m0 3) = true ∧
    reads [0x5180_0000] (.mswp m0) = true ∧ reads [0x5280_0000] (.mwait m0) = true ∧ reads [0x5281_0000] (.mwaitWt m0) = true := by decide
theorem test_decode_copy : reads [0x6000_0C00] (.cpy c0 3) = true ∧ reads [0x60C0_0400] (.cpym c0 1) = true ∧
    reads [0x62C0_1400] (.townRel c0 5) = true ∧ reads [0x64F5_8830] (.natomAdd c0 true 5 true 1 2 3) = true ∧
    reads [0x672B_0000] (.ndrain c0 5 3) = true ∧ reads [0x6782_0C00] (.gbar c0 2 3) = true := by decide
/-- What R66, R69, R71, R77 and R79 refuse: a reserved header bit, an unassigned opcode, a missing extension, a nonzero unused field. -/
theorem test_decode_refuses : decodeTableWord 32 0x0000_0001 = none ∧ decodeTableWord 32 0x2580_0000 = none ∧
    decodeTableWord 32 0x2028_A6A5 = none ∧ decodeTableWord 32 0x0040_0010 = none := by decide

/-! ## Single steps: results calculated by hand from the rules named -/

/-- Array 0 after an instruction. -/
def after (i : Instr) (s : State) : Arr := match exec i s with | .next t => t.getA 0 | _ => Arr.reset
/-- The instruction has a write that becomes visible at a cycle. -/
def writes (i : Instr) (s : State) (due : Nat) (w : Wr) : Bool := (after i s).sca.pend.any fun e => e.due == due && e.w == w

/-- R92, R82: s1 = 5, s2 = 7, s3 = −1, s4 = −2⁶³. -/
theorem test_add : writes (.add g0 9 1 2) atU 1 (.s 9 ⟨12, false⟩) = true := by decide +kernel
theorem test_add_wraps : writes (.add g0 9 3 1) atU 1 (.s 9 ⟨4, false⟩) = true := by decide +kernel
theorem test_sub_source_is_destination : writes (.sub g0 1 1 2) atU 1 (.s 1 ⟨0xFFFF_FFFF_FFFF_FFFE, false⟩) = true := by decide +kernel
theorem test_mulh_signed : writes (.mulh g0 9 4 2) atU 3 (.s 9 ⟨0xFFFF_FFFF_FFFF_FFFC, false⟩) = true := by decide +kernel
theorem test_div_overflow : writes (.div g0 9 4 3) atU 20 (.s 9 ⟨0x8000_0000_0000_0000, false⟩) = true := by decide +kernel
theorem test_rem_by_zero : writes (.rem g0 9 1 7) atU 20 (.s 9 ⟨5, false⟩) = true := by decide +kernel
/-- A shift takes its distance modulo 64: s6 = 64. -/
theorem test_shl_of_64 : writes (.shl g0 9 1 6) atU 1 (.s 9 ⟨5, false⟩) = true := by decide +kernel
theorem test_sar : writes (.sar g0 9 4 2) atU 1 (.s 9 ⟨0xFF00_0000_0000_0000, false⟩) = true := by decide +kernel
theorem test_clz_of_zero : writes (.clz g0 9 7) atU 1 (.s 9 ⟨64, false⟩) = true := by decide +kernel
/-- R246: poison of a source is poison of the result; s5 is poisoned. -/
theorem test_add_poison : writes (.add g0 9 1 5) atU 1 (.s 9 ⟨14, true⟩) = true := by decide +kernel
/-- R94: −1 < 5 signed, not unsigned. -/
theorem test_cmp_signed : writes (.cmp g0 .lt 4 3 1) atU 1 (.p 4 true false) = true := by decide +kernel
theorem test_cmp_unsigned : writes (.cmp g0 .ltu 4 3 1) atU 1 (.p 4 false false) = true := by decide +kernel
/-- R96: 1.0 + 1.0 in FP32, in the low word. -/
theorem test_fadd : writes (.fadd g0 false 9 10 10) (upd atU fun x => x.modSca fun c => { c with s := [(10, ⟨0x3F80_0000, false⟩)] }) 4
    (.s 9 ⟨0x4000_0000, false⟩) = true := by decide +kernel
/-- R46, R49: a division of 1.0 by +0 is +infinity with DZ. -/
theorem test_fdiv_by_zero : writes (.fdiv g0 false 9 10 11) (upd atU fun x => x.modSca fun c => { c with s := [(10, ⟨0x3F80_0000, false⟩)] }) 12
    (.s 9 ⟨0x7F80_0000, false⟩) = true := by decide +kernel
/-- R98: a1 holds offset 64 of the own array. -/
theorem test_adda : writes (.adda g0 9 1 1) atU 1 (.a 9 ⟨ownAddr 69, false⟩) = true := by decide +kernel
/-- R100: bytes of the own scratchpad, least significant first. -/
theorem test_ld_byte_order : writes (.ld g0 2 9 2 ⟨0, false⟩) (pad atU 4096 4 0x1122_3344) 6 (.s 9 ⟨0x1122_3344, false⟩) = true := by decide +kernel
/-- R102: a store stands in the queue of the cycle. -/
theorem test_st : ((after (.st g0 1 1 2 ⟨3, false⟩) atU).cel.stq.map fun e => (e.off, e.bytes)) = [(4102, [5, 0])] := by decide +kernel
/-- R105, R82: a taken branch issues its target at T + 2, four words on. -/
theorem test_br : let x := after (.br g0 ⟨4, false⟩) (onU (nops ++ nops)); x.sca.pc = 16 ∧ x.sca.readyAt = 2 := by decide +kernel
theorem test_brp_not_taken : let x := after (.brp g0 false 2 ⟨4, false⟩) (onU (nops ++ nops)); x.sca.pc = 16 ∧ x.sca.readyAt = 1 := by decide +kernel
/-- R59, R260, R264: s9 is beyond an allocation of 8: INVREG, with OPND 9, LEN 4 and SLOT 1, enters S. -/
theorem test_invreg : let x := after (.add g0 9 1 2) (upd atU fun x => x.modTsk fun k => { k with sregs := 8 })
    x.csr.xcause = 3 ∧ x.csr.xinfo = 0x941 ∧ x.csr.prv = 1 ∧ x.csr.xpc = 0 := by decide +kernel
/-- R262: a privileged slot in U is PRIV. -/
theorem test_priv : (after .xret atU).csr.xcause = 0x10 ∧ (after .xret atU).csr.prv = 1 := by decide +kernel
/-- R260, R264: `ECALL` enters S with its number in `xinfo`. -/
theorem test_ecall : let x := after (.ecall 77) atU; x.csr.prv = 1 ∧ x.csr.pprv = 0 ∧ x.csr.xcause = 0x15 ∧ x.csr.xinfo = 77 * 2 ^ 16 + 0x41 := by decide +kernel
/-- R261. -/
theorem test_xret : let x := after .xret (upd atS fun x => x.modCsr fun c => { c with xpc := 32, pprv := 0 }); x.csr.prv = 0 ∧ x.sca.pc = 32 := by decide +kernel
/-- R116: `EXIT` stops the task. -/
theorem test_exit : (after (.exit g0 none) atU).tsk.stop = .exit none := by decide +kernel
/-- R168: `MZ` is queued, and clears its tile when it starts. -/
theorem test_mz : (after (.mz m0 3) atU).mat.cmds.map (·.kind) = [.mz 3] := by decide +kernel
/-- R193: tile 1 released, its valid bit cleared. -/
theorem test_town : (after (.townRel c0 1) (upd atU fun x => (x.modTsk fun k => { k with spalloc := 2 ^ 18 }).modSca fun c => { c with s := [(1, ⟨1, false⟩)] })).cpy.tv.getLsbD 1 = false := by decide +kernel

/-! ## Elements, tasks, packets and registers -/

/-- R86, R117: row 0 of `VADD` on 32-bit integers, 3 + 4 in cell 5 and wrapping in cell 6, visible two cycles after the row executes. -/
def lanes : State := upd atU fun x => x.modCel fun c =>
  { c with v := [(1024 + 5, ⟨3, false, false, false⟩), (1024 + 6, ⟨0xFFFF_FFFF, false, false, false⟩), (2048 + 5, ⟨4, false, false, false⟩), (2048 + 6, ⟨2, true, false, false⟩)] }
def allCells : Cap := ⟨7, 1, -1, -1, none, 0, 0, false, false, PV.zero, 0, ShE.zero, 0, 0⟩
def rowWr (i : Instr) (r n : Nat) : Option (W32 × Bool) :=
  (rowOf i [] ⟨lanes, 0, lanes.here, 7, r⟩ allCells).wr.findSome? fun e => match e.2 with
    | .v _ l => (l.find? (·.1 == n)).bind fun e => e.2.1.map fun v => (v, e.2.2)
    | _ => none
theorem test_vadd : rowWr (.vadd v0 .i32 3 1 2) 0 5 = some (7, false) ∧ rowWr (.vadd v0 .i32 3 1 2) 0 6 = some (1, true) := by decide +kernel
theorem test_vrotx : rowWr (.vrotx v0 3 1 (.imm 1)) 0 6 = some (3, false) := by decide +kernel
theorem test_vmin_bytes : rowWr (.vmin v0 .i8 3 1 2) 0 6 = some (0xFFFF_FFFF, true) := by decide +kernel

/-- The state after a step of a unit that is no array's. -/
def next (i : Instr) (s : State) : State := match exec i s with | .next t => t | _ => State.reset
/-- R270, R31: the task of one level of 4 cells starts at U with `a0` its argument block and `xsel` its 4 columns. -/
theorem test_task_starts : let x := (next (.taskDispatch 0) readyS).getA 0
    x.tsk.run = true ∧ x.csr.prv = 0 ∧ SMap.get PA.zero x.sca.a 0 = ⟨ownAddr 0, false⟩ ∧ SMap.get 0#64 x.sca.xsel 1 = 15 := by decide +kernel
/-- R276: with no task that waits, SLICE is loaded again, from the partition's default where the node gives none. -/
theorem test_slice_reloads : ((next (.sliceExpiry 0) { runS (fun x => x.modCsr fun c => { c with slice := 0 }) with
    part := [(0, { Part.reset with slice := 7 })] }).getA 0).csr.slice = 7 := by decide +kernel
/-- R323: WRITE of one doubleword at 0x10000, least significant byte first, and CSEQ past the packet. -/
theorem test_write_packet : let t := next (.write 3 0x10000 [0x0102]) (qS (pkt 2 [(8, 0x10000), (17, 1), (24, 0x0102)]))
    t.readN 0x10000 8 = 0x0102 ∧ t.byte 0x10000 = 2 ∧ t.qCseq 3 = 6 := by decide +kernel
/-- R319: TAIL never falls. -/
theorem test_tail_write : (next (.tailWrite 3 4) (qS [])).qTail 3 = 6 ∧ (next (.tailWrite 3 9) (qS [])).qTail 3 = 9 := by decide +kernel
/-- R340: bits written 1 to ERRDEV are cleared. -/
theorem test_errdev : (next (.registerWrite .errdev 4) { State.reset with dev := { Dev.reset with errdev := 6 } }).dev.errdev = 2 := by decide +kernel
/-- R344: sixteen failed replays in succession start a retraining. -/
theorem test_flit_replays : ((next (.flitReplay 3 0 false) { State.reset with dev := { Dev.reset with ports := [(3, ⟨false, 15, 0, false, []⟩)] } }).getPort 3).training = true := by decide +kernel
/-- R302: a corrected word is written back. -/
theorem test_writeback : SMap.get 0 (next (.eccWriteback 64) { State.reset with err := [(64, 1)] }).err 64 = 0 := by decide +kernel
/-- R73, R82: the placed bundle of a `NOP` issues, and the next stands four words on. -/
theorem test_step_runs_placed_words : (match step (State.reset.withFetchWord 32 0x0040_0000) with
    | .next t => (t.getA 0).sca.pc == 16#32 | _ => false) = true := by decide +kernel

/-! ## States and operands that meet the hypotheses of the statements, for each clause one, at a boundary of its range -/

/-- `Obligations.EncodingRoundTrip`: an immediate that needs its extension, before a slot that is none. -/
theorem met_encodingRoundTrip :
    (Instr.li g0 63 ⟨0x800_0000, true⟩).wf = true ∧ encode (.li g0 63 ⟨0x800_0000, true⟩) ≠ [] ∧ isExt 0x0040_0000#32 = false := by decide +kernel
/-- `Obligations.DecodingIsCanonical`. -/
theorem met_decodingIsCanonical : decode [0x0083_0422, 0x0040_0000] = .ok (.add ⟨false, 2⟩ 3 1 2, [0x0040_0000]) := by decide +kernel
/-- `Obligations.DecodingRefuses`: the last opcode of no row, a header's reserved bit, a guard extension and an immediate's missing, and one of two. -/
theorem met_decodingRefuses :
    let op (w : W32) : Nat := (w.extractLsb' 22 9).toNat
    op 0x7F80_0000 = 0x1FE ∧ op 0x2580_0000 = 0x096 ∧ op 0x0000_0001 = 0 ∧ (0x0000_0001#32).extractLsb' 0 6 ≠ 0#6 ∧
    ((0x0000_0400#32).getLsbD 9 = false ∧ (0x0000_0400#32).extractLsb' 10 4 ≠ 0#4) ∧
    (op 0x2000_0001 = 0x080 ∧ (0x2000_0001#32).getLsbD 0 = true) ∧ (op 0x70C0_0008 = 0x1C3 ∧ (0x70C0_0008#32).getLsbD 3 = true) ∧
    op 0x6280_0000 = 0x18A ∧ (op 0x5240_0001 = 0x149 ∧ (0x5240_0001#32).getLsbD 0 = true) ∧ (0x7FC0_0000#32).extractLsb' 22 9 = 0x1FF#9 ∧
    (0x0040_0000#32).extractLsb' 22 9 ≠ 0x1FF#9 := by decide +kernel

/-- Bundles of a header and `NOP`s. -/
def hdrU (h : Hdr) : State := onU [hdrWord h, 0x0040_0000, 0x0040_0000, setStop 0x0040_0000]
/-- An array with a deferred preemption that bundles may end, one with a completion pending, and a chain member that a code offset has reached. -/
def stopS : State := upd atU fun x => x.modCsr fun c => { c with preq := true }
/-- The instruction has a next state there. -/
def goes (i : Instr) (s : State) : Bool := match exec i s with | .next _ => true | _ => false
def irqS : State := upd atU fun x => x.modSca fun c => { c with uirq := [(3, 4)], uvec := 8 }
def fedS : State := upd atU fun x => x.modTsk fun k => { k with rank := 1, nranks := 2, members := [5, 0], stream := [(0, 0, false)] }
/-- `Obligations.StepRuns`, `Obligations.BundleRunsSlot`. -/
theorem met_stepRuns :
    { atU with agenda := [nopI] }.agenda = [nopI] ∧
    (let plain (s : State) : Bool := s.agenda.isEmpty && s.phase == .issue && s.mover == some 0
     plain stopS ∧ (stopS.getA 0).asked = true ∧ decodeHdr ((stopS.fetchWords (stopS.getA 0)).headD 0) = some Hdr.plain ∧
     goes (.bundleIssue Hdr.plain) stopS ∧ goes (.bundleIssue Hdr.plain) fedS ∧ plain irqS ∧ (irqS.getA 0).asked = false ∧ (irqS.getA 0).mayAccept 0 = true ∧
     plain atU ∧ (atU.getA 0).asked = false ∧ (atU.getA 0).mayAccept 0 = false ∧ (atU.getA 0).fed = false ∧
     decodeHdr ((atU.fetchWords (atU.getA 0)).headD 0) = some Hdr.plain ∧ bundleFor (encode nopI) <+: atU.fetchWords (atU.getA 0) ∧
     plain fedS ∧ (fedS.getA 0).asked = false ∧ (fedS.getA 0).mayAccept 0 = false ∧ (fedS.getA 0).fed = true ∧ (fedS.getA 0).arrived 0 = some 0 ∧
     decodeHdr ((fedS.fetchWords (fedS.getA 0)).headD 0) = some Hdr.plain) := by decide +kernel

/-- Two heads, a full and an empty one; a ring with two filled slots; wait descriptors for two and for three. -/
def headS (s : State) : State := upd s fun x => (x.modSca fun c => { c with heads := [(2, [⟨0, some ⟨3, false⟩⟩]), (3, [⟨0, none⟩])] }).modCpy fun y =>
  { y with cb := [(1, ⟨true, false, 0, 2, 0, 3, 3, 0, 1, []⟩)], wd := [(3, ⟨true, 1, false, 2⟩), (15, ⟨true, 1, false, 3⟩)] }
/-- `Obligations.HeadersIssue`: each header, its condition met and not, and bundles of one, two, three and eight words. -/
theorem met_headersIssue :
    let holds (h : Hdr) : Prop := [hdrWord h, 0x0040_0000, 0x0040_0000, setStop 0x0040_0000] <+: (hdrU h).fetchWords (hdrU h).here
    let h : Hdr := ⟨0x80, 0, false, true, false, false⟩
    holds ⟨0, 0, false, true, false, false⟩ ∧ holds ⟨4, 0, false, true, false, false⟩ ∧ holds ⟨0, 15, true, false, false, false⟩ ∧
    ((headS atU).here.headAt 2).isSome = true ∧ (headS atU).here.headAt 3 = none ∧ (headS atU).here.headAt 7 = none ∧
    (let w (n : Nat) := SMap.get WDesc.none (headS atU).here.cpy.wd n
     (w 3).on = true ∧ (headS atU).here.cpy.waitMet (w 3) = true ∧ (w 15).on = true ∧ (headS atU).here.cpy.waitMet (w 15) = false ∧ (w 0).on = false) ∧
    [setStop (hdrWord h)] <+: (onU [setStop (hdrWord h)]).fetchWords (onU [setStop (hdrWord h)]).here ∧
    (let l : List W32 := [hdrWord h, setStop 0x0040_0000]
     l <+: (onU l).fetchWords (onU l).here) ∧
    (let l : List W32 := [hdrWord h, 0x0040_0000, setStop 0x0040_0000]
     l <+: (onU l).fetchWords (onU l).here) ∧
    (let l : List W32 := hdrWord h :: List.replicate 7 0x0040_0000
     l = (onU l).fetchWords (onU l).here) := by decide +kernel

/-- A state in each part of a cycle, its array not to move before cycle 9, a die whose clock is to change with no array that runs. -/
def idleS (p : Phase) : State :=
  { upd atU (fun x => x.modSca fun c => { c with readyAt := 9 }) with phase := p, die := [(1, { Die.reset with thr := 4, sub := 104, thrReq := some 0 })] }
/-- `Obligations.CyclesEndAndWritesShow`. -/
theorem met_cyclesEndAndWritesShow :
    (idleS .issue).agenda = [] ∧ (idleS .issue).mover = none ∧ (idleS .grant).phase = .grant ∧ (idleS .read).phase = .read ∧ (idleS .write).phase = .write ∧
    ((idleS .write).getD 0).thrReq = none ∧ ((idleS .write).getD 1).thrReq = some 0 ∧ (∀ e ∈ (idleS .write).arr, e.1 / 32 = 1 → e.2.tsk.run = false) ∧
    (let x := (Arr.reset.push 3 1 (.s 63 ⟨1, false⟩)).push 3 2 (.s 63 ⟨2, true⟩)
     x.sca.pend = [⟨3, 1, .s 63 ⟨1, false⟩⟩, ⟨3, 2, .s 63 ⟨2, true⟩⟩] ∧ (∀ w ∈ x.sca.pend, w.due ≤ 3) ∧ (∀ w ∈ x.sca.pend, 2 < w.due)) ∧
    Arr.reset.sca.pend = [] := by decide +kernel
/-- `Obligations.StepKeepsMemoryCanonical`: at reset, whose memory lists nothing, and where a byte is listed. -/
theorem met_stepKeepsMemoryCanonical :
    Memory.wf State.reset.mem = true ∧ Memory.wf (pad atU 0 1 7).mem = true ∧ (match step (pad atU 0 1 7) with | .next _ => true | _ => false) = true := by decide +kernel
/-- `Obligations.StoresPerform`: the last byte of the scratchpad's first tile and the next tile's first. -/
theorem met_storesPerform :
    let e : StQ := ⟨6, 4095, [1, 2], true, false⟩
    e.only = false ∧ e.bytes ≠ [] ∧ (atU.getA 0).tsk.exch = false := by decide +kernel

/-! ### The scalar class -/

/-- Two bundles of `NOP`s; the same at a loop's counts. -/
def twoU : State := onU (nops ++ nops)
def loopS (lc ec : Word) (g : BitVec 16) : State := upd twoU fun x => x.modSca fun c => { c with lc := lc, ec := ec, g := g }
/-- `Obligations.IntegerArithmetic`, `Obligations.FloatingPoint`: the last register, sources the extremes, and a destination that is a source. -/
theorem met_integerArithmetic :
    atU.readyS g0 [.s 63, .s 3, .s 4] [.s 3, .s 4] = true ∧ atU.readyS g0 [.s 63, .s 3] [.s 3] = true ∧
    atU.readyS ⟨false, 1⟩ [.s 63, .s 3, .s 4] [.s 63, .s 3, .s 4] = true := by decide +kernel
/-- `Obligations.ConstantsMovesCompares`: each premise of a form, both values of the predicate of `SEL`, a clean source of `MOV g`. -/
theorem met_constantsMovesCompares :
    (atU.readyS g0 [.s 63] [] ∧ atU.readyS g0 [.s 63] [.s 63]) ∧
    (atU.regsSound ∧ atU.here.operands [.s 63, .s 1, .s 2] [.s 1, .s 2] ∧ atU.here.pGet 1 = true ∧ atU.here.pGet 7 = false) ∧
    (atU.readyS g0 [.s 63, .s 3] [.s 3] ∧ atU.readyS g0 [.a 15, .s 3] [.s 3] ∧ atU.readyS g0 [.s 63, .a 15] [.a 15] ∧ atU.readyS g0 [.a 0, .a 15] [.a 15] ∧
     atU.readyS g0 [.a 15, .s 3] [.a 15, .s 3] ∧ atU.readyS g0 [.p 7, .s 3] [.s 3] ∧ atU.readyS g0 [.s 63, .p 7] [] ∧
     atU.readyS g0 [.s 3] [.s 3] ∧ (atU.here.sGet 3).p = false) ∧
    (atU.readyS g0 [.p 7, .s 3, .s 4] [.s 3, .s 4] ∧ atU.readyS g0 [.p 0, .s 3] [.s 3]) := by decide +kernel
/-- `Obligations.AddressArithmetic`: an opcode of `LEA` at the end of the words, and a ready address. -/
theorem met_addressArithmetic :
    (0x0B40_0000#32).extractLsb' 22 9 = 0x02D#9 ∧ isExt 0x0040_0000#32 = false ∧ atU.readyS g0 [.a 15, .a 15, .s 3] [.a 15, .s 3] = true := by decide +kernel
/-- `Obligations.LoadsAndStores`: the last eight bytes of the scratchpad's first 256 KiB, and the last byte. -/
theorem met_loadsAndStores :
    let ea : Addr := ownAddr (262144 - 8)
    atU.readyS g0 [.s 63, .a 4] [.a 4] = true ∧ atU.readyS g0 [.s 63, .a 4] [.a 4, .s 63] = true ∧
    ea = BitVec.ofInt 72 ((atU.here.aGet 4).v.toNat + (-1) * 2 ^ 3) ∧
    (upd atU fun x => x.modCpy fun c => { c with tv := BitVec.allOnes 1024 }).here.spadOk (atU.here.aGet 4) ea 8 8 true = true ∧
    atU.here.spadOk (atU.here.aGet 4) (ownAddr 262143) 1 1 false = true ∧ atU.soundAt (262144 - 8) 8 = true := by decide +kernel
/-- `Obligations.TransfersOfControl`: targets the last bundle's word and the image's first, both values of a predicate and of a flag bit, the three ends of
a loop. -/
theorem met_transfersOfControl :
    twoU.here.tsk.rank = 0 ∧ twoU.readyS g0 [] [] = true ∧ twoU.targetOk (twoU.target (7#40)) = true ∧ twoU.targetOk (twoU.target (0#40)) = true ∧
    twoU.readyS g0 [.p 1] [] = true ∧ twoU.here.pPois 1 = false ∧ twoU.here.pGet 1 = true ∧ twoU.here.pPois 7 = false ∧ twoU.here.pGet 7 = false ∧
    (let v := (twoU.agg twoU.cur twoU.now).reg 0
     v.2.getLsbD 63 = false ∧ (v.1.getLsbD 63 = false ∨ v.1.getLsbD 63 = true)) ∧
    twoU.readyS g0 [.s 63] [] = true ∧ twoU.readyS g0 [.s 62] [.s 62] = true ∧ (twoU.here.sGet 62).p = false ∧ twoU.targetOk (twoU.here.sGet 62).v.toInt = true ∧
    twoU.targetOk ((twoU.here.sGet 62).v.toInt + 4 * (7#28).toInt) = true ∧
    (loopS 1 0 0).here.sca.lc ≠ 0#64 ∧ (loopS 0 2 1).here.sca.lc = 0#64 ∧
    (let live (x : Arr) : Bool := decide (2 ≤ min x.sca.ec.toNat 16) && (List.range (min x.sca.ec.toNat 16 - 1)).any fun j => x.sca.g.getLsbD j
     live (loopS 0 2 1).here = true ∧ live (loopS 0 1 1).here = false ∧ live (loopS 0 17 0x8000).here = false) := by decide +kernel
/-- `Obligations.SpecialRegistersQueuesSelectors`: a scalar queue of 31 entries, a head that is full, no poison in the aggregate. -/
theorem met_specialRegistersQueuesSelectors :
    let s := upd (headS atU) fun x => x.modSca fun c => { c with svq := List.replicate 31 ⟨0, false⟩ }
    s.readyS g0 [.s 63] [] = true ∧ (s.here.headAt 2).isSome = true ∧ s.readyS g0 [.s 3] [.s 3] = true ∧ (s.here.sGet 3).p = false ∧ s.here.sca.svq.length = 31 ∧
    s.readyS g0 [] [] = true ∧ (s.agg s.cur s.now).pcol = 0#64 ∧ (s.agg s.cur s.now).prow = 0#16 := by decide +kernel
/-- `Obligations.WaitsReturnsExitsGuards`: the last tile of the scratchpad free, load-block 63 filled, node 1 of two, a handler active. -/
theorem met_waitsReturnsExitsGuards :
    let s := upd atU fun x => (x.modSca fun c => { c with s := [(8, ⟨63, false⟩), (9, ⟨1, false⟩)], hAct := true, hRet := 4 }).modCpy fun c =>
      { c with lb := [(63, ⟨true, 0x10000, 1, true, false, 0⟩)] }
    s.readyS g0 [.s 8] [.s 8] = true ∧ (s.here.sGet 8).p = false ∧ 63 * s.here.tileSize < s.here.tsk.spalloc ∧ s.here.cpy.own.getLsbD 63 = false ∧
    (SMap.get LBlk.none s.here.cpy.lb 63).held = true ∧ (SMap.get LBlk.none s.here.cpy.lb 63).rel = false ∧ (SMap.get LBlk.none s.here.cpy.lb 63).ready = true ∧
    s.readyS g0 [.s 9] [.s 9] = true ∧ s.here.tsk.rank = 0 ∧ (s.here.sGet 9).v.toNat < s.here.tsk.nnodes ∧ s.here.cpy.own = 0#1024 ∧ s.here.sca.hAct = true ∧
    s.readyC c0 [.v 63] [] = true ∧ s.here.cel.vmm.getLsbD (vphys s.here.sca.rrb 63) = false ∧ s.readyC c0 [.s 63] [] = true ∧
    s.here.sca.smm.getLsbD 63 = false ∧ s.readyC c0 [.a 15] [] = true ∧ (s.here.aGet 15).p = false ∧ s.here.sca.amm.getLsbD 15 = false ∧
    s.readyC c0 [.p 7] [] = true ∧ s.here.pPois 7 = false ∧ s.here.sca.pmm.getLsbD 7 = false := by decide +kernel

/-! ### The vector class -/

/-- Tiles valid, no word written. -/
def tiledS : State := upd atU fun x => x.modCpy fun c => { c with tv := BitVec.allOnes 1024 }
/-- `Obligations.VectorLaneSlotsIssue`: the last names, a guard extension with a mask. -/
theorem met_vectorLaneSlotsIssue :
    atU.readyV v0 [.v 63] [.v 62, .v 61] = true ∧ atU.readyV v0 [.v 63] [.v 62, .v 61, .v 63] = true ∧ atU.readyV v0 [.v 63] [.v 63] = true ∧
    atU.readyV v0 [.m 7] [.v 62, .v 61] = true ∧ atU.readyV v0 [.v 63] [.v 62, .v 61, .m 7] = true ∧ atU.readyV v0 [.v 63] [.v 62] = true ∧
    atU.readyV v0 [.v 63, .v 61] [.v 62, .v 61, .v 63] = true := by decide +kernel
/-- `Obligations.VectorExchangeSlotsIssue`: room for the last entry of VSQ, a full head, a valid shuffle entry. -/
theorem met_vectorExchangeSlotsIssue :
    let s := upd (headS atU) fun x => (x.modSca fun c => { c with vsq := List.replicate 31 ⟨0, false⟩ }).modCel fun c => { c with shp := [(63, ⟨0, true, false⟩)] }
    s.readyV v0 [.v 63] [] = true ∧ (s.here.headAt 2).isSome = true ∧ s.readyV v0 [.v 63] [.s 63] = true ∧ s.readyV v0 [.v 63] [.m 7] = true ∧
    s.readyV v0 [.m 7] [.m 6] = true ∧ s.readyV v0 [.m 7] [.v 63] = true ∧ s.readyV v0 [] [.v 63] = true ∧ s.readyV v0 [.v 63] [.v 62] = true ∧
    vsqLoad s.now s.here = 31 ∧ s.readyV v0 [.v 63] [.v 62, .s 63] = true ∧ s.readyV v0 [.v 63] [.v 62, .v 61] = true ∧
    (s.here.shEntry 63).valid = true := by decide +kernel
/-- `Obligations.VectorMemorySlotsIssue`: the last 4 KiB of the allocation and of the vault grant, 64 entries of shuffle. -/
theorem met_vectorMemorySlotsIssue :
    let s := upd tiledS fun x => x.modSca fun c => { c with a := SMap.set ⟨0, false⟩ (SMap.set ⟨0, false⟩ c.a 8 ⟨ownAddr 258048, false⟩) 9 ⟨ownAddr (2 ^ 24 + 61440), false⟩ }
    s.readyV v0 [] [] = true ∧ s.regsSound = true ∧ s.here.openGx none = true ∧ s.here.cel.shBusy ≤ s.now ∧ s.readyV v0 [] [.m 7] = true ∧
    s.readyV v0 [.v 63] [.a 8] = true ∧ s.here.spadOk (s.here.aGet 8) (ownAddr 258048) 1024 4096 true = true ∧
    (s.here.aGet 9).p = false ∧ (ownAddr (2 ^ 24 + 61440)).toNat % 4096 = 0 ∧ s.here.tsk.ownOff 1 (ownAddr (2 ^ 24 + 61440)) = some 61440 ∧
    61440 + 4096 ≤ s.here.tsk.vgrant ∧ s.readyV v0 [] [.v 63, .a 8] = true ∧ s.here.spadOk (s.here.aGet 8) (ownAddr 258048) 1024 4096 false = true ∧
    s.readyV v0 [.v 63] [] = true ∧ (s.here.mat.cmds.any fun k => k.writesAcc 7) = false ∧ s.readyV v0 [.acc 7] [.v 63] = true ∧
    (s.here.mat.cmds.any fun k => k.writesAcc 7 || k.readsAcc 7) = false ∧ s.readyC c0 [.v 63, .a 8] [.a 8] = true ∧
    s.here.operands [.a 8] [.a 8] = true ∧ s.here.spadOk (s.here.aGet 8) (s.here.aGet 8).v 64 4096 true = true ∧
    (∀ i ≤ 63, s.soundAt (s.here.spOff (s.here.aGet 8).v + 64 * i) 64 = true) := by decide +kernel
/-- `Obligations.VectorElementValues`, `Obligations.VectorConversionsAndFunctions`: the types and widths, the lanes of a narrowing, the boundaries of R131. -/
theorem met_vectorConversionsAndFunctions :
    ((VT.i8, 8) ∈ [(VT.i32, 32), (VT.i16, 16), (VT.i8, 8)]) ∧ (1#2).toNat < 32 / 16 ∧ (3#2).toNat < 32 / 8 ∧
    (0x7F80_0000 < (0xFF80_0001#32).toNat % 2 ^ 31) ∧ (0x8000_0000#32).toNat % 2 ^ 31 = 0 ∧ fmt32.isSub (0x807F_FFFF#32).toNat = true ∧
    (2 ^ 31 < (0x8080_0000#32).toNat ∧ (0x8080_0000#32).toNat < 0x7F80_0000 + 2 ^ 31 ∧ fmt32.isSub (0x8080_0000#32).toNat = false) ∧
    (0x4300_0000 ≤ (0x7F7F_FFFF#32).toNat ∧ (0x7F7F_FFFF#32).toNat < 0x7F80_0000) ∧ 0x4180_0000 ≤ (0xC180_0000#32).toNat % 2 ^ 31 ∧
    (0xFE80_0000#32).toNat = 2 ^ 31 + 253 * 2 ^ 23 := by decide +kernel

/-! ### The matrix class -/

/-- A matrix command, and the machine with those given, its accumulators and operands written. -/
def mCmd (seq : BitVec 16) (k : MKind) (started whole : Bool) : MCmd := ⟨seq, k, true, [1, 2], 0, started, whole, none, 3, 5, ⟨0, 0, 0, 0, 0, 0⟩, [], [], none, 0⟩
def withM (l : List MCmd) (s : State) : State := upd s fun x => x.modMat fun m => { m with cmds := l }
/-- The nest of `matU`, and one whose one level's live bits are all 0. -/
def nst : Nest := goNest .ip matU.here
def deadNest : Nest :=
  { nst with tab := { nst.tab with lev := [(0, BitVec.ofNat 256 (fields [(0, 2), (32, 16)]))], bind := [(0, 0x12)] }, kval := [] }
/-- `Obligations.LoopNestAndMatrixStatus`: a header, a level and a bound register's record; commands outstanding but no `MWT`, and none. -/
theorem met_loopNestAndMatrixStatus :
    matU.readyM m0 [.a 2] [.a 2] = true ∧ matU.recClean 2 32 32 = true ∧ hdrOk (matU.recBits 2 32) = true ∧
    (let s := pad atU 4096 32 nestLev.toNat
     s.readyM m0 [.a 2] [.a 2] = true ∧ s.recClean 2 32 32 = true ∧ levOk (s.recBits 2 32) = true ∧ s.recClean 2 8 8 = true) ∧
    matU.readyM m0 [] [] = true ∧ matU.here.mat.cmds = [] ∧ matU.here.mat.pendc = [] ∧ ((withM [mCmd 6 (.mz 1) false false] matU).here.mat.cmds.any isMwt) = false ∧
    matU.readyM m0 [.s 63] [] = true := by decide +kernel
/-- Seven commands outstanding; a weight load's record, a merge request's. -/
def seven (s : State) : State := withM (List.replicate 7 (mCmd 6 .mswp false false)) s
def wt : State := seven (withNest (withEntries (pad atU 4096 32 (mwtDesc 6 true).toNat)) 6 false false)
def ms : State := withEntries (pad atU 4096 32 mmsDesc.toNat)
/-- The check passes. -/
def okOf {ε α : Type} (r : Except ε α) : Bool := match r with | .ok _ => true | .error _ => false
/-- `Obligations.MatrixCommandsIssue`: room for the eighth command; a nest, a weight load, requests that the merge buffer takes and does not, stores and
a load of an accumulator tile. -/
theorem met_matrixCommandsIssue :
    okOf (goCheck .ip (matU.slot 0) (seven matU)) = true ∧ (seven matU).here.mat.cmds.length = 7 ∧ ((seven matU).here.mat.cmds.any isMwt) = false ∧
    matU.here.mat.shd.st ≠ .loaded ∧ matU.readyM m0 [.acc 7] [] = true ∧
    wt.readyM m0 [.a 2] [.a 2] = true ∧ wt.recClean 2 32 32 = true ∧ (match mwtRanges 2 (wt.slot 0) wt with
      | .ok rs => (rs.filter fun r => (wt.here.tsk.ownOff 0 r.1).isNone).isEmpty && okOf (mwtCheck 2 (wt.slot 0) wt)
      | .error _ => false) = true ∧
    ms.readyM m0 [.a 2] [.a 2] = true ∧ mmsTraps 2 (ms.slot 0) ms = [] ∧ okOf (mmsTiles (ms.slot 0) ms.here (ms.recBits 2 32)) = true ∧
    (let u := lookAll 0 (bPages (mmsB ms.here (ms.recBits 2 32)) (ms.recBits 2 32)) (ms.slot 0) ms
     okOf (bProbe 0 ms.here.trCap (mmsB ms.here (ms.recBits 2 32)) (ms.recBits 2 32) u) = true ∧
     (ms.getQ 0).takes (ms.mmsFlying 0) (mmsReq 2 (ms.slot 0) u) ms.here.tsk.chain = true ∧
     (ms.getQ 0).takes (ms.mmsFlying 0) (mmsReq 2 (ms.slot 0) u) true = false) ∧
    (matU.here.aGet 3).p = false ∧ (matU.here.aGet 3).v.toNat % 4 = 0 ∧ 1 ≤ tdRank (SMap.get 0 matU.here.cpy.tdt 6) ∧
    matU.readyM m0 [.acc 7, .a 3, .acc 6] [.acc 7, .a 3, .acc 6] = true ∧ okOf (tileCheck 3 false (SMap.get 0 matU.here.cpy.tdt 6) (matU.slot 1) matU.here) = true ∧
    (matU.here.mat.cmds.any fun m => m.writesAcc 7 || m.writesAcc 6) = false ∧ matU.readyM m0 [.acc 7, .a 3] [.a 3] = true ∧
    tdFmt (SMap.get 0 tiledS.here.cpy.tdt 5) ≤ 1 ∧
    okOf (tileCheck 3 true (SMap.get 0 (withEntries tiledS).here.cpy.tdt 5) ((withEntries tiledS).slot 1) (withEntries tiledS).here) = true := by decide +kernel

/-- A request of the merge buffer of command `seq` that holds `hold` cycles, its B in the vault `bv`. -/
def mReq (seq : BitVec 16) (hold : Nat) (bv : Option Nat) : MmsReq :=
  ⟨0, seq, 0, 2, mmsDesc, SMap.get 0 entries 0, SMap.get 0 entries 1, hold, 0, 77, bv, 0, ⟨0, 0, 0, 0, 0, 0⟩, false⟩
def withStks (l : List Stk) (now : Nat) (s : State) : State := { s with quad := [(0, { Quad.reset with stks := l })], now := now }
/-- The command is at hand, to start. -/
def toStart (s : State) (seq : BitVec 16) : Bool := ((s.getA 0).mcmd seq).isSome && ((s.getA 0).mcmd seq).all fun m => !m.started && mayRun s 0 m
/-- `Obligations.MatrixEngineAndMergeBuffer`, the engine: commands of each kind that may start, the running nest with bytes to write, with a step
it can take and with an index vector of no live tile, a command whose work is over with and without bytes to write. -/
theorem met_matrixEngine :
    (let at_ (k : MKind) : State := withM [mCmd 5 k false false] (withEntries matU)
     toStart (at_ (.mz 7)) 5 = true ∧ toStart (at_ (.mgo nst)) 5 = true ∧ toStart (at_ .mswp) 5 = true ∧ (at_ .mswp).err = [] ∧
     toStart (at_ (.mwt (mwtDesc 6 true) (SMap.get 0 entries 6))) 5 = true) ∧
    (let runs (c : MCmd) : State := withM [c] matU
     let nest (s : State) : Bool := (s.getA 0).nest.isSome && (s.getA 0).tsk.run && !(s.getA 0).killed && !s.stackRuns 0 && !(s.getA 0).stopping
     let c (g : Nest) : MCmd := mCmd 5 (.mgo g) true false
     let opn := { goNest .op matU.here with tdA := tdImg (ownAddr 16384) 2 [(1, 0), (1, 16)] }
     nest (runs { c nst with wr := [⟨ownAddr 8192, [1], [false]⟩] }) = true ∧
     nest (runs (c opn)) = true ∧ ((runs (c opn)).ready 0 (c opn)).1 = .ok ∧ nest (runs (c deadNest)) = true ∧ (runs (c deadNest)).err = [] ∧
     (deadNest.tab.levels.zipIdx.all fun e => !bitAt (deadNest.tab.binding e.2) 4 || bitAt (SMap.get 0#64 deadNest.kval e.2) (deadNest.idx.getD e.2 0 % 64)) = false ∧
     (deadNest.tab.levels.all fun l => !NestLev.se l) = true) ∧
    ((withM [mCmd 5 (.mz 1) true true] matU).here.mcmd 5 = some (mCmd 5 (.mz 1) true true) ∧ isMms (mCmd 5 (.mz 1) true true) = false ∧
     matU.here.tsk.run = true ∧ matU.here.killed = false) := by decide +kernel
/-- `Obligations.MatrixEngineAndMergeBuffer`, the merge buffer: a request alone, one that joins the stack of its key and one that opens its own, a stack that takes
an idle plane, one that takes the plane of a nest of lower priority and one from a nest 4,096 cycles after its dispatch, a stack with work left and one
whose bands are computed. -/
theorem met_mergeBuffer :
    (let one (bv : Option Nat) (l : List Stk) : State := withStks l 3 (withM [mCmd 6 (.mms (mReq 6 5 bv)) false false] (withEntries matU))
     let here (s : State) : Bool := ((s.getA 0).mcmd 6).isSome && (s.getA 0).tsk.run && !(s.getA 0).killed && !(s.getA 0).stopping && !(s.getA 0).tsk.chain
     let hit (k : Stk) : Bool := k.isOpen && (k.reqs.head?.map fun o => sameKey o (mReq 6 5 (some 3))).getD false
     let same : Stk := ⟨[mReq 7 9 (some 3)], 3, true, 3, false, true⟩
     let fifteen : List Stk := [⟨List.replicate 15 (mReq 7 9 (some 3)), 3, true, 3, false, true⟩]
     let t := one (some 3)
     here (one none []) = true ∧ here (t [same]) = true ∧ ((t [same]).getQ 0).men = true ∧
     ((((t fifteen).getQ 0).stks.filter (·.isOpen)).map fun k => k.reqs.length).sum = 15 ∧ hit same = true ∧ same.rows + 4 ≤ 64 ∧
     hit { same with isOpen := false } = false ∧ here (t fifteen) = true) ∧
    (let k : Stk := ⟨[mReq 6 9 (some 0)], 0, false, 0, false, false⟩
     let at_ (now : Nat) (l : List MCmd) : State := { withStks [k] now (withM l matU) with cur := 0 }
     let mms (w : Bool) := mCmd 6 (.mms (mReq 6 9 (some 0))) true w
     let low (s : State) : State := upd s fun x => x.modCsr fun c => { c with prio := 1 }
     let high (s : State) : State := upd s fun x => x.modCsr fun c => { c with prio := 3 }
     (at_ 1 [mms false]).nextStk 0 0 = some k ∧ ownRuns (at_ 1 [mms false]).here = (false, false) ∧
     (let s := low (at_ 1 [mms false, mCmd 5 (.mgo nst) true false])
      s.nextStk 0 0 = some k ∧ ownRuns s.here = (true, false) ∧ s.here.csr.prio.toNat < k.prio) ∧
     (let s := high (at_ 4096 [mms false, mCmd 5 (.mgo nst) true false])
      s.nextStk 0 0 = some k ∧ ownRuns s.here = (true, false) ∧ k.at_ + 4096 ≤ s.now) ∧
     (let r : Stk := { k with run := true }
      (withStks [r] 9 matU).getQ 0 = { Quad.reset with stks := [r] } ∧ r.whole (withM [mms false] matU) = false ∧ r.whole (withM [mms true] matU) = true)) := by
  decide +kernel

/-- Tensors of one element, and the address of that element. -/
def dot (base : Addr) (fmt : Nat) : BitVec 1024 := tdImg base fmt [(1, 1)]
/-- The machine with a command that reads or writes one. -/
def dotS (k : MKind) : State := withM [mCmd 5 k false false] (withEntries matU)
/-- The one position of a tile that lies in such a tensor. -/
theorem inPos_dot (td : BitVec 1024) (k r : Nat) (p : Int) (h : tdRank td = 1 ∧ tdExt td 0 = 1) (hp : inPos td k r = some p) :
    k = 0 ∧ r = 0 ∧ inPos td 0 0 = some p := by
  have hk : k = 0 ∧ r = 0 := by
    simp only [inPos, h.1, h.2, if_true, Option.ite_none_right_eq_some] at hp
    omega
  exact ⟨hk.1, hk.2, by simpa [hk] using hp⟩
/-- Command 5 of array 0, and the machine in which it has read the unit at offset 16384. -/
def theCmd (s : State) : MCmd := ((s.getA 0).mcmd 5).getD (mCmd 5 .mswp false false)
def gotUnit (s : State) : State := upd s fun x => x.modMat fun m => { m with cmds := m.cmds.map fun c => { c with buf := [((ownAddr 16384).toNat / 16, (0x3F80, 1))] } }
/-- `Obligations.MatrixData`, `MLA` and `MWT`: a command on a tensor of one element, whose only position (`inPos_dot`) is found in the own scratchpad with nothing changed. -/
theorem met_matrixLoads :
    (let td := dot (ownAddr 16384) 1
     let s := gotUnit (dotS (.mla 7 (ownAddr 16384) td))
     let m := theCmd s
     toStart s 5 = true ∧ m.missing = [] ∧ fmtPlanes (tdFmt td) = false ∧ tdFmt td ≤ 1 ∧ (tdRank td = 1 ∧ tdExt td 0 = 1) ∧ inPos td 0 0 = some 0 ∧
     (engRead m.buf (tdAddr td 0) (fmtSize (tdFmt td))).isSome = true) ∧
    (let td := dot (ownAddr 16384) 2
     let d := mwtDesc 6 true
     let s := gotUnit (dotS (.mwt d td))
     let m := theCmd s
     toStart s 5 = true ∧ m.missing = [] ∧ fmtPlanes (tdFmt td) = false ∧ MwtDesc.spm d = 0 ∧ MwtDesc.kept d ≤ 4096 ∧ planePos d td = [(0, 0)] ∧
     (engRead m.buf (tdAddr td 0) (fmtSize (tdFmt td))).isSome = true) ∧
    (let s := dotS (.mla 7 (ownAddr 16384) (dot (ownAddr 16384) 1))
     let m := theCmd s
     let u := (ownAddr 16384).toNat / 16
     (s.getA 0).mcmd 5 = some m ∧ m.buf.find u = none ∧ s.err = [] ∧ s.locate 0 m.tr (unitVa u) 16 0 = (.ok (.spad 0 16384 false), s) ∧
     Home.outside (.spad 0 16384 false) = false ∧ (s.askRead 0 (.spad 0 16384 false)).1 = true ∧
     (let b : UBuf := [(u, (2 ^ 128 - 1, 0x8001)), (u + 1, (5, 0))]
      engRead b (ownAddr 16384) 16 = some (2 ^ 128 - 1, true) ∧ engRead b (ownAddr 16399) 8 = some (0x5FF, true))) := by decide +kernel
/-- The data of a band without terms or rows, and of one of a single term. -/
theorem met_bands :
    let r : MmsReq := { mReq 6 5 none with tdA := dot (ownAddr 16384) 2, tdB := dot (ownAddr 16384) 2, desc := mmsDesc }
    let b : UBuf := [((ownAddr 16384).toNat / 16, (0x3F80, 0))]
    (opBlock b r.tdA false ((bandPosA r).take 1)).isSome = true ∧ (opBlock [] r.tdB false []).isSome = true ∧
    (let z : MmsReq := { r with desc := 0 }
     (opBlock [] z.tdA false (bandPosA z)).isSome = true ∧ (opBlock [] z.tdB false (bandPosB z)).isSome = true ∧ MmsDesc.acc z.desc = false) := by decide +kernel
/-- `MST`: under error feedback, its one element at one address. -/
theorem met_matrixStores :
    let td := dot (ownAddr 8192) 2
    let s := dotS (.mst 7 6 true (ownAddr 8192) td)
    toStart s 5 = true ∧ s.err = [] ∧ fmtPlanes (tdFmt td) = false ∧ (tdRank td = 1 ∧ tdExt td 0 = 1) ∧ inPos td 0 0 = some 0 ∧
    ∀ i < fmtSize (tdFmt td), ∀ j < fmtSize (tdFmt td), tdAddr td 0 + BitVec.ofNat 72 i = tdAddr td 0 + BitVec.ofNat 72 j → i = j := by decide +kernel
/-- A block outside the extents is read, as zeros. -/
theorem opBlock_outside (b : UBuf) (td : BitVec 1024) (fl : Bool) (ps : List (Option Int)) (h : ∀ p ∈ ps, p = none) : ∃ l, opBlock b td fl ps = some l := by
  induction ps with
  | nil => exact ⟨[], rfl⟩
  | cons p ps ih =>
    obtain rfl := h p (by simp)
    obtain ⟨l, hl⟩ := ih fun q hq => h q (by simp [hq])
    exact ⟨OpV.zero :: l, by simp [opBlock, hl]⟩
/-- The operands of a tile step beyond the extents of the chunk's dimension can be read. -/
theorem tileOperands (g : Nest) (b : UBuf) (fl : Bool) (i j kc : Int) (pl : Plane) (ha : (tdExt g.tdA 0 : Int) ≤ 16 * kc)
    (hb : tdRank g.tdB = 2 ∧ (tdExt g.tdB 1 : Int) ≤ 16 * kc) :
    (∃ av, (if g.stat = some true then some ((List.range 64).flatMap fun r => (chunkKs kc).map fun k => pl.at_ fl r k)
        else opBlock b g.tdA fl (g.posA i kc)) = some av) ∧
      ∃ bv, (if g.stat = some false then some ((List.range 512).flatMap fun c => (chunkKs kc).map fun k => pl.at_ fl c k)
        else opBlock b g.tdB fl (g.posB j kc)) = some bv := by
  have ge (k : Int) (h : k ∈ chunkKs kc) : 16 * kc ≤ k := by
    obtain ⟨q, _, rfl⟩ := List.mem_map.mp h
    omega
  have nA : ∀ p ∈ g.posA i kc, p = none := by
    intro p hp
    unfold Nest.posA at hp
    split at hp
    · cases hp
    · obtain ⟨r, _, h⟩ := List.mem_flatMap.mp hp
      obtain ⟨k, hk, rfl⟩ := List.mem_map.mp h
      exact if_neg fun h => by have := ge k hk; omega
  have nB : ∀ p ∈ g.posB j kc, p = none := by
    intro p hp
    unfold Nest.posB at hp
    split at hp
    · cases hp
    · obtain ⟨r, _, h⟩ := List.mem_flatMap.mp hp
      obtain ⟨k, hk, rfl⟩ := List.mem_map.mp h
      exact if_neg fun h => by have := ge k hk; simp [hb.1] at h; omega
  constructor
  · split
    · exact ⟨_, rfl⟩
    · exact opBlock_outside b _ fl _ nA
  · split
    · exact ⟨_, rfl⟩
    · exact opBlock_outside b _ fl _ nB
/-- `Obligations.MatrixData`, a live tile step: with neither operand stationary, a stationary B, and a stationary A, in the chunk that follows the extents
(`tileOperands`). -/
theorem met_tileSteps :
    let op := goNest .op matU.here
    let rw_ := goNest .rw matU.here
    (nst.stat = none ∧ op.stat = some false ∧ rw_.stat = some true) ∧
    ∀ g ∈ [nst, op, rw_], NestHdr.csum g.tab.hdr = false ∧ tdExt g.tdA 0 ≤ 16 * 1 ∧ tdRank g.tdB = 2 ∧ tdExt g.tdB 1 ≤ 16 * 1 := by decide +kernel

/-! ### The copy class -/

/-- The preparation passes every check of the copy class at the descriptor at `a2`. -/
def prepares (s : State) (r : Except Trap CPrep) : Bool :=
  s.readyC c0 [.a 2] [.a 2] && s.recClean 2 128 128 && (match r with | .ok p => p.traps (s.slot 0) s.here == [] | .error _ => false)
/-- `Obligations.DescriptorCommandsIssue`: one prepared descriptor for each command; pages that the heap window gives. -/
theorem met_descriptorCommandsIssue :
    let c := cpyS.slot 0
    prepares cpyS (prepCpy 2 c cpyS) = true ∧ prepares cpygS (prepGs true 2 c cpygS) = true ∧ prepares cpygS (prepGs false 2 c cpygS) = true ∧
    prepares nrdxS (prepNrdx 2 c nrdxS) = true ∧ prepares nsaddS (prepNsadd 2 c nsaddS) = true ∧ prepares nbinS (prepNbin 2 c nbinS) = true ∧
    prepares nredS (prepNred 0 .f32 2 c nredS) = true ∧ prepares nmcstS (prepNmcst false 2 c nmcstS) = true ∧ prepares nmcstS (prepNmcst true 2 c nmcstS) = true ∧
    (∀ i < mcNrep (nmcstS.recBits 2 128), nmcstS.warm 0 nmcstS.here.trCap (mcRep (nmcstS.recBits 2 128) i) 1 = nmcstS) ∧
    prepares cpymS (prepCpym 2 c cpymS) = true ∧
    (let d := cpymS.recBits 2 128
     let v : Addr := BitVec.ofNat 72 ((mcSpan d (SMap.get 0 cpymS.here.cpy.tdt (hTds d))).getD (0, 0)).1
     (mcSpan d (SMap.get 0 cpymS.here.cpy.tdt (hTds d))).isSome = true ∧ cpymS.warm 0 cpymS.here.trCap v 0 = cpymS ∧
     (cpymS.locate 0 cpymS.here.trCap v 1 0).1 = .ok (.phys 4096) ∧ cpymS.locatePure 0 cpymS.here.trCap v 1 0 = .ok (.phys 4096)) := by decide +kernel
/-- An array of exchange, with the two arrays of level 2; a head reserved; room for one command. -/
def netS : State := upd (withDesc []) fun x => (x.modTsk fun k => { k with exch := true, spalloc := 393216 }).modSca fun c =>
  { c with a := SMap.set ⟨0, false⟩ c.a 8 ⟨ownAddr 512, false⟩ }
/-- `Obligations.RegisterCommandsIssue`: lengths of 8 and 512 bytes, an atomic of each width, the levels of the task. -/
theorem met_registerCommandsIssue :
    let fits (p : CPrep) : Bool := p.traps (netS.slot 0) netS.here == []
    netS.readyC c0 [.a 8, .a 6] [.a 8, .a 6] = true ∧ (netS.here.aGet 8).p = false ∧ (netS.here.aGet 6).p = false ∧ (netS.here.aGet 8).v.toNat % 8 = 0 ∧
    (netS.here.aGet 6).v.toNat % 8 = 0 ∧ netS.here.tsk.ownOff 0 (netS.here.aGet 8).v = some 512 ∧
    (∀ n ∈ [0, 63], fits { kind := .nrd (netS.here.aGet 8).v (netS.here.aGet 6).v (8 * (n + 1)), spans := [(512, 8 * (n + 1), false)] } = true ∧
      fits { kind := .nwr (netS.here.aGet 8).v (netS.here.aGet 6).v (8 * (n + 1)), spans := [(512, 8 * (n + 1), true)] } = true) ∧
    netS.readyC c0 [.a 8, .s 62, .s 63] [.a 8, .s 62, .s 63] = true ∧ (netS.here.sGet 62).p = false ∧ (netS.here.sGet 63).p = false ∧
    (∀ w ∈ [false, true], (netS.here.aGet 8).v.toNat % (if w then 8 else 4) = 0 ∧
      fits { kind := .natom 6 w 7 (netS.here.aGet 8).v (netS.here.sGet 62) PV.zero (some 5), post := 6 } = true) ∧
    netS.readyC c0 [] [] = true ∧ fits { kind := .ndrain 7, post := 7 } = true ∧ netS.here.tsk.exch = true ∧ quadLevel netS.here.tsk = some 2 ∧
    fits { kind := .eqx, spans := [(393216 - 262144, 131072, false)], coll := some (collKey 1 2) } = true ∧
    namesLevel netS.here.tsk.levels 2 = true ∧
    fits { kind := .gbar 2, post := 7, coll := some (collKey 2 2) } = true := by decide +kernel

/-- `Obligations.LoadBlocksRingsTiles`: a claim of 64 lines up to the end of a page, with lines absent, present and filling, and the last tag free; the releases of
a filled block, of one still filling and of one no other block shares a line with; rings, entries and tiles. -/
theorem met_loadBlocks :
    let s : State := { upd (withDesc []) (fun x => (x.modSca fun c =>
        { c with a := SMap.set ⟨0, false⟩ c.a 8 ⟨8192#72, false⟩, s := [(1, ⟨5, false⟩), (2, ⟨63, false⟩)] }).modCpy fun y =>
          { y with lb := [(5, ⟨true, 8192, 3, true, false, 0⟩), (63, ⟨true, 16384, 2, false, false, 0⟩)] }) with line := [(64, 2), (65, 2), (66, 2), (68, 3), (69, 1), (128, 1)] }
    let x := s.here
    let b : LBlk := ⟨true, 8192, 64, false, false, 0⟩
    s.readyC c0 [.s 63, .a 8] [.a 8] = true ∧ (x.aGet 8).p = false ∧ (8192#72).toNat / 8192 = (8192 + 128 * 64 - 1) / 8192 ∧ freeTags x ≠ [] ∧
    s.locatePure 0 x.trCap 8192 1 0 = .ok (.phys 8192) ∧ ({ kind := .lblk 0 } : CPrep).traps (s.slot 0) x = [] ∧ s.warm 0 x.trCap 8192 0 = s ∧
    (b.keys.filter fun k => SMap.get 0 s.line k == 0) ≠ [] ∧ b.keys.getLast? = some 127 ∧
    s.readyC c0 [.s 1] [.s 1] = true ∧ s.readyC c0 [.s 2] [.s 2] = true ∧ (SMap.get LBlk.none x.cpy.lb 5).held = true ∧ (SMap.get LBlk.none x.cpy.lb 5).ready = true ∧
    (SMap.get LBlk.none x.cpy.lb 63).held = true ∧ (SMap.get LBlk.none x.cpy.lb 63).ready = false ∧ (s.arr.map (·.1)) = [0] ∧
    66 ∈ (SMap.get LBlk.none x.cpy.lb 5).keys ∧ 66 ∉ (SMap.get LBlk.none x.cpy.lb 63).keys := by decide +kernel
theorem met_ringsTiles :
    (let v := fields [(0, 16384), (32, 4), (40, 1), (48, 1)]
     let s := pad atU 4096 16 v
     let x := s.here
     let b := cbOf (s.recBits 2 16)
     s.readyC c0 [.a 2] [.a 2] = true ∧ s.recClean 2 16 16 = true ∧ cbOk x.tileSize (s.recBits 2 16) = true ∧ x.cpy.cb = [] ∧
     x.tsk.inAlloc b.off (b.size x.tileSize) = true) ∧
    (let b (dir : Bool) : CBuf := ⟨true, dir, 1, 4, 16384, 0, 3, 0, 2, []⟩
     atU.readyC c0 [] [] = true ∧ (b true).on = true ∧ ((b true).ful - (b true).con).toNat + 2 + 1 ≤ (b true).slots ∧ 0 + 1 ≤ ((b false).ful - (b false).con).toNat) ∧
    (let s := pad atU 4096 128 (SMap.get 0 entries 3).toNat
     s.readyC c0 [.a 2] [.a 2] = true ∧ s.recClean 2 128 128 = true ∧ tdOk (s.recBits 2 128) = true ∧
     s.here.spadOk (s.here.aGet 2) (s.here.aGet 2).v 128 128 true = true) ∧
    (let s := upd atU fun x => x.modSca fun c => { c with s := [(1, ⟨63, false⟩), (2, ⟨6, false⟩)] }
     s.readyC c0 [.s 1] [.s 1] = true ∧ 63 + 1 = s.here.ntiles ∧ s.here.cpy.own.getLsbD 63 = false ∧ s.readyC c0 [.s 2] [.s 2] = true ∧ s.here.cpy.own = 0 ∧
     s.here.cpy.cb = []) := by decide +kernel

/-- A copy-class command of array 0 with tile 2 engine-owned, and two arrays of one quad, the first with the commands given. -/
def cCmd (k : CKind) : CCmd :=
  { seq := 5, n := 3, kind := k, desc := 0, tds := 0, tdd := 0, tr := ⟨0, 0, 0, 0x100, 0, 0⟩, tiles := [2], post := 0, ui := true, scb := none, dcb := none,
    t := 0, nth := 0, lbuf := [], plan := none, count := 0, oob := false, ovf := false, empty := false, fault := false, pz := false, arrived := false, whole := false,
    park := none, inord := false, old := none }
def withC (l : List CCmd) (x : Arr) : Arr := x.modCpy fun y => { y with cmds := l }
def twoS (l m : List CCmd) : State :=
  { withDesc [] with
    arr := [(0, withC l (withDesc []).here), (1, withC m ((withDesc []).here.modTsk fun k => { k with id := 1, lidx := [0, 1, 0] }))]
    task := [(0, some ⟨7, 0, [0, 0, 0], .running, 0, [0], [], [], none, [], false, none⟩), (1, some ⟨7, 0, [0, 1, 0], .running, 0, [1], [], [], none, [], false, none⟩)] }
/-- The address at an offset of the scratchpad of the second array. -/
def peer (off : Nat) : Addr := BitVec.ofNat 72 (0xFF * 2 ^ 64 + 2 * 2 ^ 61 + 1 * 2 ^ 27 + off)
def toEnd (s : State) : Bool :=
  ((s.getA 0).cmdOf 5).any fun m => !m.stuck (s.getA 0) && s.cmdDone 0 m && m.kind != .cpym &&
    (m.fault || m.whole || m.plan.isSome && (m.kind == .cpy || m.kind == .cpyg || m.kind == .cpys || m.kind == .nrdx))
/-- `Obligations.CopyCommandCompletes`: a copy whose pieces are done, an atomic with its old value, a command that faulted, one whose effect is whole. -/
theorem met_copyCommandCompletes :
    let px : XPiece := ⟨0, 0, some (ownAddr 64), 0, peer 128, 8, -1, false, false, none, true⟩
    let nat : CKind := .natom 0 true 6 (ownAddr 64) ⟨1, false⟩ ⟨2, false⟩ (some 3)
    toEnd (twoS [{ cCmd .cpy with plan := some [px], post := 3 }] []) = true ∧ toEnd (twoS [{ cCmd .cpyg with plan := some [] }] []) = true ∧
    toEnd (twoS [{ cCmd nat with whole := true, old := some ⟨3, true⟩, pz := true }] []) = true ∧
    toEnd (twoS [{ cCmd .nsadd with fault := true, tiles := [1, 2, 3] }] []) = true ∧ toEnd (twoS [{ cCmd (.ctxsv 0 false) with whole := true }] []) = true := by
  decide +kernel
/-- The command of array 0 performs on the home at an address. -/
def mayPerform (s : State) (m : CCmd) (ord : Bool) (va : Addr) (n acc : Nat) (h : Home) : Bool :=
  s.err.isEmpty && (s.getA 0).cmdOf 5 == some m && !m.stuck (s.getA 0) && !m.fault && !m.whole && !s.heldAt 0 m ord va acc &&
    s.locateK (s.getA 0).tsk 0 m.tr va n acc == (.ok h, s) && !m.early s 0 h && !s.excluded h
/-- `Obligations.AccessesAndArrivals`, the accesses: atomics of both widths on the own scratchpad and on another array's, a piece to read and to write, a
remote write of one byte and of five. -/
theorem met_accesses :
    (let m (w : Bool) (ea : Addr) : CCmd := cCmd (.natom 3 w 7 ea ⟨1, false⟩ ⟨2, false⟩ (some 3))
     let at_ (w : Bool) (ea : Addr) (h : Home) : Bool :=
       let s := twoS [m w ea] []
       mayPerform s (m w ea) true ea (if w then 8 else 4) 2 h && (s.askRead 4 h).1 && decide (homeScope 0 h ≤ 7) && !(s.readHome h (if w then 8 else 4)).2.1
     at_ true (ownAddr 64) (.spad 0 64 false) = true ∧ at_ false (peer 132) (.spad 1 132 true) = true) ∧
    (let p (got : Option (Word × Bool)) : XPiece := ⟨0, 0, some (ownAddr 64), 0, peer 128, 8, -1, false, false, got, false⟩
     let m (got : Option (Word × Bool)) : CCmd := { cCmd .cpy with plan := some [p got] }
     let rd := twoS [m none] []
     let wr := twoS [m (some (0xFF00FF, false))] []
     mayPerform rd (m none) false (ownAddr 64) 8 0 (.spad 0 64 false) = true ∧ (rd.askRead 1 (.spad 0 64 false)).1 = true ∧
     mayPerform wr (m (some (0xFF00FF, false))) false (peer 128) 8 1 (.spad 1 128 true) = true ∧ (peer 128).toNat + 8 ≤ 2 ^ 72) ∧
    (let o (va : Addr) (n : Nat) : NIOp := ⟨2, 9, ⟨0, 0, 0, 0x100, 0, 0⟩, .wr va (List.replicate n 7) (List.replicate n false), none, false, none⟩
     let s := (twoS [] []).modA 0 fun x => x.modCpy fun y => { y with ni := [o (ownAddr 3) 1, o (peer 4095) 5] }
     (s.heldBack 0 9 (some (.spad 0 3 false)) = false ∧ s.locateK (s.getA 0).tsk 0 ⟨0, 0, 0, 0x100, 0, 0⟩ (ownAddr 3) 1 1 = (.ok (.spad 0 3 false), s) ∧
      s.excluded (.spad 0 3 false) = false) ∧
     (s.heldBack 0 9 (some (.spad 1 4095 true)) = false ∧
      s.locateK (s.getA 0).tsk 0 ⟨0, 0, 0, 0x100, 0, 0⟩ (peer 4095) 5 1 = (.ok (.spad 1 4095 true), s) ∧ s.excluded (.spad 1 4095 true) = false)) := by decide +kernel
/-- `Obligations.AccessesAndArrivals`, what several meet: the first arrival and the last of `EQX` and of `GBAR`; a multicast request that opens a group and one
that joins it; the last line of a fill. -/
theorem met_arrivals :
    (let exq (s : State) : State := (s.modA 0 fun x => x.modTsk fun k => { k with exch := true, spalloc := 393216 }).modA 1 fun x => x.modTsk fun k => { k with exch := true, spalloc := 393216 }
     let here (s : State) (k : CKind) : Bool := (s.getA 0).cmdOf 5 == some (cCmd k) && !(cCmd k).stuck (s.getA 0)
     let other (k : CKind) (arr : Bool) : CCmd := { cCmd k with seq := 6, arrived := arr }
     (∀ arr ∈ [false, true], let s := exq (twoS [cCmd .eqx] [other .eqx arr])
       here s .eqx = true ∧ (s.getA 0).quiet 0 = true ∧ quadLevel (s.getA 0).tsk = some 2 ∧ s.drained 0 3 3 = true) ∧
     (∀ arr ∈ [false, true], let s := twoS [cCmd (.gbar 2)] [other (.gbar 2) arr]
       here s (.gbar 2) = true ∧ s.drained 0 3 (levelScope (s.getA 0).tsk 2) = true)) ∧
    (let d : BitVec 1024 := BitVec.ofNat 1024 (fields [(0, 7), (8, 4), (16, 1), (512, 8), (736, 1), (768, 100)])
     let m : CCmd := { cCmd .cpym with plan := some [], desc := d, tds := tdImg 4096#72 0 [(8, 0)] }
     let g : MGrp := ⟨0, 4096, tdNoOob m.tds, d, 0, mcMask d, 100, 0, [(2, 9)], false, 0, 0, []⟩
     let opens := upd cpymS (withC [m])
     let joins : State := { opens with die := [(0, { Die.reset with grps := [g] })] }
     (∀ s ∈ [opens, joins], (s.getA 0).cmdOf 5 = some m ∧ m.stuck (s.getA 0) = false ∧ mcSpan m.desc m.tds = some (4096, 32) ∧
       s.heldAt 0 m true 4096 0 = false ∧ s.locateK (s.getA 0).tsk 0 m.tr 4096 1 0 = (.ok (.phys 4096), s)) ∧
     (let key (g : MGrp) : Bool := !g.shut && g.pa == 4096 && g.tds == tdNoOob m.tds && mcShape g.desc == mcShape m.desc &&
        g.mask == mcMask m.desc && (g.members.headD (0, 0)).1 / 32 == 0
      (opens.getD 0).grps.any key = false ∧ (joins.getD 0).grps.any key = true)) ∧
    (let s : State := { upd (withDesc []) (fun x => x.modCpy fun y => { y with lb := [(5, ⟨true, 8192, 3, false, false, 0⟩)] }) with line := [(64, 2), (65, 1), (66, 2)] }
     SMap.get 0 s.line 65 = 1 ∧ (s.holdRoom 65) = true ∧ (∀ v ∈ s.arr, ∀ l ∈ v.2.cpy.lb, l.2.rel = false)) := by decide +kernel

/-! ### The system class, tasks, translation and parity -/

/-- `Obligations.SystemSlots`, `Obligations.SystemCallsAndUserInterrupts`: at S and at U, CSR 63 named, kinds 0 to 2, frames at an aligned address; a chain. -/
theorem met_systemSlots :
    let s := upd atS fun x => (x.modTsk fun k => { k with exch := true, spalloc := 393216 }).modCpy fun c => { c with tv := BitVec.allOnes 1024 }
    s.here.atS = true ∧ s.regsSound = true ∧ s.here.operands [.s 63] [] = true ∧ s.here.operands [.s 3] [.s 3] = true ∧ s.here.operands [.a 2] [.a 2] = true ∧
    (s.here.aGet 2).p = false ∧ s.here.cpy.framing = false ∧ atU.here.atS = false ∧ atU.regsSound = true ∧ atU.here.tsk.chain = false ∧
    (upd atU fun x => x.modTsk fun k => { k with levels := [⟨3, 0, 2⟩] }).here.tsk.chain = true ∧
    (let f := upd (withDesc []) fun x => (x.modCsr fun c => { c with prv := 1 }).modSca fun c => { c with a := SMap.set ⟨0, false⟩ c.a 8 ⟨0x20000, false⟩ }
     f.here.atS = true ∧ (f.here.aGet 8).p = false ∧
     ({ kind := .ctxsv 0x20000 (readKeep (f.slot 0) 0x20000 (lookAll 0 [0x20002] (f.slot 0) f)), frame := true,
        spans := [(0, f.here.tsk.spalloc, false)] } : CPrep).traps (f.slot 0) f.here = [] ∧
     ({ kind := .ctxld 0x20000, frame := true, spans := [(0, f.here.tsk.spalloc, false)] } : CPrep).traps (f.slot 0) f.here = []) ∧
    (irqS.getA 0).mayAccept irqS.now = true ∧ (irqS.getA 0).sca.uirq = [(3, 4)] := by decide +kernel
/-- `Obligations.SystemSlots`: no task parked and no queue waiting; and a parked task saved with nothing parked any more, the last generation. -/
theorem met_faultBufferFlush :
    let p : Task := { theTask with st := .parked, arrs := [0], saved := [arrOf nops], parkGen := some 4 }
    let s : State := { atS with task := [(0, some p)], die := [(0, { Die.reset with fbgen := 0xFFFF_FFFF })], queue := [(3, ⟨true, 0, 0x1000, 0, 0, 0, 0x2000, 4, 2, 7, 8, [], [], [], some 1, []⟩)] }
    atS.here.atS = true ∧ atS.regsSound = true ∧ atS.task = [] ∧ atS.queue = [] ∧ s.here.atS = true ∧ SMap.get none s.task 0 = some p ∧
    (p.arrs.all fun b => b / 32 == 0) = true ∧ p.saved.length ≤ p.arrs.length ∧
    (∀ x ∈ p.saved, x.cpy.cmds = [] ∧ x.cpy.ni = [] ∧ x.mat.cmds = []) ∧ 4 / 2 ^ 32 = 0 ∧ 4 % 2 ^ 32 ≠ ((s.getD 0).fbgen + 1).toNat ∧
    (s.getU 3).on = true ∧ (s.getU 3).die = 0 ∧ (s.getU 3).parked ≠ some ((s.getD 0).fbgen + 1).toNat := by decide +kernel
/-- `Obligations.TaskStarts`: the ready task of `readyS`, for array 0. -/
theorem met_taskStarts :
    let s := readyS
    (s.task.map (·.1)) = [0] ∧ s.pool 0 = [(0, theTask)] ∧ s.getT 0 = some theTask ∧ s.getL theTask.launch = some theLaunch ∧ s.gang theTask = [(0, theTask)] ∧
    memberCount (rLevels record) = 1 ∧ domAt (rLevels record) (taskLevel (rLevels record)) ≠ 3 ∧ theTask.saved = [] ∧ s.gangReady theTask = true ∧
    s.capable 0 (ndSpalloc record 0) ≠ [] ∧ s.bestPlace theLaunch theTask [] = some [(0, 0)] ∧ s.victims [0] = [] ∧ (s.getA 0).tsk.run = false ∧
    (s.getQ 0).gated = false ∧ theLaunch.at_ 0 ≠ spadKey 0 0 := by decide +kernel
/-- The task of array 0, stopped. -/
def stopped (w : Stop) (f : Arr → Arr) : State := runS fun x => f (x.modTsk fun k => { k with stop := w })
/-- `Obligations.TasksStop`: a preemption with nothing parked and with a parked access, a park, a `HALT` that parks, an exit, a kill that the node's RERUN
and the limit allow and one that they do not. -/
theorem met_tasksStop :
    let parked (x : Arr) : Arr := x.modCpy fun y => { y with ni := [⟨1, 9, ⟨0, 0, 0, 0x100, 0, 0⟩, .wr 4096 [1] [false], some 0, true, none⟩] }
    let base (s : State) : Bool := (s.task.map (·.1)) == [0] && (s.getA 0).tsk.run && (s.getA 0).tsk.id == 0 && (s.getT 0).any fun k =>
      k.st == .running && k.arrs == [0] && s.gang k == [(0, k)] && (s.getL k.launch).isSome
    let ready (s : State) : Bool := base s && s.saveable 0
    ready (stopped .preempt id) = true ∧ ((stopped .preempt id).getA 0).parked = false ∧ ready (stopped .preempt parked) = true ∧
    ((stopped .preempt parked).getA 0).parked = true ∧ ready (stopped .park id) = true ∧
    ready (stopped .halt fun x => x.modCsr fun c => { c with disp := 3 }) = true ∧ base (stopped (.exit none) id) = true ∧
    ((stopped (.exit none) id).getA 0).exitReady = true ∧ base (stopped (.kill 3 5 8 false) id) = true ∧ ndRerun record 0 = true ∧
    SMap.get 0 theLaunch.reruns 0 < (SMap.get Part.reset (stopped (.kill 3 5 8 false) id).part 0).limit ∧ base (stopped (.kill 3 5 8 true) id) = true := by decide +kernel
/-- `Obligations.SlicesAndPower`: a slice run out with no task waiting and with one that needs the place; a quad idle for 65,536 cycles; a wake that ends now. -/
theorem met_slicesAndPower :
    let run (s : State) : Bool := (s.runs 0).isSome && (s.getA 0).csr.slice == 0 && (s.getA 0).tsk.stop == .no && !(s.getA 0).csr.preq
    let one := runS id
    let two : State := { one with
      launch := [(0, some theLaunch), (1, some theLaunch)], task := one.task ++ [(1, some { theTask with launch := 1, order := 1 })], arr := one.arr ++ (List.range 31).map fun i => (i + 1, (one.getA 0).modTsk fun k => { k with id := 2 }) }
    let q : State := { State.reset with now := 65546, quad := [(31, { Quad.reset with idle := 10 }), (2, { Quad.reset with gated := true, wake := some 65546 })] }
    run one = true ∧ one.pool 0 = [] ∧ run two = true ∧
    (two.pool 0).any (fun e => decide (two.prioOf theTask ≤ two.prioOf e.2) && two.gangReady e.2 &&
      (two.bestPlace theLaunch e.2 ((List.range 128).filter fun b => (two.getA b).tsk.run)).isNone) = true ∧
    two.gangArrs { theTask with st := .running, arrs := [0] } = [(0, 0)] ∧
    (q.getQ 31).gated = false ∧ (∀ i < 4, (q.getA (4 * 31 + i)).tsk.run = false) ∧ q.task = [] ∧ (q.getQ 31).stks = [] ∧ (q.getQ 31).idle + 65536 ≤ q.now ∧
    (SMap.get Part.reset q.part (q.getD 3).part).gate = true ∧ (q.getQ 2).wake = some q.now := by decide +kernel

/-- A walk of context 7, page 3, that has ended with a result, its waiter on array 0, at TGEN 4. -/
def walkS (r : WalkRes) (u : WUnit) (tg : W32) (acc : Nat) : State :=
  { upd atU (fun x => (x.modCpy fun y =>
      { y with cmds := (match u with | .cpy => [cCmd .cpy] | _ => []),
               ni := (match u with | .ni => [⟨1, 5, ⟨0, 0, 0, 0x100, 0, 0⟩, .wr 0x30000 [1] [false], none, false, none⟩] | _ => []) }).modMat fun m =>
        { m with cmds := (match u with | .mat => [mCmd 5 (.mz 1) true false] | _ => []) }) with
    die := [(0, { Die.reset with svc := true, walks := [⟨0, 7, 3, 0, tg, r, [⟨0, 5, 0x30000, acc, u⟩]⟩], tgen := 4 })] }
/-- `Obligations.TranslationsEnd`, the walks: another TGEN, a leaf that a read and a write pass, an absent page for each of the three units, another fault. -/
theorem met_walksEnd :
    let at_ (s : State) (tg : W32) (r : WalkRes) : Bool := (match (s.getD 0).walks[0]? with
      | some w => w.tgen == tg && w.res == r && (w.waiters.map fun q => (q.arr, q.seq)) == [(0, 5)]
      | none => false)
    let lf : WalkRes := .leaf 0 65536 true true true
    at_ (walkS lf .cpy 3 0) 3 lf = true ∧ ((walkS lf .cpy 3 0).getD 0).tgen = 4 ∧
    (∀ acc ∈ [0, 1], at_ (walkS lf .cpy 4 acc) 4 lf = true ∧ (match (walkS lf .cpy 4 acc).leafRes 0 0x30000 0 65536 true true true acc with | .ok _ => true | _ => false) = true) ∧
    (let s := walkS (.fault 1 2) .cpy 4 0
     at_ s 4 (.fault 1 2) = true ∧ (s.getA 0).cmdOf 5 = some (cCmd .cpy)) ∧
    (let s := walkS (.fault 1 2) .ni 4 0
     at_ s 4 (.fault 1 2) = true ∧ (s.getA 0).cpy.ni.map (·.seq) = [5]) ∧
    (let s := walkS (.fault 1 2) .mat 4 0
     at_ s 4 (.fault 1 2) = true ∧ (s.getA 0).mcmd 5 = some (mCmd 5 (.mz 1) true false)) ∧
    (let s := walkS (.fault 2 1) .cpy 4 0
     at_ s 4 (.fault 2 1) = true ∧ (s.getA 0).cmdOf 5 = some (cCmd .cpy)) ∧
    State.reset.owes 127 = false ∧ (upd cpymS (withC [{ cCmd .cpym with arrived := true, plan := some [] }])).owes 127 = false := by decide +kernel

/-- Array 127's integrity state. -/
def itgS (g : Itg) : State := { State.reset with now := 1024, arr := [(127, { Arr.reset with itg := g })] }
/-- `Obligations.BanksAndParity`: the last array, group and bank, words at the ends of a bank; a queue of seven and one of one delta; stale indices; a scrub
of the last index; a corrected word; a first and a second bank to retire; a group dead. -/
theorem met_banksAndParity :
    (let g := (itgS { Itg.reset with puq := [(15, List.replicate 7 (3, 5))] }).getA 127 |>.itg
     63 / 4 = 15 ∧ g.degraded 15 = false ∧ g.gret = 0#16 ∧ (SMap.get [] g.puq 15).length = 7 ∧ SMap.get false g.stale (15 * 4096 + 4095) = false ∧
     SMap.get GUse.none g.use 15 = GUse.none ∧ (g.used 15).recon = false) ∧
    (let s := itgS { Itg.reset with stale := [(15 * 4096 + 5, true), (15 * 4096 + 4095, true)] }
     (s.getA 127).itg.stales 15 = [5, 4095] ∧ SMap.get [] (s.getA 127).itg.puq 15 = [] ∧ ((s.getA 127).itg.used 15).busy = false) ∧
    (let s := itgS { Itg.reset with scrub := [(15, 4095)] }
     let g := (s.getA 127).itg
     (∀ b < 4, ∀ j < 4, let o := 16 * g.holds (64 * 4095 + 4 * 15 + b) + 4 * j
       SMap.get 0 s.err (spadKey 127 o) = 0 ∧ s.spadPois 127 o = false ∧ SMap.get 0 s.err (parKey 127 15 4095 + 4 * j) = 0) ∧
     g.degraded 15 = false ∧ SMap.get false g.stale (15 * 4096 + 4095) = false ∧ g.stales 15 = [] ∧ SMap.get [] g.puq 15 = [] ∧ (g.used 15).busy = false ∧
     SMap.get 0 g.scrubWait 15 + 1024 ≤ s.now) ∧
    (let s : State := { State.reset with err := [(spadKey 0 64, 1)] }
     SMap.get 0 s.err (spadKey 0 64) = 1) ∧
    (let one := ((itgS { Itg.reset with rbank := 0x8000_0000_0000_0000#64 }).getA 127).itg
     Itg.reset.rbank.getLsbD 63 = false ∧ Itg.reset.degraded 15 = false ∧ one.rbank.getLsbD 60 = false ∧ one.degraded 15 = true) ∧
    (let s := itgS { Itg.reset with rbank := 0xC000_0000_0000_0000#64, noDisp := true }
     (s.getA 127).tsk.run = false ∧ (s.getA 127).itg.dead ≠ [] ∧ s.task = []) := by decide +kernel

/-! ### Queues -/

/-- The conditions of `Tidy` and of `State.winOk`, evaluated. -/
def tidyB (s : State) (q : Nat) (f : Fetched) : Bool :=
  (s.getU q).on && spaceOf (s.qSlot q f.idx) == 0 && s.queue.all (fun e => !e.2.on || decide (s.qSlot q f.idx + 64 ≤ e.2.desc ∨ e.2.desc + 128 ≤ s.qSlot q f.idx)) &&
    s.memSound (s.qSlot q f.idx) 8 && s.memSound ((s.getU q).desc + 32) 24 && (s.getU q).fin.isEmpty
theorem tidy_of (s : State) (q : Nat) (f : Fetched) (h : tidyB s q f = true) : Tidy s q f := by
  simp only [tidyB, Bool.and_eq_true, List.all_eq_true, Bool.or_eq_true, Bool.not_eq_true', decide_eq_true_eq, beq_iff_eq, List.isEmpty_iff] at h
  obtain ⟨⟨⟨⟨⟨h1, h2⟩, h3⟩, h4⟩, h5⟩, h6⟩ := h
  exact ⟨h1, h2, fun e he on => (h3 e he).resolve_left (by simp [on]), h4, h5, h6⟩
def winB (s : State) (va : Addr) (n : Nat) : Bool :=
  let pa := s.winPa 3 va
  let slot := s.qSlot 3 5
  decide (at16 (s.qTr 3).base ≤ va.toNat ∧ va.toNat + n ≤ at16 (s.qTr 3).limit ∧ va.toNat + n ≤ 0xFF * 2 ^ 64 ∧ pa + n ≤ 2 ^ 69 ∧
    spaceOf pa = spaceOf (pa + n - 1) ∧ (∀ i < n, s.mapped (s.qTr 3).part (pa + i) = true) ∧ (pa + n ≤ slot ∨ slot + 64 ≤ pa) ∧
    s.memSound pa n = true ∧ ∀ e ∈ s.queue, e.2.on = true → pa + n ≤ e.2.desc ∨ e.2.desc + 128 ≤ pa)
theorem winOk_of (s : State) (va : Addr) (n : Nat) (h : winB s va n = true) : s.winOk 3 va n (s.qSlot 3 5) := by
  simpa only [winB, decide_eq_true_eq, State.winOk] using h
/-- A packet of the bytes is current in a tidy queue 3, as the instruction it is. -/
def current (s : State) (l : List Byte) : Bool := tidyB s 3 (f5 l) && (pkInstr 3 l).any fun i => s.isCurrent 3 i == some (f5 l)
/-- `Obligations.PacketsRun` (with `tidy_of` and `winOk_of`): each condition of `WAIT` met and not; the last word of the window. -/
theorem met_packetsCompleteOrWait :
    let wait (c v : Nat) : List Byte := pkt 5 [(8, 0xFFFFF8), (17, c), (24, v), (32, 0xFF)]
    let s (c v : Nat) : State := pad (qS (wait c v)) 0 0 0
    current (qS (pkt 0 [])) (pkt 0 []) = true ∧ current (qS (pkt 6 [])) (pkt 6 []) = true ∧ current (qS (pkt 7 [])) (pkt 7 []) = true ∧
    (∀ e ∈ [(0, 0), (0, 1), (1, 0), (1, 1), (2, 0), (2, 1), (3, 0), (3, 1)], current (s e.1 e.2) (wait e.1 e.2) = true) ∧
    winB (s 0 0) 0xFFFFF8 8 = true ∧ (s 0 0).readN ((s 0 0).winPa 3 0xFFFFF8) 8 = 0 := by decide +kernel
/-- `Obligations.PacketsRun`: one word and the most a packet carries, a value set and added, at the window's end. -/
theorem met_packetsWrite :
    let one := pkt 2 [(8, 0xFFFFF8), (17, 1), (24, 0xFFFF_FFFF_FFFF_FFFF)]
    let four := pkt 2 [(8, 0x10000), (17, 4), (24, 5), (32, 6), (40, 7), (48, 8)]
    let sig (op : Nat) := pkt 3 [(8, 0x10000), (17, op), (24, 0xFFFF_FFFF_FFFF_FFFF)]
    let ws (op : Nat) := pkt 4 [(8, 0x10000), (24, 5), (32, 0x10000), (41, op), (48, 7)]
    let ts := pkt 9 [(8, 0xFFFFF0)]
    current (qS one) one = true ∧ winB (qS one) 0xFFFFF8 8 = true ∧ current (qS four) four = true ∧ winB (qS four) 0x10000 32 = true ∧
    (∀ op ∈ [1, 2], current (qS (sig op)) (sig op) = true ∧ current (qS (ws op)) (ws op) = true ∧ winB (qS (ws op)) 0x10000 8 = true) ∧
    current (qS ts) ts = true ∧ winB (qS ts) 0xFFFFF0 16 = true := by decide +kernel
/-- The packet's record in die 0 of partition 0, in service. -/
def pktS (l b : List Byte) : State := { withRecord (qS l) b with die := [(0, { Die.reset with svc := true, cyc := 77 })] }
def launchP : List Byte := pkt 1 [(8, 0x20000)]
def replayP : List Byte := pkt 10 [(8, 0x20000), (17, 2), (24, 0x30000)]
/-- `Obligations.PacketsHandedOver`, handing over: a copy over a page's end, a launch that passes its checks and one that fails the first, a replay. -/
theorem met_handedOver :
    (let cp := pkt 8 [(8, 0x1FFF0), (24, 0x2FFE0), (40, 64)]
     current (qS cp) cp = true ∧ winB (qS cp) 0x1FFF0 64 = true ∧ winB (qS cp) 0x2FFE0 64 = true) ∧
    (let good := pktS launchP record
     let bad := pktS launchP (leBytes 256 (recordN + 1))
     ∀ s ∈ [good, bad], current s launchP = true ∧ s.memSound 0x20000 256 = true ∧ (s.recRange (s.qTr 3) 0x20000 = .ok 256) ∧ s.cpXlate (s.qTr 3) 0x20000 256 0 = .ok [(0x20000, 256)] ∧
       (0x20000 + 256 ≤ s.qSlot 3 5 ∨ s.qSlot 3 5 + 64 ≤ 0x20000) ∧ ∀ e ∈ s.queue, e.2.on = true → 0x20000 + 256 ≤ e.2.desc ∨ e.2.desc + 128 ≤ 0x20000) ∧
    (let good := pktS launchP record
     let bad := pktS launchP (leBytes 256 (recordN + 1))
     launchReason 0 (good.bytesAt [(0x20000, 256)]) good = 0 ∧ 0 < launchReason 0 (bad.bytesAt [(0x20000, 256)]) bad) ∧
    (let s := pktS replayP record
     current s replayP = true ∧ s.cpXlate (s.qTr 3) 0x30000 512 0 = .ok [(0x30000, 512)] ∧ (SMap.get Part.reset s.part 0).replay = none) := by decide +kernel

/-- Partition 0 with a replay of `npass` passes, `pass` of them begun, the launch over; its record at 0x30000 names the Harvest area at 0x100000. -/
def replayS (pass npass : Nat) (full prep sd : Bool) : State :=
  { (pktS replayP record).setBytes (0x30000 + 64) (leBytes 9 0x100000) with
    part := [(0, { Part.reset with replay := some ⟨3, 5, 7, 0x20000, [(0x30000, 512)], npass, pass, if pass = 0 then none else some 0, [2], full, [0x11, 0x22], 0, prep⟩ })]
    launch := [(0, some { theLaunch with fin := true })], die := [(0, { Die.reset with svc := true, sdDone := sd })] }
/-- `Obligations.PacketsHandedOver`, a replay: before pass 1, before pass 2 prepared with the shoot-down done and not; after pass 1 with a pass to come, after the
last, and with the area full. -/
theorem met_replay :
    let at_ (s : State) : Bool := (SMap.get Part.reset s.part 0).replay.isSome && s.memSound 0x30000 512 && (s.partArrs 0).all (fun a => !(s.getA a).tsk.run) && s.launchOver 0
    let starts (s : State) : Bool := at_ s && okOf (s.recRange (s.cxtTr 0 7) 0x20000) && okOf (s.cpXlate (s.cxtTr 0 7) 0x20000 256 0) && s.memSound 0x20000 256 &&
      launchReason 0 (s.bytesAt [(0x20000, 256)]) s == 0
    let ends (s : State) : Bool := at_ s && (s.getD ((s.partDies 0).headD 0)).sdDone && s.memSound 0x30000 512 && s.memSound (0x100000 + 65536) 16 &&
      s.pageOk 0 (0x100000 + 65536) && s.readN (0x30000 + 64) 9 == 0x100000 && s.queue.all fun e =>
        decide (0x30000 + 512 ≤ e.2.desc ∨ e.2.desc + 128 ≤ 0x30000) && decide (0x110000 + 16 ≤ e.2.desc ∨ e.2.desc + 128 ≤ 0x110000)
    starts (replayS 0 2 false false true) = true ∧ starts (replayS 1 2 false true true) = true ∧ at_ (replayS 1 2 false true false) = true ∧
    ((replayS 1 2 false true false).getD (((replayS 1 2 false true false).partDies 0).headD 0)).sdDone = false ∧
    (let s := replayS 1 2 false false true
     ends s = true ∧ Memory.wf s.mem = true ∧ s.pageOk 0 (2 * 65536) = true ∧ s.pageOk 0 0x100000 = true ∧ s.memSound 0x100000 65536 = true ∧ 2 * 65536 + 65536 ≤ 0x30000 ∧
     0x100000 + 65536 ≥ 0x30000 + 512) ∧
    ends (replayS 2 2 false false true) = true ∧ ends (replayS 1 2 true false true) = true := by decide +kernel
/-- The packet that waits at index 5 of queue 3. -/
def waitS (w : PkWait) (s : State) : State := s.modU 3 fun u => { u with pend := [(8, true, .replay), (5, true, w)] }
/-- `Obligations.PacketsHandedOver`, the ends: a launch over and not, a copy, a replay ended and one that runs. -/
theorem met_packetCompletes :
    let s := pktS (pkt 0 []) record
    let at_ (w : PkWait) (s : State) : Bool := (s.getU 3).on && (s.getU 3).fin.isEmpty && (s.getU 3).left.isEmpty && s.memSound (0x1000 + 48) 8 && (s.getU 3).pend.find? (fun e => e.1 == 5) == some (5, true, w)
    at_ (.launch 0) (waitS (.launch 0) { s with launch := [(0, some { theLaunch with fin := true })] }) = true ∧
    (waitS (.launch 0) { s with launch := [(0, some { theLaunch with fin := true })] }).launchOver 0 = true ∧
    (waitS (.launch 0) { s with launch := [(0, some theLaunch)] }).launchOver 0 = false ∧
    (let c := waitS (.copy [(0x20000, 0x40000, 48)]) s
     at_ (.copy [(0x20000, 0x40000, 48)]) c = true ∧ c.poisN 0x20000 48 = false ∧ c.memSound 0x20000 48 = true ∧ c.memSound 0x40000 48 = true ∧
     (∀ e ∈ c.queue, e.2.on = true → 0x40000 + 48 ≤ e.2.desc ∨ e.2.desc + 128 ≤ 0x40000) ∧
     ((c.modU 3 fun u => { u with left := [(5, .copy [(0x20000, 0x40000, 48)])] }).getU 3).left.find? (fun e => e.1 == 5) = some (5, .copy [(0x20000, 0x40000, 48)])) ∧
    at_ .replay (waitS .replay s) = true ∧ (SMap.get Part.reset (waitS .replay s).part 0).replay = none ∧
    at_ .replay (waitS .replay (replayS 1 2 false false true)) = true ∧
    ((SMap.get Part.reset (replayS 1 2 false false true).part 0).replay.map fun r => (r.q, r.idx)) = some (3, 5) := by decide +kernel
/-- The packet at RIX, the last that TAIL admits, of queue 3 at position 0 of core 0 of die 0. -/
def servedS (l : List Byte) (c : Cxt) : State :=
  { pktS l record with cxt := [(cxtKey 0 7, c)], die := [(0, { Die.reset with svc := true, fbAddr := 0x50000, fbNrec := 16 })] }
/-- A write of a page that the tables of the queue's context do not map. -/
def farP : List Byte := pkt 3 [(8, 0x1000001000), (17, 1)]
/-- `Obligations.QueuesAreServed`: a packet in order, one of no type, one whose page the tables do not map. -/
theorem met_queuesAreServed :
    let at_ (s : State) (l : List Byte) : Bool := s.queueAt 0 0 0 == some 3 && s.qState 3 == 1 && s.current 3 == some (f5 l) && decide (s.qTail 3 = s.qRix 3 + 1) &&
      s.memSound 0x1000 128 && decide (s.pkReads (s.qTr 3) l = s)
    let win : Cxt := ⟨true, 0, 0x100, 0, 0⟩
    let walk : Cxt := ⟨true, 0, 0, 0, 0x8000_0000_0000_0010⟩
    ((pktS replayP record).getU 3).on = true ∧
    at_ (servedS (pkt 0 []) win) (pkt 0 []) = true ∧ (servedS (pkt 0 []) win).pkCheck 3 (f5 (pkt 0 [])) = .ok ∧
    at_ (servedS (pkt 11 []) win) (pkt 11 []) = true ∧ (match (servedS (pkt 11 []) win).pkCheck 3 (f5 (pkt 11 [])) with | .malformed _ _ => true | _ => false) = true ∧
    at_ (servedS farP walk) farP = true ∧ (match (servedS farP walk).pkCheck 3 (f5 farP) with | .absent _ _ _ => true | _ => false) = true ∧
    0x50000 + 64 + 64 * 16 ≤ 2 ^ 69 ∧ (0x8000 + 64 * 2 ^ (servedS farP walk).dev.ringK ≤ 0x1000 ∨ 0x1000 + 128 ≤ 0x8000) := by decide +kernel

/-! ### The mailbox, registers, the host, links, bring-up and traps -/

/-- Partition 0 of die 0 with a request of the bytes given, in stage 3, its core 3 with a slot of each kind. -/
def kinds : Almanac := ⟨1, 3, 32768, 512, [0x2000, 0x3000, 0x4000]⟩
def reqS (l : List (Nat × Nat)) : State :=
  { State.reset with
    part := [(0, { Part.reset with mbDoor := true, mbReq := (leBytes 64 (fields l)).zipIdx.foldl (fun m e => SMap.set 0#8 m e.2 e.1) [] })]
    die := [(0, { Die.reset with svc := true, cyc := 99 }), (3, { Die.reset with part := 1 })]
    dev := { Dev.reset with stage := 3, ring := 0x8000, alm := [(0, ⟨1, 0, 32768, 512, (List.range 512).map fun i => BitVec.ofNat 16 (0x1000 + i % 64)⟩), (3, kinds)] } }
/-- `Obligations.ManagementReplies`: stage 0; each request, the first and the last reserved type; a worn bank; a fault buffer no longer empty, a shoot-down done. -/
theorem met_managementReplies :
    let at_ (s : State) (p : Nat) : Bool := s.dev.stage != 0#2 && s.hasPart p && s.hasKind (s.lead p) 4
    let ask (l : List (Nat × Nat)) (ty : Nat) : Bool :=
      let s := reqS l
      at_ s 0 && (s.getP 0).mbDoor && !(s.getP 0).shoot && s.mbField 0 0 1 == ty
    State.reset.dev.stage = 0#2 ∧ (∀ ty ∈ [0, 1, 2, 3, 4, 5, 6, 7, 8, 9, 10, 11, 12, 255], ask [(0, ty)] ty = true) ∧
    (reqS [(0, 5), (128, 0x3000)]).rangeOk 0 ((reqS [(0, 5), (128, 0x3000)]).mbField 0 16 9) 112 false = true ∧ (reqS [(0, 5)]).err = [] ∧
    (reqS [(0, 5), (128, 3 * 192 * giB)]).rangeOk 0 ((reqS [(0, 5), (128, 3 * 192 * giB)]).mbField 0 16 9) 112 false = false ∧
    (reqS [(0, 6), (64, 1)]).mbField 0 8 1 ≠ 0 ∧
    (let s : State := { reqS [] with part := [(0, { Part.reset with thresh := 9 })], arr := [(31, { Arr.reset with itg := { Itg.reset with ucnt := [(63, 9)] } })] }
     at_ s 0 = true ∧ (s.getP 0).mbDoor = false ∧ s.worn 0 = some (31, 63) ∧ (s.getA 31).itg.go = false) ∧
    State.reset.hasKind (State.reset.lead 0) 4 = false ∧ State.reset.hasKind 0 2 = false ∧ (reqS []).hasKind 0 2 = true ∧ ((reqS []).getP 0).shoot = false ∧
    (let s : State := { reqS [] with part := [(0, { Part.reset with shoot := true })], die := [(0, { Die.reset with sdDone := true })] }
     (s.getD 0).fpend = false ∧ (s.getP 0).shoot = true ∧ s.lead 0 = 0 ∧ (s.getD 0).sdDone = true) := by decide +kernel
/-- Queue 3 of `reqS`, its descriptor at 0x1000, in a state, its indices those given. -/
def mbqS (tail rix cseq st : Nat) (pend : List (Nat × Bool × PkWait)) : State :=
  { (reqS []).setBytes 0x1000 (leBytes 128 (fields [(0, 0x2000), (96, 4), (104, 2), (112, 7), (128, 8), (192, tail), (256, rix), (320, st), (384, cseq)])) with
    queue := [(3, ⟨true, 0, 0x1000, 0, 0, 0, 0x2000, 4, 2, 7, 8, [], pend, [], none, []⟩)] }
/-- A queue's slot is that of its index modulo the ring's size. -/
theorem qSlot_mod (s : State) (q j : Nat) : s.qSlot q j = s.qSlot q (j % 2 ^ (s.getU q).log) := by simp [State.qSlot]
/-- `Obligations.MailboxQueues` (with `qSlot_mod`): requests at the ends of their ranges, a queue free, taken, in its error state, with launches and with a copy pending. -/
theorem met_mailboxQueues :
    let s := (reqS []).setBytes 0x3000 (leBytes 128 (fields [(0, 0x2000), (96, 4), (104, 2), (112, 7), (128, 8)]))
    let err := mbqS 9 5 5 2 []
    s.dev.stage ≠ 0#2 ∧ s.hasPart 0 = true ∧ (255 < 256 ∧ 0 < 4 ∧ 0 < 3 ∧ 63 < 64 ∧ 0x3000 % 128 = 0) ∧
    (s.getU 255).on = false ∧ (s.getD 0).part = 0 ∧ s.descOk 0 0x3000 = true ∧ 8 ≤ (s.posSlots 0 0 63).length ∧ posGap (s.posSlots 0 0 63) ≤ 64 ∧
    s.queueAt 0 0 63 = none ∧ s.memSound 0x3000 128 = true ∧ err.memSound (0x1000 + 32) 24 = true ∧
    (let c := mbqS 6 5 5 1 [(4, false, .copy [(0, 0, 16)])]
     c.dev.stage ≠ 0#2 ∧ c.hasPart 0 = true ∧ (c.getU 3).on = true ∧ (c.getU 3).part = 0 ∧ c.memSound (0x1000 + 40) 1 = true ∧ (c.getU 3).left = [] ∧
      (c.getU 3).pend ≠ []) ∧ (mbqS 6 5 5 1 []).queueAt 0 0 0 = some 3 ∧ (mbqS 6 5 5 1 []).hasPart 0 = true ∧ ((mbqS 6 5 5 1 [(4, false, .launch 0)]).getU 3).pend = [(4, false, .launch 0)] ∧
    ((mbqS 6 5 5 1 []).getU 3).part = 0 ∧ (mbqS 6 5 5 1 []).qState 3 ≠ 2 ∧ (mbqS 6 5 5 1 []).dev.stage ≠ 0#2 ∧
    err.qState 3 = 2 ∧ (err.getU 3).fin = [] ∧ err.qRix 3 ≤ err.qTail 3 ∧ err.qCseq 3 = err.qRix 3 ∧ (mbqS 9 5 4 2 []).qCseq 3 < (mbqS 9 5 4 2 []).qRix 3 ∧
    (∀ j < 2 ^ (err.getU 3).log, spaceOf (err.qSlot 3 j) = 0 ∧ err.memSound (err.qSlot 3 j) 8 = true ∧
      ∀ e ∈ err.queue, e.2.on = true → err.qSlot 3 j + 64 ≤ e.2.desc ∨ e.2.desc + 128 ≤ err.qSlot 3 j) := by decide +kernel
/-- `Obligations.MailboxSettings`: stage 1, a partition that was reset, and one with a queue and a running task. -/
theorem met_mailboxPartitions :
    let one : State := { reqS [] with dev := { (reqS []).dev with stage := 1 } }
    let again : State := { reqS [] with part := [(0, { Part.reset with stage1 := true })] }
    let run : State := { runS id with queue := [(3, ⟨true, 0, 0x1000, 0, 0, 0, 0x2000, 4, 2, 7, 8, [], [], [], none, []⟩), (4, ⟨true, 1, 0x3000, 0, 0, 1, 0x4000, 4, 0, 7, 8, [], [], [], none, []⟩)] }
    one.dev.stage = 1#2 ∧ one.hasPart 0 = true ∧ again.dev.stage ≠ 1#2 ∧ (again.getP 0).stage1 = true ∧ again.hasPart 0 = true ∧ ((reqS []).getP 0).stage1 = false ∧
    run.dev.stage ≠ 0#2 ∧ run.hasPart 0 = true ∧ (run.getU 3).on = true ∧ (run.getU 3).part = 0 ∧ (∀ e ∈ run.queue, ∀ f ∈ run.queue, e.1 = f.1 → e = f) ∧
    (run.task.map (·.1)) = [0] ∧ (run.getT 0).map (·.st) = some .running ∧ (run.getT 0).map (·.arrs) = some [0] ∧
    run.gang { theTask with st := .running, arrs := [0] } = [(0, { theTask with st := .running, arrs := [0] })] ∧ (run.getA 0).tsk.run = true ∧
    (run.getA 0).tsk.id = 0 ∧ (run.getL 0).map (·.part) = some 0 := by decide +kernel
/-- A block of parameters at 0x3000, its slice and each die's fault buffer as given. -/
def parS (slice nrec : Nat) : State :=
  (reqS []).setBytes 0x3000 (leBytes 128 (fields ([(0, slice), (32, 15), (40, 1), (48, 1)] ++ (List.range 4).flatMap fun d => [(8 * (16 + 16 * d), 0x40000 + d * 192 * giB), (8 * (28 + 16 * d), nrec)])))
/-- `Obligations.MailboxSettings`: the extremes of each range and the values beside them, a task parked; a quad, a context in use and not, a shoot-down. -/
theorem met_mailboxSettings :
    (let inR (s : State) : Bool :=
       let f (off n : Nat) : Nat := s.readN (0x3000 + off) n
       let base (d : Nat) : Nat := f (16 + 16 * d) 9
       let span (d : Nat) : Nat := 64 + 64 * f (28 + 16 * d) 2
       decide (1 ≤ f 0 4 ∧ f 0 4 < 2 ^ 24 ∧ f 4 1 ≤ 15 ∧ 1 ≤ f 5 1 ∧ f 6 1 ≤ 1 ∧ ∀ d ∈ s.partDies 0, base d % 64 = 0 ∧ spaceOf (base d) = 0 ∧ dieOf (base d) = d ∧
         dieOf (base d + span d - 1) = d ∧ 16 ≤ f (28 + 16 * d) 2 ∧ s.rangeOk 0 (base d) (span d) false = true)
     let parked : State := { parS 1 16 with task := [(0, some { theTask with st := .parked })], launch := [(0, some theLaunch)] }
     (parS 1 16).rangeOk 0 0x3000 128 false = true ∧ (parS 1 16).memSound 0x3000 128 = true ∧ inR (parS 1 16) = true ∧ inR (parS 0xFF_FFFF 16) = true ∧ inR (parS 0 16) = false ∧ inR (parS 1 15) = false ∧
     inR parked = true ∧ (parS 1 16).task = [] ∧ (parS 1 16).partDies 0 ≠ [] ∧ ((parS 1 16).getD 0).fbAddr ≠ 0x40000) ∧
    (let s := mbqS 6 5 5 1 []
     s.dev.stage ≠ 0#2 ∧ s.hasPart 0 = true ∧ (s.getD 2).part = 0 ∧ (s.getD 3).part ≠ 0 ∧ (s.queue.any fun e => e.2.on && e.2.part == 0 && e.2.ctx == 7) = true ∧
     s.launch = [] ∧ (s.queue.any fun e => e.2.ctx == 0xFFFF) = false ∧ (s.getP 0).shoot = false ∧ (∀ d < 4, (0x7#4).getLsbD d = true → (s.getD d).part = 0) ∧
     (0x8#4).getLsbD 3 = true) := by decide +kernel
/-- `Obligations.MailboxReports`: a destination in mapped memory, the longest report; its lengths are 100 i + j + 1. -/
theorem met_mailboxReports :
    let s := mbqS 6 5 5 1 []
    s.dev.stage ≠ 0#2 ∧ s.hasPart 0 = true ∧ s.dev.meas = [] ∧ (∀ i < 98, ∀ j < 100, s.rangeOk 0 0x10000 (100 * i + j + 1) true = true) ∧ s.memSound 0x10000 9744 = true ∧
    1586 + 64 * 4 ≤ 9744 ∧ (∀ e ∈ s.queue, e.2.on = true → 0x10000 + 9744 ≤ e.2.desc ∨ e.2.desc + 128 ≤ 0x10000) ∧
    (List.replicate 32 1#8).length = 32 ∧ (List.replicate 32 1#8).any (· != 0#8) = true := by decide +kernel

/-- `Obligations.DeviceRegisters`: GO read as 0 and as 1; a device of the group and one of none; the offsets' first and last registers, and a queue of the function. -/
theorem met_deviceRegisters :
    let s : State := { reqS [] with die := [(0, { Die.reset with svc := true, thr := 4, sdGo := true })], arr := [(127, { Arr.reset with itg := { Itg.reset with go := true } })] }
    (s.getD 0).sdGo = true ∧ (s.getD 3).sdGo = false ∧ (s.getA 127).itg.go = true ∧ (s.getA 0).itg.go = false ∧
    (let d : Dev := { Dev.reset with group := 4, self := 2 }
     d.group ≤ 4 ∧ 4 ≠ d.self ∧ 3 < d.group ∧ 3 ≠ d.self ∧ d.self < d.group) ∧
    s.dev.self = 0 ∧ s.dev.self < s.dev.group ∧ s.hasPart 0 = true ∧ (∀ i < 4, (s.getD i).part < 4 ∧ (s.getD i).thr ≤ 4) ∧
    ((mbqS 6 5 5 1 []).getU 3).on = true ∧ ((mbqS 6 5 5 1 []).getU 3).part = 0 ∧ (0x100000 + 8 * 255) % 8 = 0 := by decide +kernel
/-- `Obligations.HostAndMonitors`, the host: a word at the end of a window's first page, the TAIL of the one queue, an offset beyond the window. -/
theorem met_hostAccesses :
    let s := mbqS 6 5 5 1 []
    s.dev.self = 0 ∧ s.bar2 0 0xFFF8 8 = some 0xFFF8 ∧ 0xFFF8 % 8 = 0 ∧ s.memSound 0xFFF8 8 = true ∧ (∀ e ∈ s.queue, e.2.on = true → 0xFFF8 + 8 ≤ e.2.desc ∨ e.2.desc + 128 ≤ 0xFFF8) ∧
    s.bar2 0 0x1018 8 = some 0x1018 ∧ s.memSound 0x1018 8 = true ∧ s.queue.filter (fun e => e.2.on) = [(3, s.getU 3)] ∧ (s.getU 3).on = true ∧
    0x1018 = (s.getU 3).desc + 24 ∧ s.bar2 0 (2 ^ 60) 8 = none ∧ s.bar2 0 5 1 = some 5 := by decide +kernel
/-- `Obligations.HostAndMonitors`, the monitors: a die with the slot and one without it, its clock's last step, fifteen good samples and fourteen, and a die that runs a task. -/
theorem met_monitorsSample :
    let hot : State := { runS id with dev := (reqS []).dev, die := [(0, { Die.reset with svc := true, thr := 4, good := 15 }), (1, { Die.reset with good := 14 })] }
    hot.dev.stage = 3#2 ∧ hot.hasKind 0 3 = true ∧ hot.hasKind 1 3 = false ∧ SMap.get 0 (hot.getD 0).unc 3 = 0 ∧ (hot.getD 0).svc = true ∧ 15 ≤ (hot.getD 0).good ∧
    (hot.getD 1).good < 15 ∧ (hot.getP 0).share = 0 ∧ 100 * 2279 < 95 * 2400 ∧ 95 * 2400 ≤ 100 * 2280 ∧
    (hot.runs 0).isSome = true ∧ (0, 0) ∈ hot.gangArrs { theTask with st := .running, arrs := [0] } ∧ (hot.getA 0).tsk.stop = .no := by decide +kernel
/-- `Obligations.LinksFail`: the last port before its sixteenth failure and at it, before its third retraining and at it; the last die's expander; the ends of SPACE 1. -/
theorem met_linksFail :
    let s : State := { reqS [] with dev := { (reqS []).dev with ports := [(15, ⟨false, 15, 2, false, []⟩), (14, ⟨false, 14, 1, false, []⟩)] } }
    (s.getPort 15).down = false ∧ (s.getPort 15).training = false ∧ 15 ≤ (s.getPort 15).fails ∧ (s.getPort 14).fails < 15 ∧ (s.getPort 14).down = false ∧
    2 ≤ (s.getPort 15).retrains ∧ (s.getPort 14).retrains < 2 ∧ s.arr = [] ∧ (s.getD 3).expOk = true ∧
    spaceOf (192 * giB - 1) < 2 ∧ dieOf (192 * giB - 1) = 0 := by decide +kernel
/-- `Obligations.BringUp`: stages 0 to 2, the first die's check and the last's. The digest of an image either is the one expected or is not. -/
theorem met_bringUp :
    let at_ (st : BitVec 2) (l : List Nat) : State := { reqS [] with dev := { (reqS []).dev with stage := st, checked := l, first := l.head? } }
    (at_ 0 []).dev.stage = 0#2 ∧ (at_ 1 []).dev.stage = 1#2 ∧ (at_ 1 []).dev.checked = [] ∧ (∃ d ∈ (at_ 1 [7]).dev.checked, d % 4 = 3) ∧
    (let s := at_ 2 [0, 5, 2]
     s.dev.stage = 2#2 ∧ s.dev.checked.length = 3 ∧ (∀ d ∈ s.dev.checked, d % 4 ≠ 3) ∧ 0 ∈ s.dev.checked ∧ (∃ d ∈ s.dev.checked, d < 4) ∧ ∀ d ∈ s.dev.checked, d < 8) := by
  decide +kernel
/-- `Obligations.TrapEntry`: a cause that enters S and one that kills, at U, in a chain and at S. -/
theorem met_trapEntry :
    Cause.illop ≠ .asyncmat ∧ Cause.illop ≠ .msdc ∧ Cause.illop.kills = false ∧ Cause.poisonkill.kills = true ∧ atU.here.csr.prv = 0#2 ∧ atU.here.tsk.chain = false ∧
    (upd atU fun x => x.modTsk fun k => { k with levels := [⟨3, 0, 2⟩] }).here.tsk.chain = true ∧ atS.here.csr.prv ≠ 0#2 := by decide +kernel
/-- `Obligations.RegistersAndGuardsAreChecked`: an allocation of 56 scalar and 48 vector registers; s1, a1 and v1 never written; a guard poisoned, 0 and open; a split source. -/
theorem met_registersAndGuardsAreChecked :
    let s := upd atU fun x => ((x.modTsk fun k => { k with sregs := 56, vregs := 48 }).modSca fun c => { c with sv := 4, av := 0, ssplit := 4, sfail := 4 }).modCel fun c => { c with vv := 4 }
    let x := s.here
    s.regsSound = true ∧ (RR.s 56).unalloc x = true ∧ (RR.s 55).unalloc x = false ∧ (RR.s 1).unalloc x = false ∧ (RR.s 2).unalloc x = false ∧
    (RR.s 2).invalid x = false ∧ (RR.s 1).invalid x = true ∧ x.pPois 3 = true ∧ (x.pGet 7 = false ∧ x.pPois 7 = false) ∧ x.open_ 1 = true ∧ (RR.s 2).splitBad x = true ∧
    (RR.a 1).invalid x = true ∧ (RR.v 62).unalloc x = true ∧ (RR.v 1).unalloc x = false ∧ (RR.v 1).invalid x = true ∧ (RR.v 2).unalloc x = false := by decide +kernel
/-- `Obligations.AccessesAreChecked`: an address poisoned, unaligned, beyond the allocation and outside the scratchpad; a tile the engines own and one without
valid contents; the last word of the allocation. -/
theorem met_accessesAreChecked :
    let s := upd atU fun x => x.modCpy fun c => { c with own := 2, tv := BitVec.allOnes 1024 <<< 1 }
    let x := s.here
    s.readyS g0 [.s 63, .a 1] [.a 1] = true ∧ s.readyS g0 [.s 63, .a 1] [.a 1, .s 63] = true ∧ (x.aGet 5).p = true ∧ (x.aGet 7).p = false ∧
    (x.aGet 7).v.toNat % 8 ≠ 0 ∧ (x.aGet 4).v.toNat % 8 = 0 ∧ x.tsk.inAlloc (x.spOff (x.aGet 4).v) 8 = false ∧ x.tsk.ownOff 0 (ownAddr (2 ^ 24)) = none ∧
    x.tsk.ownOff 0 (ownAddr 262136) ≠ none ∧ x.tsk.inAlloc (x.spOff (ownAddr 262136)) 8 = true ∧
    x.anyEngine (x.tilesOf (x.spOff (x.aGet 2).v) 8) = true ∧ x.anyEngine (x.tilesOf (x.spOff (x.aGet 1).v) 8) = false ∧
    x.anyInvalid (x.tilesOf (x.spOff (x.aGet 1).v) 8) = true := by decide +kernel
/-- `Obligations.TileOwnership`: the last tile, one the engines own, the handle after the last. -/
theorem met_tileOwnership :
    let s := upd atU fun x => (x.modCpy fun c => { c with own := 32 }).modSca fun c => { c with s := [(1, ⟨63, false⟩), (2, ⟨5, false⟩), (3, ⟨64, false⟩)] }
    let v (n : R6) : Nat := (s.here.sGet n).v.toNat
    (∀ n ∈ [1, 2, 3], s.readyC c0 [.s n] [.s n] = true ∧ (s.here.sGet n).p = false) ∧ v 1 < s.here.ntiles ∧ s.here.cpy.own.getLsbD (v 1) = false ∧
    v 2 < s.here.ntiles ∧ s.here.cpy.own.getLsbD (v 2) = true ∧ s.here.ntiles = v 3 := by decide +kernel

/-! ### The remaining statements -/

/-- `Obligations.FloatingPointRounds`: finite operands, zeros, infinities, NaNs, 0 × ∞; an addend of each kind; the formats at both ends of the lists. -/
theorem met_floatingPointRounds :
    (∀ f ∈ [fmt64, fmt32, fmtBf16, fmtF16], f.val false 0 = .fin false 0 0 ∧ f.val false f.canon = .nan ∧ f.val false (f.infBits true) = .inf true ∧
      f.val false (f.infBits false) = .inf false ∧ ((f.val false 0).isZero = true ∧ (f.val false (f.infBits true)).isInf = true)) ∧
    fmt32.val false 0xBF80_0001 = .fin true 8388609 (-23) ∧ fmt32.val false 1 = .fin false 1 (-149) ∧ fmt32.val true 1 = .fin false 0 0 ∧
    fmtE4m3.val false 0x7F = .nan ∧ fmtE4m3.val false 0x7E = .fin false 14 5 ∧ fmtE5m2.val false 0xFC = .inf true := by decide +kernel
/-- The real number that a finite operand is. -/
theorem finite_is (s : Bool) (m : Nat) (e : Int) : ∃ u : ℝ, (FV.fin s m e).Is u := ⟨_, rfl⟩

/-- A row of a slot that every cell executes, the row of cycle `18 + r`. -/
def rowK (r : Nat) : RowCtx := ⟨matU, 0, matU.getA 0, 18 + r, r⟩
/-- `Obligations.VectorRowData`: the first row, one within and the last; no byte kept of an earlier cycle, and no error; the last operation and type. -/
theorem met_vectorRowData :
    (rowK 0).r < 16 ∧ ((rowK 14).r < 16 ∧ (rowK 14).r ≠ 15) ∧ ((rowK 15).r < 16 ∧ (rowK 15).r = 15) ∧ (rowK 0).s.err = [] ∧
    (∀ e ∈ (rowK 0).x.cel.old, e.t ≠ 17) ∧ ((5#3).toNat ≤ 5 ∧ (3 ≤ (5#3).toNat → VT.i32 = .i32)) ∧ ((2#3).toNat ≤ 5 ∧ (3 ≤ (2#3).toNat → VT.i16 = .i32)) := by
  decide +kernel

/-- A member of rank 1 of a chain. -/
def memberS : State := upd atU fun x => x.modTsk fun k => { k with rank := 1, nranks := 2 }
/-- `Obligations.TransfersOfControl` and `Obligations.WaitsReturnsExitsGuards` in a member: node 1 of two, the node after the last, a poisoned node. -/
theorem met_members :
    let s := upd memberS fun x => x.modSca fun c => { c with s := [(8, ⟨2, false⟩), (9, ⟨1, false⟩), (5, ⟨0, true⟩)] }
    0 < s.here.tsk.rank ∧ s.readyS g0 [] [] = true ∧ s.readyS g0 [.p 7] [] = true ∧ s.readyS g0 [.s 63] [] = true ∧
    (∀ n ∈ [8, 9, 5], s.readyS g0 [.s n] [.s n] = true) ∧ (s.here.sGet 9).p = false ∧ (s.here.sGet 9).v.toNat < s.here.tsk.nnodes ∧
    (s.here.sGet 8).p = false ∧ s.here.tsk.nnodes ≤ (s.here.sGet 8).v.toNat ∧ (s.here.sGet 5).p = true := by decide +kernel
/-- The words of a bundle of one slot word. -/
def lone (w : W32) : List W32 := [hdrWord Hdr.plain, w, 0x0040_0000#32, setStop 0x0040_0000#32]
/-- `Obligations.SpecialRegistersQueuesSelectors`: `RDS` of 15 and of 63, `WRS` of 0 and of 63. -/
theorem met_unlistedNumbers :
    let At (w : W32) : Prop := lone w <+: (onU (lone w)).fetchWords (onU (lone w)).here ∧ (onU (lone w)).regsSound = true
    At 0x0F40_3C00#32 ∧ At 0x0F40_FC00#32 ∧ At 0x0F80_0000#32 ∧ At 0x0FBF_0000#32 := by decide +kernel
/-- The fields of those words. -/
theorem unlisted_fields :
    let Read (w : W32) : Prop := w.getLsbD 31 = false ∧ w.extractLsb' 22 9 = 0x03D#9 ∧ ((w.extractLsb' 10 6).toNat = 15 ∨ 32 ≤ (w.extractLsb' 10 6).toNat)
    let Written (w : W32) : Prop := w.getLsbD 31 = false ∧ w.extractLsb' 22 9 = 0x03E#9 ∧ ∀ n ∈ [3, 4, 5, 9, 10], (w.extractLsb' 16 6).toNat ≠ n
    Read 0x0F40_3C00#32 ∧ Read 0x0F40_FC00#32 ∧ Written 0x0F80_0000#32 ∧ Written 0x0FBF_0000#32 := by decide +kernel
/-- Guards that find a mark: mismatch bits of the last registers, a poisoned address and predicate. -/
theorem met_guardsThatTrap :
    let s := upd atU fun x => (x.modSca fun c => { c with smm := BitVec.allOnes 64, amm := BitVec.allOnes 16, pmm := BitVec.allOnes 8 }).modCel fun c =>
      { c with vmm := BitVec.allOnes 64 }
    s.readyC c0 [.v 63] [] = true ∧ s.here.cel.vmm.getLsbD (vphys s.here.sca.rrb 63) = true ∧ s.readyC c0 [.s 63] [] = true ∧ s.here.sca.smm.getLsbD 63 = true ∧
    s.readyC c0 [.a 15] [] = true ∧ (s.here.aGet 15).p = false ∧ s.here.sca.amm.getLsbD 15 = true ∧ s.readyC c0 [.p 7] [] = true ∧
    s.here.pPois 7 = false ∧ s.here.sca.pmm.getLsbD 7 = true ∧ (s.here.aGet 5).p = true ∧ s.readyC c0 [.a 5] [] = true ∧ s.here.pPois 3 = true ∧
    s.readyC c0 [.p 3] [] = true := by decide +kernel

/-- The words of a slot and its check copy. -/
def pairOf (shd vec : Bool) (i j : Instr) : List W32 :=
  hdrWord ⟨0, 0, false, false, shd && vec, shd && !vec⟩ :: (encode i ++ encode j ++ [setStop 0x0040_0000#32])
/-- `Obligations.CheckCopies`: pairs of each register class fetched, outside the handler and in it. -/
theorem met_checkCopies :
    let fetched (shd vec : Bool) (i j : Instr) : Prop := pairOf shd vec i j <+: (onU (pairOf shd vec i j)).fetchWords (onU (pairOf shd vec i j)).here
    (∀ shd ∈ [false, true], fetched shd false (.add g0 63 1 2) (.add ⟨true, 0⟩ 63 1 2) ∧ fetched shd false (.fadd g0 true 55 1 2) (.fadd ⟨true, 0⟩ true 55 1 2) ∧
      fetched shd false (.adda g0 15 1 2) (.adda ⟨true, 0⟩ 15 1 2) ∧ fetched shd false (.cmp g0 .eq 7 1 2) (.cmp ⟨true, 0⟩ .eq 7 1 2) ∧
      fetched shd true (.vadd v0 .f32 63 1 2) (.vadd ⟨0, true, none⟩ .f32 63 1 2)) ∧
    fetched false false (.cmp g0 .eq 0 1 2) (.cmp ⟨true, 0⟩ .eq 0 1 2) ∧
    atU.readyS g0 [.s 63, .s 1, .s 2] [.s 1, .s 2] = true ∧ atU.here.inHandler = false ∧ atU.readyS g0 [.a 15, .a 1, .s 2] [.a 1, .s 2] = true ∧
    (7#3 ≠ 0#3 ∧ atU.readyS g0 [.p 7, .s 1, .s 2] [.s 1, .s 2] = true ∧ atU.readyS g0 [.p 0, .s 1, .s 2] [.s 1, .s 2] = true) ∧
    atU.readyV ⟨0, false, none⟩ [.v 63, .v 1, .v 2] [.v 1, .v 2] = true ∧
    (let s := upd atU fun x => x.modSca fun c => { c with hAct := true, sh := [] }
     s.here.inHandler = true ∧ s.readyS g0 [.s 63, .s 1, .s 2] [.s 1, .s 2] = true ∧ s.readyS g0 [.s 55, .s 1, .s 2] [.s 1, .s 2] = true) := by decide +kernel
/-- A wave of a check copy at its first row, at its last, and after a mismatch. -/
theorem met_checkRows :
    let w (dup t : Nat) (mis : Bool) : Wave := { (⟨.vadd v0 .f32 63 1 2, { (default : Cap) with t := t, slot := 2, dup := dup }, [], 0#7, false⟩ : Wave) with mis := mis }
    let s : State := { atU with now := 16 }
    let bad (v : Wave) : Bool := (rowOf v.ins v.gath ⟨s, s.cur, s.here, s.now, s.now - v.cap.t - 1⟩ v.cap).bad
    (∀ d ∈ [1, 2], ∀ t ∈ [0, 15], (w d t true).cap.t < s.now ∧ s.now ≤ (w d t true).cap.t + 16 ∧ bad (w d t true) = false ∧ (w d t true).cap.dup = d) ∧
    s.now = (w 1 0 true).cap.t + 16 ∧ s.now < (w 1 15 true).cap.t + 16 ∧ (rowStep s.cur s.now s.here (w 1 0 true) s).2.mis = true ∧
    (rowStep s.cur s.now s.here (w 1 0 false) s).2.mis = false := by decide +kernel

/-- `Obligations.AccessesAndArrivals` in the ordinary memory: an atomic, a piece read and written, a remote write, at the last byte below the window's end. -/
theorem met_memoryAccesses :
    (let m : CCmd := cCmd (.natom 3 true 7 4096#72 ⟨1, false⟩ ⟨2, false⟩ (some 3))
     let s := twoS [m] []
     mayPerform s m true 4096#72 8 2 (.phys 4096) = true ∧ (s.askRead 4 (.phys 4096)).1 = true ∧ homeScope 0 (.phys 4096) ≤ 7 ∧
     (s.readHome (.phys 4096) 8).2.1 = false ∧ spaceOf 4096 < 2 ∧ s.queue = []) ∧
    (let m (got : Option (Word × Bool)) : CCmd := { cCmd .cpy with plan := some [⟨0, 0, some 4096#72, 0, 0xFFFFF8#72, 8, -1, false, false, got, false⟩] }
     let rd := twoS [m none] []
     mayPerform rd (m none) false 4096#72 8 0 (.phys 4096) = true ∧ (rd.askRead 4 (.phys 4096)).1 = true ∧ spaceOf 0xFFFFF8 < 2 ∧
     mayPerform (twoS [m (some (0xFF00FF, false))] []) (m (some (0xFF00FF, false))) false 0xFFFFF8#72 8 1 (.phys 0xFFFFF8) = true) ∧
    (let o : NIOp := ⟨2, 9, ⟨0, 0, 0, 0x100, 0, 0⟩, .wr 4099#72 (List.replicate 5 7) (List.replicate 5 false), none, false, none⟩
     let s := (twoS [] []).modA 0 fun x => x.modCpy fun y => { y with ni := [o] }
     s.heldBack 0 9 (some (.phys 4099)) = false ∧ s.locateK (s.getA 0).tsk 0 o.tr 4099#72 5 1 = (.ok (.phys 4099), s) ∧ s.excluded (.phys 4099) = false) := by
  decide +kernel
theorem met_noReplay (l m : List CCmd) (i : Nat) : (SMap.get Part.reset (twoS l m).part i).replay = none := rfl
/-- Its multicast read: the first flit of a group of one array, its data from the element at 4,096. -/
theorem met_multicastFlit :
    let d : BitVec 1024 := BitVec.ofNat 1024 (fields [(0, 7), (8, 4), (16, 1), (512, 8), (736, 1), (768, 100)])
    let p : XPiece := ⟨0, 0, some 4096#72, 0, ownAddr 96, 4, -1, false, false, none, false⟩
    let m : CCmd := { cCmd .cpym with plan := some [p], desc := d, tds := tdImg 4096#72 0 [(8, 0)], arrived := true, nth := 1 }
    let g : MGrp := ⟨1, 4096, tdNoOob m.tds, d, 0, mcMask d, 100, 0, [(0, 5)], true, 0, 0, []⟩
    let s : State := { upd cpymS (withC [m]) with die := [(0, { Die.reset with grps := [g] })] }
    s.err = [] ∧ (s.getA 0).cmdOf 5 = some m ∧ m.stuck (s.getA 0) = false ∧ groupOf 0 m s = some g ∧ s.mayFlit g = true ∧
      mcSpan m.desc m.tds = some (4096, 32) ∧ m.early s 0 (.phys 4096) = false ∧ spaceOf g.pa < 2 := by decide +kernel

end Sys2Proof.Tests
end

section
/-! The scalar family: what a slot reads of its registers once its bundle has begun to issue, and the address arithmetic of R98. -/

namespace Sys2Proof.Machine

open Sys2Proof

/-! ## Registers of an array that has begun to issue -/

@[simp] theorem Arr.began_inHandler (x : Arr) (now len nv nsq : Nat) (e : Bool) : (x.began now len nv nsq e).inHandler = x.inHandler := by
  simp [Arr.inHandler]
@[simp] theorem Arr.began_aGet (x : Arr) (now len nv nsq : Nat) (e : Bool) (n : BitVec 4) : (x.began now len nv nsq e).aGet n = x.aGet n := by
  simp [Arr.aGet]
@[simp] theorem Arr.began_sGet (x : Arr) (now len nv nsq : Nat) (e : Bool) (n : R6) : (x.began now len nv nsq e).sGet n = x.sGet n := by
  simp [Arr.sGet]

/-! ## An extension that is required and missing (R69) -/

/-- A slot without a guard extension whose required immediate extension does not follow is no instruction. -/
theorem takeRaw_of_missing_ext {w : W32} {rest : List W32} {c : Cls} (hc : clsOf (wOp w) = some c) (hg : gxBit c (wM w) = false)
    (hr : extRule (wOp w) (wB w) = .req) (hrest : ∀ e l, rest = e :: l → isExt e = false) : takeRaw w rest = .error .bundle := by
  unfold takeRaw
  cases rest with
  | nil => simp [hc, hg, hr]
  | cons e l => simp [hc, hg, hr, hrest e l rfl]

/-- What `takeRaw` refuses, `decode` refuses for the same cause. -/
theorem decode_of_takeRaw_error {w : W32} {rest : List W32} {e : DecodeError} (hop : wOp w ≠ 0#9) (h : takeRaw w rest = .error e) :
    decode (w :: rest) = .error e := by
  simp [decode, hop, h]

/-- `LEA` requires its extension (R98). -/
theorem decode_lea_without_ext {w : W32} {rest : List W32} (hop : wOp w = 0x02D#9) (hrest : ∀ e l, rest = e :: l → isExt e = false) :
    decode (w :: rest) = .error .bundle := by
  have hc : clsOf (wOp w) = some .scalar := by rw [hop]; rfl
  have hr : extRule (wOp w) (wB w) = .req := by rw [hop]; rfl
  exact decode_of_takeRaw_error (by simp [hop]) (takeRaw_of_missing_ext hc rfl hr hrest)

/-! ## Addresses modulo 2^72 (R98) -/

/-- Shifting a sign-extended term left multiplies its integer by a power of two, modulo 2^w. -/
theorem signExtend_shiftLeft {w n : Nat} (y : BitVec n) (k : Nat) : y.signExtend w <<< k = BitVec.ofInt w (y.toInt * 2 ^ k) := by
  have hpow : BitVec.twoPow w k = BitVec.ofInt w (2 ^ k) := by
    rw [← Nat.cast_ofNat, ← Nat.cast_pow, BitVec.ofInt_natCast]
    exact BitVec.eq_of_toNat_eq (by rw [BitVec.toNat_twoPow, BitVec.toNat_ofNat])
  rw [BitVec.shiftLeft_eq_mul_twoPow, BitVec.ofInt_mul, BitVec.signExtend, hpow]

/-! ## `ADDA` and `LEA` -/

/-- The effect is one address result: the integer sum modulo 2^72, poisoned where either source is (R98). -/
theorem semAdda_eff (g : SG) (d a : BitVec 4) (b : R6) (c : Ctx) (s : State) :
    (semAdda g d a b).eff c s = wrA c d ⟨BitVec.ofInt 72 (((s.getA c.a).aGet a).v.toNat + ((s.getA c.a).sGet b).v.toInt),
      ((s.getA c.a).aGet a).p || ((s.getA c.a).sGet b).p⟩ s := by
  rw [BitVec.ofInt_add, BitVec.ofInt_natCast, BitVec.ofNat_toNat, BitVec.setWidth_eq]
  rfl
theorem semLea_eff (g : SG) (d a : BitVec 4) (b sh : R6) (disp : BitVec 16) (c : Ctx) (s : State) :
    (semLea g d a b sh disp).eff c s = wrA c d
      ⟨BitVec.ofInt 72 (((s.getA c.a).aGet a).v.toNat + ((s.getA c.a).sGet b).v.toInt * 2 ^ sh.toNat + disp.toInt),
        ((s.getA c.a).aGet a).p || ((s.getA c.a).sGet b).p⟩ s := by
  rw [BitVec.ofInt_add, BitVec.ofInt_add, BitVec.ofInt_natCast, BitVec.ofNat_toNat, BitVec.setWidth_eq, ← signExtend_shiftLeft]
  rfl

theorem exec_adda (g : SG) (d a : BitVec 4) (b : R6) (s : State) : exec (.adda g d a b) s = .next (runSlot 0 (semAdda g d a b) s) := rfl
theorem exec_lea (g : SG) (d a : BitVec 4) (b sh : R6) (disp : BitVec 16) (s : State) :
    exec (.lea g d a b sh disp) s = .next (runSlot 1 (semLea g d a b sh disp) s) := rfl

theorem resultA_adda {s : State} {g : SG} {d a : BitVec 4} {b : R6} (h : s.readyS g [.a d, .a a, .s b] [.a a, .s b] = true) :
    ResultA (.adda g d a b) s 0 d
      ⟨BitVec.ofInt 72 ((s.here.aGet a).v.toNat + (s.here.sGet b).v.toInt), (s.here.aGet a).p || (s.here.sGet b).p⟩ := by
  refine resultA_of (exec_adda g d a b s) (clear_sSem h) (by simp [semAdda, sSem]) ?_
  rintro _ rfl
  rw [semAdda_eff]
  simp [State.here]
theorem resultA_lea {s : State} {g : SG} {d a : BitVec 4} {b : R6} (sh : R6) (disp : BitVec 16)
    (h : s.readyS g [.a d, .a a, .s b] [.a a, .s b] = true) :
    ResultA (.lea g d a b sh disp) s 1 d
      ⟨BitVec.ofInt 72 ((s.here.aGet a).v.toNat + (s.here.sGet b).v.toInt * 2 ^ sh.toNat + disp.toInt),
        (s.here.aGet a).p || (s.here.sGet b).p⟩ := by
  refine resultA_of (exec_lea g d a b sh disp s) (clear_sSem h) (by simp [semLea, sSem]) ?_
  rintro _ rfl
  rw [semLea_eff]
  simp [State.here]

/-- Settles O17: the decoder finds no extension after `LEA`; the sums of bit vectors are those of integers modulo 2^72. -/
theorem addressArithmetic : Obligations.AddressArithmetic := by
  unfold Obligations.AddressArithmetic
  exact ⟨fun _ _ hop hrest => decode_lea_without_ext hop hrest, fun _ _ _ _ _ sh disp h => ⟨resultA_adda h, resultA_lea sh disp h⟩⟩

end Sys2Proof.Machine
end

section
/-! The bitwise vector slots (R123): rows of one source and of two whose element function raises no flag. -/

namespace Sys2Proof.Machine

open Sys2Proof

/-- Cells that raise no flag leave the row's flags 0. -/
@[simp] theorem cellFlags_zero (cells : List (Nat × Bool × Bool)) : cellFlags cells (fun _ => 0#7) = 0#7 := by
  simp [cellFlags]

/-- Row r of a slot of latency l writes the executing cells of vd at T + 1 + r + l, once, and raises no flag. -/
def RowRes.WritesUnflagged (o : RowRes) (l : Nat) (d : R6) (k : RowCtx) (c : Cap) (v : Nat → W32 × Bool) : Prop :=
  o.fl = 0#7 ∧ o.wr = [(c.t + 1 + k.r + l, .v (vphys c.rrb d) (cellWrites (actCells k c) v))]

/-- A row of one source whose element function is `op` without flags. -/
theorem rowEF_one_writesUnflagged {f : EF} {op : W32 → W32} (hf : ∀ q x, f q x 0#32 0#32 = (op x, 0#7)) (l : Nat) (d a n m : R6) (k : RowCtx) (c : Cap) :
    (rowEF l f d n m [a] k c).WritesUnflagged l d k c fun i => (op (rdEl k c a i).1, (rdEl k c a i).2.1) := by
  constructor
  · simp [rowEF, rowEl, hf]
  · simp [rowEF, rowEl, dueR, hf]

/-- A row of two sources whose element function is `op` without flags: the element is poisoned where either source is. -/
theorem rowEF_two_writesUnflagged {f : EF} {op : W32 → W32 → W32} (hf : ∀ q x y, f q x y 0#32 = (op x y, 0#7)) (l : Nat) (d a b n m : R6) (k : RowCtx)
    (c : Cap) : (rowEF l f d n m [a, b] k c).WritesUnflagged l d k c fun i =>
      (op (rdEl k c a i).1 (rdEl k c b i).1, (rdEl k c a i).2.1 || (rdEl k c b i).2.1) := by
  constructor
  · simp [rowEF, rowEl, hf]
  · simp [rowEF, rowEl, dueR, hf]

/-- Settles O60: each bitwise slot is a row of latency 2 whose element function is the 32-bit operation without flags. -/
theorem vectorBitwise : Obligations.VectorBitwise := by
  unfold Obligations.VectorBitwise
  intro k c g d a b
  exact ⟨rowEF_two_writesUnflagged (f := efAnd) (fun _ _ _ => rfl) 2 d a b a b k c,
    rowEF_two_writesUnflagged (f := efOr) (fun _ _ _ => rfl) 2 d a b a b k c,
    rowEF_two_writesUnflagged (f := efXor) (fun _ _ _ => rfl) 2 d a b a b k c,
    rowEF_one_writesUnflagged (f := efNot) (fun _ _ => rfl) 2 d a a a k c⟩

end Sys2Proof.Machine
end

section
/-! Tiles (R193): the trap that a slot's own check raises, and `TOWN` on a clean handle. -/

namespace Sys2Proof.Machine

open Sys2Proof

/-! ## A slot against which only its own check stands -/

/-- The slot without the causes of its own. -/
def SlotSem.unchecked (m : SlotSem) : SlotSem := { m with own := fun _ _ => [] }

@[simp] theorem cSem_unchecked (g : CG) (regs srcs : List RR) (own : Ctx → State → List Trap) (eff : Ctx → State → State) :
    (cSem g regs srcs own eff).unchecked = cSem g regs srcs (fun _ _ => []) eff := rfl

/-- A slot that transfers control executes in the lead alone, so it is not mute there. -/
theorem not_mute {ext : Nat} {m : SlotSem} {s : State} (h : Clear ext m s) : Slot.mute s.here { idx := 1, sem := m } = false := by
  cases hx : m.xfer with
  | false => simp [Slot.mute, hx]
  | true => simp [Slot.mute, h.lead hx]

/-- The guarding predicates of a slot against which nothing stands carry no poison. -/
theorem preds_clean {ext : Nat} {m : SlotSem} {s : State} (h : Clear ext m s) : ∀ p ∈ m.preds, s.here.pPois p = false := by
  intro p hp
  have hopen := h.preds p hp
  rw [Arr.open_, Bool.and_eq_true, Bool.not_eq_true'] at hopen
  exact hopen.2

/-- Of the causes of R76 only the slot's own are left. -/
theorem slotTraps_eq_own {ext : Nat} {m : SlotSem} {s : State} (h : Clear ext m.unchecked s) :
    slotTraps (s.slotOf ext m) s.here false { idx := 1, sem := m } s = m.own (s.slotOf ext m) s := by
  have hmute : Slot.mute s.here { idx := 1, sem := m } = false := (not_mute h :)
  have hpriv : (m.priv && !s.here.atS) = false := by
    cases hp : m.priv with
    | false => rfl
    | true => simp [h.priv hp]
  have hill : m.ill (s.slotOf ext m) s = false := h.ill
  have hregs : m.regs.filter (·.unalloc s.here) = [] := List.filter_eq_nil_iff.mpr fun r hr => by simp [h.regs r hr]
  have hpreds : m.preds.filter (s.here.pPois ·) = [] := List.filter_eq_nil_iff.mpr fun p hp => by simp [preds_clean h p hp]
  have hinvalid : m.srcs.filter (·.invalid s.here) = [] := List.filter_eq_nil_iff.mpr fun r hr => by simp [(h.srcs r hr).1]
  have hsplit : m.srcs.filter (·.splitBad s.here) = [] := List.filter_eq_nil_iff.mpr fun r hr => by simp [(h.srcs r hr).2]
  have hctx : { s.slotOf ext m with slot := 1, dup := 0 } = s.slotOf ext m := rfl
  simp only [slotTraps, hctx, hmute, hpriv, hill, hregs, hpreds, hinvalid, hsplit]
  simp

/-- A bundle of one slot raises what its slot raises, whatever its class. -/
theorem allTraps_single {c : Ctx} {x : Arr} {sl : Slot} (hq : squashed x [sl] sl = false) (s : State) :
    allTraps c x [sl] [sl] s s = slotTraps c x false sl s := by
  simp [allTraps, hq]

theorem looks_single {c : Ctx} {x : Arr} {sl : Slot} {s : State} (h : sl.sem.look { c with slot := sl.idx, dup := sl.dup } s = s) :
    looks c x [sl] [sl] s = s := by
  simp [looks, h]

/-- A trap's own change is its slot's, or none. -/
theorem trapFx_single {c : Ctx} {sl : Slot} {t : Trap} {s : State} (h : sl.sem.tfx { c with slot := sl.idx } t.cause s = s) :
    trapFx c [sl] t s = s := by
  unfold trapFx
  by_cases ht : sl.idx = t.slot
  · rw [List.find?_cons_of_pos (by simp [ht])]
    exact h
  · simp [ht]

/-- The context of the bundle that holds the slot alone; its slot is the header. -/
def State.bundleOf (s : State) (ext : Nat) (m : SlotSem) : Ctx := { s.slotOf ext m with slot := 0 }

/-- A slot whose own check raises one cause, and against which nothing else stands, traps with it and has no effect. -/
theorem runSlot_own_trap {ext : Nat} {m : SlotSem} {s : State} {t : Trap} (h : Clear ext m.unchecked s)
    (ho : m.own (s.slotOf ext m) s = [t]) (hfx : m.tfx (s.slotOf ext m) t.cause s = s) :
    runSlot ext m s = trapAt (max 4 (2 + ext)) t s := by
  have hchk : m.chk = false := h.chk
  have hq : squashed s.here [{ idx := 1, sem := m }] { idx := 1, sem := m } = false := not_squashed h _
  have hread : checkRegs s.cur s.here [{ idx := 1, sem := m }] s = s := checkRegs_sound h.sound _ _ fun q hq => (h.heads q hq).2
  have hcause : pickTrap (hdrTraps Hdr.plain s.here ++
      allTraps (s.bundleOf ext m) s.here [{ idx := 1, sem := m }] [{ idx := 1, sem := m }] s s) = some t := by
    have hown : slotTraps (s.bundleOf ext m) s.here false { idx := 1, sem := m } s = [t] := (slotTraps_eq_own h).trans ho
    rw [allTraps_single hq, hown]
    rfl
  have hlooks : looks (s.bundleOf ext m) s.here [{ idx := 1, sem := m }] [{ idx := 1, sem := m }] s = s := looks_single h.look
  have hfxs : trapFx (s.bundleOf ext m) [{ idx := 1, sem := m }] t s = s := trapFx_single hfx
  have hc : (⟨s.cur, s.now, s.here.sca.pc, max 4 (2 + ext), 0, Hdr.plain.pop, 0, m.shld⟩ : Ctx) = s.bundleOf ext m := rfl
  have hshld : ([{ idx := 1, sem := m }] : List Slot).any (fun e => e.sem.shld && !squashed s.here [{ idx := 1, sem := m }] e) = m.shld := by
    simp [hq]
  simp only [State.here] at hread hcause hlooks hc hshld
  simp only [runSlot, issueSlots, hchk, Bool.false_eq_true, if_false, hread, hshld, hc, hcause, hlooks, ite_self, hfxs]

/-- The trap taken at the issue point changes the array there alone. -/
theorem traps_of_runSlot {i : Instr} {ext : Nat} {m : SlotSem} {s : State} {len : Nat} {t : Trap} (hex : exec i s = .next (runSlot ext m s))
    (h : runSlot ext m s = trapAt len t s) : Traps i s len t :=
  ⟨_, hex.trans (congrArg _ h), fun b => State.getA_modA s s.cur b _, rfl⟩

/-- A copy slot that is ready and whose own check raises one cause traps with it. -/
theorem traps_of_cSem {i : Instr} {ext : Nat} {g : CG} {regs srcs : List RR} {own : Ctx → State → List Trap} {eff : Ctx → State → State}
    {s : State} {t : Trap} (hex : exec i s = .next (runSlot ext (cSem g regs srcs own eff) s)) (h : s.readyC g regs srcs = true)
    (ho : own (s.slot ext) s = [t]) : Traps i s (max 4 (2 + ext)) t :=
  traps_of_runSlot hex (runSlot_own_trap (by rw [cSem_unchecked]; exact clear_cSem h rfl) ho rfl)

/-! ## `TOWN` -/

/-- Both kinds of `TOWN`: the valid bit of the tile named becomes `b`. -/
def semTown (g : CG) (a : R6) (b : Bool) : SlotSem :=
  cSem g [.s a] [.s a] (townTraps a) fun c s => s.modA c.a fun x => x.setTv [(x.sGet a).v.toNat] b

theorem exec_townRel (g : CG) (a : R6) (s : State) : exec (.townRel g a) s = .next (runSlot (cgW g) (semTown g a false) s) := rfl
theorem exec_townClm (g : CG) (a : R6) (s : State) : exec (.townClm g a) s = .next (runSlot (cgW g) (semTown g a true) s) := rfl

/-- On a clean handle: BOUNDS beyond the last tile, then TBUSY of a tile the engines own. -/
theorem townTraps_of_clean {s : State} {a : R6} (hp : (s.here.sGet a).p = false) (ext : Nat) :
    townTraps a (s.slot ext) s =
      if s.here.ntiles ≤ (s.here.sGet a).v.toNat then [⟨.bounds, 1, 0xFF, 0⟩]
      else if s.here.cpy.own.getLsbD (s.here.sGet a).v.toNat then [⟨.tbusy, 1, 0, 0⟩] else [] := by
  change (if (s.here.sGet a).p then _ else _) = _
  rw [hp]
  rfl

section
variable {i : Instr} {g : CG} {a : R6} {b : Bool} {s : State}

/-- The valid bit of a tile that the engines do not own becomes `b`, and nothing else changes (R193). -/
theorem executes_town (hex : exec i s = .next (runSlot (cgW g) (semTown g a b) s)) (h : s.readyC g [.s a] [.s a] = true)
    (hp : (s.here.sGet a).p = false) (hlt : (s.here.sGet a).v.toNat < s.here.ntiles)
    (hown : s.here.cpy.own.getLsbD (s.here.sGet a).v.toNat = false) :
    Executes i s (cgW g) 0 fun y => y.modCpy fun z => { z with tv := bitSet z.tv (s.here.sGet a).v.toNat b } := by
  have hnone : townTraps a (s.slot (cgW g)) s = [] := by rw [townTraps_of_clean hp, if_neg (Nat.not_le.mpr hlt), hown]; rfl
  refine executes_of hex (clear_cSem h hnone) rfl ?_ fun y => ⟨rfl, rfl, rfl⟩
  refine congrArg (State.setA _ s.cur) ?_
  simp [Arr.setTv, State.here]

theorem traps_town_tbusy (hex : exec i s = .next (runSlot (cgW g) (semTown g a b) s)) (h : s.readyC g [.s a] [.s a] = true)
    (hp : (s.here.sGet a).p = false) (hlt : (s.here.sGet a).v.toNat < s.here.ntiles)
    (hown : s.here.cpy.own.getLsbD (s.here.sGet a).v.toNat = true) : Traps i s (max 4 (2 + cgW g)) ⟨.tbusy, 1, 0, 0⟩ :=
  traps_of_cSem hex h (by rw [townTraps_of_clean hp, if_neg (Nat.not_le.mpr hlt), if_pos hown])

theorem traps_town_bounds (hex : exec i s = .next (runSlot (cgW g) (semTown g a b) s)) (h : s.readyC g [.s a] [.s a] = true)
    (hp : (s.here.sGet a).p = false) (hge : s.here.ntiles ≤ (s.here.sGet a).v.toNat) :
    Traps i s (max 4 (2 + cgW g)) ⟨.bounds, 1, 0xFF, 0⟩ :=
  traps_of_cSem hex h (by rw [townTraps_of_clean hp, if_pos hge])

end

/-- Settles O59: both kinds are one slot, whose check of the handle either finds nothing or raises one cause. -/
theorem tileOwnership : Obligations.TileOwnership := by
  unfold Obligations.TileOwnership
  intro s g a x e v h hp
  have hrel := exec_townRel g a s
  have hclm := exec_townClm g a s
  exact ⟨fun hlt hown => ⟨executes_town hrel h hp hlt hown, executes_town hclm h hp hlt hown⟩,
    fun hlt hown => ⟨traps_town_tbusy hrel h hp hlt hown, traps_town_tbusy hclm h hp hlt hown⟩,
    fun hge => ⟨traps_town_bounds hrel h hp hge, traps_town_bounds hclm h hp hge⟩⟩

end Sys2Proof.Machine
end
